-- ==== Sys2Proof/Word.lean ====
section
/-! DEFINITION. The byte and the bus address, the two bit-vector types of the block (spec/00_scope.md R12: a byte
has bit 7 as its most significant bit; all values are unsigned). Indices, lengths and counters are plain natural
numbers (R10, R169). -/

namespace Sys2Proof

/-- One byte, bit 7 the most significant (R12). -/
abbrev Byte := BitVec 8

/-- A 7-bit bus address (R29, R95). -/
abbrev Address := BitVec 7

/-- The low 8 bits of a natural number ("low 8 bits", R227; R12). -/
def low8 (n : Nat) : Byte := BitVec.ofNat 8 n

end Sys2Proof
end

