-- ==== Sys2Proof/Syntax.lean ====
section
/-! DEFINITION. What the block is told to do: the 27 named status symbols (spec/30_encoding.md R91), the host
operations and the three object forms (R97, R98), and `Instr`, one constructor per row of spec/opcode_table.json. -/

namespace Sys2Proof

/-- The 27 named status symbols, in the order of the table of R92 and of spec/opcode_table.json. The first column of
R91 marks 20 of them as recognised (`Status.recognised` in Decode.lean); the other seven are names only. -/
inductive Status where
  | busError | start | repStart
  | ctAddrAck | ctAddrNack | ctDataAck | ctDataNack | arbLost
  | crAddrAck | crAddrNack | crDataAck | crDataNack
  | trAddrAck | trArbLostAddrAck | trGcallAck | trArbLostGcallAck
  | trDataAck | trDataNack | trGcallDataAck | trGcallDataNack | trStop
  | ttAddrAck | ttArbLostAddrAck | ttDataAck | ttDataNack | ttLastData | noInfo
  deriving DecidableEq, Repr

/-- The three formats of R90. The format of a message is known from where it arrives (an event, the first byte after
a start, a call); no byte of the message says it. -/
inductive Format where
  | status | addrByte | hostOp
  deriving DecidableEq, Repr

/-- What user code computes with (log entry 6). A comparison gives 1 or 0, a subtraction below 0 gives 0, a division by 0
gives 0 and its remainder the dividend. -/
inductive UserOp where
  | add | sub | mul | div | mod | equal | less | bitAnd | bitOr | bitXor | shiftLeft | shiftRight
  deriving DecidableEq, Repr

/-- A value user code computes: from constants, its own variables, and what the last operation it called returned. -/
inductive UserExpr where
  | const (n : Nat)
  | var (x : Nat)
  | result
  | op (o : UserOp) (a b : UserExpr)
  deriving DecidableEq, Repr

/-- One thing user code in a callback may do (R41, R165): call an operation of the public surface, with arguments it
names or computes; read a byte through `ownedBuffer()`, at any index, or copy the first bytes; and change user state of
its own, which is its variables and the caller's memory. `input` takes a value from outside the block, so that two runs
of one body may differ. `write`, `read`, `handshake` and `configureAddress` are here because a body that calls them is
refused by name (R165, R199). -/
inductive Call where
  | configureAddress (address : Byte) (generalCallEnabled : Bool)
  | write (address : Byte) (data : List Byte) (length : Nat) (blocking : Bool)
  | read (address : Byte) (destination : Nat) (length : Nat)
  | transmit (data : List Byte) (length : Nat)
  | transmitComputed (data : List UserExpr) (length : UserExpr)
  | setOnRequest (callback : Nat)
  | setOnRequestComputed (callback : UserExpr)
  | setOnReceive (callback : Nat)
  | setOnReceiveComputed (callback : UserExpr)
  | lastError
  | ownedBuffer
  | addressForIdentity (id : Nat)
  | addressForIdentityComputed (id : UserExpr)
  | handshake
  | copyOwned (destination : Nat) (count : Nat)
  | loadOwned (x : Nat) (index : UserExpr)
  | load (x : Nat) (address : UserExpr)
  | store (address : UserExpr) (value : UserExpr)
  | assign (x : Nat) (value : UserExpr)
  | input (x : Nat)
  deriving DecidableEq, Repr

/-- The body of a user callback, "a terminating procedure" (R41, R165, D32): calls in sequence, a choice by a computed
value, a loop whose count is computed on entry. -/
inductive Body where
  | done
  | call (c : Call) (rest : Body)
  | choose (condition : UserExpr) (yes no rest : Body)
  | loop (times : UserExpr) (body rest : Body)
  deriving DecidableEq, Repr, Inhabited

/-- The instructions: a bus event (one status code), an address byte seen on the bus, or a host operation. The four
statuses that carry a received byte have it as their operand (R104, R67). -/
inductive Instr where
  -- STATUS rows (R91, R92)
  | busError
  | start
  | repStart
  | ctAddrAck
  | ctAddrNack
  | ctDataAck
  | ctDataNack
  | arbLost
  | crAddrAck
  | crAddrNack
  | crDataAck (latch : Byte)
  | crDataNack (latch : Byte)
  | trAddrAck
  | trArbLostAddrAck
  | trGcallAck
  | trArbLostGcallAck
  | trDataAck (latch : Byte)
  | trDataNack
  | trGcallDataAck (latch : Byte)
  | trGcallDataNack
  | trStop
  | ttAddrAck
  | ttArbLostAddrAck
  | ttDataAck
  | ttDataNack
  | ttLastData
  | noInfo
  | otherStatus (status : Byte)
  -- ADDRBYTE rows (R95)
  | addrByteWrite (address : Address)
  | addrByteRead (address : Address)
  -- HOSTOP rows (R97, R103, R129)
  | configureAddress (address : Byte) (generalCallEnabled : Bool)
  | write (address : Byte) (data : List Byte) (length : Nat) (blocking : Bool)
  | read (address : Byte) (destination : Nat) (length : Nat)
  | transmit (data : List Byte) (length : Nat)
  | setOnRequest (callback : Nat)
  | setOnReceive (callback : Nat)
  | lastError
  | ownedBuffer
  | addressForIdentity (id : Nat)
  | handshake
  | init
  -- PSEUDO rows (R98): an object is its byte image (R64)
  | writeObject (address : Byte) (obj : List Byte) (blocking : Bool)
  | readObject (address : Byte) (destination : Nat) (size : Nat)
  | transmitObject (obj : List Byte)
  deriving DecidableEq, Repr

end Sys2Proof
end

