-- ==== Sys2Proof/Config.lean ====
section
/-! DEFINITION. The parameters of spec/00_scope.md R4 to R11 as one record, held in the state, so that a statement
about every state holds for every value of every parameter; what makes their values legal; and the free values: the
OPEN parameters (R5, R6, R7) and the choices of the environment (R41, R135) for which a state holds no value. A free
value has no body: nothing can evaluate it. -/

namespace Sys2Proof

/-- `lastError`, the sum type of R9: no error, or the raw 8-bit status. -/
inductive LastError where
  | noError
  | code (c : Byte)
  deriving DecidableEq, Repr, Inhabited

/-- `IDLE_POLICY` (R6). -/
inductive IdlePolicy where
  | respin | abort
  deriving DecidableEq, Repr, Inhabited

/-- `HS_REACH_TEST` (R11). -/
inductive ReachTest where
  | ge | eq
  deriving DecidableEq, Repr

/-- `HS_OTHER_ERROR` (R11). -/
inductive OtherError where
  | fault | retrySame
  deriving DecidableEq, Repr

/-- What a second `transmit` in one `onRequest` run does: R188 gives both readings. -/
inductive SecondTransmit where
  | lastWins | refuse
  deriving DecidableEq, Repr

/-- What reading a register does that no rule has written since reset: `value` gives the value `State.reset` names,
`fault` gives R39's `UninitialisedRead`. The model's own parameter (log entry 3). -/
inductive ResetReads where
  | value | fault
  deriving DecidableEq, Repr

/-- One sample of the two lines, each true when high (R128). -/
structure Lines where
  clock : Bool
  data : Bool
  deriving DecidableEq, Repr, Inhabited

/-- The parameters of the block. -/
structure Config where
  /-- `CAP` (R4). -/
  cap : Nat
  /-- `T`, the idle threshold (R5). -/
  idleThreshold : Nat
  /-- `IDLE_POLICY` (R6). -/
  idlePolicy : IdlePolicy
  /-- `K` (R7). -/
  joiners : Nat
  /-- `OFFSET` (R7). -/
  offset : Nat
  /-- `MAX_ADDRESSES` (R7). -/
  maxAddresses : Nat
  /-- `STATUS_CODE` (R8): the code of each symbol, in the order of `Status`. -/
  statusCodes : List Byte
  /-- `IDX_WIDTH` (R10). -/
  idxWidth : Nat
  /-- `HS_REACH_TEST` (R11). -/
  reachTest : ReachTest
  /-- `HS_OTHER_ERROR` (R11). -/
  otherError : OtherError
  /-- The reading of R188 taken for a second `transmit`. -/
  secondTransmit : SecondTransmit
  /-- The model's own parameter (log entry 3). -/
  resetReads : ResetReads
  deriving DecidableEq, Repr

/-- The largest index value, `2^IDX_WIDTH - 1` (R10). -/
def Config.maxIndex (c : Config) : Nat := 2 ^ c.idxWidth - 1

/-- The legal values of the parameters: R4 (`1 <= CAP`, and `CAP` within the index width), R7 with R222 and D34, and
R8 (27 codes, no two alike). -/
abbrev Config.Legal (c : Config) : Prop :=
  (1 ≤ c.cap ∧ c.cap ≤ c.maxIndex) ∧
  (1 ≤ c.joiners ∧ c.joiners ≤ c.maxAddresses ∧ 1 ≤ c.offset ∧ c.offset + c.joiners ≤ 0x80) ∧
  (c.statusCodes.length = 27 ∧ c.statusCodes.Nodup)

/-- `T` of the machine after reset: OPEN in the source (R5, D13; log entry 2). -/
opaque Config.openIdleThreshold : Nat

/-- `IDLE_POLICY` of the machine after reset: OPEN in the source, "no default" (R6, D11; log entry 2). -/
opaque Config.openIdlePolicy : IdlePolicy

/-- The draw `OFFSET` of the machine after reset is made from (R7, D34; log entry 2). -/
opaque Config.openOffset : Nat

/-- The draw `K` of the machine after reset is made from (R7, D34; log entry 2). -/
opaque Config.openJoiners : Nat

/-- The draw `MAX_ADDRESSES` of the machine after reset is made from (R7, D34; log entry 2). -/
opaque Config.openSpareAddresses : Nat

/-- The `n`-th free sample of the lines, used when the state lists no further sample (R128, R135; log entry 5). -/
opaque Config.freeLines : Nat → Lines

/-- The `n`-th free answer of `stopComplete()`, used when the state lists no further answer (R125; log entry 5). -/
opaque Config.freeStopAnswer : Nat → Bool

/-- The `n`-th free result of `lastError()` before any rule wrote the field: "returns any value" (U13, R191; log
entry 4). -/
opaque Config.freeLastError : Nat → LastError

/-- The body of user callback `n` for which the state lists none: a parameter of the model (R41; log entry 6). -/
opaque Config.freeUserCode : Nat → Body

/-- The `n`-th free value that user code takes from outside the block, used when the state lists no further one (R41, log
entry 6). -/
opaque Config.freeInput : Nat → Nat

/-- The `n`-th free byte on the bus, read by a controller when no device drives the data line (R135: every latch value is
the environment's choice; log entry 13). -/
opaque Config.freeBusByte : Nat → Byte

/-- Whether an address byte 0 with the write direction reaches a device whose own address is 0 as a general call, when
both are enabled: "the source does not consider it" (R180; log entry 8). -/
opaque Config.freeZeroIsGeneralCall : Bool

end Sys2Proof
end

