-- ==== Sys2Proof/WellFormed.lean ====
section
/-! DEFINITION. Which instructions are well formed, that is, are an encoding or a call the spec admits as a term. A
call whose arguments break a precondition that the block itself answers (an address above 0x7F, a length above `CAP`)
is well formed: its answer is a refusal of the meaning (spec/42_transfer_api.md R181, R184). -/

namespace Sys2Proof

/-- The operands the model's own call encoding can carry: two bytes (log entry 9). -/
def fitsWord (n : Nat) : Bool := n < 65536

/-- A buffer argument is "a byte sequence of at least `length` bytes" (R181, R187). -/
def bufferOk (data : List Byte) (length : Nat) : Bool :=
  length ≤ data.length && fitsWord data.length

/-- The checks of each row, for the status table of `c`. -/
def Instr.wellFormed (c : Config) : Instr → Bool
  | .otherStatus b => !c.statusCodes.contains b
  | .write _ data length _ => bufferOk data length
  | .read _ destination length => fitsWord destination && fitsWord length
  | .transmit data length => bufferOk data length
  | .setOnRequest callback => fitsWord callback
  | .setOnReceive callback => fitsWord callback
  | .addressForIdentity id => fitsWord id
  -- "preconditions `sizeof(obj) >= 1` and, for write and transmit, `sizeof(obj) <= CAP`" (R98)
  | .writeObject _ obj _ => 1 ≤ obj.length && obj.length ≤ c.cap && fitsWord obj.length
  | .readObject _ destination size => 1 ≤ size && fitsWord size && fitsWord destination
  | .transmitObject obj => 1 ≤ obj.length && obj.length ≤ c.cap && fitsWord obj.length
  | .busError | .start | .repStart | .ctAddrAck | .ctAddrNack | .ctDataAck | .ctDataNack | .arbLost
  | .crAddrAck | .crAddrNack | .crDataAck _ | .crDataNack _ | .trAddrAck | .trArbLostAddrAck | .trGcallAck
  | .trArbLostGcallAck | .trDataAck _ | .trDataNack | .trGcallDataAck _ | .trGcallDataNack | .trStop
  | .ttAddrAck | .ttArbLostAddrAck | .ttDataAck | .ttDataNack | .ttLastData | .noInfo
  | .addrByteWrite _ | .addrByteRead _ | .configureAddress _ _ | .lastError | .ownedBuffer | .handshake
  | .init => true

end Sys2Proof
end

