-- ==== Sys2Proof/Decode.lean ====
section
/-! DEFINITION. From bytes to instructions and back (spec/30_encoding.md). `decode` reads one message of a given
format (R90) and is total; what it rejects it rejects by name. `encode` is written after it from the same tables. The
status codes are the parameter `STATUS_CODE` (R8); their default is the table of R92. The operand bytes of a host
operation are the model's own (R97: "it has no bit encoding in any source"; log entry 9). -/

namespace Sys2Proof

/-! ### The status table -/

/-- Every status symbol, in the order of R92's table. -/
def Status.all : List Status :=
  [.busError, .start, .repStart, .ctAddrAck, .ctAddrNack, .ctDataAck, .ctDataNack, .arbLost,
   .crAddrAck, .crAddrNack, .crDataAck, .crDataNack, .trAddrAck, .trArbLostAddrAck] ++
  [.trGcallAck, .trArbLostGcallAck, .trDataAck, .trDataNack, .trGcallDataAck, .trGcallDataNack, .trStop,
   .ttAddrAck, .ttArbLostAddrAck, .ttDataAck, .ttDataNack, .ttLastData, .noInfo]

/-- The place of a symbol in the order of R92's table. -/
def Status.index : Status → Nat
  | .busError => 0 | .start => 1 | .repStart => 2
  | .ctAddrAck => 3 | .ctAddrNack => 4 | .ctDataAck => 5 | .ctDataNack => 6 | .arbLost => 7
  | .crAddrAck => 8 | .crAddrNack => 9 | .crDataAck => 10 | .crDataNack => 11
  | .trAddrAck => 12 | .trArbLostAddrAck => 13 | .trGcallAck => 14 | .trArbLostGcallAck => 15
  | .trDataAck => 16 | .trDataNack => 17 | .trGcallDataAck => 18 | .trGcallDataNack => 19 | .trStop => 20
  | .ttAddrAck => 21 | .ttArbLostAddrAck => 22 | .ttDataAck => 23 | .ttDataNack => 24 | .ttLastData => 25
  | .noInfo => 26

/-- The default codes of R92, in that order. -/
def standardStatusCodes : List Byte :=
  [0x00, 0x08, 0x10, 0x18, 0x20, 0x28, 0x30, 0x38, 0x40, 0x48, 0x50, 0x58, 0x60, 0x68] ++
  [0x70, 0x78, 0x80, 0x88, 0x90, 0x98, 0xA0, 0xA8, 0xB0, 0xB8, 0xC0, 0xC8, 0xF8]

/-- `STATUS_CODE(x)` (R8). -/
def Config.code (c : Config) (x : Status) : Byte := c.statusCodes.getD x.index 0

/-- The symbol whose code is `b`, if there is one. -/
def Config.symbol? (c : Config) (b : Byte) : Option Status := Status.all.find? (fun x => c.code x == b)

/-- The 20 symbols with a Handler rule of their own (R91, R140); every other status takes R162. -/
def Status.recognised : Status → Bool
  | .ctAddrNack | .ctDataNack | .crAddrNack | .trDataNack | .trGcallDataNack | .noInfo | .busError => false
  | .start | .repStart | .ctAddrAck | .ctDataAck | .arbLost | .crAddrAck | .crDataAck | .crDataNack
  | .trAddrAck | .trArbLostAddrAck | .trGcallAck | .trArbLostGcallAck | .trDataAck | .trGcallDataAck | .trStop
  | .ttAddrAck | .ttArbLostAddrAck | .ttDataAck | .ttDataNack | .ttLastData => true

/-- The four statuses that carry a received byte (R67, R104). -/
def Status.carriesLatch : Status → Bool
  | .crDataAck | .crDataNack | .trDataAck | .trGcallDataAck => true
  | .busError | .start | .repStart | .ctAddrAck | .ctAddrNack | .ctDataAck | .ctDataNack | .arbLost
  | .crAddrAck | .crAddrNack | .trAddrAck | .trArbLostAddrAck | .trGcallAck | .trArbLostGcallAck
  | .trDataNack | .trGcallDataNack | .trStop | .ttAddrAck | .ttArbLostAddrAck | .ttDataAck | .ttDataNack
  | .ttLastData | .noInfo => false

/-- The six statuses that address this device as a target (R133). -/
def Status.addressesTarget : Status → Bool
  | .trAddrAck | .trArbLostAddrAck | .trGcallAck | .trArbLostGcallAck | .ttAddrAck | .ttArbLostAddrAck => true
  | .busError | .start | .repStart | .ctAddrAck | .ctAddrNack | .ctDataAck | .ctDataNack | .arbLost
  | .crAddrAck | .crAddrNack | .crDataAck | .crDataNack | .trDataAck | .trDataNack | .trGcallDataAck
  | .trGcallDataNack | .trStop | .ttDataAck | .ttDataNack | .ttLastData | .noInfo => false

/-- The instruction of a status symbol; `latch` is the byte that came with it, where the status carries one. -/
def Status.instr (x : Status) (latch : Byte) : Instr :=
  match x with
  | .busError => .busError | .start => .start | .repStart => .repStart
  | .ctAddrAck => .ctAddrAck | .ctAddrNack => .ctAddrNack | .ctDataAck => .ctDataAck | .ctDataNack => .ctDataNack
  | .arbLost => .arbLost | .crAddrAck => .crAddrAck | .crAddrNack => .crAddrNack
  | .crDataAck => .crDataAck latch | .crDataNack => .crDataNack latch
  | .trAddrAck => .trAddrAck | .trArbLostAddrAck => .trArbLostAddrAck
  | .trGcallAck => .trGcallAck | .trArbLostGcallAck => .trArbLostGcallAck
  | .trDataAck => .trDataAck latch | .trDataNack => .trDataNack
  | .trGcallDataAck => .trGcallDataAck latch | .trGcallDataNack => .trGcallDataNack | .trStop => .trStop
  | .ttAddrAck => .ttAddrAck | .ttArbLostAddrAck => .ttArbLostAddrAck | .ttDataAck => .ttDataAck
  | .ttDataNack => .ttDataNack | .ttLastData => .ttLastData | .noInfo => .noInfo

/-! ### The parameters of the machine after reset -/

/-- `OFFSET` after reset: some value from 1 to 127, which one is not known. -/
def resetOffset : Nat := 1 + Config.openOffset % 127

/-- `K` after reset: some value at least 1 that keeps `OFFSET + K - 1` within 7 bits, which one is not known. -/
def resetJoiners : Nat := 1 + Config.openJoiners % (128 - resetOffset)

/-- The parameters of the machine after reset: the defaults R4, R8, R10, R11 and R188 name; for the OPEN ones a free
value (log entry 2). -/
def resetConfig : Config where
  cap := 32
  idleThreshold := Config.openIdleThreshold
  idlePolicy := Config.openIdlePolicy
  joiners := resetJoiners
  offset := resetOffset
  maxAddresses := resetJoiners + Config.openSpareAddresses
  statusCodes := standardStatusCodes
  idxWidth := 8
  reachTest := .ge
  otherError := .fault
  secondTransmit := .lastWins
  resetReads := .value

/-! ### Decoding -/

/-- Why a message is no instruction. -/
inductive DecodeError where
  /-- The message ends before the instruction does. -/
  | truncated
  /-- No host operation has this number (R103: 0 to 10). -/
  | unknownOperation (op : Byte)
  /-- A boolean operand byte other than 0 and 1 (log entry 9). -/
  | badBoolean (b : Byte)
  /-- A buffer shorter than the length that goes with it (R181, R187). -/
  | shortData (length available : Nat)
  deriving DecidableEq, Repr

/-- What remains to be read, with the part just read. -/
abbrev Parsed (α : Type) := Except DecodeError (α × List Byte)

/-- Read on after a part that was read; a rejection stays. -/
def parseThen {α β : Type} (p : Parsed α) (k : α → List Byte → Parsed β) : Parsed β :=
  match p with
  | .ok (a, rest) => k a rest
  | .error e => .error e

def takeByte : List Byte → Parsed Byte
  | b :: rest => .ok (b, rest)
  | [] => .error .truncated

def takeBool : List Byte → Parsed Bool
  | b :: rest => if b = 0 then .ok (false, rest) else if b = 1 then .ok (true, rest) else .error (.badBoolean b)
  | [] => .error .truncated

/-- Two bytes, the low one first (log entry 9). -/
def takeWord : List Byte → Parsed Nat
  | lo :: hi :: rest => .ok (lo.toNat + 256 * hi.toNat, rest)
  | _ => .error .truncated

def takeBytes : Nat → List Byte → Parsed (List Byte)
  | 0, bytes => .ok ([], bytes)
  | n + 1, b :: bytes => parseThen (takeBytes n bytes) fun data rest => .ok (b :: data, rest)
  | _ + 1, [] => .error .truncated

/-- A length and a buffer: the length, the buffer's own size, the buffer's bytes. -/
def takeBuffer (bytes : List Byte) : Parsed (List Byte × Nat) :=
  parseThen (takeWord bytes) fun length rest =>
  parseThen (takeWord rest) fun size rest =>
  parseThen (takeBytes size rest) fun data rest =>
  if length ≤ data.length then .ok ((data, length), rest) else .error (.shortData length data.length)

/-- A status byte, followed by the received byte where the status carries one (R90, R104). The whole byte is the
opcode (R90), and a byte that is no symbol's code is `OTHER_STATUS` (R99). -/
def decodeStatus (c : Config) : List Byte → Parsed Instr
  | [] => .error .truncated
  | b :: rest =>
    match c.symbol? b with
    | none => .ok (.otherStatus b, rest)
    | some x =>
      if x.carriesLatch then
        match rest with
        | latch :: rest => .ok (x.instr latch, rest)
        | [] => .error .truncated
      else .ok (x.instr 0, rest)

/-- The address+direction byte: address in bits 7:1, direction in bit 0, 1 for read (R95). -/
def decodeAddrByte : List Byte → Parsed Instr
  | [] => .error .truncated
  | b :: rest =>
    let address : Address := b.extractLsb' 1 7
    if b.getLsbD 0 then .ok (.addrByteRead address, rest) else .ok (.addrByteWrite address, rest)

/-- A call: the operation number of R103 in one byte, then the operands (log entry 9). -/
def decodeHostOp : List Byte → Parsed Instr
  | [] => .error .truncated
  | op :: rest =>
    match op.toNat with
    | 0 =>
      parseThen (takeByte rest) fun address rest =>
      parseThen (takeBool rest) fun enabled rest =>
      .ok (.configureAddress address enabled, rest)
    | 1 =>
      parseThen (takeByte rest) fun address rest =>
      parseThen (takeBool rest) fun blocking rest =>
      parseThen (takeBuffer rest) fun (data, length) rest =>
      .ok (.write address data length blocking, rest)
    | 2 =>
      parseThen (takeByte rest) fun address rest =>
      parseThen (takeWord rest) fun destination rest =>
      parseThen (takeWord rest) fun length rest =>
      .ok (.read address destination length, rest)
    | 3 =>
      parseThen (takeBuffer rest) fun (data, length) rest =>
      .ok (.transmit data length, rest)
    | 4 =>
      parseThen (takeWord rest) fun callback rest =>
      .ok (.setOnRequest callback, rest)
    | 5 =>
      parseThen (takeWord rest) fun callback rest =>
      .ok (.setOnReceive callback, rest)
    | 6 => .ok (.lastError, rest)
    | 7 => .ok (.ownedBuffer, rest)
    | 8 =>
      parseThen (takeWord rest) fun id rest =>
      .ok (.addressForIdentity id, rest)
    | 9 => .ok (.handshake, rest)
    | 10 => .ok (.init, rest)
    | _ => .error (.unknownOperation op)

/-- One message of format `f`: the instruction and the bytes after it, or why there is none. -/
def decode (c : Config) (f : Format) (bytes : List Byte) : Parsed Instr :=
  match f with
  | .status => decodeStatus c bytes
  | .addrByte => decodeAddrByte bytes
  | .hostOp => decodeHostOp bytes

/-! ### Encoding -/

/-- `addrByte(address, dir) = (address[6:0] ++ dir)` (R95). -/
def addrByte (address : Address) (dir : Bool) : Byte := address ++ BitVec.ofBool dir

def boolByte (b : Bool) : Byte := if b then 1 else 0

/-- Two bytes, the low one first (log entry 9). -/
def wordBytes (n : Nat) : List Byte := [low8 n, low8 (n / 256)]

/-- A length and a buffer, as `takeBuffer` reads them. -/
def bufferBytes (data : List Byte) (length : Nat) : List Byte := wordBytes length ++ wordBytes data.length ++ data

/-- The format of each row (the "format" column of spec/opcode_table.json; an object form is a call, R98). -/
def Instr.format : Instr → Format
  | .busError | .start | .repStart | .ctAddrAck | .ctAddrNack | .ctDataAck | .ctDataNack | .arbLost
  | .crAddrAck | .crAddrNack | .crDataAck _ | .crDataNack _ | .trAddrAck | .trArbLostAddrAck | .trGcallAck
  | .trArbLostGcallAck | .trDataAck _ | .trDataNack | .trGcallDataAck _ | .trGcallDataNack | .trStop
  | .ttAddrAck | .ttArbLostAddrAck | .ttDataAck | .ttDataNack | .ttLastData | .noInfo
  | .otherStatus _ => .status
  | .addrByteWrite _ | .addrByteRead _ => .addrByte
  | .configureAddress _ _ | .write _ _ _ _ | .read _ _ _ | .transmit _ _ | .setOnRequest _ | .setOnReceive _
  | .lastError | .ownedBuffer | .addressForIdentity _ | .handshake | .init
  | .writeObject _ _ _ | .readObject _ _ _ | .transmitObject _ => .hostOp

/-- The operation an object form stands for (R98); every other instruction is itself. -/
def Instr.expand : Instr → Instr
  | .writeObject address obj blocking => .write address obj obj.length blocking
  | .readObject address destination size => .read address destination size
  | .transmitObject obj => .transmit obj obj.length
  | i => i

/-- The bytes of an instruction, under the status codes of `c`. -/
def encode (c : Config) : Instr → List Byte
  | .busError => [c.code .busError]
  | .start => [c.code .start]
  | .repStart => [c.code .repStart]
  | .ctAddrAck => [c.code .ctAddrAck]
  | .ctAddrNack => [c.code .ctAddrNack]
  | .ctDataAck => [c.code .ctDataAck]
  | .ctDataNack => [c.code .ctDataNack]
  | .arbLost => [c.code .arbLost]
  | .crAddrAck => [c.code .crAddrAck]
  | .crAddrNack => [c.code .crAddrNack]
  | .crDataAck latch => [c.code .crDataAck, latch]
  | .crDataNack latch => [c.code .crDataNack, latch]
  | .trAddrAck => [c.code .trAddrAck]
  | .trArbLostAddrAck => [c.code .trArbLostAddrAck]
  | .trGcallAck => [c.code .trGcallAck]
  | .trArbLostGcallAck => [c.code .trArbLostGcallAck]
  | .trDataAck latch => [c.code .trDataAck, latch]
  | .trDataNack => [c.code .trDataNack]
  | .trGcallDataAck latch => [c.code .trGcallDataAck, latch]
  | .trGcallDataNack => [c.code .trGcallDataNack]
  | .trStop => [c.code .trStop]
  | .ttAddrAck => [c.code .ttAddrAck]
  | .ttArbLostAddrAck => [c.code .ttArbLostAddrAck]
  | .ttDataAck => [c.code .ttDataAck]
  | .ttDataNack => [c.code .ttDataNack]
  | .ttLastData => [c.code .ttLastData]
  | .noInfo => [c.code .noInfo]
  | .otherStatus b => [b]
  | .addrByteWrite address => [addrByte address false]
  | .addrByteRead address => [addrByte address true]
  | .configureAddress address enabled => [0, address, boolByte enabled]
  | .write address data length blocking => [1, address, boolByte blocking] ++ bufferBytes data length
  | .read address destination length => [2, address] ++ wordBytes destination ++ wordBytes length
  | .transmit data length => [3] ++ bufferBytes data length
  | .setOnRequest callback => [4] ++ wordBytes callback
  | .setOnReceive callback => [5] ++ wordBytes callback
  | .lastError => [6]
  | .ownedBuffer => [7]
  | .addressForIdentity id => [8] ++ wordBytes id
  | .handshake => [9]
  | .init => [10]
  -- "encodes as the operation it expands to" (spec/opcode_table.json, R98)
  | .writeObject address obj blocking => [1, address, boolByte blocking] ++ bufferBytes obj obj.length
  | .readObject address destination size => [2, address] ++ wordBytes destination ++ wordBytes size
  | .transmitObject obj => [3] ++ bufferBytes obj obj.length

/-! ### The opcode table's numbering -/

/-- The bytes of a table word: byte `k` is bits `8k+7..8k` of `w`; the bits at and above `nbits` are zero. -/
def tableBytes (nbits w : Nat) : List Byte :=
  (List.range (max 8 (nbits / 8))).map (fun k => low8 (w % 2 ^ nbits / 256 ^ k))

/-- The format a bare table word is read under. The rows of the three formats share their numbers, and the machine
knows a message's format from where it arrives (R90); a bare word says nothing of that, so it is read by the most
specific row: a row of 4 bits is a call; a code of R92's table is that status (mask 0xFF); a number 0 to 10 that is no
code is the call with that number (mask 0xF); any other byte is the default row `OTHER_STATUS` (log entry 10). -/
def tableFormat (nbits w : Nat) : Format :=
  let first := low8 (w % 2 ^ nbits)
  if nbits ≤ 4 then .hostOp
  else if (resetConfig.symbol? first).isSome then .status
  else if first.toNat ≤ 10 then .hostOp
  else .status

/-- What the decoder reads from a table word. -/
def decodeTableWord (nbits w : Nat) : Option Instr :=
  match decode resetConfig (tableFormat nbits w) (tableBytes nbits w) with
  | .ok (i, _) => some i
  | .error _ => none

end Sys2Proof
end

