-- ==== Sys2Proof/Machine/State.lean ====
section
/-! DEFINITION. Everything the spec gives one device, as plain data: the TransferContext (spec/10_state.md R20 to
R28), the control and configuration state (R29, R33), the handshake counter (R30), the control points of Host and
Handler (R31, R32), the caller's memory (R61), what the adapter holds (R34) and what the environment is about to do
(R41: the bus traffic, the line samples, the stop-complete answers, the calls of ordinary code); the reasons a step can
stop (spec/60_exceptions.md R256); and the state after reset (R39). -/

namespace Sys2Proof.Machine

/-- A byte memory: the bytes that have been written, by strictly rising address. A byte that nothing has written is
not listed and has no value (log entry 7). -/
abbrev Memory := List Host.Cell

/-- The canonical form: addresses strictly rise. No entry can equal what an unlisted address reads as, since an
unlisted address has no value. -/
abbrev Memory.wf (m : Memory) : Prop := m.Pairwise (fun x y => x.1 < y.1)

/-- The variables of user code that are not 0, by strictly rising number; a variable not listed is 0 (log entry 6). -/
abbrev Variables := List (Nat × Nat)

/-- The canonical form: the numbers strictly rise and no variable listed is 0. -/
abbrev Variables.wf (m : Variables) : Prop := m.Pairwise (fun x y => x.1 < y.1) ∧ ∀ cell ∈ m, cell.2 ≠ 0

/-- What `rxTarget` names: the caller's region that begins at an address, or the one-byte `dummy` of the handshake's
probes (R22, R61, R223 H1). -/
inductive Region where
  | caller (base : Nat)
  | dummy
  deriving DecidableEq, Repr

/-- `rxTarget`, "address + declared capacity" (R22). -/
structure RxTarget where
  base : Region
  cap : Nat
  deriving DecidableEq, Repr

/-- "a reference to user code" (R28), or one of the handshake's own callbacks (R227, R228). -/
inductive CallbackRef where
  | user (n : Nat)
  | hsOnRequest
  | hsOnReceive
  deriving DecidableEq, Repr

/-- The two callback slots. -/
inductive Slot where
  | onRequest | onReceive
  deriving DecidableEq, Repr

/-- The TransferContext (R20). -/
structure TransferContext where
  /-- `txBuffer` (R21): the bytes written so far, by index below `CAP`. -/
  txBuffer : Memory
  /-- `rxTarget` (R22). -/
  rxTarget : RxTarget
  /-- `cursor` (R23). -/
  cursor : Nat
  /-- `length` (R24). -/
  length : Nat
  /-- `busy` (R25). -/
  busy : Bool
  /-- `addressAndDirection` (R26). -/
  addressAndDirection : Byte
  /-- `lastError` (R27). -/
  lastError : LastError
  /-- `onRequest` (R28). -/
  onRequest : Option CallbackRef
  /-- `onReceive` (R28). -/
  onReceive : Option CallbackRef
  deriving DecidableEq, Repr

/-- The fields R39 calls unspecified at reset; and a byte of the caller's memory, which user code may read (log entry
7). -/
inductive Field where
  | rxTarget | cursor | length | addressAndDirection | lastError | hsCounter
  | txByte (i : Nat)
  | memoryByte (a : Nat)
  deriving DecidableEq, Repr

/-- Which of the registers R39 calls unspecified at reset some rule has written since (a byte of `txBuffer` that has
been written is listed in it). -/
structure Written where
  rxTarget : Bool
  cursor : Bool
  length : Bool
  addressAndDirection : Bool
  lastError : Bool
  hsCounter : Bool
  deriving DecidableEq, Repr

/-- Control and configuration state, and the handshake's counter. -/
structure Control where
  /-- `ownAddress` (R29). -/
  ownAddress : Option Address
  /-- `generalCallEnable` (R29). -/
  generalCallEnable : Bool
  /-- `initialised` (R33). -/
  initialised : Bool
  /-- `hsCounter` (R30). -/
  hsCounter : Nat
  deriving DecidableEq, Repr

/-- The arguments of a `write` in progress (R181). -/
structure WriteCall where
  address : Byte
  data : List Byte
  length : Nat
  blocking : Bool
  deriving DecidableEq, Repr

/-- The arguments of a `read` in progress (R184). -/
structure ReadCall where
  address : Byte
  destination : Region
  length : Nat
  deriving DecidableEq, Repr

/-- What resumes when a `read` returns: the ordinary code that called it, or the handshake at candidate `i` (R223). -/
inductive Caller where
  | user
  | handshake (i : Nat)
  deriving DecidableEq, Repr

/-- The micro-steps of `write` after W0 (R182). `w7` is the idle confirmation with its counter; the two `w7Abort`
points are the two field updates of R195. -/
inductive WriteAt where
  | w1 | w2 (j : Nat) | w3Length | w3Cursor | w4 | w5 | w6
  | w7 (c : Nat) | w7AbortError | w7AbortBusy | w8 | w9
  deriving DecidableEq, Repr

/-- The micro-steps of `read` after RD0 (R185). -/
inductive ReadAt where
  | rd1 | rd2 | rd3Length | rd3Cursor | rd4 | rd5 | rd6
  | rd7 (c : Nat) | rd7AbortError | rd7AbortBusy | rd8 | rd9
  deriving DecidableEq, Repr

/-- The micro-steps of `handshake` at a candidate, after its probe has returned (R223). `h4Own` and `h4Call` are C1 and
C2 of the `configureAddress` of H4. -/
inductive HandshakeAt where
  | h2 | h3 (e : LastError) | h4Own | h4Call | h5 | h6 | h7
  deriving DecidableEq, Repr

/-- `phase`, the control point of Host (R31). `hsLoop left` is the head of the handshake's loop with `left` candidates
still to try, so the next candidate is `left - 1`. -/
inductive Phase where
  | idle
  | configure (generalCallEnabled : Bool)
  | write (w : WriteCall) (pt : WriteAt)
  | read (r : ReadCall) (pt : ReadAt) (caller : Caller)
  | hsLoop (left : Nat)
  | handshake (i : Nat) (pt : HandshakeAt)
  deriving DecidableEq, Repr

/-- What an operation returned (R97). -/
inductive Result where
  | nothing
  | error (e : LastError)
  | buffer
  | address (a : Nat)
  | identity (i : Nat)
  | alreadyComplete
  deriving DecidableEq, Repr

/-- The control points of Host and Handler. -/
structure Execution where
  /-- `phase` (R31). -/
  phase : Phase
  /-- `inHandler` (R32). -/
  inHandler : Bool
  /-- The Handler is in the stop-complete wait of R162. -/
  stopWait : Bool
  /-- The Handler is inside the `onRequest` call of R157 or R158 (R187). -/
  requestRun : Bool
  /-- `transmit` has been called in that run (R157, R188). -/
  transmitCalled : Bool
  /-- What the last operation of ordinary code returned (R97). -/
  result : Result
  /-- What the last operation a callback called returned (R97, R165). -/
  callbackResult : Result
  deriving DecidableEq, Repr

/-- The three replies, the last bus command of a Handler run (R96, R141). -/
inductive Reply where
  | ack | nack | stop
  deriving DecidableEq, Repr

/-- The commands a trace shows (R104). -/
inductive Action where
  | writeLatch (b : Byte)
  | ack
  | nack
  | stop
  | stopWait
  | arm (b : Byte)
  | lines (l : Lines)
  | callOnRequest
  | callOnReceive
  deriving DecidableEq, Repr

/-- What the adapter holds (R34), with the action list of all runs so far, oldest first (R13). -/
structure Adapter where
  /-- The data latch (R34, R62). -/
  dataLatch : Byte
  /-- A stop has been requested and not yet been seen complete (R34, R124, R125). After a stop that no run waits for it
  stays until the next stop is seen complete (log entry 31). -/
  stopPending : Bool
  /-- The event that waits for the Handler: status byte, then the received byte if there is one (R34, R257). -/
  pendingEvent : Option (List Byte)
  /-- `armController` has been called and its start has not been handled yet (R121, R134). -/
  armed : Bool
  /-- The raw status of the last event handled (R134, first column). -/
  lastEvent : Option Byte
  /-- The reply of that run (R134, second column). -/
  lastReply : Option Reply
  /-- All commands emitted (R13, R104). -/
  actions : List Action
  deriving DecidableEq, Repr

/-- Where a piece of bus traffic reaches the device: as an event the adapter reports, or as an address byte on the
bus. -/
inductive BusPort where
  | event | address
  deriving DecidableEq, Repr

/-- A piece of bus traffic: it arrives when Host has taken `delay` more turns. -/
structure Arrival where
  delay : Nat
  port : BusPort
  bytes : List Byte
  deriving DecidableEq, Repr

/-- The environment's choices (R41, R135), each list the next choice first. -/
structure Environment where
  /-- The bus traffic to come (R132: in arrival order). -/
  arrivals : List Arrival
  /-- The calls ordinary code will make, encoded. -/
  calls : List (List Byte)
  /-- The samples `observeLines()` will return (R128). -/
  lines : List Lines
  /-- The answers `stopComplete()` will give (R125). -/
  stops : List Bool
  /-- The values user code will take from outside the block (log entry 6). -/
  inputs : List Nat
  /-- How many free values have been drawn: the model's own counter (log entry 5). -/
  draws : Nat
  deriving DecidableEq, Repr

/-- One device. -/
structure State where
  /-- The parameters (R4 to R11). -/
  cfg : Config
  /-- The bodies of the user callbacks (R41). -/
  userCode : List (Nat × Body)
  /-- The variables of user code, "user state of their own" (R165). -/
  vars : Variables
  ctx : TransferContext
  written : Written
  control : Control
  run : Execution
  /-- The caller's memory (R61). -/
  memory : Memory
  /-- The handshake's `dummy` byte (R223 H1). -/
  dummy : Byte
  adapter : Adapter
  env : Environment
  deriving DecidableEq, Repr

/-- Model faults (R256): the run stops in a state that is not final. Each is safe: the model says nothing of what
follows. -/
inductive Fault where
  /-- R144, R145, R148, R157, R158, R159: an event would advance `cursor` past `length`. Safe. -/
  | cursorOverrun (cursor length : Nat)
  /-- R154, R155: a byte arrives with `cursor >= CAP`. Safe. -/
  | targetReceiveOverrun (cursor : Nat)
  /-- R77: an index of `txBuffer` at or above `CAP`. Safe. -/
  | txIndexOutOfRange (i : Nat)
  /-- R77: an index of `rxTarget` at or above its capacity. Safe. -/
  | rxIndexOutOfRange (i : Nat)
  /-- R165 (from R156, R157, R158): the slot is empty. Safe. -/
  | nullCallback (slot : Slot)
  /-- R157, R158: `onRequest` returned without calling `transmit`. Safe. -/
  | transmitNotCalled
  /-- R39: a byte of `txBuffer` is read that nothing has written, or, under `ResetReads.fault`, a register; user code
  reads a byte of its own memory that nothing has written (log entry 7). Safe. -/
  | uninitialisedRead (field : Field)
  /-- R227: `hsCounter` would pass `2^IDX_WIDTH - 1`. Safe. -/
  | counterOverflow
  /-- R226: a probe ends with a code other than the three handled. Safe. -/
  | handshakeUnexpectedError (e : Byte)
  deriving DecidableEq, Repr

/-- Refusals (R256): the call or message is outside the admitted subset. Each is safe: nothing is claimed of a machine
that goes on. -/
inductive Refusal where
  /-- exec: an instruction that has no meaning yet. Safe. -/
  | notModelled (mnemonic : String)
  /-- Every operation before `init()` (R129, R199). Safe. -/
  | notInitialised
  /-- R181, R187: `n > CAP`. Safe. -/
  | lengthExceedsCapacity
  /-- R184: `n > 2^IDX_WIDTH - 1`. Safe. -/
  | lengthOutOfRange
  /-- R187: `n = 0`. Safe. -/
  | zeroLengthTransmit
  /-- R180, R181, R184: `address > 0x7F`. Safe. -/
  | addressOutOfRange
  /-- R193: `id >= K`. Safe. -/
  | identityOutOfRange
  /-- R187: not inside an `onRequest` run. Safe. -/
  | transmitOutsideRequest
  /-- R188, the strict reading. Safe. -/
  | transmitCalledTwice
  /-- R165, R181, R184, R223: `write`, `read`, `handshake` from a callback. Safe. -/
  | blockingCallInHandler
  /-- R199: `configureAddress` from a callback. Safe. -/
  | configureInHandler
  /-- R181, R187: a buffer argument shorter than its length, which the operand rule excludes. Safe. -/
  | bufferTooShort
  /-- R199: an operation called while another is in progress ("Host runs one operation at a time"). Safe. -/
  | hostBusy
  /-- R130, R258: an event handed to the Handler while events are masked or not yet enabled. Safe. -/
  | eventMasked
  /-- R258: an address byte while an event waits or a transfer of this device is on the wire, when the bus cannot
  carry one. Safe. -/
  | busHeld
  /-- step: the message is no instruction (R103 and log entry 9). Safe. -/
  | undecodable (e : DecodeError)
  deriving DecidableEq, Repr

/-- The machine right after reset (R39, R290). Where R39 says unspecified the value is the one log entry 1 names;
`memory` and `txBuffer` list nothing (log entry 7); the environment has chosen nothing yet. -/
def State.reset : State where
  cfg := resetConfig
  userCode := []
  vars := []
  ctx :=
    { txBuffer := [], rxTarget := ⟨.caller 0, 0⟩, cursor := 0, length := 0, busy := false,
      addressAndDirection := 0, lastError := .code 0, onRequest := none, onReceive := none }
  written :=
    { rxTarget := false, cursor := false, length := false, addressAndDirection := false, lastError := false,
      hsCounter := false }
  control := { ownAddress := none, generalCallEnable := false, initialised := false, hsCounter := 0 }
  run :=
    { phase := .idle, inHandler := false, stopWait := false, requestRun := false, transmitCalled := false,
      result := .nothing, callbackResult := .nothing }
  memory := []
  dummy := 0
  adapter :=
    { dataLatch := 0, stopPending := false, pendingEvent := none, armed := false, lastEvent := none,
      lastReply := none, actions := [] }
  env := { arrivals := [], calls := [], lines := [], stops := [], inputs := [], draws := 0 }

end Sys2Proof.Machine
end

