-- ==== Sys2Proof/Machine/Ops.lean ====
section
/-! DEFINITION. The named operations every meaning is written from: byte memory, the fields of the state each with its
one writer, the adapter primitives (spec/40_adapter_primitives.md), the environment's answers, the interrupt entry and
return (spec/60_exceptions.md R260, R261), the entry of a host operation (spec/42_transfer_api.md R199). -/

namespace Sys2Proof.Machine

/-- What a meaning answers. -/
abbrev Out := Host.Outcome State Fault Refusal

/-- Run `k` on the state `o` answers; a stop stays a stop. -/
def andThen (o : Out) (k : State → Out) : Out :=
  match o with
  | .next s => k s
  | .fault f => .fault f
  | .refused r => .refused r

/-! ### Byte memory -/

/-- The byte at `a`; none if nothing has written it. -/
def Memory.read : Memory → Nat → Option Byte
  | [], _ => none
  | (k, v) :: m, a => if a = k then some v else Memory.read m a

/-- Store `v` at `a`, keeping the addresses in rising order. -/
def Memory.write : Memory → Nat → Byte → Memory
  | [], a, v => [(a, v)]
  | (k, w) :: m, a, v =>
    if a < k then (a, v) :: (k, w) :: m
    else if a = k then (a, v) :: m
    else (k, w) :: Memory.write m a v

/-! ### The variables of user code -/

/-- The value of variable `x`. -/
def Variables.read : Variables → Nat → Nat
  | [], _ => 0
  | (k, v) :: m, x => if x = k then v else Variables.read m x

/-- The variables without `x`, which is then 0. -/
def Variables.without (m : Variables) (x : Nat) : Variables := m.filter fun c => c.1 != x

/-- Give variable `x` the value `v`, not 0, keeping the numbers in rising order. -/
def Variables.put : Variables → Nat → Nat → Variables
  | [], x, v => [(x, v)]
  | (k, w) :: m, x, v =>
    if x < k then (x, v) :: (k, w) :: m
    else if x = k then (x, v) :: m
    else (k, w) :: Variables.put m x v

/-- Give variable `x` the value `v`. -/
def Variables.write (m : Variables) (x v : Nat) : Variables := if v = 0 then m.without x else m.put x v

/-! ### The writers of the TransferContext -/

/-- `ctx.cursor <- n`. -/
def State.setCursor (s : State) (n : Nat) : State :=
  { s with ctx := { s.ctx with cursor := n }, written := { s.written with cursor := true } }

/-- `ctx.length <- n`. -/
def State.setLength (s : State) (n : Nat) : State :=
  { s with ctx := { s.ctx with length := n }, written := { s.written with length := true } }

/-- `ctx.busy <- b`. -/
def State.setBusy (s : State) (b : Bool) : State := { s with ctx := { s.ctx with busy := b } }

/-- `ctx.addressAndDirection <- b`. -/
def State.setAddress (s : State) (b : Byte) : State :=
  { s with ctx := { s.ctx with addressAndDirection := b }
           written := { s.written with addressAndDirection := true } }

/-- `ctx.lastError <- e`. -/
def State.setLastError (s : State) (e : LastError) : State :=
  { s with ctx := { s.ctx with lastError := e }, written := { s.written with lastError := true } }

/-- `ctx.rxTarget <- rx`. -/
def State.setRxTarget (s : State) (rx : RxTarget) : State :=
  { s with ctx := { s.ctx with rxTarget := rx }, written := { s.written with rxTarget := true } }

/-- `onRequest <- callback` (R189). -/
def State.setOnRequest (s : State) (callback : CallbackRef) : State :=
  { s with ctx := { s.ctx with onRequest := some callback } }

/-- `onReceive <- callback` (R190). -/
def State.setOnReceive (s : State) (callback : CallbackRef) : State :=
  { s with ctx := { s.ctx with onReceive := some callback } }

/-- The bytes of `txBuffer`. -/
def State.setTxBuffer (s : State) (m : Memory) : State := { s with ctx := { s.ctx with txBuffer := m } }

/-! ### The writers of the control state -/

/-- `ownAddress <- a` (R180 C1). -/
def State.setOwnAddress (s : State) (a : Address) : State :=
  { s with control := { s.control with ownAddress := some a } }

/-- `generalCallEnable <- b` (R180 C2). -/
def State.setGeneralCall (s : State) (b : Bool) : State :=
  { s with control := { s.control with generalCallEnable := b } }

/-- `initialised <- true` (R129). -/
def State.setInitialised (s : State) : State := { s with control := { s.control with initialised := true } }

/-- `hsCounter <- n` (R223 H0, R227). -/
def State.setHsCounter (s : State) (n : Nat) : State :=
  { s with control := { s.control with hsCounter := n }, written := { s.written with hsCounter := true } }

/-! ### The writers of the control points -/

/-- `phase <- p`. -/
def State.goto (s : State) (p : Phase) : State := { s with run := { s.run with phase := p } }

/-- What an operation that takes one micro-step returns, to the ordinary code or to the callback that called it. -/
def State.answer (s : State) (r : Result) : State :=
  if s.run.inHandler then { s with run := { s.run with callbackResult := r } }
  else { s with run := { s.run with result := r } }

/-- An operation in progress returns to ordinary code. -/
def State.finish (s : State) (r : Result) : State :=
  { s with run := { s.run with phase := .idle, result := r } }

/-- Enter the `onRequest` call of R157 and R158. -/
def State.beginRequest (s : State) : State :=
  { s with run := { s.run with requestRun := true, transmitCalled := false } }

/-- Leave the `onRequest` call. -/
def State.endRequest (s : State) : State :=
  { s with run := { s.run with requestRun := false, transmitCalled := false } }

/-- `transmit` has been called in this `onRequest` run. -/
def State.noteTransmit (s : State) : State := { s with run := { s.run with transmitCalled := true } }

/-! ### The writers of user state -/

/-- Variable `x` of user code becomes `v` (R165). -/
def State.setVariable (s : State) (x v : Nat) : State := { s with vars := s.vars.write x v }

/-- User code stores a byte in the caller's memory (R165), at any address: also in the region of a `read` still in progress,
which is the model's choice (R61, R300; log entry 33). -/
def State.setMemoryByte (s : State) (a : Nat) (v : Byte) : State := { s with memory := s.memory.write a v }

/-! ### Registers that R39 leaves unspecified at reset -/

/-- Some rule has written the register since reset. -/
def State.wasWritten (s : State) : Field → Bool
  | .rxTarget => s.written.rxTarget
  | .cursor => s.written.cursor
  | .length => s.written.length
  | .addressAndDirection => s.written.addressAndDirection
  | .lastError => s.written.lastError
  | .hsCounter => s.written.hsCounter
  | .txByte i => (s.ctx.txBuffer.read i).isSome
  | .memoryByte a => (s.memory.read a).isSome

/-- The register may be read: it has been written, or the parameter says that the value at reset counts (log entry
3). -/
def State.readable (s : State) (f : Field) : Bool :=
  match s.cfg.resetReads with
  | .value => true
  | .fault => s.wasWritten f

/-- Go on if the register may be read; otherwise R39's `UninitialisedRead`. -/
def State.reading (s : State) (f : Field) (k : Out) : Out :=
  if s.readable f then k else .fault (.uninitialisedRead f)

/-! ### The adapter primitives the core calls (R120) -/

/-- Append one command to the action list (R13). -/
def State.emit (s : State) (a : Action) : State :=
  { s with adapter := { s.adapter with actions := s.adapter.actions ++ [a] } }

/-- The reply of the run, from which the bus goes on (R134, R141). -/
def State.setReply (s : State) (r : Reply) : State :=
  { s with adapter := { s.adapter with lastReply := some r } }

/-- `requestAck()` (R122). -/
def State.requestAck (s : State) : State := (s.emit .ack).setReply .ack

/-- `requestNack()` (R123). -/
def State.requestNack (s : State) : State := (s.emit .nack).setReply .nack

/-- The stop request itself (R124): the stop-pending condition is set (R34). -/
def State.requestStop (s : State) : State :=
  { s with adapter := { s.adapter with stopPending := true, lastReply := some .stop } }

/-- `issueStop()` (R124). -/
def State.issueStop (s : State) : State := (s.emit .stop).requestStop

/-- `writeDataLatch(b)` (R127). -/
def State.writeDataLatch (s : State) (b : Byte) : State :=
  ({ s with adapter := { s.adapter with dataLatch := b } }).emit (.writeLatch b)

/-- The adapter shifts a received byte into the latch, where `readDataLatch()` finds it (R34, R126). -/
def State.receiveByte (s : State) (b : Byte) : State :=
  { s with adapter := { s.adapter with dataLatch := b } }

/-- `readDataLatch()` (R126). -/
def State.readDataLatch (s : State) : Byte := s.adapter.dataLatch

/-- `armController(ctx.addressAndDirection)` (R121). -/
def State.armController (s : State) : State :=
  let s := s.emit (.arm s.ctx.addressAndDirection)
  { s with adapter := { s.adapter with armed := true } }

/-- No start of this device is to come: the one it asked for is on the bus (R121), or the transfer is over without it (R134,
last row: "idle" needs a new `armController`). -/
def State.disarm (s : State) : State := { s with adapter := { s.adapter with armed := false } }

/-- An event now waits for the Handler (R34, R257). -/
def State.setPending (s : State) (bytes : List Byte) : State :=
  { s with adapter := { s.adapter with pendingEvent := some bytes } }

/-! ### The environment's answers -/

/-- The sample the next `observeLines()` returns: the state's next sample, or a free one (R128, log entry 5). -/
def State.nextLines (s : State) : Lines := s.env.lines.headD (Config.freeLines s.env.draws)

/-- `observeLines()` (R128): the sample is used up and shows in the trace (R104). -/
def State.observeLines (s : State) : State :=
  let s' := s.emit (.lines s.nextLines)
  match s.env.lines with
  | _ :: rest => { s' with env := { s'.env with lines := rest } }
  | [] => { s' with env := { s'.env with draws := s'.env.draws + 1 } }

/-- The answer the next `stopComplete()` gives (R125, log entry 5). -/
def State.nextStopAnswer (s : State) : Bool := s.env.stops.headD (Config.freeStopAnswer s.env.draws)

/-- The answer of one `stopComplete()` is used up. -/
def State.useStopAnswer (s : State) : State :=
  match s.env.stops with
  | _ :: rest => { s with env := { s.env with stops := rest } }
  | [] => { s with env := { s.env with draws := s.env.draws + 1 } }

/-- What reading `lastError` gives: the field, or any value while no rule has written it (R191, U13, log entry 4). -/
def State.readLastError (s : State) : LastError :=
  if s.written.lastError then s.ctx.lastError else Config.freeLastError s.env.draws

/-- A free value has been drawn where `lastError` was read unwritten. -/
def State.useLastError (s : State) : State :=
  if s.written.lastError then s else { s with env := { s.env with draws := s.env.draws + 1 } }

/-- The value user code takes next from outside the block (log entry 6). -/
def State.nextInput (s : State) : Nat := s.env.inputs.headD (Config.freeInput s.env.draws)

/-- The value user code has taken is used up. -/
def State.useInput (s : State) : State :=
  match s.env.inputs with
  | _ :: rest => { s with env := { s.env with inputs := rest } }
  | [] => { s with env := { s.env with draws := s.env.draws + 1 } }

/-! ### Interrupt entry and return -/

/-- An event may be delivered: events are enabled and none is being handled (R130, R257, R258). -/
def State.deliverable (s : State) : Bool := s.control.initialised && !s.run.inHandler

/-- Entry into `onBusEvent(raw)`: "the only state change of entry itself is `inHandler <- true`" (R260). The adapter
keeps which status it reported (R134). -/
def State.enterHandler (s : State) (raw : Byte) : State :=
  { s with run := { s.run with inHandler := true }, adapter := { s.adapter with lastEvent := some raw } }

/-- Return from the Handler: "sets `inHandler <- false`" (R261). A run that waits for stop-complete has not returned. -/
def State.leaveHandler (s : State) : State :=
  if s.run.stopWait then s else { s with run := { s.run with inHandler := false } }

/-- A Handler run (R141): entry, the rule of the status, return. -/
def takeEvent (raw : Byte) (rule : State → Out) (s : State) : Out :=
  if s.deliverable then andThen (rule (s.enterHandler raw)) (fun t => .next t.leaveHandler)
  else .refused .eventMasked

/-- One evaluation of the stop-complete wait of R162: on confirmation the stop is no longer pending, `busy` is cleared and
the wait ends. This is the only place where the stop-pending condition ends: the spec gives no moment for a stop that no
run waits for (R124: "some time later"; log entry 31). -/
def State.pollStop (s : State) : State :=
  let s' := s.useStopAnswer
  if s.nextStopAnswer then
    ({ s' with run := { s'.run with stopWait := false }
               adapter := { s'.adapter with stopPending := false } }).setBusy false
  else s'

/-! ### Entry of a host operation -/

/-- The control point at which ordinary code may call an operation. -/
def Phase.isIdle : Phase → Bool
  | .idle => true
  | .configure _ | .write _ _ | .read _ _ _ | .hsLoop _ | .handshake _ _ => false

/-- Every operation requires `initialised` (R129, R199), and Host runs one operation at a time (R199); a callback runs
while an operation of Host is suspended (R260). -/
def hostCall (s : State) (k : Out) : Out :=
  if !s.control.initialised then .refused .notInitialised
  else if s.run.inHandler || s.run.phase.isIdle then k
  else .refused .hostBusy

/-- An operation that blocks may be called from ordinary code only (R165, R199). -/
def blockingCall (s : State) (k : Out) : Out :=
  if s.run.inHandler then .refused .blockingCallInHandler else k

end Sys2Proof.Machine
end

