-- ==== Sys2Proof/Machine/Flags.lean ====
section
/-! DEFINITION. The two status flags a program polls, `busy` and `lastError`, and who writes them (spec/10_state.md
R42), and the exhaustion tests that choose a reply (spec/41_transfer_state_machine.md R163, R169: comparisons of
natural numbers; the block has no condition codes). -/

namespace Sys2Proof.Machine

/-- `lastError <- Code(s)` (R146, R162, R195). -/
def State.recordError (s : State) (raw : Byte) : State := s.setLastError (.code raw)

/-- `lastError <- NoError` (W5, RD5). -/
def State.clearError (s : State) : State := s.setLastError .noError

/-- The transfer is armed: `busy <- true` (W6, RD6, R164, R157). -/
def State.setArmed (s : State) : State := s.setBusy true

/-- The terminal state: `busy <- false` (R16, R42). -/
def State.endTransfer (s : State) : State := s.setBusy false

/-- `cursor < length`: more bytes follow. -/
def State.moreToCome (s : State) : Bool := s.ctx.cursor < s.ctx.length

/-- `cursor = length`: the transfer is exhausted. -/
def State.exhausted (s : State) : Bool := s.ctx.cursor = s.ctx.length

/-- "if `cursor < length` request 'acknowledge' else request 'non-acknowledge'" (R147, R148, R163). -/
def State.replyByExhaustion (s : State) : State := if s.moreToCome then s.requestAck else s.requestNack

/-- The guard of R166: go on while `cursor` may advance, else `CursorOverrun`. -/
def State.guardAdvance (s : State) (k : Out) : Out :=
  if s.moreToCome then k else .fault (.cursorOverrun s.ctx.cursor s.ctx.length)

/-- `reached(c, i)` (R229). -/
def reached (test : ReachTest) (counter i : Nat) : Bool :=
  match test with
  | .ge => i ≤ counter
  | .eq => counter = i

end Sys2Proof.Machine
end

