-- ==== Sys2Proof/Machine/Operands.lean ====
section
/-! DEFINITION. The operand forms (spec/41_transfer_state_machine.md R171): byte moves between the data latch, a
buffer indexed by `cursor`, and `addressAndDirection`; the block copies of `write` and `transmit`; the index bounds
(spec/20_memory.md R77). Every access is one byte wide (R65). -/

namespace Sys2Proof.Machine

/-- Use `txBuffer[i]` (R60, R77): `i >= CAP` is a fault, and so is a byte that nothing has written (R39). -/
def State.withTxByte (s : State) (i : Nat) (k : Byte → Out) : Out :=
  if i < s.cfg.cap then
    match s.ctx.txBuffer.read i with
    | some b => k b
    | none => .fault (.uninitialisedRead (.txByte i))
  else .fault (.txIndexOutOfRange i)

/-- `txBuffer[i] <- b` (R60, R77). -/
def State.storeTx (s : State) (i : Nat) (b : Byte) (k : State → Out) : Out :=
  if i < s.cfg.cap then k (s.setTxBuffer (s.ctx.txBuffer.write i b))
  else .fault (.txIndexOutOfRange i)

/-- The address in the caller's memory of `rxTarget[i]`: `rx.base + i` (R13); the handshake's `dummy` is no byte of
it. -/
def RxTarget.addressOf (rx : RxTarget) (i : Nat) : Option Nat :=
  match rx.base with
  | .caller base => some (base + i)
  | .dummy => none

/-- Store one byte in the region `rx` names. -/
def State.storeRegion (s : State) (rx : RxTarget) (i : Nat) (b : Byte) : State :=
  match rx.addressOf i with
  | some a => { s with memory := s.memory.write a b }
  | none => { s with dummy := b }

/-- `rxTarget[i] <- b` (R61, R77). -/
def State.storeRx (s : State) (i : Nat) (b : Byte) (k : State → Out) : Out :=
  s.reading .rxTarget <|
    if i < s.ctx.rxTarget.cap then k (s.storeRegion s.ctx.rxTarget i b)
    else .fault (.rxIndexOutOfRange i)

/-- `latch <- txBuffer[cursor]`, then `cursor + 1` (R171). -/
def State.sendByte (s : State) (k : State → Out) : Out :=
  s.withTxByte s.ctx.cursor fun b => k ((s.setCursor (s.ctx.cursor + 1)).writeDataLatch b)

/-- `latch <- addressAndDirection` (R142, R171). -/
def State.sendAddress (s : State) (k : State → Out) : Out :=
  s.reading .addressAndDirection <| k (s.writeDataLatch s.ctx.addressAndDirection)

/-- `txBuffer[j] <- data[j]` for ascending `j` from `i` (R187 X1, R171). -/
def State.copyToTx (s : State) (i : Nat) (data : List Byte) (k : State → Out) : Out :=
  match data with
  | [] => k s
  | b :: rest => s.storeTx i b fun s => s.copyToTx (i + 1) rest k

/-- The bytes `i .. i + count - 1` of the buffer `ownedBuffer()` exposes, copied by user code to its own memory from
`destination` (R192, R165). -/
def State.copyOwned (s : State) (destination i : Nat) : Nat → (State → Out) → Out
  | 0, k => k s
  | count + 1, k =>
    s.withTxByte i fun b =>
      ({ s with memory := s.memory.write (destination + i) b }).copyOwned destination (i + 1) count k

/-! ### What user code computes -/

/-- One operation of user code. -/
def userApply : UserOp → Nat → Nat → Nat
  | .add, a, b => a + b
  | .sub, a, b => a - b
  | .mul, a, b => a * b
  | .div, a, b => a / b
  | .mod, a, b => a % b
  | .equal, a, b => if a = b then 1 else 0
  | .less, a, b => if a < b then 1 else 0
  | .bitAnd, a, b => a &&& b
  | .bitOr, a, b => a ||| b
  | .bitXor, a, b => a ^^^ b
  | .shiftLeft, a, b => a <<< b
  | .shiftRight, a, b => a >>> b

/-- What an operation returned, as a number: a status code, an address, an identity; 256, which is no status code, for "no
error"; 0 for a result without a value, and for "already complete". The numbers of the two sentinels, and that they differ,
are the model's choice: R9 gives neither (log entry 32). -/
def Result.value : Result → Nat
  | .nothing => 0
  | .error .noError => 256
  | .error (.code c) => c.toNat
  | .buffer => 0
  | .address a => a
  | .identity i => i
  | .alreadyComplete => 0

/-- The value of an expression of user code in a callback. -/
def State.userValue (s : State) : UserExpr → Nat
  | .const n => n
  | .var x => s.vars.read x
  | .result => s.run.callbackResult.value
  | .op o a b => userApply o (s.userValue a) (s.userValue b)

/-- User code reads a byte of the caller's memory; one that nothing has written has no value (log entry 7). -/
def State.withMemoryByte (s : State) (a : Nat) (k : Byte → Out) : Out :=
  match s.memory.read a with
  | some b => k b
  | none => .fault (.uninitialisedRead (.memoryByte a))

/-! ### Addresses -/

/-- A 7-bit address as the block keeps it; the caller's byte has been checked (R95, R180). -/
def busAddress (address : Byte) : Address := address.truncate 7

/-- The address argument of an operation is a 7-bit value (R180, R181, R184). -/
def addressOk (address : Byte) : Bool := address.toNat ≤ 0x7F

end Sys2Proof.Machine
end

