-- ==== Sys2Proof/Machine/Env.lean ====
section
/-! DEFINITION. The environment contract (spec/40_adapter_primitives.md R132 to R134): where this device stands on the
wire, read from the last status handled and its reply, which events may come next, and which address byte on the bus
addresses this device. No Handler rule reads any of it (R31, R134); statements take it as a premise, and the meaning of
an address byte (Bus.lean) is written from it. -/

namespace Sys2Proof.Machine

/-- Where the device stands on the wire: one constructor per row of R134's table with successors of its own. -/
inductive Wire where
  | idle
  /-- This device's own start has gone out and its address byte follows; `read` is the direction bit. -/
  | addressing (read : Bool)
  | ctData
  | crMore
  | crLast
  | trData
  | trGcallData
  | ttMore
  | ttLast
  deriving DecidableEq, Repr

/-- The wire after status `x` was handled with reply `r` (R134). A combination that no rule of the Handler produces is
read as idle. -/
def wireAfter (x : Option Status) (r : Reply) (read : Bool) : Wire :=
  match r, x with
  | .stop, _ => .idle
  | .ack, some .start | .ack, some .repStart => .addressing read
  | .ack, some .ctAddrAck | .ack, some .ctDataAck => .ctData
  | .ack, some .crAddrAck | .ack, some .crDataAck => .crMore
  | .nack, some .crAddrAck | .nack, some .crDataAck => .crLast
  | .ack, some .trAddrAck | .ack, some .trArbLostAddrAck | .ack, some .trDataAck => .trData
  | .ack, some .trGcallAck | .ack, some .trArbLostGcallAck | .ack, some .trGcallDataAck => .trGcallData
  | .ack, some .ttAddrAck | .ack, some .ttArbLostAddrAck | .ack, some .ttDataAck => .ttMore
  | .nack, some .ttAddrAck | .nack, some .ttArbLostAddrAck | .nack, some .ttDataAck => .ttLast
  | .ack, _ | .nack, _ => .idle

/-- Where this device stands on the wire. The direction is that of the address byte it has put in the latch. -/
def State.wire (s : State) : Wire :=
  match s.adapter.lastReply, s.adapter.lastEvent with
  | some r, some raw => wireAfter (s.cfg.symbol? raw) r (s.adapter.dataLatch.getLsbD 0)
  | _, _ => .idle

/-- The target-addressed events R133 allows for this device's configuration: in the plain form, or in the form of a
device that lost the bus during its own address byte. -/
def State.targetEvents (s : State) (lost : Bool) : List Status :=
  match s.control.ownAddress with
  | none => []
  | some _ =>
    (if lost then [.trArbLostAddrAck, .ttArbLostAddrAck] else [.trAddrAck, .ttAddrAck]) ++
    (if s.control.generalCallEnable then [if lost then .trArbLostGcallAck else .trGcallAck] else [])

/-- The events Env may deliver next under its contract (R134). -/
def State.legalNext (s : State) : List Status :=
  .busError ::
  match s.wire with
  | .idle => (if s.adapter.armed then [.start] else []) ++ s.targetEvents false
  | .addressing false => [.ctAddrAck, .ctAddrNack, .arbLost] ++ s.targetEvents true
  | .addressing true => [.crAddrAck, .crAddrNack, .arbLost] ++ s.targetEvents true
  | .ctData => [.ctDataAck, .ctDataNack, .arbLost]
  | .crMore => [.crDataAck]
  | .crLast => [.crDataNack, .arbLost]
  | .trData => [.trDataAck, .trStop]
  | .trGcallData => [.trGcallDataAck, .trStop]
  | .ttMore => [.ttDataAck, .ttDataNack]
  | .ttLast => [.ttDataNack, .ttLastData]

/-- The role in which an address byte addresses this device. -/
inductive Role where
  | receive | general | transmit
  deriving DecidableEq, Repr

/-- The status the adapter reports for a role, after an arbitration this device lost or without one (R91, R133). -/
def Role.status : Role → Bool → Status
  | .receive, false => .trAddrAck
  | .receive, true => .trArbLostAddrAck
  | .general, false => .trGcallAck
  | .general, true => .trArbLostGcallAck
  | .transmit, false => .ttAddrAck
  | .transmit, true => .ttArbLostAddrAck

/-- How the address byte of `address` and direction addresses this device (R133): by its own address, or by address 0
with the write direction if the general call is enabled; without an own address not at all. -/
def State.addressedAs (s : State) (address : Address) (read : Bool) : Option Role :=
  match s.control.ownAddress with
  | none => none
  | some own =>
    if read then (if own = address then some .transmit else none)
    else if address = 0 && s.control.generalCallEnable then
      -- own address 0 as well: the source does not say which (R180, log entry 8)
      some (if own = address && !Config.freeZeroIsGeneralCall then .receive else .general)
    else if own = address then some .receive
    else none

end Sys2Proof.Machine
end

