-- ==== Sys2Proof/Machine/Bus.lean ====
section
/-! DEFINITION. The two ADDRBYTE rows (spec/30_encoding.md R95, R99): the address byte that stands on the bus after a
start, as the adapter of this device sees it. The adapter reports to the Handler that the device is addressed exactly
when R133 allows it, and if the device has just sent an address byte of its own and the byte on the bus is another one,
that it lost the bus (R133, R136); the event then waits for the Handler (R34, R257). Sending an address byte is the
start rule (R142), which takes the byte from W4 or RD4. -/

namespace Sys2Proof.Machine

/-- The event of status `x` now waits for the Handler. -/
def State.report (s : State) (x : Status) : State := s.setPending [s.cfg.code x]

/-- An address byte on the bus. While an event waits or is being handled the bus does not advance (R258), and in the
middle of a transfer no address byte follows (R134): neither can happen. A byte equal to the one this device sent is its
own, and if another controller sent the same, "the two cannot tell" (R136, R308). -/
def addressSeen (address : Address) (read : Bool) (s : State) : Out :=
  if s.adapter.pendingEvent.isSome || s.run.inHandler then .refused .busHeld
  else
    match s.wire with
    | .idle =>
      match s.addressedAs address read with
      | some role => .next (s.report (role.status false))
      | none => .next s
    | .addressing _ =>
      if addrByte address read = s.adapter.dataLatch then .next s
      else
        match s.addressedAs address read with
        | some role => .next (s.report (role.status true))
        | none => .next (s.report .arbLost)
    | .ctData | .crMore | .crLast | .trData | .trGcallData | .ttMore | .ttLast => .refused .busHeld

/-- `ADDRBYTE_WRITE` (R95, R133). -/
def execAddrByteWrite (address : Address) (s : State) : Out := addressSeen address false s

/-- `ADDRBYTE_READ` (R95, R133). -/
def execAddrByteRead (address : Address) (s : State) : Out := addressSeen address true s

end Sys2Proof.Machine
end

