-- ==== Sys2Proof/Machine/Controller.lean ====
section
/-! DEFINITION. The statuses of the controller roles (spec/41_transfer_state_machine.md sections 3 to 5): start,
controller-transmit, arbitration lost, controller-receive. -/

namespace Sys2Proof.Machine

/-- The shared rule of the two start statuses (R142): load the latch with the latched address+direction byte, reply
with `requestAck()`. -/
def startRule (s : State) : Out :=
  s.disarm.sendAddress fun s => .next s.requestAck

/-- `START` (R142). -/
def execStart (s : State) : Out := takeEvent (s.cfg.code .start) startRule s

/-- `REP_START` (R143). -/
def execRepStart (s : State) : Out := takeEvent (s.cfg.code .repStart) startRule s

/-- `CtSendNext` (R163). -/
def ctSendNext (s : State) : Out :=
  s.reading .cursor <| s.reading .length <|
    if s.exhausted then .next (s.issueStop).endTransfer
    else s.guardAdvance <| s.sendByte fun s => .next s.requestAck

/-- `CT_ADDR_ACK` (R144). -/
def execCtAddrAck (s : State) : Out := takeEvent (s.cfg.code .ctAddrAck) ctSendNext s

/-- `CT_DATA_ACK` (R145). -/
def execCtDataAck (s : State) : Out := takeEvent (s.cfg.code .ctDataAck) ctSendNext s

/-- The rule of `ARB_LOST` (R146): `raw` is the byte delivered. -/
def arbLostRule (raw : Byte) (s : State) : Out := .next ((s.recordError raw).endTransfer.requestAck)

/-- `ARB_LOST` (R146). -/
def execArbLost (s : State) : Out := takeEvent (s.cfg.code .arbLost) (arbLostRule (s.cfg.code .arbLost)) s

/-- The rule of `CR_ADDR_ACK` (R147): no byte has been received yet, so nothing is copied. -/
def crAddrAckRule (s : State) : Out :=
  s.reading .cursor <| s.reading .length <| .next s.replyByExhaustion

/-- `CR_ADDR_ACK` (R147). -/
def execCrAddrAck (s : State) : Out := takeEvent (s.cfg.code .crAddrAck) crAddrAckRule s

/-- The rule of `CR_DATA_ACK` (R148): the test for the reply uses the incremented cursor. -/
def crDataAckRule (s : State) : Out :=
  s.reading .cursor <| s.reading .length <| s.guardAdvance <|
    s.storeRx s.ctx.cursor s.readDataLatch fun s =>
      .next (s.setCursor (s.ctx.cursor + 1)).replyByExhaustion

/-- `CR_DATA_ACK` with the received byte (R148). -/
def execCrDataAck (latch : Byte) (s : State) : Out :=
  takeEvent (s.cfg.code .crDataAck) (fun s => crDataAckRule (s.receiveByte latch)) s

/-- The rule of `CR_DATA_NACK` (R149): the final byte, no increment, stop, clear `busy`. -/
def crDataNackRule (s : State) : Out :=
  s.reading .cursor <|
    s.storeRx s.ctx.cursor s.readDataLatch fun s => .next s.issueStop.endTransfer

/-- `CR_DATA_NACK` with the received byte (R149). -/
def execCrDataNack (latch : Byte) (s : State) : Out :=
  takeEvent (s.cfg.code .crDataNack) (fun s => crDataNackRule (s.receiveByte latch)) s

end Sys2Proof.Machine
end

