-- ==== Sys2Proof/Machine/HostSteps.lean ====
section
/-! DEFINITION. The micro-steps of Host: one step of the operation in progress (spec/42_transfer_api.md R180, R182,
R185, R194, R195; spec/43_handshake.md R223 to R230). Each reads or writes one field, copies one byte or takes one
sample (R66, R198). -/

namespace Sys2Proof.Machine

/-- What one round of the idle confirmation leads to. -/
inductive IdleRound where
  | again (c : Nat)
  | proceed
  | aborted
  deriving DecidableEq, Repr

/-- One round of `IdleConfirm` with counter `c` (R194, R195): at 0 the confirmation is over and no line is sampled
(R196). -/
def idleRound (s : State) (c : Nat) : IdleRound :=
  match c with
  | 0 => .proceed
  | c + 1 =>
    if s.nextLines.clock && s.nextLines.data then .again c
    else
      match s.cfg.idlePolicy with
      | .respin => .again s.cfg.idleThreshold
      | .abort => .aborted

/-- The sample that round takes, if any. -/
def idleSample (s : State) (c : Nat) : State :=
  match c with
  | 0 => s
  | _ + 1 => s.observeLines

/-- One micro-step of `write` (R182). -/
def writeStep (w : WriteCall) (pt : WriteAt) (s : State) : Out :=
  match pt with
  | .w1 => .next (if s.ctx.busy then s else s.goto (.write w (.w2 0)))
  | .w2 j =>
    if j < w.length then
      match w.data[j]? with
      | some b => s.storeTx j b fun s => .next (s.goto (.write w (.w2 (j + 1))))
      | none => .refused .bufferTooShort
    else .next (s.goto (.write w .w3Length))
  | .w3Length => .next ((s.setLength w.length).goto (.write w .w3Cursor))
  | .w3Cursor => .next ((s.setCursor 0).goto (.write w .w4))
  | .w4 => .next ((s.setAddress (addrByte (busAddress w.address) false)).goto (.write w .w5))
  | .w5 => .next (s.clearError.goto (.write w .w6))
  | .w6 => .next (s.setArmed.goto (.write w (.w7 s.cfg.idleThreshold)))
  | .w7 c =>
    match idleRound s c with
    | .again c' => .next ((idleSample s c).goto (.write w (.w7 c')))
    | .proceed => .next ((idleSample s c).goto (.write w .w8))
    | .aborted => .next ((idleSample s c).goto (.write w .w7AbortError))
  | .w7AbortError => .next ((s.recordError (s.cfg.code .arbLost)).goto (.write w .w7AbortBusy))
  | .w7AbortBusy => .next (s.endTransfer.finish .nothing)
  | .w8 => .next (s.armController.goto (.write w .w9))
  | .w9 => .next (if w.blocking && s.ctx.busy then s else s.finish .nothing)

/-- `read` returns: to ordinary code, or to H2 of the handshake that made the probe (R223). -/
def State.finishRead (s : State) (caller : Caller) : State :=
  match caller with
  | .user => s.finish .nothing
  | .handshake i => s.goto (.handshake i .h2)

/-- One micro-step of `read` (R185). -/
def readStep (r : ReadCall) (pt : ReadAt) (caller : Caller) (s : State) : Out :=
  match pt with
  | .rd1 => .next (if s.ctx.busy then s else s.goto (.read r .rd2 caller))
  | .rd2 => .next ((s.setRxTarget ⟨r.destination, r.length⟩).goto (.read r .rd3Length caller))
  | .rd3Length => .next ((s.setLength (r.length - 1)).goto (.read r .rd3Cursor caller))
  | .rd3Cursor => .next ((s.setCursor 0).goto (.read r .rd4 caller))
  | .rd4 => .next ((s.setAddress (addrByte (busAddress r.address) true)).goto (.read r .rd5 caller))
  | .rd5 => .next (s.clearError.goto (.read r .rd6 caller))
  | .rd6 => .next (s.setArmed.goto (.read r (.rd7 s.cfg.idleThreshold) caller))
  | .rd7 c =>
    match idleRound s c with
    | .again c' => .next ((idleSample s c).goto (.read r (.rd7 c') caller))
    | .proceed => .next ((idleSample s c).goto (.read r .rd8 caller))
    | .aborted => .next ((idleSample s c).goto (.read r .rd7AbortError caller))
  | .rd7AbortError => .next ((s.recordError (s.cfg.code .arbLost)).goto (.read r .rd7AbortBusy caller))
  | .rd7AbortBusy => .next (s.endTransfer.finishRead caller)
  | .rd8 => .next (s.armController.goto (.read r .rd9 caller))
  | .rd9 => .next (if s.ctx.busy then s else s.finishRead caller)

/-- The head of the handshake's loop with `left` candidates to try (R223): H1 calls `read` of one byte from the address
of candidate `left - 1`; with none left H8 returns `AlreadyComplete` (R230). -/
def probeStep (left : Nat) (s : State) : Out :=
  match left with
  | 0 => .next (s.finish .alreadyComplete)
  | i + 1 =>
    if s.cfg.offset + i ≤ 0x7F then
      .next (s.goto (.read ⟨low8 (s.cfg.offset + i), .dummy, 1⟩ .rd1 (.handshake i)))
    else .refused .addressOutOfRange

/-- H3: what the outcome of the probe of candidate `i` leads to (R224, R225, R226). -/
def probeOutcome (i : Nat) (e : LastError) (s : State) : Out :=
  match e with
  | .noError => .next (s.goto (.hsLoop i))
  | .code c =>
    if c = s.cfg.code .crAddrNack then .next (s.goto (.handshake i .h4Own))
    else if c = s.cfg.code .arbLost then .next (s.goto (.hsLoop (i + 1)))
    else
      match s.cfg.otherError with
      | .retrySame => .next (s.goto (.hsLoop (i + 1)))
      | .fault => .fault (.handshakeUnexpectedError c)

/-- One micro-step of `handshake` at candidate `i`, after the probe (R223). -/
def handshakeStep (i : Nat) (pt : HandshakeAt) (s : State) : Out :=
  match pt with
  | .h2 => .next (s.useLastError.goto (.handshake i (.h3 s.readLastError)))
  | .h3 e => probeOutcome i e s
  | .h4Own => .next ((s.setOwnAddress (busAddress (low8 (s.cfg.offset + i)))).goto (.handshake i .h4Call))
  | .h4Call => .next ((s.setGeneralCall true).goto (.handshake i .h5))
  | .h5 => .next ((s.setOnReceive .hsOnReceive).goto (.handshake i .h6))
  | .h6 => .next ((s.setOnRequest .hsOnRequest).goto (.handshake i .h7))
  | .h7 =>
    s.reading .hsCounter <|
      .next (if reached s.cfg.reachTest s.control.hsCounter i then s.finish (.identity i) else s)

/-- One micro-step of the operation in progress; with none, Host has nothing to do. -/
def hostStep (s : State) : Out :=
  match s.run.phase with
  | .idle => .next s
  | .configure enabled => .next ((s.setGeneralCall enabled).finish .nothing)
  | .write w pt => writeStep w pt s
  | .read r pt caller => readStep r pt caller s
  | .hsLoop left => probeStep left s
  | .handshake i pt => handshakeStep i pt s

end Sys2Proof.Machine
end

