-- ==== Sys2Proof/Machine/Recovery.lean ====
section
/-! DEFINITION. Every status without a rule of its own (spec/41_transfer_state_machine.md R162, spec/60_exceptions.md
R251, R270): record the raw status, request a stop, wait for its completion, clear `busy`. The wait is the one spin of
the Handler; its first evaluation belongs to the run's own step, each later one is a step (Step.lean). -/

namespace Sys2Proof.Machine

/-- The rule up to and including the first evaluation of the wait (R162). A start still to come is not: after this rule
the device is idle until a new `armController` (R134). -/
def errorRule (raw : Byte) (s : State) : Out :=
  let s := ((s.recordError raw).emit .stopWait).requestStop.disarm
  .next ({ s with run := { s.run with stopWait := true } }).pollStop

/-- The Handler run of a status without a rule of its own. -/
def errorStatus (raw : Byte) (s : State) : Out := takeEvent raw (errorRule raw) s

/-- `BUS_ERROR` (R162). -/
def execBusError (s : State) : Out := errorStatus (s.cfg.code .busError) s

/-- `CT_ADDR_NACK` (R162). -/
def execCtAddrNack (s : State) : Out := errorStatus (s.cfg.code .ctAddrNack) s

/-- `CT_DATA_NACK` (R162). -/
def execCtDataNack (s : State) : Out := errorStatus (s.cfg.code .ctDataNack) s

/-- `CR_ADDR_NACK` (R162), the handshake's "address-not-acknowledged" (R225). -/
def execCrAddrNack (s : State) : Out := errorStatus (s.cfg.code .crAddrNack) s

/-- `TR_DATA_NACK` (R162). -/
def execTrDataNack (s : State) : Out := errorStatus (s.cfg.code .trDataNack) s

/-- `TR_GCALL_DATA_NACK` (R162). -/
def execTrGcallDataNack (s : State) : Out := errorStatus (s.cfg.code .trGcallDataNack) s

/-- `NO_INFO` (R162). -/
def execNoInfo (s : State) : Out := errorStatus (s.cfg.code .noInfo) s

/-- Any other byte (R162, R99): recorded as delivered (R94). -/
def execOtherStatus (status : Byte) (s : State) : Out := errorStatus status s

end Sys2Proof.Machine
end

