-- ==== Sys2Proof/Machine/Api.lean ====
section
/-! DEFINITION. The host operations (spec/42_transfer_api.md, spec/43_handshake.md R223, spec/40_adapter_primitives.md
R129). An operation that takes one micro-step is done in it. An operation that takes several (`configureAddress`,
`write`, `read`, `handshake`) checks its preconditions, does its first micro-step and leaves the rest to the micro-steps
of HostSteps.lean, between any two of which the Handler may run (R198). -/

namespace Sys2Proof.Machine

/-- `init()` (R129): idempotent, changes nothing but `initialised`. -/
def execInit (s : State) : Out :=
  if s.run.inHandler || s.run.phase.isIdle then .next (s.setInitialised.answer .nothing)
  else .refused .hostBusy

/-- `configureAddress` (R180): C1 is done here, C2 is the next micro-step of Host. -/
def execConfigureAddress (address : Byte) (generalCallEnabled : Bool) (s : State) : Out :=
  hostCall s <|
    if s.run.inHandler then .refused .configureInHandler
    else if addressOk address then
      .next ((s.setOwnAddress (busAddress address)).goto (.configure generalCallEnabled))
    else .refused .addressOutOfRange

/-- The entry of `write` (R181) with W0 (R182). -/
def beginWrite (address : Byte) (data : List Byte) (length : Nat) (blocking : Bool) (s : State) : Out :=
  hostCall s <| blockingCall s <|
    if length = 0 then .next (s.answer .nothing)
    else if !addressOk address then .refused .addressOutOfRange
    else if s.cfg.cap < length then .refused .lengthExceedsCapacity
    else if data.length < length then .refused .bufferTooShort
    else .next (s.goto (.write ⟨address, data, length, blocking⟩ .w1))

/-- `write` (R181). -/
def execWrite (address : Byte) (data : List Byte) (length : Nat) (blocking : Bool) (s : State) : Out :=
  beginWrite address data length blocking s

/-- `writeObject` (R98): `write(address, bytes(obj), sizeof(obj), blocking)`. -/
def execWriteObject (address : Byte) (obj : List Byte) (blocking : Bool) (s : State) : Out :=
  beginWrite address obj obj.length blocking s

/-- The entry of `read` (R184) with RD0 (R185). `CAP` does not bound it (R38). -/
def beginRead (address : Byte) (destination : Nat) (length : Nat) (s : State) : Out :=
  hostCall s <| blockingCall s <|
    if length = 0 then .next (s.answer .nothing)
    else if !addressOk address then .refused .addressOutOfRange
    else if s.cfg.maxIndex < length then .refused .lengthOutOfRange
    else .next (s.goto (.read ⟨address, .caller destination, length⟩ .rd1 .user))

/-- `read` (R184). -/
def execRead (address : Byte) (destination : Nat) (length : Nat) (s : State) : Out :=
  beginRead address destination length s

/-- `readObject` (R98): `read(address, bytes(obj), sizeof(obj))`. -/
def execReadObject (address : Byte) (destination : Nat) (size : Nat) (s : State) : Out :=
  beginRead address destination size s

/-- `transmit` (R187, R188): X1 copies, X2 resets `cursor`, X3 sets `length`. It runs inside a Handler run, so it is one
step of it. -/
def transmitRule (data : List Byte) (length : Nat) (s : State) : Out :=
  hostCall s <|
    if !(s.run.inHandler && s.run.requestRun) then .refused .transmitOutsideRequest
    else if length = 0 then .refused .zeroLengthTransmit
    else if s.cfg.cap < length then .refused .lengthExceedsCapacity
    else if data.length < length then .refused .bufferTooShort
    else if s.run.transmitCalled && s.cfg.secondTransmit = .refuse then .refused .transmitCalledTwice
    else s.copyToTx 0 (data.take length) fun s =>
      .next (((s.setCursor 0).setLength length).noteTransmit.answer .nothing)

/-- `transmit` (R187). -/
def execTransmit (data : List Byte) (length : Nat) (s : State) : Out := transmitRule data length s

/-- `transmitObject` (R98): `transmit(bytes(obj), sizeof(obj))`. -/
def execTransmitObject (obj : List Byte) (s : State) : Out := transmitRule obj obj.length s

/-- `setOnRequest` (R189). -/
def execSetOnRequest (callback : Nat) (s : State) : Out :=
  hostCall s <| .next ((s.setOnRequest (.user callback)).answer .nothing)

/-- `setOnReceive` (R190). -/
def execSetOnReceive (callback : Nat) (s : State) : Out :=
  hostCall s <| .next ((s.setOnReceive (.user callback)).answer .nothing)

/-- `lastError()` (R191): no wait, no write. -/
def execLastError (s : State) : Out :=
  hostCall s <| .next (s.useLastError.answer (.error s.readLastError))

/-- `ownedBuffer()` (R192): a reference to `txBuffer` itself (R78). -/
def execOwnedBuffer (s : State) : Out := hostCall s <| .next (s.answer .buffer)

/-- `addressForIdentity(id) = OFFSET + id` (R193, R222). -/
def execAddressForIdentity (id : Nat) (s : State) : Out :=
  hostCall s <|
    if id < s.cfg.joiners then .next (s.answer (.address (s.cfg.offset + id)))
    else .refused .identityOutOfRange

/-- `handshake()` (R223): H0 is done here, the loop is entered at candidate `K - 1`. -/
def execHandshake (s : State) : Out :=
  hostCall s <| blockingCall s <| .next ((s.setHsCounter 0).goto (.hsLoop s.cfg.joiners))

end Sys2Proof.Machine
end

