-- ==== Sys2Proof/Machine/Target.lean ====
section
/-! DEFINITION. The statuses of the target roles (spec/41_transfer_state_machine.md sections 6 and 7) and the callbacks
they call (R165, spec/43_handshake.md R227, R228). -/

namespace Sys2Proof.Machine

/-! ### Callbacks -/

/-- One thing user code in a callback does (R165, R199). That a callback may load through `ownedBuffer()` in any run and at
any index below `CAP`, where R192 speaks of `onReceive` and of the bytes below `cursor`, is the model's choice, and so is
the copy's start at index 0 (log entry 30). That `load`, `store` and `copyOwned` reach the region of a `read` still in
progress like any other memory, where R61 and R300 give no outcome, is the model's choice too (log entry 33). -/
def runCall (c : Call) (s : State) : Out :=
  match c with
  | .configureAddress address enabled => execConfigureAddress address enabled s
  | .write address data length blocking => execWrite address data length blocking s
  | .read address destination length => execRead address destination length s
  | .transmit data length => execTransmit data length s
  | .transmitComputed data length =>
    execTransmit (data.map fun e => low8 (s.userValue e)) (s.userValue length) s
  | .setOnRequest callback => execSetOnRequest callback s
  | .setOnRequestComputed callback => execSetOnRequest (s.userValue callback) s
  | .setOnReceive callback => execSetOnReceive callback s
  | .setOnReceiveComputed callback => execSetOnReceive (s.userValue callback) s
  | .lastError => execLastError s
  | .ownedBuffer => execOwnedBuffer s
  | .addressForIdentity id => execAddressForIdentity id s
  | .addressForIdentityComputed id => execAddressForIdentity (s.userValue id) s
  | .handshake => execHandshake s
  | .copyOwned destination count => s.copyOwned destination 0 count .next
  | .loadOwned x index => s.withTxByte (s.userValue index) fun b => .next (s.setVariable x b.toNat)
  | .load x address => s.withMemoryByte (s.userValue address) fun b => .next (s.setVariable x b.toNat)
  | .store address value => .next (s.setMemoryByte (s.userValue address) (low8 (s.userValue value)))
  | .assign x value => .next (s.setVariable x (s.userValue value))
  | .input x => .next (s.useInput.setVariable x s.nextInput)

/-- Run `k` `n` times, stopping at the first fault or refusal. -/
def iterate (k : State → Out) : Nat → State → Out
  | 0, s => .next s
  | n + 1, s => andThen (k s) (iterate k n)

/-- The body of a user callback, from its first call to its return (R165). -/
def runBody : Body → State → Out
  | .done, s => .next s
  | .call c rest, s => andThen (runCall c s) (runBody rest)
  | .choose condition yes no rest, s =>
    andThen (if s.userValue condition ≠ 0 then runBody yes s else runBody no s) (runBody rest)
  | .loop times body rest, s => andThen (iterate (runBody body) (s.userValue times) s) (runBody rest)

/-- The body of user callback `n`: the one the state lists, or a free one (R41, log entry 6). -/
def State.bodyOf (s : State) (n : Nat) : Body := (s.userCode.lookup n).getD (Config.freeUserCode n)

/-- `hsOnRequest` (R227): count the probe and transmit the counter's new value, low 8 bits. -/
def hsOnRequestBody (s : State) : Out :=
  s.reading .hsCounter <|
    if s.control.hsCounter < s.cfg.maxIndex then
      let n := s.control.hsCounter + 1
      execTransmit [low8 n] 1 (s.setHsCounter n)
    else .fault .counterOverflow

/-- Run the code a slot refers to (R165); `hsOnReceive` does nothing (R228). -/
def runCallback (callback : CallbackRef) (s : State) : Out :=
  match callback with
  | .user n => runBody (s.bodyOf n) s
  | .hsOnRequest => hsOnRequestBody s
  | .hsOnReceive => .next s

/-- `call onReceive` (R165). -/
def callOnReceive (s : State) : Out :=
  match s.ctx.onReceive with
  | none => .fault (.nullCallback .onReceive)
  | some callback => runCallback callback (s.emit .callOnReceive)

/-- `call onRequest`, which is expected to call `transmit` (R157, R165). -/
def callOnRequest (s : State) : Out :=
  match s.ctx.onRequest with
  | none => .fault (.nullCallback .onRequest)
  | some callback =>
    andThen (runCallback callback (s.beginRequest.emit .callOnRequest)) fun s =>
      if s.run.transmitCalled then .next s.endRequest else .fault .transmitNotCalled

/-! ### Target-receive -/

/-- `TrAddressed` (R164). -/
def trAddressed (s : State) : Out := .next ((s.setCursor 0).setArmed.requestAck)

/-- `TR_ADDR_ACK` (R150). -/
def execTrAddrAck (s : State) : Out := takeEvent (s.cfg.code .trAddrAck) trAddressed s

/-- `TR_ARB_LOST_ADDR_ACK` (R151). -/
def execTrArbLostAddrAck (s : State) : Out := takeEvent (s.cfg.code .trArbLostAddrAck) trAddressed s

/-- `TR_GCALL_ACK` (R152). -/
def execTrGcallAck (s : State) : Out := takeEvent (s.cfg.code .trGcallAck) trAddressed s

/-- `TR_ARB_LOST_GCALL_ACK` (R153). -/
def execTrArbLostGcallAck (s : State) : Out := takeEvent (s.cfg.code .trArbLostGcallAck) trAddressed s

/-- The rule of a received byte (R154): store it at `cursor`, advance, always acknowledge. -/
def trDataRule (s : State) : Out :=
  s.reading .cursor <|
    if s.ctx.cursor < s.cfg.cap then
      s.storeTx s.ctx.cursor s.readDataLatch fun s => .next ((s.setCursor (s.ctx.cursor + 1)).requestAck)
    else .fault (.targetReceiveOverrun s.ctx.cursor)

/-- `TR_DATA_ACK` with the received byte (R154). -/
def execTrDataAck (latch : Byte) (s : State) : Out :=
  takeEvent (s.cfg.code .trDataAck) (fun s => trDataRule (s.receiveByte latch)) s

/-- `TR_GCALL_DATA_ACK` with the received byte (R155). -/
def execTrGcallDataAck (latch : Byte) (s : State) : Out :=
  takeEvent (s.cfg.code .trGcallDataAck) (fun s => trDataRule (s.receiveByte latch)) s

/-- The rule of `TR_STOP` (R156): the callback sees `busy` still true. -/
def trStopRule (s : State) : Out := andThen (callOnReceive s) fun s => .next s.endTransfer.requestAck

/-- `TR_STOP` (R156). -/
def execTrStop (s : State) : Out := takeEvent (s.cfg.code .trStop) trStopRule s

/-! ### Target-transmit -/

/-- `TtSendNext` (R163). -/
def ttSendNext (s : State) : Out :=
  s.reading .cursor <| s.reading .length <| s.guardAdvance <|
    s.sendByte fun s => .next s.replyByExhaustion

/-- The rule of the two addressed statuses (R157), with the fall-through of R167. -/
def ttAddressed (s : State) : Out := andThen (callOnRequest s.setArmed) ttSendNext

/-- `TT_ADDR_ACK` (R157). -/
def execTtAddrAck (s : State) : Out := takeEvent (s.cfg.code .ttAddrAck) ttAddressed s

/-- `TT_ARB_LOST_ADDR_ACK` (R158). -/
def execTtArbLostAddrAck (s : State) : Out := takeEvent (s.cfg.code .ttArbLostAddrAck) ttAddressed s

/-- `TT_DATA_ACK` (R159). -/
def execTtDataAck (s : State) : Out := takeEvent (s.cfg.code .ttDataAck) ttSendNext s

/-- The rule of the two endings (R160). -/
def ttEndRule (s : State) : Out := .next s.endTransfer.requestAck

/-- `TT_DATA_NACK` (R160). -/
def execTtDataNack (s : State) : Out := takeEvent (s.cfg.code .ttDataNack) ttEndRule s

/-- `TT_LAST_DATA` (R161). -/
def execTtLastData (s : State) : Out := takeEvent (s.cfg.code .ttLastData) ttEndRule s

end Sys2Proof.Machine
end

