-- ==== Sys2Proof/Machine/Dispatch.lean ====
section
/-! DEFINITION. One arm per row of spec/opcode_table.json. -/

namespace Sys2Proof.Machine

def exec (i : Instr) (s : State) : Host.Outcome State Fault Refusal :=
  match i with
  | .busError => Sys2Proof.Machine.execBusError s
  | .start => Sys2Proof.Machine.execStart s
  | .repStart => Sys2Proof.Machine.execRepStart s
  | .ctAddrAck => Sys2Proof.Machine.execCtAddrAck s
  | .ctAddrNack => Sys2Proof.Machine.execCtAddrNack s
  | .ctDataAck => Sys2Proof.Machine.execCtDataAck s
  | .ctDataNack => Sys2Proof.Machine.execCtDataNack s
  | .arbLost => Sys2Proof.Machine.execArbLost s
  | .crAddrAck => Sys2Proof.Machine.execCrAddrAck s
  | .crAddrNack => Sys2Proof.Machine.execCrAddrNack s
  | .crDataAck latch => Sys2Proof.Machine.execCrDataAck latch s
  | .crDataNack latch => Sys2Proof.Machine.execCrDataNack latch s
  | .trAddrAck => Sys2Proof.Machine.execTrAddrAck s
  | .trArbLostAddrAck => Sys2Proof.Machine.execTrArbLostAddrAck s
  | .trGcallAck => Sys2Proof.Machine.execTrGcallAck s
  | .trArbLostGcallAck => Sys2Proof.Machine.execTrArbLostGcallAck s
  | .trDataAck latch => Sys2Proof.Machine.execTrDataAck latch s
  | .trDataNack => Sys2Proof.Machine.execTrDataNack s
  | .trGcallDataAck latch => Sys2Proof.Machine.execTrGcallDataAck latch s
  | .trGcallDataNack => Sys2Proof.Machine.execTrGcallDataNack s
  | .trStop => Sys2Proof.Machine.execTrStop s
  | .ttAddrAck => Sys2Proof.Machine.execTtAddrAck s
  | .ttArbLostAddrAck => Sys2Proof.Machine.execTtArbLostAddrAck s
  | .ttDataAck => Sys2Proof.Machine.execTtDataAck s
  | .ttDataNack => Sys2Proof.Machine.execTtDataNack s
  | .ttLastData => Sys2Proof.Machine.execTtLastData s
  | .noInfo => Sys2Proof.Machine.execNoInfo s
  | .otherStatus status => Sys2Proof.Machine.execOtherStatus status s
  | .addrByteWrite address => Sys2Proof.Machine.execAddrByteWrite address s
  | .addrByteRead address => Sys2Proof.Machine.execAddrByteRead address s
  | .configureAddress address generalCallEnabled => Sys2Proof.Machine.execConfigureAddress address generalCallEnabled s
  | .write address data length blocking => Sys2Proof.Machine.execWrite address data length blocking s
  | .read address destination length => Sys2Proof.Machine.execRead address destination length s
  | .transmit data length => Sys2Proof.Machine.execTransmit data length s
  | .setOnRequest callback => Sys2Proof.Machine.execSetOnRequest callback s
  | .setOnReceive callback => Sys2Proof.Machine.execSetOnReceive callback s
  | .lastError => Sys2Proof.Machine.execLastError s
  | .ownedBuffer => Sys2Proof.Machine.execOwnedBuffer s
  | .addressForIdentity id => Sys2Proof.Machine.execAddressForIdentity id s
  | .handshake => Sys2Proof.Machine.execHandshake s
  | .init => Sys2Proof.Machine.execInit s
  | .writeObject address obj blocking => Sys2Proof.Machine.execWriteObject address obj blocking s
  | .readObject address destination size => Sys2Proof.Machine.execReadObject address destination size s
  | .transmitObject obj => Sys2Proof.Machine.execTransmitObject obj s

end Sys2Proof.Machine
end

