-- ==== Sys2Proof/Machine/Turns.lean ====
section
/-! DEFINITION. The parts of a step: decoding a message where it arrives and running it, a turn of Host, and how a
message is placed so that the next step takes it. Step.lean only calls these. -/

namespace Sys2Proof.Machine

/-- Decode one message of format `f` and run it (R140: the status selects the rule; R90: the format is known from where
the message arrives). -/
def runMessage (f : Format) (bytes : List Byte) (s : State) : Out :=
  match decode s.cfg f bytes with
  | .ok (i, _) => exec i s
  | .error e => .refused (.undecodable e)

/-- The waiting event is delivered (R262). -/
def deliverPending (bytes : List Byte) (s : State) : Out :=
  runMessage .status bytes { s with adapter := { s.adapter with pendingEvent := none } }

/-- The bus traffic still to come. -/
def State.setArrivals (s : State) (arrivals : List Arrival) : State :=
  { s with env := { s.env with arrivals := arrivals } }

/-- A piece of bus traffic reaches the device: an event is handled, or waits while events are not enabled (R129, R257);
an address byte is seen by the adapter. -/
def arrive (a : Arrival) (rest : List Arrival) (s : State) : Out :=
  let s := s.setArrivals rest
  match a.port with
  | .event => if s.control.initialised then runMessage .status a.bytes s else .next (s.setPending a.bytes)
  | .address => runMessage .addrByte a.bytes s

/-- The next piece of bus traffic is one turn of Host nearer. -/
def countDown : List Arrival → List Arrival
  | [] => []
  | a :: rest => { a with delay := a.delay - 1 } :: rest

/-- A turn of Host: one micro-step of the operation in progress, or the next call of ordinary code, or nothing. -/
def hostTurn (s : State) : Out :=
  let s := s.setArrivals (countDown s.env.arrivals)
  if s.run.phase.isIdle then
    match s.env.calls with
    | bytes :: rest => runMessage .hostOp bytes { s with env := { s.env with calls := rest } }
    | [] => .next s
  else hostStep s

/-- `s` ready to take a message: initialised, no Handler run and no operation in progress, nothing waiting, no bus
traffic due. -/
def readyForMessage (s : State) : State :=
  { s with
    control := { s.control with initialised := true }
    run := { s.run with phase := .idle, inHandler := false, stopWait := false }
    adapter := { s.adapter with pendingEvent := none }
    env := { s.env with arrivals := [] } }

/-- `s` with a message as the next thing to be taken. -/
def placeMessage (f : Format) (bytes : List Byte) (s : State) : State :=
  let s := readyForMessage s
  match f with
  | .status => { s with env := { s.env with arrivals := [⟨0, .event, bytes⟩] } }
  | .addrByte => { s with env := { s.env with arrivals := [⟨0, .address, bytes⟩] } }
  | .hostOp => { s with env := { s.env with calls := bytes :: s.env.calls } }

end Sys2Proof.Machine
end

