-- ==== Sys2Proof/Machine/Step.lean ====
section
/-! DEFINITION. One step of the device: whose turn it is, what is decoded, and exec on it. The Handler preempts Host
between two micro-steps and runs to its return before Host goes on (spec/20_memory.md R66, spec/42_transfer_api.md
R198, spec/60_exceptions.md R258). The scheduling itself stands in Turns.lean. -/

namespace Sys2Proof.Machine

/-- One step. A Handler in the stop-complete wait evaluates it once more (R162); a Handler that has otherwise not
returned hangs the device (R263); a waiting event is delivered as soon as events are enabled (R130, R262); otherwise the
next piece of bus traffic arrives if it is its time, and if not Host takes a turn. -/
def step (s : State) : Host.Outcome State Fault Refusal :=
  if s.run.stopWait then .next s.pollStop.leaveHandler
  else if s.run.inHandler then .next s
  else
    match s.adapter.pendingEvent with
    | some bytes => if s.control.initialised then deliverPending bytes s else hostTurn s
    | none =>
      match s.env.arrivals with
      | a :: rest => if a.delay = 0 then arrive a rest s else hostTurn s
      | [] => hostTurn s

/-- `s` with the instruction of the table word `w` as the very next thing the device does: a status as the bus event
that arrives now, a call as the call ordinary code makes now (log entry 11). What that takes is set: events are enabled
and operations admitted (`initialised`), no Handler run and no operation is in progress, nothing else waits. -/
def State.withFetchWord (s : State) (nbits w : Nat) : State :=
  placeMessage (tableFormat nbits w) (tableBytes nbits w) s

end Sys2Proof.Machine
end

