-- ==== Sys2Proof/Machine/Lobby.lean ====
section
/-! DEFINITION. Several devices running `handshake()` on one bus, with the abstract probe of spec/43_handshake.md R232 in
place of the events of a transfer. Each device is a whole `State`; a turn is one probe (H1), or one micro-step of the
device's Host (H2 to H8), so the gap between the probe that finds an address free and the claim (R233) is there. The
premise `HS_ATOMIC_PROBE_CLAIM` is a property of a schedule of turns, for statements to assume (R233, R234). This is a
definition for statements about the protocol; the step of one device does not use it. -/

namespace Sys2Proof.Machine

/-- A turn of one device, and whether the bus is contended if it is a probe (R232 c). -/
structure Turn where
  device : Nat
  contended : Bool
  deriving DecidableEq, Repr

/-- What a turn answers. -/
abbrev LobbyOut := Host.Outcome (List State) Fault Refusal

/-- What one device answers, put back among the others. -/
def putBack (o : Out) (k : State → List State) : LobbyOut :=
  match o with
  | .next s => .next (k s)
  | .fault f => .fault f
  | .refused r => .refused r

/-- The candidate whose address the device's next turn probes (R223 H1). -/
def State.candidate (s : State) : Option Nat :=
  match s.run.phase with
  | .hsLoop (i + 1) => some i
  | .hsLoop 0 | .idle | .configure _ | .write _ _ | .read _ _ _ | .handshake _ _ => none

/-- The address of identity `i` (R222). -/
def identityAddress (c : Config) (i : Nat) : Address := busAddress (low8 (c.offset + i))

/-- The first device other than `p` that answers at bus address `a`, if there is one. That the first answers where two
devices have one address is the model's choice (U11 leaves it undefined; log entry 21). So is that the prober's own
address does not count, so that an address only the prober has is free to it (R232 names that case under neither (a) nor
(b); log entry 34). -/
def ownerOf (js : List State) (p : Nat) (a : Address) : Option Nat :=
  (List.range js.length).find? fun d => d ≠ p && (js[d]?.bind (·.control.ownAddress)) == some a

/-- The probe of candidate `i` has returned with `e` (R232); H2 is next. -/
def State.probeEnds (s : State) (i : Nat) (e : LastError) : State := (s.setLastError e).goto (.handshake i .h2)

/-- What a probe does at the device that owns the address: it "runs `hsOnRequest` (or whatever `onRequest` it has installed)
once" (R232 a), in the two Handler runs R232 names; the byte it sends is then in its data latch. -/
def answerProbe (t : State) : Out := andThen (exec .ttAddrAck t) (exec .ttDataNack)

/-- One probe of candidate `i` by device `p`, one of the three atomic steps of R232: (c) the bus was contended, (b) no other
device has the address, (a) device `d` has it. -/
def probe (js : List State) (p : Nat) (s : State) (i : Nat) (contended : Bool) : LobbyOut :=
  if contended then .next (js.set p (s.probeEnds i (.code (s.cfg.code .arbLost))))
  else
    match ownerOf js p (identityAddress s.cfg i) with
    | none => .next (js.set p (s.probeEnds i (.code (s.cfg.code .crAddrNack))))
    | some d =>
      match js[d]? with
      | none => .next js
      | some t =>
        putBack (answerProbe t) fun u =>
          (js.set d u).set p (({ s with dummy := u.adapter.dataLatch } : State).probeEnds i .noError)

/-- One turn (R223, R232). -/
def lobbyTurn (js : List State) (t : Turn) : LobbyOut :=
  match js[t.device]? with
  | none => .next js
  | some s =>
    match s.candidate with
    | some i => probe js t.device s i t.contended
    | none => putBack (hostStep s) (js.set t.device ·)

/-- A schedule of turns, stopping at the first fault or refusal. -/
def lobbyRun : List Turn → List State → LobbyOut
  | [], js => .next js
  | t :: rest, js =>
    match lobbyTurn js t with
    | .next js' => lobbyRun rest js'
    | .fault f => .fault f
    | .refused r => .refused r

/-- The identity whose address the device has as its own, if it has one of them. -/
def State.held (s : State) : Option Nat :=
  match s.control.ownAddress with
  | none => none
  | some a =>
    if s.cfg.offset ≤ a.toNat ∧ a.toNat < s.cfg.offset + s.cfg.joiners then some (a.toNat - s.cfg.offset) else none

/-- The identity whose address a probe has found free and that the device has still to claim: it stands before or at the
first micro-step of H4. -/
def State.claimsNext (s : State) : Option Nat :=
  match s.run.phase with
  | .handshake i .h2 => if s.ctx.lastError = .code (s.cfg.code .crAddrNack) then some i else none
  | .handshake i (.h3 e) => if e = .code (s.cfg.code .crAddrNack) then some i else none
  | .handshake i .h4Own => some i
  | .handshake _ .h4Call | .handshake _ .h5 | .handshake _ .h6 | .handshake _ .h7
  | .idle | .configure _ | .write _ _ | .read _ _ _ | .hsLoop _ => none

/-- The identity the device is about to claim, or has claimed without having installed its callbacks yet: it stands
between the probe and the end of H6 (R309 d). -/
def State.settling (s : State) : Option Nat :=
  match s.run.phase with
  | .handshake i .h4Call | .handshake i .h5 | .handshake i .h6 => some i
  | .handshake _ .h2 | .handshake _ (.h3 _) | .handshake _ .h4Own | .handshake _ .h7
  | .idle | .configure _ | .write _ _ | .read _ _ _ | .hsLoop _ => s.claimsNext

/-- The turn is not a probe of a candidate that another device is `occupied` with. -/
def turnApart (occupied : State → Option Nat) (js : List State) (t : Turn) : Prop :=
  ∀ s i, js[t.device]? = some s → s.candidate = some i →
    ∀ (q : Nat) (u : State), q ≠ t.device → js[q]? = some u → occupied u ≠ some i

/-- No turn of the schedule is such a probe. With `State.claimsNext` this is the premise `HS_ATOMIC_PROBE_CLAIM` of R233: H1
to H4 of a probe that ends in "free" form one step that no other device's probe of the same address overlaps. -/
def runApart (occupied : State → Option Nat) : List Turn → List State → Prop
  | [], _ => True
  | t :: rest, js =>
    turnApart occupied js t ∧ ∀ js', lobbyTurn js t = .next js' → runApart occupied rest js'

end Sys2Proof.Machine
end

