-- ==== Sys2Proof/Machine/Pairing.lean ====
section
/-! DEFINITION. Two devices on one bus, at the level of events (spec/40_adapter_primitives.md R137): each byte of a
transfer is one joint step of the controller and of the device it addresses, their Handler runs in the order of the
wire. This is a definition for statements about whole transfers between two devices (spec/95_test_vectors.md PR2); the
step of one device does not use it. -/

namespace Sys2Proof.Machine

/-- A device that transfers as a controller, and another device on the same bus. -/
structure Pair where
  controller : State
  target : State
  deriving DecidableEq, Repr

/-- What a joint step answers. -/
abbrev PairOut := Host.Outcome Pair Fault Refusal

/-- The target handles an event, then `k`. -/
def Pair.atTarget (p : Pair) (i : Instr) (k : Pair → PairOut) : PairOut :=
  match exec i p.target with
  | .next t => k { p with target := t }
  | .fault f => .fault f
  | .refused r => .refused r

/-- The controller handles an event, then `k`. -/
def Pair.atController (p : Pair) (i : Instr) (k : Pair → PairOut) : PairOut :=
  match exec i p.controller with
  | .next t => k { p with controller := t }
  | .fault f => .fault f
  | .refused r => .refused r

/-- The event a receiving target gets for a data byte; none if it is not receiving. -/
def Wire.receiveEvent (w : Wire) (b : Byte) : Option Instr :=
  match w with
  | .trData => some (.trDataAck b)
  | .trGcallData => some (.trGcallDataAck b)
  | .idle | .addressing _ | .ctData | .crMore | .crLast | .ttMore | .ttLast => none

/-- The event a transmitting target gets when its byte was acknowledged, or was not; none if it is not
transmitting. -/
def Wire.transmitEvent (w : Wire) (acknowledged : Bool) : Option Instr :=
  match w, acknowledged with
  | .ttMore, true => some .ttDataAck
  | .ttLast, true => some .ttLastData
  | .ttMore, false | .ttLast, false => some .ttDataNack
  | .idle, _ | .addressing _, _ | .ctData, _ | .crMore, _ | .crLast, _ | .trData, _ | .trGcallData, _ => none

/-- After the controller's run: if it stopped, a receiving target sees the stop (R156). -/
def Pair.seeStop (p : Pair) : PairOut :=
  match p.controller.adapter.lastReply, p.target.wire with
  | some .stop, .trData | some .stop, .trGcallData => p.atTarget .trStop .next
  | _, _ => .next p

/-- The byte on the bus that the controller reads: what a transmitting target has put in its latch; from a bus no device
drives, some byte (log entry 13). -/
def Pair.drivenByte (p : Pair) : Byte :=
  if (p.target.wire.transmitEvent true).isSome then p.target.adapter.dataLatch
  else Config.freeBusByte p.controller.adapter.actions.length

/-- A data byte the controller reads, acknowledged or not: first the controller's event, then the target's. -/
def Pair.readByte (p : Pair) (acknowledged : Bool) : PairOut :=
  p.atController (if acknowledged then .crDataAck p.drivenByte else .crDataNack p.drivenByte) fun q =>
    match p.target.wire.transmitEvent acknowledged with
    | some i => q.atTarget i .next
    | none => .next q

/-- The next joint step of a transfer whose controller has asked for the bus, without contention (R137). "An address no
device owns is not acknowledged". -/
def Pair.step (p : Pair) : PairOut :=
  match p.controller.wire with
  | .idle => if p.controller.adapter.armed then p.atController .start .next else .next p
  | .addressing read =>
    match p.target.addressedAs (p.controller.adapter.dataLatch.extractLsb' 1 7) read with
    | some role =>
      p.atTarget ((role.status false).instr 0) fun q =>
        q.atController (if read then .crAddrAck else .ctAddrAck) Pair.seeStop
    | none => p.atController (if read then .crAddrNack else .ctAddrNack) .next
  | .ctData =>
    match p.target.wire.receiveEvent p.controller.adapter.dataLatch with
    | some i => p.atTarget i fun q => q.atController .ctDataAck Pair.seeStop
    | none => p.atController .ctDataNack .next
  | .crMore => p.readByte true
  | .crLast => p.readByte false
  | .trData | .trGcallData | .ttMore | .ttLast => .next p

/-- `k` joint steps, stopping at the first fault or refusal. -/
def Pair.run : Nat → Pair → PairOut
  | 0, p => .next p
  | k + 1, p =>
    match p.step with
    | .next q => Pair.run k q
    | .fault f => .fault f
    | .refused r => .refused r

end Sys2Proof.Machine
end

