-- ==== Sys2Proof/Safety.lean ====
section
/-! DEFINITION. The terms in which statements speak of good states and good runs: the invariant of one device, the
readiness for an event and for a call, runs of several steps, and the invariant of a controller transfer under the
environment contract (spec/10_state.md R35 to R38, spec/40_adapter_primitives.md R134). -/

namespace Sys2Proof.Machine

/-! ### The invariant of one device -/

/-- What an operation in progress keeps of its arguments and counters (R182, R185, R194, R223). -/
def Phase.Sound (c : Config) : Phase → Prop
  | .idle => True
  | .configure _ => True
  | .write w pt =>
    1 ≤ w.length ∧ w.length ≤ c.cap ∧ w.length ≤ w.data.length ∧ addressOk w.address = true ∧
    (∀ j, pt = .w2 j → j ≤ w.length) ∧ (∀ n, pt = .w7 n → n ≤ c.idleThreshold)
  | .read r pt caller =>
    1 ≤ r.length ∧ r.length ≤ c.maxIndex ∧ addressOk r.address = true ∧
    (∀ n, pt = .rd7 n → n ≤ c.idleThreshold) ∧
    (∀ i, caller = .handshake i → i < c.joiners ∧ r.destination = .dummy ∧ r.length = 1)
  | .hsLoop left => left ≤ c.joiners
  | .handshake i _ => i < c.joiners

/-- The invariant of one device between two steps. -/
structure State.Inv (s : State) : Prop where
  /-- The parameters are legal (R4, R7, R8). -/
  legal : s.cfg.Legal
  /-- The caller's memory is in canonical form. -/
  memory : s.memory.wf
  /-- So is `txBuffer`, and it lists indices below `CAP` only (R21, R60). -/
  txBuffer : s.ctx.txBuffer.wf
  txBound : ∀ cell ∈ s.ctx.txBuffer, cell.1 < s.cfg.cap
  /-- And the variables of user code. -/
  vars : s.vars.wf
  /-- No index wraps (R10, R169). -/
  cursor : s.ctx.cursor ≤ s.cfg.maxIndex
  length : s.ctx.length ≤ s.cfg.maxIndex
  counter : s.control.hsCounter ≤ s.cfg.maxIndex
  /-- The Handler is in progress between two steps only in the stop-complete wait (R141, R162). -/
  handler : s.run.inHandler = s.run.stopWait
  request : s.run.requestRun = false
  stopWait : s.run.stopWait = true → s.adapter.stopPending = true
  /-- Before `init()` the block is passive (R290): nothing emitted, no callback, no own address, not busy. -/
  passive : s.control.initialised = false →
    s.adapter.actions = [] ∧ s.ctx.onRequest = none ∧ s.ctx.onReceive = none ∧ s.control.ownAddress = none ∧
    s.ctx.busy = false ∧ s.run.phase = .idle ∧ s.run.inHandler = false
  phase : s.run.phase.Sound s.cfg

/-! ### Readiness and runs -/

/-- An event can be delivered (R130): events are enabled and no Handler run is in progress. -/
abbrev State.EventReady (s : State) : Prop :=
  s.control.initialised = true ∧ s.run.inHandler = false ∧ s.run.stopWait = false

/-- Ordinary code can call an operation (R199): initialised, not inside a callback, no operation in progress. -/
abbrev State.CallReady (s : State) : Prop :=
  s.control.initialised = true ∧ s.run.inHandler = false ∧ s.run.phase = .idle

/-- An operation that a callback may call as well can be called (R199): initialised, and inside a callback or with no
operation in progress. -/
abbrev State.AnyCallReady (s : State) : Prop :=
  s.control.initialised = true ∧ (s.run.inHandler = true ∨ s.run.phase = .idle)

/-- `transmit` can be called (R187): initialised, inside the `onRequest` call of a Handler run. -/
abbrev State.RequestReady (s : State) : Prop :=
  s.control.initialised = true ∧ s.run.inHandler = true ∧ s.run.requestRun = true ∧
  (s.run.transmitCalled = false ∨ s.cfg.secondTransmit = .lastWins)

/-- It is Host's turn (R198): no Handler run is in progress, and no event is due. An event that waits for `init()` does not
keep Host from its turn. -/
abbrev State.HostTurn (s : State) : Prop :=
  s.run.stopWait = false ∧ s.run.inHandler = false ∧
  (s.adapter.pendingEvent.isSome = true ∧ s.control.initialised = false ∨
   s.adapter.pendingEvent = none ∧ ∀ a rest, s.env.arrivals = a :: rest → a.delay ≠ 0)

/-- No bus traffic waits or is to come, and no Handler run is in progress: the next step is Host's. -/
abbrev State.Quiet (s : State) : Prop :=
  s.run.inHandler = false ∧ s.run.stopWait = false ∧ s.adapter.pendingEvent = none ∧ s.env.arrivals = []

/-- `k` steps, all of which answer a next state. -/
def runs (k : Nat) (s t : State) : Prop := Host.Core.run Sys2Proof.core k s = .next t

/-- The events `events`, one exec each, all of which answer a next state. -/
def handles : List Instr → State → State → Prop
  | [], s, t => s = t
  | i :: rest, s, t => ∃ u, exec i s = .next u ∧ handles rest u t

/-! ### What a run leaves, for the statements about one instruction -/

/-- `s` after a Handler run that did nothing else than emit `commands` and reply `r` to raw status `raw`: the Handler has
returned (R261) and the adapter remembers the status and the reply (R134). -/
def State.handled (s : State) (raw : Byte) (r : Reply) (commands : List Action) : State :=
  { s with
    run := { s.run with inHandler := false }
    adapter := { s.adapter with lastEvent := some raw, lastReply := some r,
                                actions := s.adapter.actions ++ commands } }

/-- The reply chosen by exhaustion: acknowledge while more bytes follow (R147, R163). -/
def replyWhile (more : Bool) : Reply := if more then .ack else .nack

/-- The command of a reply (R104). -/
def Reply.command : Reply → Action
  | .ack => .ack
  | .nack => .nack
  | .stop => .stop

/-- The last command of a Handler run is one of these (R141; `stopWait` is `issueStop` with the wait of R162). -/
def Action.isReply : Action → Bool
  | .ack | .nack | .stop | .stopWait => true
  | .writeLatch _ | .arm _ | .lines _ | .callOnRequest | .callOnReceive => false

/-- The statuses without a rule of their own, with the raw byte each is delivered as (R91, R162). -/
def errorStatuses (c : Config) : List (Instr × Byte) :=
  [(.busError, c.code .busError), (.ctAddrNack, c.code .ctAddrNack), (.ctDataNack, c.code .ctDataNack),
   (.crAddrNack, c.code .crAddrNack), (.trDataNack, c.code .trDataNack),
   (.trGcallDataNack, c.code .trGcallDataNack), (.noInfo, c.code .noInfo)]

/-! ### A controller transfer under the environment contract -/

/-- A write's outgoing bytes are in `txBuffer` (R182 W2). -/
def State.TxHolds (s : State) : Prop :=
  s.ctx.length ≤ s.cfg.cap ∧ ∀ i, i < s.ctx.length → (s.ctx.txBuffer.read i).isSome = true

/-- A read's region has room for `length + 1` bytes (R185 RD2, RD3). -/
def State.RxHolds (s : State) : Prop := s.ctx.rxTarget.cap = s.ctx.length + 1

/-- What the direction bit of an address byte asks for: a write's bytes or a read's region. -/
def State.HoldsFor (s : State) (read : Bool) : Prop := if read then s.RxHolds else s.TxHolds

/-- What holds of the device's own controller transfer at each place of the wire it can stand at, from the request for
arbitration (W8, RD8) to the transfer's end (R36, R134). -/
def State.ControllerInv (s : State) : Prop :=
  s.cfg.Legal ∧ s.EventReady ∧ s.ctx.busy = true ∧
  s.readable .cursor = true ∧ s.readable .length = true ∧ s.readable .rxTarget = true ∧
  s.readable .addressAndDirection = true ∧
  match s.wire with
  | .idle => s.adapter.armed = true ∧ s.ctx.cursor = 0 ∧ s.HoldsFor (s.ctx.addressAndDirection.getLsbD 0)
  | .addressing read => s.ctx.cursor = 0 ∧ s.HoldsFor read
  | .ctData => s.ctx.cursor ≤ s.ctx.length ∧ s.TxHolds
  | .crMore => s.ctx.cursor < s.ctx.length ∧ s.RxHolds
  | .crLast => s.ctx.cursor = s.ctx.length ∧ s.RxHolds
  | .trData | .trGcallData | .ttMore | .ttLast => False

/-! ### A target-transmit transfer under the environment contract -/

/-- What holds of the device's target-transmit transfer between two events (R36, R134, R157): after a reply "acknowledge"
more bytes follow, after a reply "non-acknowledge" none does. -/
def State.TargetTransmitInv (s : State) : Prop :=
  s.cfg.Legal ∧ s.EventReady ∧ s.ctx.busy = true ∧ s.readable .cursor = true ∧ s.readable .length = true ∧ s.TxHolds ∧
  match s.wire with
  | .ttMore => s.ctx.cursor < s.ctx.length
  | .ttLast => s.ctx.cursor = s.ctx.length
  | .idle | .addressing _ | .ctData | .crMore | .crLast | .trData | .trGcallData => False

/-! ### Several devices in the handshake -/

/-- A device that has just entered `handshake()` (R223 H0) and has none of the identities' addresses. -/
def State.Fresh (c : Config) (s : State) : Prop :=
  s.cfg = c ∧ s.EventReady ∧ s.run.phase = .hsLoop c.joiners ∧ s.control.hsCounter = 0 ∧ s.written.hsCounter = true ∧
  s.held = none

/-- Where a device of the lobby can stand: until it claims it has none of the identities' addresses, and from the claim on
the address of the identity it claimed (R223). -/
def State.LobbyMember (c : Config) (s : State) : Prop :=
  s.cfg = c ∧
  match s.run.phase with
  | .hsLoop left => left ≤ c.joiners ∧ s.held = none
  | .handshake i .h2 => i < c.joiners ∧ s.held = none ∧ s.written.lastError = true
  | .handshake i (.h3 _) | .handshake i .h4Own => i < c.joiners ∧ s.held = none
  | .handshake i .h4Call | .handshake i .h5 | .handshake i .h6 | .handshake i .h7 => s.held = some i
  | .idle => True
  | .configure _ | .write _ _ | .read _ _ _ => False

/-- The identity a device has or is about to claim. -/
def State.stake (s : State) : Option Nat := s.claimsNext.or s.held

/-- No two devices of the lobby have or are about to claim one identity. -/
def LobbyInv (c : Config) (js : List State) : Prop :=
  (∀ s ∈ js, s.LobbyMember c) ∧
  ∀ (p q : Nat) (s u : State) (i : Nat), p ≠ q → js[p]? = some s → js[q]? = some u → s.stake = some i →
    u.stake ≠ some i

/-- A device that answers a probe by counting it (R227, R231). -/
abbrev State.CountsProbes (s : State) : Prop :=
  s.EventReady ∧ s.ctx.onRequest = some .hsOnRequest ∧ s.readable .hsCounter = true ∧
  s.control.hsCounter < s.cfg.maxIndex ∧ 1 ≤ s.cfg.cap

end Sys2Proof.Machine
end

