-- ==== Sys2Proof/Certificates/Slice0/Obligations.lean ====
section
/-! DEFINITION. The statements for the provers, each a rule of spec/ or a consequence of several. A statement over every
state holds for every value of every parameter of spec/00_scope.md, since the parameters stand in the state. -/

open Sys2Proof Sys2Proof.Machine

/-! ### Encodings -/

/-- R90, R91, R95, R97, R98: decoding the bytes of any well-formed instruction, whatever bytes follow, gives it back with
every operand; an object form decodes to the operation it stands for. (The operand bytes of a call: log entry 9; the
codes' default and the address byte's layout are the spec's own, D2 and D3.) -/
def Obligations.DecodeOfEncodeGivesTheInstruction : Prop :=
  ∀ (c : Config) (i : Instr) (rest : List Byte), c.Legal → i.wellFormed c = true →
    decode c i.format (encode c i ++ rest) = .ok (i.expand, rest)

/-- R90, R99, R103: whatever the decoder reads is a well-formed instruction of that format, and its encoding is exactly
the bytes consumed: no bit is dropped and each message has one meaning. (The operand bytes of a call: log entry 9.) -/
def Obligations.EncodeOfDecodeGivesTheBytes : Prop :=
  ∀ (c : Config) (f : Format) (bytes : List Byte) (i : Instr) (rest : List Byte), c.Legal →
    decode c f bytes = .ok (i, rest) →
    i.wellFormed c = true ∧ i.format = f ∧ i.expand = i ∧ encode c i ++ rest = bytes

/-- R99, R140: every status byte selects an instruction; with a byte after it (the received byte, where the status carries
one) nothing is rejected. (The received byte after the code: the spec's own notation, D26.) -/
def Obligations.EveryStatusByteDecodes : Prop :=
  ∀ (c : Config) (b latch : Byte) (rest : List Byte), c.Legal →
    ∃ i rest', decode c .status (b :: latch :: rest) = .ok (i, rest') ∧
      (∀ x : Status, c.code x = b → i = x.instr latch) ∧
      ((∀ x : Status, c.code x ≠ b) → i = .otherStatus b)

/-- Words written out from spec/opcode_table.json decode to their instructions (R92, R103). (The numbers are the spec's
own, D2 and D26; the format of a bare word: log entry 10.) -/
def Obligations.TableWordsDecode : Prop :=
  decodeTableWord 8 0x08 = some .start ∧ decodeTableWord 8 0x28 = some .ctDataAck ∧
  decodeTableWord 16 0x5A58 = some (.crDataNack 0x5A) ∧ decodeTableWord 16 0x1180 = some (.trDataAck 0x11) ∧
  decodeTableWord 8 0xA8 = some .ttAddrAck ∧ decodeTableWord 8 0xE0 = some (.otherStatus 0xE0) ∧
  decodeTableWord 8 0x0A = some .init ∧
  decode resetConfig .addrByte [0x41] = .ok (.addrByteRead 0x20, [])

/-- R95: `addrByte(address, dir)` is `address * 2 + dir`. (The layout is the spec's own, D3.) -/
def Obligations.AddressByteIsTwiceTheAddressPlusDirection : Prop :=
  ∀ (a : Address) (dir : Bool), (addrByte a dir).toNat = a.toNat * 2 + dir.toNat

/-! ### The step -/

/-- A step runs the instruction decoded from the message where it arrives: an event due now, an event that waited, an
address byte due now; and on Host's turn, with no operation in progress, the next call of ordinary code, while the bus
traffic to come is one turn nearer (R90, R130, R140, R198, R262). (Whose turn it is: log entry 15. Step size: D20.) -/
def Obligations.StepRunsTheDecodedInstruction : Prop :=
  ∀ (s : State) (i : Instr) (bytes rest : List Byte), s.run.inHandler = false → s.run.stopWait = false →
    (∀ later, s.control.initialised = true → s.adapter.pendingEvent = none →
      s.env.arrivals = ⟨0, .event, bytes⟩ :: later → decode s.cfg .status bytes = .ok (i, rest) →
      step s = exec i { s with env := { s.env with arrivals := later } }) ∧
    (s.control.initialised = true → s.adapter.pendingEvent = some bytes → decode s.cfg .status bytes = .ok (i, rest) →
      step s = exec i { s with adapter := { s.adapter with pendingEvent := none } }) ∧
    (∀ later, s.adapter.pendingEvent = none → s.env.arrivals = ⟨0, .address, bytes⟩ :: later →
      decode s.cfg .addrByte bytes = .ok (i, rest) →
      step s = exec i { s with env := { s.env with arrivals := later } }) ∧
    (∀ calls, s.HostTurn → s.run.phase = .idle → s.env.calls = bytes :: calls →
      decode s.cfg .hostOp bytes = .ok (i, rest) →
      step s = exec i { s with env := { s.env with arrivals := countDown s.env.arrivals, calls := calls } })

/-- R130, R257, R258, R290: an event that arrives before `init()` is not handled, it waits; and while a Handler run is in
progress no event is delivered and Host does not move: a step changes neither `phase` nor the calls nor the bus traffic to
come, emits nothing, and loses no event that waits. (Log entry 15.) -/
def Obligations.EventsAreMaskedBeforeInitAndDuringARun : Prop :=
  ∀ (s : State),
    (∀ (d : List Byte) (later : List Arrival), s.control.initialised = false → s.run.inHandler = false →
      s.run.stopWait = false → s.adapter.pendingEvent = none → s.env.arrivals = ⟨0, .event, d⟩ :: later →
      step s = .next { s with
        adapter := { s.adapter with pendingEvent := some d }, env := { s.env with arrivals := later } }) ∧
    ((s.run.stopWait = true ∨ s.run.inHandler = true) → ∃ t, step s = .next t ∧
      t.run.phase = s.run.phase ∧ t.env.calls = s.env.calls ∧ t.env.arrivals = s.env.arrivals ∧
      t.adapter.pendingEvent = s.adapter.pendingEvent ∧ t.adapter.actions = s.adapter.actions)

/-! ### Start and controller-transmit -/

/-- R142, R143: the two start statuses put the latched address+direction byte in the latch, reply `requestAck()`, and
change no field of the context. Where the parameter makes a read of a register that no rule has written a fault (R39), a
start before any `write` or `read` is that fault. (The reply is the spec's own, D4; the fault D18, log entry 3.) -/
def Obligations.StartSendsTheLatchedAddressByte : Prop :=
  ∀ (i : Instr) (x : Status) (s : State), (i, x) ∈ [(.start, .start), (.repStart, .repStart)] → s.EventReady →
    (s.readable .addressAndDirection = true →
      exec i s = .next (({ s with
        adapter := { s.adapter with dataLatch := s.ctx.addressAndDirection, armed := false } }).handled
      (s.cfg.code x) .ack [.writeLatch s.ctx.addressAndDirection, .ack])) ∧
    (s.cfg.resetReads = .fault → s.written.addressAndDirection = false →
      exec i s = .fault (.uninitialisedRead .addressAndDirection))

/-- R144, R145, R163: at `cursor = length` the run issues a stop and clears `busy`; below it the byte at `cursor` goes to
the latch, `cursor` advances by one, the reply is `requestAck()`; above it the event is the fault `CursorOverrun`. Nothing
else changes. A byte of `txBuffer` that nothing has written is the fault of R39. (The reply after a byte and the faults
are the spec's own, D5, D15, D18.) -/
def Obligations.ControllerTransmitSendsOrStops : Prop :=
  ∀ (i : Instr) (x : Status) (s : State), (i, x) ∈ [(.ctAddrAck, .ctAddrAck), (.ctDataAck, .ctDataAck)] →
    s.EventReady → s.readable .cursor = true → s.readable .length = true →
    (s.ctx.cursor = s.ctx.length →
      exec i s = .next (({ s with
        ctx := { s.ctx with busy := false }
        adapter := { s.adapter with stopPending := true } }).handled (s.cfg.code x) .stop [.stop])) ∧
    (∀ b, s.ctx.cursor < s.ctx.length → s.ctx.cursor < s.cfg.cap → s.ctx.txBuffer.read s.ctx.cursor = some b →
      exec i s = .next (({ s with
        ctx := { s.ctx with cursor := s.ctx.cursor + 1 }
        written := { s.written with cursor := true }
        adapter := { s.adapter with dataLatch := b } }).handled (s.cfg.code x) .ack [.writeLatch b, .ack])) ∧
    (s.ctx.length < s.ctx.cursor → exec i s = .fault (.cursorOverrun s.ctx.cursor s.ctx.length)) ∧
    (s.ctx.cursor < s.ctx.length → s.ctx.cursor < s.cfg.cap → s.ctx.txBuffer.read s.ctx.cursor = none →
      exec i s = .fault (.uninitialisedRead (.txByte s.ctx.cursor))) ∧
    (s.ctx.cursor < s.ctx.length → s.cfg.cap ≤ s.ctx.cursor → exec i s = .fault (.txIndexOutOfRange s.ctx.cursor))

/-- R146: arbitration lost records its code, clears `busy`, replies `requestAck()`, and changes nothing else. -/
def Obligations.ArbitrationLossIsRecordedAndEndsTheTransfer : Prop :=
  ∀ s : State, s.EventReady →
    exec .arbLost s = .next (({ s with
        ctx := { s.ctx with lastError := .code (s.cfg.code .arbLost), busy := false }
        written := { s.written with lastError := true } }).handled (s.cfg.code .arbLost) .ack [.ack])

/-! ### Controller-receive -/

/-- R147: on the address acknowledge nothing is copied; the reply is acknowledge exactly while `cursor < length`. -/
def Obligations.ControllerReceiveAddressAckOnlyReplies : Prop :=
  ∀ s : State, s.EventReady → s.readable .cursor = true → s.readable .length = true →
    exec .crAddrAck s = .next (s.handled (s.cfg.code .crAddrAck) (replyWhile (s.ctx.cursor < s.ctx.length))
      [(replyWhile (s.ctx.cursor < s.ctx.length)).command])

/-- R148: the received byte goes to `rxTarget[cursor]`, `cursor` advances, the reply is acknowledge exactly if the
advanced cursor is below `length`; an event that would take `cursor` past `length` is `CursorOverrun`, and an index
outside the region is `RxIndexOutOfRange`. The region is the caller's, or the handshake's `dummy`. (The faults are the
spec's own, D15, D35.) -/
def Obligations.ControllerReceiveStoresTheByte : Prop :=
  ∀ (s : State) (v : Byte), s.EventReady →
    s.readable .cursor = true → s.readable .length = true → s.readable .rxTarget = true →
    (∀ base, s.ctx.cursor < s.ctx.length → s.ctx.cursor < s.ctx.rxTarget.cap → s.ctx.rxTarget.base = .caller base →
      exec (.crDataAck v) s = .next (({ s with
        memory := s.memory.write (base + s.ctx.cursor) v
        ctx := { s.ctx with cursor := s.ctx.cursor + 1 }
        written := { s.written with cursor := true }
        adapter := { s.adapter with dataLatch := v } }).handled (s.cfg.code .crDataAck)
          (replyWhile (s.ctx.cursor + 1 < s.ctx.length)) [(replyWhile (s.ctx.cursor + 1 < s.ctx.length)).command])) ∧
    (s.ctx.cursor < s.ctx.length → s.ctx.cursor < s.ctx.rxTarget.cap → s.ctx.rxTarget.base = .dummy →
      exec (.crDataAck v) s = .next (({ s with
        dummy := v
        ctx := { s.ctx with cursor := s.ctx.cursor + 1 }
        written := { s.written with cursor := true }
        adapter := { s.adapter with dataLatch := v } }).handled (s.cfg.code .crDataAck)
          (replyWhile (s.ctx.cursor + 1 < s.ctx.length)) [(replyWhile (s.ctx.cursor + 1 < s.ctx.length)).command])) ∧
    (s.ctx.length ≤ s.ctx.cursor → exec (.crDataAck v) s = .fault (.cursorOverrun s.ctx.cursor s.ctx.length)) ∧
    (s.ctx.cursor < s.ctx.length → s.ctx.rxTarget.cap ≤ s.ctx.cursor →
      exec (.crDataAck v) s = .fault (.rxIndexOutOfRange s.ctx.cursor))

/-- R149: the final byte goes to `rxTarget[cursor]`, `cursor` stays, the run issues a stop and clears `busy`; an index
outside the region is `RxIndexOutOfRange`. The region is the caller's, or the handshake's `dummy`. (The fault is the
spec's own, D35.) -/
def Obligations.ControllerReceiveStoresTheFinalByteAndStops : Prop :=
  ∀ (s : State) (v : Byte), s.EventReady → s.readable .cursor = true → s.readable .rxTarget = true →
    (∀ base, s.ctx.cursor < s.ctx.rxTarget.cap → s.ctx.rxTarget.base = .caller base →
      exec (.crDataNack v) s = .next (({ s with
        memory := s.memory.write (base + s.ctx.cursor) v
        ctx := { s.ctx with busy := false }
        adapter := { s.adapter with dataLatch := v, stopPending := true } }).handled
          (s.cfg.code .crDataNack) .stop [.stop])) ∧
    (s.ctx.cursor < s.ctx.rxTarget.cap → s.ctx.rxTarget.base = .dummy →
      exec (.crDataNack v) s = .next (({ s with
        dummy := v
        ctx := { s.ctx with busy := false }
        adapter := { s.adapter with dataLatch := v, stopPending := true } }).handled
          (s.cfg.code .crDataNack) .stop [.stop])) ∧
    (s.ctx.rxTarget.cap ≤ s.ctx.cursor → exec (.crDataNack v) s = .fault (.rxIndexOutOfRange s.ctx.cursor))

/-- The frame of the two statuses that store a received byte (R148, R149, R61): of the caller's memory only the byte at
`rx.base + cursor` may differ, and it holds the byte received; every other byte reads as before. With the handshake's
`dummy` as the region all of memory is as before. `txBuffer`, `rxTarget`, `length`, `lastError`, the address byte, the
callback slots, the configuration, `hsCounter`, Host's control point and user variables are unchanged. -/
def Obligations.ReceivedByteChangesOneByteOfMemory : Prop :=
  ∀ (i : Instr) (s t : State) (v : Byte), i ∈ [.crDataAck v, .crDataNack v] → exec i s = .next t →
    (∀ a, s.ctx.rxTarget.addressOf s.ctx.cursor = some a →
      t.memory.read a = some v ∧ t.dummy = s.dummy ∧ ∀ b, b ≠ a → t.memory.read b = s.memory.read b) ∧
    (s.ctx.rxTarget.addressOf s.ctx.cursor = none → t.dummy = v ∧ t.memory = s.memory) ∧
    t.ctx.txBuffer = s.ctx.txBuffer ∧ t.ctx.rxTarget = s.ctx.rxTarget ∧ t.ctx.length = s.ctx.length ∧
    t.ctx.lastError = s.ctx.lastError ∧ t.ctx.addressAndDirection = s.ctx.addressAndDirection ∧
    t.ctx.onRequest = s.ctx.onRequest ∧ t.ctx.onReceive = s.ctx.onReceive ∧
    t.control = s.control ∧ t.cfg = s.cfg ∧ t.run.phase = s.run.phase ∧ t.vars = s.vars

/-! ### Target-receive -/

/-- R164, R150, R151, R152, R153: the four addressed statuses reset `cursor`, set `busy`, acknowledge, and change nothing
else. -/
def Obligations.AddressedForReceiveArmsTheTarget : Prop :=
  ∀ (i : Instr) (x : Status) (s : State),
    (i, x) ∈ [(.trAddrAck, .trAddrAck), (.trArbLostAddrAck, .trArbLostAddrAck), (.trGcallAck, .trGcallAck),
              (.trArbLostGcallAck, .trArbLostGcallAck)] → s.EventReady →
    exec i s = .next (({ s with
        ctx := { s.ctx with cursor := 0, busy := true }
        written := { s.written with cursor := true } }).handled (s.cfg.code x) .ack [.ack])

/-- R154, R155: a received byte goes to `txBuffer[cursor]`, `cursor` advances, the reply is always acknowledge; nothing
else changes. With `cursor >= CAP` the event is `TargetReceiveOverrun`. (The status after a general call and the fault are
the spec's own, D7, D14.) -/
def Obligations.TargetReceiveStoresTheByte : Prop :=
  ∀ (i : Instr) (x : Status) (s : State) (v : Byte),
    (i, x) ∈ [(.trDataAck v, .trDataAck), (.trGcallDataAck v, .trGcallDataAck)] →
    s.EventReady → s.readable .cursor = true →
    (s.ctx.cursor < s.cfg.cap →
      exec i s = .next (({ s with
        ctx := { s.ctx with txBuffer := s.ctx.txBuffer.write s.ctx.cursor v, cursor := s.ctx.cursor + 1 }
        written := { s.written with cursor := true }
        adapter := { s.adapter with dataLatch := v } }).handled (s.cfg.code x) .ack [.ack])) ∧
    (s.cfg.cap ≤ s.ctx.cursor → exec i s = .fault (.targetReceiveOverrun s.ctx.cursor))

/-- R156, R165: the end of a target-receive transfer calls `onReceive`, with `busy` as it was, and then clears `busy` and
acknowledges: for the handshake's callback, which does nothing (R228), and for a user callback, whose body runs from the
state the call leaves and from whose end the rule goes on. An empty slot is `NullCallback`. (The reply and the fault are
the spec's own, D6, D16; the body as data: log entry 6.) -/
def Obligations.TargetReceiveEndCallsTheCallbackAndClearsBusy : Prop :=
  ∀ s : State, s.EventReady →
    (s.ctx.onReceive = some .hsOnReceive →
      exec .trStop s = .next (({ s with ctx := { s.ctx with busy := false } }).handled
        (s.cfg.code .trStop) .ack [.callOnReceive, .ack])) ∧
    (∀ n u, s.ctx.onReceive = some (.user n) →
      runBody (s.bodyOf n) { s with
        run := { s.run with inHandler := true }
        adapter := { s.adapter with
          lastEvent := some (s.cfg.code .trStop), actions := s.adapter.actions ++ [.callOnReceive] } } = .next u →
      exec .trStop s = .next (({ u with ctx := { u.ctx with busy := false } }).handled
        (s.cfg.code .trStop) .ack [.ack])) ∧
    (s.ctx.onReceive = none → exec .trStop s = .fault (.nullCallback .onReceive))

/-- R156, R165, R192, R78, R41: a user callback sees the received bytes in the buffer. If it copies `count` of them, its own
memory from `destination` on holds them after the run, and no other byte of memory has changed; so it does if it loads them
one by one, at indices it counts, and stores each; and a byte it loads at an index it computes is the value of its variable
after the run. (The form of the body: log entry 6. Where it may load: log entry 30. A destination in the region of a `read`
still in progress: log entry 33, the model's choice.) -/
def Obligations.ReceiveCallbackReadsTheReceivedBytes : Prop :=
  ∀ (s : State) (n : Nat), s.EventReady → s.ctx.onReceive = some (.user n) →
    (∀ (destination x y : Nat) (data : List Byte), data.length ≤ s.cfg.cap → x ≠ y → s.vars.read y = 0 →
      (∀ i b, data[i]? = some b → s.ctx.txBuffer.read i = some b) →
      (s.bodyOf n = .call (.copyOwned destination data.length) .done ∨
       s.bodyOf n = .loop (.const data.length)
        (.call (.loadOwned x (.var y))
          (.call (.store (.op .add (.const destination) (.var y)) (.var x))
            (.call (.assign y (.op .add (.var y) (.const 1))) .done))) .done) →
      ∃ t, exec .trStop s = .next t ∧ t.ctx = { s.ctx with busy := false } ∧
        t.adapter.actions = s.adapter.actions ++ [.callOnReceive, .ack] ∧
        (∀ i b, data[i]? = some b → t.memory.read (destination + i) = some b) ∧
        (∀ a, (a < destination ∨ destination + data.length ≤ a) → t.memory.read a = s.memory.read a)) ∧
    (∀ (x : Nat) (index : UserExpr) (b : Byte), s.bodyOf n = .call (.loadOwned x index) .done →
      s.userValue index < s.cfg.cap → s.ctx.txBuffer.read (s.userValue index) = some b →
      ∃ t, exec .trStop s = .next t ∧ t.ctx = { s.ctx with busy := false } ∧ t.memory = s.memory ∧
        t.vars.read x = b.toNat ∧ ∀ y, y ≠ x → t.vars.read y = s.vars.read y)

/-! ### Target-transmit -/

/-- R157, R158, R163, R165, R167: addressed for a read, the run sets `busy`, calls `onRequest`, and in the same run sends
the byte at `cursor` of what the callback has set up, `cursor` advancing; the reply is acknowledge exactly if more bytes
follow. The body of the user callback runs from the state the call leaves, and the rule goes on from its end. An empty
slot is `NullCallback`, a callback that did not call `transmit` is `TransmitNotCalled`. (The faults are the spec's own,
D16, D17; the body as data: log entry 6.) -/
def Obligations.AddressedForTransmitCallsTheCallbackAndSends : Prop :=
  ∀ (i : Instr) (x : Status) (s : State),
    (i, x) ∈ [(.ttAddrAck, .ttAddrAck), (.ttArbLostAddrAck, .ttArbLostAddrAck)] → s.EventReady →
    (∀ n u, s.ctx.onRequest = some (.user n) →
      runBody (s.bodyOf n) { s with
        ctx := { s.ctx with busy := true }
        run := { s.run with inHandler := true, requestRun := true, transmitCalled := false }
        adapter := { s.adapter with
          lastEvent := some (s.cfg.code x), actions := s.adapter.actions ++ [.callOnRequest] } } = .next u →
      (∀ b, u.run.transmitCalled = true → u.ctx.cursor < u.ctx.length → u.ctx.cursor < u.cfg.cap →
        u.ctx.txBuffer.read u.ctx.cursor = some b →
        exec i s = .next (({ u with
          ctx := { u.ctx with cursor := u.ctx.cursor + 1 }
          run := { u.run with requestRun := false, transmitCalled := false }
          adapter := { u.adapter with dataLatch := b } }).handled (s.cfg.code x)
            (replyWhile (u.ctx.cursor + 1 < u.ctx.length))
            [.writeLatch b, (replyWhile (u.ctx.cursor + 1 < u.ctx.length)).command])) ∧
      (u.run.transmitCalled = false → exec i s = .fault .transmitNotCalled)) ∧
    (s.ctx.onRequest = none → exec i s = .fault (.nullCallback .onRequest))

/-- R157, R158, R167, R187: the same where `onRequest` is one call of `transmit`: `txBuffer` holds the data from index 0 on
and is otherwise as before, `length` is its length, the first byte has gone to the latch, `cursor` is 1, and nothing else
changes. (The form of the body: log entry 6.) -/
def Obligations.AddressedForTransmitSendsTheFirstByte : Prop :=
  ∀ (i : Instr) (x : Status) (s : State) (n length : Nat) (b : Byte) (data : List Byte),
    (i, x) ∈ [(.ttAddrAck, .ttAddrAck), (.ttArbLostAddrAck, .ttArbLostAddrAck)] →
    s.EventReady → s.ctx.onRequest = some (.user n) → s.bodyOf n = .call (.transmit (b :: data) length) .done →
    1 ≤ length → length ≤ s.cfg.cap → length ≤ (b :: data).length →
    ∃ t, exec i s = .next t ∧
      t = ({ s with
        ctx := { s.ctx with txBuffer := t.ctx.txBuffer, cursor := 1, length := length, busy := true }
        written := { s.written with cursor := true, length := true }
        run := { s.run with requestRun := false, transmitCalled := false, callbackResult := .nothing }
        adapter := { s.adapter with dataLatch := b } } : State).handled (s.cfg.code x) (replyWhile (1 < length))
          [.callOnRequest, .writeLatch b, (replyWhile (1 < length)).command] ∧
      (∀ j, j < length → t.ctx.txBuffer.read j = (b :: data)[j]?) ∧
      (∀ j, length ≤ j → t.ctx.txBuffer.read j = s.ctx.txBuffer.read j)

/-- R227, R157: a probe of a device that has run the handshake: `hsOnRequest` counts it and the counter's new value, its
low 8 bits, is the one byte sent, with a non-acknowledge reply; a count past the index width is `CounterOverflow`. (The
counter and its fault: the spec's own, D24.) -/
def Obligations.ProbeIsCountedAndAnswered : Prop :=
  ∀ (i : Instr) (x : Status) (s : State),
    (i, x) ∈ [(.ttAddrAck, .ttAddrAck), (.ttArbLostAddrAck, .ttArbLostAddrAck)] →
    s.EventReady → s.ctx.onRequest = some .hsOnRequest → s.readable .hsCounter = true → 1 ≤ s.cfg.cap →
    (s.control.hsCounter < s.cfg.maxIndex →
      exec i s = .next (({ s with
        ctx := { s.ctx with
          txBuffer := s.ctx.txBuffer.write 0 (BitVec.ofNat 8 (s.control.hsCounter + 1))
          cursor := 1, length := 1, busy := true }
        written := { s.written with cursor := true, length := true, hsCounter := true }
        control := { s.control with hsCounter := s.control.hsCounter + 1 }
        run := { s.run with requestRun := false, transmitCalled := false, callbackResult := .nothing }
        adapter := { s.adapter with dataLatch := BitVec.ofNat 8 (s.control.hsCounter + 1) } }).handled
      (s.cfg.code x) .nack [.callOnRequest, .writeLatch (BitVec.ofNat 8 (s.control.hsCounter + 1)), .nack])) ∧
    (s.cfg.maxIndex ≤ s.control.hsCounter → exec i s = .fault .counterOverflow)

/-- R159, R163: the byte at `cursor` goes to the latch, `cursor` advances, the reply is acknowledge exactly if the
advanced cursor is below `length`; with `cursor >= length` the event is `CursorOverrun`. A byte of `txBuffer` that nothing
has written is the fault of R39, an index at or above `CAP` that of R77. (The faults are the spec's own, D15, D18.) -/
def Obligations.TargetTransmitSendsTheNextByte : Prop :=
  ∀ (s : State), s.EventReady → s.readable .cursor = true → s.readable .length = true →
    (∀ b, s.ctx.cursor < s.ctx.length → s.ctx.cursor < s.cfg.cap → s.ctx.txBuffer.read s.ctx.cursor = some b →
      exec .ttDataAck s = .next (({ s with
        ctx := { s.ctx with cursor := s.ctx.cursor + 1 }
        written := { s.written with cursor := true }
        adapter := { s.adapter with dataLatch := b } }).handled (s.cfg.code .ttDataAck)
          (replyWhile (s.ctx.cursor + 1 < s.ctx.length))
          [.writeLatch b, (replyWhile (s.ctx.cursor + 1 < s.ctx.length)).command])) ∧
    (s.ctx.length ≤ s.ctx.cursor → exec .ttDataAck s = .fault (.cursorOverrun s.ctx.cursor s.ctx.length)) ∧
    (s.ctx.cursor < s.ctx.length → s.ctx.cursor < s.cfg.cap → s.ctx.txBuffer.read s.ctx.cursor = none →
      exec .ttDataAck s = .fault (.uninitialisedRead (.txByte s.ctx.cursor))) ∧
    (s.ctx.cursor < s.ctx.length → s.cfg.cap ≤ s.ctx.cursor →
      exec .ttDataAck s = .fault (.txIndexOutOfRange s.ctx.cursor))

/-- R160, R161: the two endings clear `busy`, acknowledge, and change nothing else. (The reply is the spec's own, D6.) -/
def Obligations.TargetTransmitEndClearsBusy : Prop :=
  ∀ (i : Instr) (x : Status) (s : State),
    (i, x) ∈ [(.ttDataNack, .ttDataNack), (.ttLastData, .ttLastData)] → s.EventReady →
    exec i s = .next (({ s with ctx := { s.ctx with busy := false } }).handled (s.cfg.code x) .ack [.ack])

/-! ### Unrecognised statuses and recovery -/

/-- R162, R251: a status without a rule of its own (the seven named ones and every other byte): the raw status is recorded
and a stop is issued whatever the adapter answers; if it confirms the stop, the stop is seen complete and `busy` is
cleared, a start still to come is not any more (R134: a new `armController` is needed), and nothing else changes. (That
the first poll belongs to the run itself: log entry 17. `armed` is the model's record of R134: log entry 23.) -/
def Obligations.UnrecognisedStatusForcesAStop : Prop :=
  ∀ (i : Instr) (raw : Byte) (s : State), ((i, raw) ∈ errorStatuses s.cfg ∨ i = .otherStatus raw) → s.EventReady →
    (∃ t, exec i s = .next t ∧ t.ctx.lastError = .code raw ∧ t.adapter.lastEvent = some raw ∧
      t.adapter.actions = s.adapter.actions ++ [.stopWait]) ∧
    (∀ later, s.env.stops = true :: later →
      exec i s = .next (({ s with
        ctx := { s.ctx with lastError := .code raw, busy := false }
        written := { s.written with lastError := true }
        env := { s.env with stops := later }
        adapter := { s.adapter with stopPending := false, armed := false } }).handled raw .stop [.stopWait]))

/-- R162, R125: if the stop is not confirmed at once the Handler stays in its wait, `busy` as it was, and each step
evaluates the wait once more; with the first confirmation `busy` is cleared and the Handler returns. (That each later poll
is a step: log entry 17. `armed` is the model's record of R134: log entry 23.) -/
def Obligations.StopCompleteWaitEndsWithTheConfirmation : Prop :=
  ∀ (i : Instr) (raw : Byte) (s : State) (n : Nat) (later : List Bool),
    ((i, raw) ∈ errorStatuses s.cfg ∨ i = .otherStatus raw) → s.EventReady →
    s.env.stops = List.replicate (n + 1) false ++ true :: later →
    ∃ u, exec i s = .next u ∧ u.run.inHandler = true ∧ u.ctx.busy = s.ctx.busy ∧
      u.ctx.lastError = .code raw ∧ u.adapter.stopPending = true ∧
      (∀ k, k < n + 1 → ∃ v, runs k u v ∧ v.run.inHandler = true ∧ v.ctx.busy = s.ctx.busy) ∧
      runs (n + 1) u (({ s with
        ctx := { s.ctx with lastError := .code raw, busy := false }
        written := { s.written with lastError := true }
        env := { s.env with stops := later }
        adapter := { s.adapter with stopPending := false, armed := false } }).handled raw .stop [.stopWait])

/-! ### Address bytes on the bus -/

/-- R133, R95: with this device not in a transfer, an address byte that carries its own address makes the adapter report it
addressed, for receiving or for transmitting by the direction bit; address 0 with the write direction as a general call
where that is enabled; any other byte, and every byte while no own address is set, is not for it. (Which of the two an
address 0 is for a device whose own address is 0, with the general call enabled, is left open: log entry 8. That the report
waits as the pending event is the model's reading: log entry 12.) -/
def Obligations.AddressByteReportsTheAddressedDevice : Prop :=
  ∀ (a : Address) (s : State), s.adapter.pendingEvent = none → s.run.inHandler = false → s.wire = .idle →
    let reported (x : Status) : State :=
      { s with adapter := { s.adapter with pendingEvent := some [s.cfg.code x] } }
    let general : Prop := a = 0 ∧ s.control.generalCallEnable = true
    (s.control.ownAddress = some a →
      exec (.addrByteRead a) s = .next (reported .ttAddrAck) ∧
      (¬ general → exec (.addrByteWrite a) s = .next (reported .trAddrAck))) ∧
    (∀ own, s.control.ownAddress = some own → own ≠ 0 → general →
      exec (.addrByteWrite a) s = .next (reported .trGcallAck)) ∧
    (s.control.ownAddress ≠ some a →
      exec (.addrByteRead a) s = .next s ∧
      (¬ general ∨ s.control.ownAddress = none → exec (.addrByteWrite a) s = .next s))

/-- R133, R136: a device whose own address byte is on the wire and that sees another one has lost the bus: it is reported
addressed in the arbitration-lost form if the byte carries its own address, or is a general call and that is enabled, and
as having lost arbitration if neither; a byte equal to its own is no event. (Log entries 8 and 12.) -/
def Obligations.AddressByteOfAWinnerReportsTheLoss : Prop :=
  ∀ (a : Address) (r : Bool) (s : State), s.adapter.pendingEvent = none → s.run.inHandler = false →
    s.wire = .addressing r →
    let reported (x : Status) : State :=
      { s with adapter := { s.adapter with pendingEvent := some [s.cfg.code x] } }
    let general : Prop := a = 0 ∧ s.control.generalCallEnable = true
    (addrByte a false = s.adapter.dataLatch → exec (.addrByteWrite a) s = .next s) ∧
    (addrByte a true = s.adapter.dataLatch → exec (.addrByteRead a) s = .next s) ∧
    (addrByte a true ≠ s.adapter.dataLatch → exec (.addrByteRead a) s =
      .next (reported (if s.control.ownAddress = some a then .ttArbLostAddrAck else .arbLost))) ∧
    (addrByte a false ≠ s.adapter.dataLatch →
      (s.control.ownAddress = some a → ¬ general →
        exec (.addrByteWrite a) s = .next (reported .trArbLostAddrAck)) ∧
      (∀ own, s.control.ownAddress = some own → own ≠ 0 → general →
        exec (.addrByteWrite a) s = .next (reported .trArbLostGcallAck)) ∧
      (s.control.ownAddress ≠ some a → (¬ general ∨ s.control.ownAddress = none) →
        exec (.addrByteWrite a) s = .next (reported .arbLost)))

/-! ### Refusals -/

/-- R129, R165, R199, R180, R184, R223: before the initialisation call every operation is refused; inside a callback the
blocking operations and `configureAddress` are. (For the object forms: log entry 20. That this refusal comes before the
return at length 0 and before a bad address: log entry 19. The spec's own: D16, D29.) -/
def Obligations.OperationsAreRefusedInTheWrongContext : Prop :=
  ∀ (s : State),
    (∀ i : Instr, s.control.initialised = false → i.format = .hostOp → i ≠ .init →
      exec i s = .refused .notInitialised) ∧
    (∀ (a : Byte) (data : List Byte) (n m : Nat) (b : Bool), s.control.initialised = true → s.run.inHandler = true →
      (∀ i ∈ [Instr.write a data n b, .read a m n, .handshake, .writeObject a data b, .readObject a m n],
        exec i s = .refused .blockingCallInHandler) ∧
      exec (.configureAddress a b) s = .refused .configureInHandler)

/-- R98, R181, R184, R187, R193: arguments outside the admitted range are refused, of the object forms too, and so is
`transmit` outside an `onRequest` run: from ordinary code, and from any other callback (R256). (Which refusal comes first
where two apply: log entry 19. An empty object of `transmitObject`: log entry 20. The spec's own: D9, D17, D33, D34.) -/
def Obligations.ArgumentsOutOfRangeAreRefused : Prop :=
  ∀ (s : State) (a : Byte) (data : List Byte) (n m : Nat) (b : Bool),
    (s.CallReady → 0x80 ≤ a.toNat → n ≠ 0 →
      exec (.write a data n b) s = .refused .addressOutOfRange ∧
      exec (.read a m n) s = .refused .addressOutOfRange ∧
      exec (.readObject a m n) s = .refused .addressOutOfRange) ∧
    (s.CallReady → 0x80 ≤ a.toNat → data ≠ [] → exec (.writeObject a data b) s = .refused .addressOutOfRange) ∧
    (s.CallReady → 0x80 ≤ a.toNat → exec (.configureAddress a b) s = .refused .addressOutOfRange) ∧
    (s.CallReady → a.toNat ≤ 0x7F → s.cfg.cap < n →
      exec (.write a data n b) s = .refused .lengthExceedsCapacity) ∧
    (s.CallReady → a.toNat ≤ 0x7F → s.cfg.cap < data.length →
      exec (.writeObject a data b) s = .refused .lengthExceedsCapacity) ∧
    (s.CallReady → a.toNat ≤ 0x7F → s.cfg.maxIndex < n →
      exec (.read a m n) s = .refused .lengthOutOfRange ∧
      exec (.readObject a m n) s = .refused .lengthOutOfRange) ∧
    (s.AnyCallReady → (s.run.inHandler = false ∨ s.run.requestRun = false) →
      exec (.transmit data n) s = .refused .transmitOutsideRequest ∧
      exec (.transmitObject data) s = .refused .transmitOutsideRequest) ∧
    (s.RequestReady → exec (.transmit data 0) s = .refused .zeroLengthTransmit ∧
      exec (.transmitObject []) s = .refused .zeroLengthTransmit) ∧
    (s.RequestReady → s.cfg.cap < n → exec (.transmit data n) s = .refused .lengthExceedsCapacity) ∧
    (s.RequestReady → s.cfg.cap < data.length → exec (.transmitObject data) s = .refused .lengthExceedsCapacity) ∧
    (s.AnyCallReady → s.cfg.joiners ≤ n → exec (.addressForIdentity n) s = .refused .identityOutOfRange)

/-! ### Host operations -/

/-- R129: the initialisation call sets `initialised` and returns, and changes nothing else, also when called again or from
a callback. (From a callback: log entry 20. The spec's own: D29.) -/
def Obligations.InitOnlySetsInitialised : Prop :=
  ∀ s : State, (s.run.inHandler = true ∨ s.run.phase = .idle) →
    exec .init s =
      .next (({ s with control := { s.control with initialised := true } } : State).answer .nothing)

/-- R180: `configureAddress` sets the own address, then, in the next micro-step of Host, the general-call enable, and
changes nothing else. (The division into steps: log entry 16. The spec's own: D27.) -/
def Obligations.ConfigureAddressSetsBothFields : Prop :=
  ∀ (s : State) (a : Byte) (g : Bool), s.CallReady → s.Quiet → a.toNat ≤ 0x7F →
    ∃ t, exec (.configureAddress a g) s = .next t ∧
      t.control = { s.control with ownAddress := some (BitVec.ofNat 7 a.toNat) } ∧
      runs 1 t { s with
        control := { s.control with ownAddress := some (BitVec.ofNat 7 a.toNat), generalCallEnable := g }
        run := { s.run with phase := .idle, result := .nothing } }

/-- R189, R190, R191, R192, R193: the callback slots are written by one micro-step each; `ownedBuffer()` and
`addressForIdentity(id)` write nothing and return the buffer and `OFFSET + id`; `lastError()` writes nothing and returns
the field once some rule has written it, before that some value (U13), which uses up one free value of the model's count.
(The free value: log entry 4.) -/
def Obligations.OneStepOperationsAnswer : Prop :=
  ∀ (s : State) (n : Nat), s.AnyCallReady →
    exec (.setOnRequest n) s =
      .next (({ s with ctx := { s.ctx with onRequest := some (.user n) } } : State).answer .nothing) ∧
    exec (.setOnReceive n) s =
      .next (({ s with ctx := { s.ctx with onReceive := some (.user n) } } : State).answer .nothing) ∧
    exec .ownedBuffer s = .next (s.answer .buffer) ∧
    (n < s.cfg.joiners → exec (.addressForIdentity n) s = .next (s.answer (.address (s.cfg.offset + n)))) ∧
    (s.written.lastError = true → exec .lastError s = .next (s.answer (.error s.ctx.lastError))) ∧
    (s.written.lastError = false → ∃ e, exec .lastError s =
      .next (({ s with env := { s.env with draws := s.env.draws + 1 } } : State).answer (.error e)))

/-- R187, R188: inside an `onRequest` run `transmit` puts the data at the start of `txBuffer`, resets `cursor`, sets
`length`; the bytes beyond, `busy`, `lastError` and the command list stay. The object form is the same call. (The spec's
own: D17.) -/
def Obligations.TransmitSetsUpTheBuffer : Prop :=
  ∀ (i : Instr) (s : State) (data : List Byte) (n : Nat), s.RequestReady → 1 ≤ n → n ≤ s.cfg.cap →
    n ≤ data.length → (i = .transmit data n ∨ i = .transmitObject data ∧ n = data.length) →
    ∃ t, exec i s = .next t ∧
      t = { s with
        ctx := { s.ctx with txBuffer := t.ctx.txBuffer, cursor := 0, length := n }
        written := { s.written with cursor := true, length := true }
        run := { s.run with transmitCalled := true, callbackResult := .nothing } } ∧
      (∀ j, j < n → t.ctx.txBuffer.read j = data[j]?) ∧
      (∀ j, n ≤ j → t.ctx.txBuffer.read j = s.ctx.txBuffer.read j)

/-- R181, R184, D8: a `write` or `read` of length 0 returns at once and changes nothing, also while a transfer is busy. (That
it does so with an address above 0x7F too is the model's choice: log entry 19. So is the empty object, which lies outside
R98's precondition: log entry 20.) -/
def Obligations.ZeroLengthTransferReturnsAtOnce : Prop :=
  ∀ (s : State) (i : Instr) (a : Byte) (data : List Byte) (m : Nat) (b : Bool), s.CallReady →
    i ∈ [Instr.write a data 0 b, .read a m 0, .writeObject a [] b, .readObject a m 0] →
    exec i s = .next { s with run := { s.run with result := .nothing } }

/-- R182, R196: `write` of `n` bytes (or of an object) enters at W1; undisturbed on an idle bus it copies its data to
`txBuffer`, sets `length`, `cursor`, the address byte with direction 0, no error and `busy`, polls the lines `T` times
(not at all if `T` is 0), and asks for arbitration, one micro-step each; it then stands at W9. Nothing else changes. (The
number of steps: log entry 16. The place of W3 is the spec's own, D10.) -/
def Obligations.WriteArmsTheTransfer : Prop :=
  ∀ (s : State) (a : Byte) (data : List Byte) (n : Nat) (blocking : Bool),
    a.toNat ≤ 0x7F → 1 ≤ n → n ≤ s.cfg.cap → n ≤ data.length →
    (∀ i, s.CallReady → (i = Instr.write a data n blocking ∨ i = .writeObject a data blocking ∧ n = data.length) →
      exec i s = .next { s with run := { s.run with phase := .write ⟨a, data, n, blocking⟩ .w1 } }) ∧
    (∀ later, s.Quiet → s.run.phase = .write ⟨a, data, n, blocking⟩ .w1 → s.ctx.busy = false →
      s.env.lines = List.replicate s.cfg.idleThreshold ⟨true, true⟩ ++ later →
      ∃ u, runs (n + s.cfg.idleThreshold + 9) s u ∧
        u = { s with
          ctx := { s.ctx with
            txBuffer := u.ctx.txBuffer, length := n, cursor := 0
            addressAndDirection := BitVec.ofNat 8 (a.toNat * 2), lastError := .noError, busy := true }
          written := { s.written with length := true, cursor := true, addressAndDirection := true, lastError := true }
          run := { s.run with phase := .write ⟨a, data, n, blocking⟩ .w9 }
          env := { s.env with lines := later }
          adapter := { s.adapter with
            armed := true
            actions := s.adapter.actions ++ List.replicate s.cfg.idleThreshold (.lines ⟨true, true⟩) ++
              [.arm (BitVec.ofNat 8 (a.toNat * 2))] } } ∧
        (∀ j, j < n → u.ctx.txBuffer.read j = data[j]?) ∧
        (∀ j, n ≤ j → u.ctx.txBuffer.read j = s.ctx.txBuffer.read j))

/-- R185, R196: `read` of `n` bytes (or of an object) enters at RD1; undisturbed on an idle bus it names its region, sets
`length` to `n - 1`, `cursor` to 0, the address byte with direction 1, no error and `busy`, polls the lines `T` times (not
at all if `T` is 0), and asks for arbitration, one micro-step each; it then stands at RD9. Nothing else changes. The
second part holds for a read by ordinary code and for a probe of the handshake. (The number of steps: log entry 16. The
place of RD3 is the spec's own, D10.) -/
def Obligations.ReadArmsTheTransfer : Prop :=
  ∀ (s : State) (a : Byte), a.toNat ≤ 0x7F →
    (∀ i destination n, s.CallReady → 1 ≤ n → n ≤ s.cfg.maxIndex →
      i ∈ [Instr.read a destination n, .readObject a destination n] →
      exec i s = .next { s with run := { s.run with phase := .read ⟨a, .caller destination, n⟩ .rd1 .user } }) ∧
    (∀ region n caller later, s.Quiet → s.run.phase = .read ⟨a, region, n⟩ .rd1 caller → s.ctx.busy = false →
      s.env.lines = List.replicate s.cfg.idleThreshold ⟨true, true⟩ ++ later →
      runs (s.cfg.idleThreshold + 9) s { s with
        ctx := { s.ctx with
          rxTarget := ⟨region, n⟩, length := n - 1, cursor := 0
          addressAndDirection := BitVec.ofNat 8 (a.toNat * 2 + 1), lastError := .noError, busy := true }
        written := { s.written with
          rxTarget := true, length := true, cursor := true, addressAndDirection := true, lastError := true }
        run := { s.run with phase := .read ⟨a, region, n⟩ .rd9 caller }
        env := { s.env with lines := later }
        adapter := { s.adapter with
          armed := true
          actions := s.adapter.actions ++ List.replicate s.cfg.idleThreshold (.lines ⟨true, true⟩) ++
            [.arm (BitVec.ofNat 8 (a.toNat * 2 + 1))] } })

/-- R182, R183, R185, R186, R197: at W1, RD1, W9 and RD9 Host waits for `busy` to clear, re-reading it at every turn and
changing nothing meanwhile; a non-blocking `write` does not wait at W9. A `read` returns to ordinary code, a probe to H2 of
the handshake. -/
def Obligations.SpinWaitsEndExactlyWhenBusyClears : Prop :=
  ∀ (s : State) (w : WriteCall) (r : ReadCall) (caller : Caller), s.Quiet →
    (s.run.phase = .write w .w1 → step s = .next (if s.ctx.busy = true then s
      else { s with run := { s.run with phase := .write w (.w2 0) } })) ∧
    (s.run.phase = .read r .rd1 caller → step s = .next (if s.ctx.busy = true then s
      else { s with run := { s.run with phase := .read r .rd2 caller } })) ∧
    (s.run.phase = .write w .w9 → step s = .next (if w.blocking = true ∧ s.ctx.busy = true then s
      else { s with run := { s.run with phase := .idle, result := .nothing } })) ∧
    (s.run.phase = .read r .rd9 .user → step s = .next (if s.ctx.busy = true then s
      else { s with run := { s.run with phase := .idle, result := .nothing } })) ∧
    (∀ i, s.run.phase = .read r .rd9 (.handshake i) → step s = .next (if s.ctx.busy = true then s
      else { s with run := { s.run with phase := .handshake i .h2 } }))

/-- R194, the property P3: under `Respin`, in the idle confirmation of a `write` or `read`, after `k` idle samples (`k`
below the counter) and one that is not idle, exactly `T` further idle samples are needed: until then the operation stays
in the confirmation and arms nothing, and `armController` follows them at once. (The number of steps: log entry 16. One of
the two readings of D11.) -/
def Obligations.RespinNeedsTheFullCountAgain : Prop :=
  ∀ (s : State) (k c : Nat) (bad : Lines) (later : List Lines), s.Quiet →
    s.cfg.idlePolicy = .respin → k < c → bad ≠ ⟨true, true⟩ →
    s.env.lines = List.replicate k ⟨true, true⟩ ++ bad :: (List.replicate s.cfg.idleThreshold ⟨true, true⟩ ++ later) →
    ∀ (confirming : Nat → Phase) (waiting : Phase),
      ((∃ w, confirming = (fun n => .write w (.w7 n)) ∧ waiting = .write w .w9) ∨
       (∃ r caller, confirming = (fun n => .read r (.rd7 n) caller) ∧ waiting = .read r .rd9 caller)) →
      s.run.phase = confirming c →
      (∀ m, m ≤ k + 1 + s.cfg.idleThreshold → ∃ t c', runs m s t ∧ t.adapter.armed = s.adapter.armed ∧
        t.run.phase = confirming c' ∧ (m = k + 1 + s.cfg.idleThreshold → c' = 0)) ∧
      ∃ t, runs (k + 1 + s.cfg.idleThreshold + 2) s t ∧ t.run.phase = waiting ∧ t.adapter.armed = true ∧
        t.env.lines = later ∧ t.ctx = s.ctx ∧
        t.adapter.actions = s.adapter.actions ++
          (List.replicate k (⟨true, true⟩ : Lines) ++ bad :: List.replicate s.cfg.idleThreshold ⟨true, true⟩).map Action.lines ++
          [.arm s.ctx.addressAndDirection]

/-- R195: under `Abort` the first sample that is not idle records arbitration lost, then clears `busy`, and the operation
returns, with no bus command and everything else as it was: a `write` or `read` to ordinary code, a probe to H2. (The
number of steps: log entry 16. The body is the spec's own, D12.) -/
def Obligations.AbortReturnsWithArbitrationLost : Prop :=
  ∀ (s : State) (c : Nat) (bad : Lines) (later : List Lines), s.Quiet →
    s.cfg.idlePolicy = .abort → bad ≠ ⟨true, true⟩ → s.env.lines = bad :: later →
    let aborted (phase : Phase) (result : Result) : State :=
      { s with
        ctx := { s.ctx with lastError := .code (s.cfg.code .arbLost), busy := false }
        written := { s.written with lastError := true }
        run := { s.run with phase := phase, result := result }
        env := { s.env with lines := later }
        adapter := { s.adapter with actions := s.adapter.actions ++ [.lines bad] } }
    (∀ w, s.run.phase = .write w (.w7 (c + 1)) → runs 3 s (aborted .idle .nothing)) ∧
    (∀ r, s.run.phase = .read r (.rd7 (c + 1)) .user → runs 3 s (aborted .idle .nothing)) ∧
    (∀ r i, s.run.phase = .read r (.rd7 (c + 1)) (.handshake i) →
      runs 3 s (aborted (.handshake i .h2) s.run.result))

/-! ### The handshake on one device -/

/-- R223 H0 and H1, R230: `handshake()` clears the counter and enters its loop at candidate `K - 1`; at candidate `i` it
makes a one-byte probe of `OFFSET + i`; with no candidate left it returns `AlreadyComplete`. (The counter at entry: the
spec's own, D24.) -/
def Obligations.HandshakeScansDownwards : Prop :=
  ∀ s : State, s.cfg.Legal → s.Quiet →
    (s.CallReady → exec .handshake s = .next { s with
      control := { s.control with hsCounter := 0 }
      written := { s.written with hsCounter := true }
      run := { s.run with phase := .hsLoop s.cfg.joiners } }) ∧
    (∀ i, s.run.phase = .hsLoop (i + 1) → i < s.cfg.joiners → step s = .next { s with
      run := { s.run with
        phase := .read ⟨BitVec.ofNat 8 (s.cfg.offset + i), .dummy, 1⟩ .rd1 (.handshake i) } }) ∧
    (s.run.phase = .hsLoop 0 → step s = .next { s with
      run := { s.run with phase := .idle, result := .alreadyComplete } })

/-- R223, R225, R231: a probe that ends in address-not-acknowledged leads to the claim: own address `OFFSET + i`, general
call enabled, the two handshake callbacks installed, and then the wait; nothing else changes. (The number of steps: log
entry 16. The code: the spec's own, D43.) -/
def Obligations.FreeProbeClaimsTheIdentity : Prop :=
  ∀ (s : State) (i : Nat), s.cfg.Legal → s.Quiet → i < s.cfg.joiners → s.run.phase = .handshake i .h2 →
    s.written.lastError = true → s.ctx.lastError = .code (s.cfg.code .crAddrNack) →
    runs 6 s { s with
      control := { s.control with
        ownAddress := some (BitVec.ofNat 7 (s.cfg.offset + i)), generalCallEnable := true }
      ctx := { s.ctx with onReceive := some .hsOnReceive, onRequest := some .hsOnRequest }
      run := { s.run with phase := .handshake i .h7 } }

/-- R224, R226: a probe without error leads to the next lower candidate; one that lost arbitration is made again; any
other code is `HandshakeUnexpectedError`, or under `RetrySame` the same probe again. (The spec's own: D22.) -/
def Obligations.OtherProbeOutcomesNeverClaim : Prop :=
  ∀ (s : State) (i : Nat) (e : LastError), s.cfg.Legal → s.Quiet → s.run.phase = .handshake i (.h3 e) →
    (e = .noError → step s = .next { s with run := { s.run with phase := .hsLoop i } }) ∧
    (e = .code (s.cfg.code .arbLost) → step s = .next { s with run := { s.run with phase := .hsLoop (i + 1) } }) ∧
    (∀ c, e = .code c → c ≠ s.cfg.code .arbLost → c ≠ s.cfg.code .crAddrNack →
      (s.cfg.otherError = .retrySame → step s = .next { s with run := { s.run with phase := .hsLoop (i + 1) } }) ∧
      (s.cfg.otherError = .fault → step s = .fault (.handshakeUnexpectedError c)))

/-- R229: the wait H7 returns `Identity(i)` exactly when the counter has reached `i`, by the test the parameter names, and
otherwise changes nothing. (The spec's own: D23.) -/
def Obligations.HandshakeWaitEndsWhenTheCounterIsReached : Prop :=
  ∀ (s : State) (i : Nat), s.Quiet → s.readable .hsCounter = true → s.run.phase = .handshake i .h7 →
    ((s.cfg.reachTest = .ge ∧ i ≤ s.control.hsCounter ∨ s.cfg.reachTest = .eq ∧ s.control.hsCounter = i) →
      step s = .next { s with run := { s.run with phase := .idle, result := .identity i } }) ∧
    ((s.cfg.reachTest = .ge ∧ s.control.hsCounter < i ∨ s.cfg.reachTest = .eq ∧ s.control.hsCounter ≠ i) →
      step s = .next s)

/-! ### The whole machine -/

/-- R141, R96: every Handler run that answers emits exactly one reply, as its last command, and writes the data latch at
most once. -/
def Obligations.EveryHandlerRunEndsWithItsOneReply : Prop :=
  ∀ (i : Instr) (s t : State), i.format = .status → exec i s = .next t →
    ∃ commands reply, t.adapter.actions = s.adapter.actions ++ commands ++ [reply] ∧ reply.isReply = true ∧
      (∀ a ∈ commands, a.isReply = false) ∧
      (commands.filter (fun a => a matches .writeLatch _)).length ≤ 1

/-- R260, R42, R29, R37: a Handler run changes neither `phase` nor what Host's operation returned, nor the configuration, nor
`addressAndDirection` nor `rxTarget` nor the parameters; it writes `lastError` only where the status is `ARB_LOST` or has
no rule of its own; it moves `hsCounter` only up. -/
def Obligations.HandlerRunLeavesHostAndConfigurationAlone : Prop :=
  ∀ (i : Instr) (s t : State), i.format = .status → exec i s = .next t →
    t.run.phase = s.run.phase ∧ t.run.result = s.run.result ∧ t.cfg = s.cfg ∧ t.userCode = s.userCode ∧
    t.control.ownAddress = s.control.ownAddress ∧ t.control.generalCallEnable = s.control.generalCallEnable ∧
    t.control.initialised = s.control.initialised ∧ s.control.hsCounter ≤ t.control.hsCounter ∧
    t.ctx.addressAndDirection = s.ctx.addressAndDirection ∧ t.ctx.rxTarget = s.ctx.rxTarget ∧
    t.env.arrivals = s.env.arrivals ∧ t.env.calls = s.env.calls ∧ t.env.lines = s.env.lines ∧
    (i ≠ .arbLost → (∀ raw, (i, raw) ∉ errorStatuses s.cfg) → (∀ b, i ≠ .otherStatus b) →
      t.ctx.lastError = s.ctx.lastError)

/-- R42: who sets and who clears `busy`, over all statuses: the four target-receive and two target-transmit addressed
statuses set it, the terminal statuses clear it, the two controller-transmit ones clear it exactly at exhaustion, a
status without a rule of its own clears it with the confirmation of the stop, and every other status leaves it. -/
def Obligations.BusyIsWrittenByTheTableOnly : Prop :=
  ∀ (i : Instr) (s t : State), i.format = .status → exec i s = .next t →
    (i ∈ [Instr.trAddrAck, .trArbLostAddrAck, .trGcallAck, .trArbLostGcallAck, .ttAddrAck, .ttArbLostAddrAck] →
      t.ctx.busy = true) ∧
    (i ∈ [Instr.arbLost, .trStop, .ttDataNack, .ttLastData] → t.ctx.busy = false) ∧
    (∀ v, i = .crDataNack v → t.ctx.busy = false) ∧
    (i ∈ [Instr.ctAddrAck, .ctDataAck] → t.ctx.busy = (if s.ctx.cursor = s.ctx.length then false else s.ctx.busy)) ∧
    (i ∈ [Instr.start, .repStart, .crAddrAck, .ttDataAck] → t.ctx.busy = s.ctx.busy) ∧
    (∀ v, i ∈ [Instr.crDataAck v, .trDataAck v, .trGcallDataAck v] → t.ctx.busy = s.ctx.busy) ∧
    (∀ raw, ((i, raw) ∈ errorStatuses s.cfg ∨ i = .otherStatus raw) →
      t.ctx.busy = (if t.run.stopWait = true then s.ctx.busy else false))

/-- The machine after reset meets the invariant, whatever the OPEN parameters are (R39, R290, R4, R7, R8). (The reset
values are the spec's own, D18, and log entries 1 and 2.) -/
def Obligations.ResetMeetsTheDeviceInvariant : Prop := State.reset.Inv

/-- Every step keeps the invariant of one device: the canonical memories, the index bounds (R10, R169: nothing wraps), the
Handler's control point, the passive block before `init()`, the arguments and counters of an operation in progress. -/
def Obligations.StepKeepsTheDeviceInvariant : Prop :=
  ∀ s t : State, s.Inv → step s = .next t → t.Inv

/-- Under the invariant no micro-step of `write`, `read` or `configureAddress`, and none of the handshake's loop head or
claim, stops (R198: Host always has its next micro-step). -/
def Obligations.HostMicroStepsDoNotStop : Prop :=
  ∀ s : State, s.Inv → s.Quiet → s.run.phase ≠ .idle → s.readable .hsCounter = true →
    (∀ i e, s.run.phase ≠ .handshake i (.h3 e)) → ∃ t, step s = .next t

/-- R36, R134: in a controller transfer under the environment contract, every event that may come next and does not
address this device as a target is handled without a fault, `cursor` stays within `length`, and the transfer is over (or
its stop is awaited) or stands at another place of the contract. The same of a target-transmit transfer, for every event
that may come next; and such a transfer is what the two addressed events begin. (The contract is the spec's own, D39.) -/
def Obligations.ContractKeepsTransfersInBounds : Prop :=
  (∀ (s : State) (x : Status) (latch : Byte), s.ControllerInv → x ∈ s.legalNext → x.addressesTarget = false →
    ∃ t, exec (x.instr latch) s = .next t ∧ t.ctx.cursor ≤ t.ctx.length ∧
      (t.ctx.busy = false ∨ t.run.stopWait = true ∨ t.ControllerInv)) ∧
  (∀ (s : State) (x : Status) (latch : Byte), s.TargetTransmitInv → x ∈ s.legalNext →
    ∃ t, exec (x.instr latch) s = .next t ∧ t.ctx.cursor ≤ t.ctx.length ∧
      (t.ctx.busy = false ∨ t.run.stopWait = true ∨ t.TargetTransmitInv)) ∧
  (∀ (s t : State) (i : Instr), s.cfg.Legal → s.EventReady → i ∈ [.ttAddrAck, .ttArbLostAddrAck] →
    exec i s = .next t → t.TargetTransmitInv)

/-! ### Whole transfers -/

/-- P1 and E2E-1 for any length (R63, R142, R144, R145): an armed write of `data`, acknowledged throughout, sends the address
byte and then every byte of `data` in order, then stops: `cursor` ends at `length`, `busy` is clear, `lastError` and
`txBuffer` are as they were. -/
def Obligations.AcknowledgedWriteSendsEveryByteInOrder : Prop :=
  ∀ (s : State) (data : List Byte), s.EventReady → data ≠ [] → s.ctx.length = data.length →
    s.ctx.cursor = 0 → data.length ≤ s.cfg.cap → s.readable .cursor = true → s.readable .length = true →
    s.readable .addressAndDirection = true → (∀ j b, data[j]? = some b → s.ctx.txBuffer.read j = some b) →
    ∃ t, handles (.start :: .ctAddrAck :: List.replicate data.length .ctDataAck) s t ∧
      t.ctx = { s.ctx with cursor := data.length, busy := false } ∧ t.memory = s.memory ∧
      t.control = s.control ∧ t.run = s.run ∧
      t.adapter.actions = s.adapter.actions ++ [.writeLatch s.ctx.addressAndDirection, .ack] ++
        data.flatMap (fun b => [.writeLatch b, .ack]) ++ [.stop]

/-- P1 and E2E-2 for any length (R63, R147, R148, R149): an armed read of `data.length` bytes whose peer supplies `data`
acknowledges every byte but the last, takes the last on the non-acknowledge path, and leaves exactly `data` in the
caller's region: `cursor` ends at `length`, `busy` is clear, every other byte of memory is as it was. -/
def Obligations.ReadStoresEveryByteInOrder : Prop :=
  ∀ (s : State) (init : List Byte) (last : Byte) (base : Nat), s.EventReady →
    s.ctx.rxTarget = ⟨.caller base, init.length + 1⟩ → s.ctx.length = init.length → s.ctx.cursor = 0 →
    s.readable .cursor = true → s.readable .length = true → s.readable .rxTarget = true →
    s.readable .addressAndDirection = true →
    ∃ t, handles (.start :: .crAddrAck :: (init.map .crDataAck ++ [.crDataNack last])) s t ∧
      t.ctx = { s.ctx with cursor := init.length, busy := false } ∧
      (∀ j b, (init ++ [last])[j]? = some b → t.memory.read (base + j) = some b) ∧
      (∀ a, (a < base ∨ base + init.length + 1 ≤ a) → t.memory.read a = s.memory.read a) ∧
      t.adapter.actions = s.adapter.actions ++ [.writeLatch s.ctx.addressAndDirection, .ack] ++
        List.replicate init.length .ack ++ [.nack, .stop]

/-- R63, R150, R154, R156: a target that receives `data` (at most `CAP` bytes) after being addressed holds it from index 0 of
`txBuffer` on, with `cursor` the count of bytes and `busy` set until the end of the transfer. -/
def Obligations.TargetReceiveStoresEveryByteInOrder : Prop :=
  ∀ (s : State) (data : List Byte), s.EventReady → data.length ≤ s.cfg.cap →
    ∃ t, handles (.trAddrAck :: data.map .trDataAck) s t ∧ t.ctx.busy = true ∧ t.ctx.cursor = data.length ∧
      t.ctx.length = s.ctx.length ∧ t.ctx.lastError = s.ctx.lastError ∧ t.memory = s.memory ∧
      (∀ j b, data[j]? = some b → t.ctx.txBuffer.read j = some b) ∧
      (∀ j, data.length ≤ j → t.ctx.txBuffer.read j = s.ctx.txBuffer.read j) ∧
      t.adapter.actions = s.adapter.actions ++ List.replicate (data.length + 1) .ack

/-- E2E-3 for any length (R157, R159, R160, R161, R167): a target whose `onRequest` transmits `data` sends it in order, the
first byte in the addressed event itself, acknowledging every byte but the last, and is done with the controller's
non-acknowledge or last-data status. (The form of the body: log entry 6.) -/
def Obligations.TargetTransmitSendsEveryByteInOrder : Prop :=
  ∀ (s : State) (n : Nat) (init : List Byte) (last : Byte) (final : Instr), s.EventReady →
    s.ctx.onRequest = some (.user n) → s.bodyOf n = .call (.transmit (init ++ [last]) (init.length + 1)) .done →
    init.length + 1 ≤ s.cfg.cap → final ∈ [Instr.ttDataNack, .ttLastData] →
    ∃ t, handles (.ttAddrAck :: (List.replicate init.length .ttDataAck ++ [final])) s t ∧ t.ctx.busy = false ∧
      t.ctx.cursor = init.length + 1 ∧ t.ctx.length = init.length + 1 ∧ t.ctx.lastError = s.ctx.lastError ∧
      t.memory = s.memory ∧ t.control = s.control ∧
      t.adapter.actions = s.adapter.actions ++ [.callOnRequest] ++
        init.flatMap (fun b => [.writeLatch b, .ack]) ++ [.writeLatch last, .nack, .ack]

/-! ### Two devices on one bus -/

/-- R137, R63, PR2: a write that one device has armed to the own address of another on the same bus, in joint steps of the
two: every byte arrives, in order, in the target's `txBuffer`; the target's callback then copies them to its own memory;
both are done, the controller with `cursor = length` and the error it had. (The joint step: log entry 21. The form of the
body: log entry 6. A destination in the region of a `read` of the target still in progress: log entry 33, the model's choice.
The pairing is the spec's own, D39.) -/
def Obligations.WriteArrivesAtTheOtherDevice : Prop :=
  ∀ (p : Pair) (a : Address) (data : List Byte) (n destination : Nat), a ≠ 0 → data ≠ [] →
    (p.controller.cfg.Legal ∧ p.controller.EventReady ∧ p.controller.wire = .idle ∧ p.controller.adapter.armed = true ∧
      p.controller.ctx.addressAndDirection = addrByte a false ∧ p.controller.ctx.cursor = 0 ∧
      p.controller.ctx.length = data.length ∧ data.length ≤ p.controller.cfg.cap ∧
      (∀ j b, data[j]? = some b → p.controller.ctx.txBuffer.read j = some b) ∧
      p.controller.readable .cursor = true ∧ p.controller.readable .length = true ∧
      p.controller.readable .addressAndDirection = true) →
    (p.target.cfg.Legal ∧ p.target.EventReady ∧ p.target.wire = .idle ∧ p.target.control.ownAddress = some a ∧
      data.length ≤ p.target.cfg.cap ∧ p.target.ctx.onReceive = some (.user n) ∧
      p.target.bodyOf n = .call (.copyOwned destination data.length) .done) →
    ∃ q, Pair.run (data.length + 2) p = .next q ∧
      q.controller.ctx = { p.controller.ctx with cursor := data.length, busy := false } ∧
      q.target.ctx.busy = false ∧ q.target.ctx.cursor = data.length ∧ q.target.ctx.lastError = p.target.ctx.lastError ∧
      (∀ j b, data[j]? = some b →
        q.target.ctx.txBuffer.read j = some b ∧ q.target.memory.read (destination + j) = some b)

/-- R137, R63, PR2: a read of `count` bytes that one device has armed from the own address of another on the same bus
whose `onRequest` transmits at least as many, in joint steps of the two: the bytes arrive in order in the caller's region,
no other byte of the caller's memory changes, and both devices are done. (The joint step: log entry 21. The form of the
body: log entry 6. The pairing is the spec's own, D39.) -/
def Obligations.ReadBringsTheOtherDevicesBytes : Prop :=
  ∀ (p : Pair) (a : Address) (data : List Byte) (count n base : Nat), 1 ≤ count → count ≤ data.length →
    (p.controller.cfg.Legal ∧ p.controller.EventReady ∧ p.controller.wire = .idle ∧ p.controller.adapter.armed = true ∧
      p.controller.ctx.addressAndDirection = addrByte a true ∧ p.controller.ctx.cursor = 0 ∧
      p.controller.ctx.length = count - 1 ∧ p.controller.ctx.rxTarget = ⟨.caller base, count⟩ ∧
      p.controller.readable .cursor = true ∧ p.controller.readable .length = true ∧
      p.controller.readable .rxTarget = true ∧ p.controller.readable .addressAndDirection = true) →
    (p.target.cfg.Legal ∧ p.target.EventReady ∧ p.target.wire = .idle ∧ p.target.control.ownAddress = some a ∧
      data.length ≤ p.target.cfg.cap ∧ p.target.ctx.onRequest = some (.user n) ∧
      p.target.bodyOf n = .call (.transmit data data.length) .done) →
    ∃ q, Pair.run (count + 2) p = .next q ∧
      q.controller.ctx = { p.controller.ctx with cursor := count - 1, busy := false } ∧
      q.target.ctx.busy = false ∧ q.target.ctx.lastError = p.target.ctx.lastError ∧
      (∀ j, j < count → q.controller.memory.read (base + j) = data[j]?) ∧
      (∀ x, (x < base ∨ base + count ≤ x) → q.controller.memory.read x = p.controller.memory.read x)

/-! ### The handshake on several devices -/

/-- P4 (R234) under the premise of R233 and with no probe of a device that has set its address and not yet installed its
callbacks (R309): `K` devices that have just entered `handshake()`, in any interleaving of micro-steps, with any probes
contended, never stop, hold distinct identities below `K` (and a device that has returned has returned its own); none is
told `AlreadyComplete`; once each has claimed one, the identities are exactly `0 .. K-1`, and every device that still waits
has been counted up to its identity, under either reading of "reaches". Without the premise two devices can claim the same
identity (R233, R309). (The turn and the second premise: log entry 21. The premise is the spec's own, D25.) -/
def Obligations.HandshakeAssignsEveryIdentityOnce : Prop :=
  (∀ (c : Config) (js : List State) (turns : List Turn), c.Legal → js.length = c.joiners →
    c.joiners ≤ c.maxIndex + 1 → (∀ s ∈ js, s.Fresh c) →
    runApart State.claimsNext turns js → runApart State.settling turns js →
    ∃ js', lobbyRun turns js = .next js' ∧ js'.length = js.length ∧
      (∀ (p q i : Nat) (s u : State), p ≠ q → js'[p]? = some s → js'[q]? = some u →
        s.held = some i → u.held ≠ some i) ∧
      (∀ s ∈ js', (∀ i, s.held = some i → i < c.joiners) ∧
        (s.run.phase = .idle → ∃ i, s.run.result = .identity i ∧ s.held = some i)) ∧
      ((∀ s ∈ js', s.held.isSome = true) →
        (∀ i, i < c.joiners → ∃ s ∈ js', s.held = some i) ∧
        ∀ s ∈ js', ∀ i, s.run.phase = .handshake i .h7 → reached c.reachTest s.control.hsCounter i = true)) ∧
  (∀ (c : Config) (js : List State), c.Legal → 2 ≤ js.length → (∀ s ∈ js, s.Fresh c) →
    ∃ turns js', lobbyRun turns js = .next js' ∧
      ∃ s u i, js'[0]? = some s ∧ js'[1]? = some u ∧ s.held = some i ∧ u.held = some i)

/-- P5 (R235): a device with `left` candidates still to try, each of them the own address of exactly one other device,
which counts its probes, is told `AlreadyComplete` after `3 * left + 1` uncontended turns of its own: a (`K`+1)-th device,
which enters with `left = K`, after all `K` identities are claimed. It has claimed nothing, each of those owners has been
counted up once and holds what it held, and every other device is as it was. (The turn: log entry 21.) -/
def Obligations.LateDeviceIsToldTheLobbyIsComplete : Prop :=
  ∀ (js : List State) (p left : Nat) (s : State) (owner : Nat → Nat), js[p]? = some s → s.cfg.Legal →
    s.run.phase = .hsLoop left → left ≤ s.cfg.joiners →
    (∀ i, i < left → owner i ≠ p ∧
      ∃ t, js[owner i]? = some t ∧ t.control.ownAddress = some (identityAddress s.cfg i) ∧ t.CountsProbes) →
    (∀ d t i, d ≠ p → js[d]? = some t → i < left → t.control.ownAddress = some (identityAddress s.cfg i) →
      d = owner i) →
    ∃ js' s', lobbyRun (List.replicate (3 * left + 1) ⟨p, false⟩) js = .next js' ∧ js'[p]? = some s' ∧
      s'.run.phase = .idle ∧ s'.run.result = .alreadyComplete ∧ s'.control = s.control ∧
      (∀ i t, i < left → js[owner i]? = some t → ∃ t', js'[owner i]? = some t' ∧
        t'.control = { t.control with hsCounter := t.control.hsCounter + 1 } ∧ t'.ctx.busy = false) ∧
      (∀ d, d ≠ p → (∀ i, i < left → d ≠ owner i) → js'[d]? = js[d]?)

/-- R232, as one step and at the level of events. As one step: (a) where another device has the address, that device runs its
`onRequest` once (the handshake's counts up, a user's does not) and the prober has its byte and no error; (b) where no
other has, the prober has the code of address-not-acknowledged; (c) on a contended bus, that of arbitration lost; and nothing else
changes. As events at the prober the three end the same way, with `busy` clear and the caller's memory as it was. (The turn
and the owner of a shared address: log entry 21. An address only the prober has: log entry 34, the model's choice. The form
of a user's body: log entry 6.) -/
def Obligations.ProbeHasThreeOutcomes : Prop :=
  (∀ (js : List State) (p i : Nat) (s : State), js[p]? = some s → s.run.phase = .hsLoop (i + 1) →
    let ended (e : LastError) (dummy : Byte) : State :=
      { s with
        ctx := { s.ctx with lastError := e }
        written := { s.written with lastError := true }
        run := { s.run with phase := .handshake i .h2 }
        dummy := dummy }
    (∀ (d : Nat) (t : State), d ≠ p → js[d]? = some t → t.control.ownAddress = some (identityAddress s.cfg i) →
      (∀ q u, q < d → q ≠ p → js[q]? = some u → u.control.ownAddress ≠ some (identityAddress s.cfg i)) →
      (t.CountsProbes → ∃ t',
        lobbyTurn js ⟨p, false⟩ =
          .next ((js.set d t').set p (ended .noError (BitVec.ofNat 8 (t.control.hsCounter + 1)))) ∧
        t'.control = { t.control with hsCounter := t.control.hsCounter + 1 } ∧ t'.ctx.busy = false ∧
        t'.ctx.lastError = t.ctx.lastError ∧ t'.memory = t.memory) ∧
      (∀ n length b data, t.EventReady → t.ctx.onRequest = some (.user n) →
        t.bodyOf n = .call (.transmit (b :: data) length) .done →
        1 ≤ length → length ≤ t.cfg.cap → length ≤ (b :: data).length → ∃ t',
        lobbyTurn js ⟨p, false⟩ = .next ((js.set d t').set p (ended .noError b)) ∧
        t'.control = t.control ∧ t'.ctx.busy = false ∧ t'.ctx.lastError = t.ctx.lastError ∧ t'.memory = t.memory)) ∧
    ((∀ d t, d ≠ p → js[d]? = some t → t.control.ownAddress ≠ some (identityAddress s.cfg i)) →
      lobbyTurn js ⟨p, false⟩ = .next (js.set p (ended (.code (s.cfg.code .crAddrNack)) s.dummy))) ∧
    lobbyTurn js ⟨p, true⟩ = .next (js.set p (ended (.code (s.cfg.code .arbLost)) s.dummy))) ∧
  (∀ (s : State) (v : Byte) (later : List Bool), s.EventReady → s.ctx.rxTarget = ⟨.dummy, 1⟩ → s.ctx.length = 0 →
    s.ctx.cursor = 0 → s.ctx.lastError = .noError → s.readable .cursor = true → s.readable .length = true →
    s.readable .rxTarget = true → s.readable .addressAndDirection = true → s.env.stops = true :: later →
    (∃ t, handles [.start, .crAddrAck, .crDataNack v] s t ∧ t.ctx = { s.ctx with busy := false } ∧ t.dummy = v ∧
      t.memory = s.memory ∧ t.adapter.actions = s.adapter.actions ++
        [.writeLatch s.ctx.addressAndDirection, .ack, .nack, .stop]) ∧
    (∃ t, handles [.start, .crAddrNack] s t ∧
      t.ctx = { s.ctx with busy := false, lastError := .code (s.cfg.code .crAddrNack) } ∧ t.dummy = s.dummy ∧
      t.memory = s.memory ∧ t.adapter.actions = s.adapter.actions ++
        [.writeLatch s.ctx.addressAndDirection, .ack, .stopWait]) ∧
    (∃ t, handles [.start, .arbLost] s t ∧
      t.ctx = { s.ctx with busy := false, lastError := .code (s.cfg.code .arbLost) } ∧ t.dummy = s.dummy ∧
      t.memory = s.memory ∧ t.adapter.actions = s.adapter.actions ++
        [.writeLatch s.ctx.addressAndDirection, .ack, .ack]))

/-- The invariant behind P4 (R233, R234): that no two devices have, or are about to claim, one identity is kept by every turn
that does not probe a candidate whose address another device's probe has found free and that device has yet to claim, the
premise `HS_ATOMIC_PROBE_CLAIM`, whatever the devices' own callbacks do; and devices that have just entered `handshake()`
meet it. (The turn: log entry 21. The premise is the spec's own, D25.) -/
def Obligations.LobbyTurnKeepsIdentitiesDistinct : Prop :=
  ∀ (c : Config) (js : List State), c.Legal →
    ((∀ s ∈ js, s.Fresh c) → LobbyInv c js) ∧
    ∀ (t : Turn) (js' : List State), LobbyInv c js → turnApart State.claimsNext js t → lobbyTurn js t = .next js' →
      LobbyInv c js'
end

