-- ==== Sys2Proof/Laws/Memory.lean ====
section
/-! SUPPORT. The laws of byte memory: a read after a write, what a write leaves alone, and that every operation keeps
the canonical form and the bound of its indices. -/

namespace Sys2Proof.Machine

@[simp] theorem Memory.read_nil (a : Nat) : Memory.read [] a = none := rfl

@[simp] theorem Memory.read_write_same (m : Memory) (a : Nat) (v : Byte) : (m.write a v).read a = some v := by
  induction m with
  | nil => simp [Memory.write, Memory.read]
  | cons c m ih =>
    simp only [Memory.write]
    split_ifs <;> simp_all [Memory.read]

theorem Memory.read_write_other (m : Memory) {a b : Nat} (v : Byte) (h : b ≠ a) :
    (m.write a v).read b = m.read b := by
  induction m with
  | nil => simp [Memory.write, Memory.read, h]
  | cons c m ih =>
    simp only [Memory.write]
    split_ifs <;> simp_all [Memory.read]

theorem Memory.read_write (m : Memory) (a b : Nat) (v : Byte) :
    (m.write a v).read b = if b = a then some v else m.read b := by
  split_ifs with h
  · rw [h, Memory.read_write_same]
  · exact Memory.read_write_other m v h

theorem Memory.mem_write {m : Memory} {a : Nat} {v : Byte} {c : Host.Cell} (h : c ∈ m.write a v) :
    c = (a, v) ∨ c ∈ m := by
  induction m with
  | nil => exact .inl (by simpa [Memory.write] using h)
  | cons x m ih =>
    simp only [Memory.write] at h
    split_ifs at h <;> simp only [List.mem_cons] at h ⊢ <;> tauto

/-- A write keeps the canonical form. -/
theorem Memory.wf_write {m : Memory} (hm : m.wf) (a : Nat) (v : Byte) : (m.write a v).wf := by
  induction m with
  | nil => simp [Memory.write, Memory.wf]
  | cons x m ih =>
    obtain ⟨hx, hm'⟩ := List.pairwise_cons.mp hm
    simp only [Memory.write]
    split_ifs with h1 h2
    · refine List.pairwise_cons.mpr ⟨?_, hm⟩
      intro c hc
      rcases List.mem_cons.mp hc with rfl | hc
      · exact h1
      · exact Nat.lt_trans h1 (hx c hc)
    · subst h2
      exact List.pairwise_cons.mpr ⟨hx, hm'⟩
    · refine List.pairwise_cons.mpr ⟨?_, ih hm'⟩
      intro c hc
      rcases Memory.mem_write hc with rfl | hc
      · show x.1 < a
        omega
      · exact hx c hc

/-- A write below a bound keeps every listed index below it. -/
theorem Memory.bound_write {m : Memory} {n a : Nat} {v : Byte} (hm : ∀ c ∈ m, c.1 < n) (ha : a < n) :
    ∀ c ∈ m.write a v, c.1 < n := by
  intro c hc
  rcases Memory.mem_write hc with rfl | hc
  · exact ha
  · exact hm c hc

/-- Consecutive bytes from `i` on. -/
def Memory.writeAll (m : Memory) (i : Nat) : List Byte → Memory
  | [] => m
  | b :: rest => Memory.writeAll (m.write i b) (i + 1) rest

theorem Memory.wf_writeAll {m : Memory} (hm : m.wf) (i : Nat) (data : List Byte) : (m.writeAll i data).wf := by
  induction data generalizing m i with
  | nil => exact hm
  | cons b rest ih => exact ih (Memory.wf_write hm i b) (i + 1)

theorem Memory.bound_writeAll {m : Memory} {n i : Nat} {data : List Byte} (hm : ∀ c ∈ m, c.1 < n)
    (hi : i + data.length ≤ n) : ∀ c ∈ m.writeAll i data, c.1 < n := by
  induction data generalizing m i with
  | nil => exact hm
  | cons b rest ih =>
    simp only [List.length_cons] at hi
    exact ih (Memory.bound_write hm (by omega)) (by omega)

/-- What a block write leaves: its own bytes at its own indices, the old bytes elsewhere. -/
theorem Memory.read_writeAll (m : Memory) (i : Nat) (data : List Byte) (a : Nat) :
    (m.writeAll i data).read a = if i ≤ a ∧ a < i + data.length then data[a - i]? else m.read a := by
  induction data generalizing m i with
  | nil =>
    have : ¬(i ≤ a ∧ a < i + 0) := by omega
    rw [List.length_nil, if_neg this, Memory.writeAll]
  | cons b rest ih =>
    rw [Memory.writeAll, ih, Memory.read_write]
    simp only [List.length_cons]
    by_cases h1 : a = i
    · subst h1
      have h3 : a ≤ a ∧ a < a + (rest.length + 1) := by omega
      simp [h3]
    · by_cases h2 : i + 1 ≤ a ∧ a < i + 1 + rest.length
      · have h3 : i ≤ a ∧ a < i + (rest.length + 1) := by omega
        obtain ⟨k, rfl⟩ : ∃ k, a = i + 1 + k := ⟨a - (i + 1), by omega⟩
        have h4 : i + 1 + k - (i + 1) = k := by omega
        have h5 : i + 1 + k - i = k + 1 := by omega
        rw [if_pos h2, if_pos h3, h4, h5, List.getElem?_cons_succ]
      · have h3 : ¬(i ≤ a ∧ a < i + (rest.length + 1)) := by omega
        rw [if_neg h2, if_neg h3, if_neg h1]

/-! ### The variables of user code -/

theorem Variables.mem_without {m : Variables} {x : Nat} {c : Nat × Nat} (h : c ∈ m.without x) : c ∈ m :=
  (List.mem_filter.mp h).1

theorem Variables.mem_put {m : Variables} {x v : Nat} {c : Nat × Nat} (h : c ∈ m.put x v) :
    c = (x, v) ∨ c ∈ m := by
  induction m with
  | nil => exact .inl (by simpa [Variables.put] using h)
  | cons y m ih =>
    simp only [Variables.put] at h
    split_ifs at h <;> simp only [List.mem_cons] at h ⊢ <;> tauto

theorem Variables.rising_without {m : Variables} (hm : m.Pairwise (fun x y => x.1 < y.1)) (x : Nat) :
    (m.without x).Pairwise (fun x y => x.1 < y.1) := hm.filter _

theorem Variables.rising_put {m : Variables} (hm : m.Pairwise (fun x y => x.1 < y.1)) (x v : Nat) :
    (m.put x v).Pairwise (fun x y => x.1 < y.1) := by
  induction m with
  | nil => simp [Variables.put]
  | cons y m ih =>
    obtain ⟨hy, hm'⟩ := List.pairwise_cons.mp hm
    simp only [Variables.put]
    split_ifs with h1 h2
    · refine List.pairwise_cons.mpr ⟨fun c hc => ?_, hm⟩
      rcases List.mem_cons.mp hc with rfl | hc
      · exact h1
      · exact Nat.lt_trans h1 (hy c hc)
    · subst h2
      exact List.pairwise_cons.mpr ⟨hy, hm'⟩
    · refine List.pairwise_cons.mpr ⟨fun c hc => ?_, ih hm'⟩
      rcases Variables.mem_put hc with rfl | hc
      · show y.1 < x
        omega
      · exact hy c hc

/-- A write keeps the canonical form. -/
theorem Variables.wf_write {m : Variables} (hm : m.wf) (x v : Nat) : (m.write x v).wf := by
  unfold Variables.write
  split_ifs with h
  · exact ⟨rising_without hm.1 x, fun c hc => hm.2 c (mem_without hc)⟩
  · refine ⟨rising_put hm.1 x v, fun c hc => ?_⟩
    rcases mem_put hc with rfl | hc
    · exact h
    · exact hm.2 c hc

theorem Variables.read_put (m : Variables) (x v y : Nat) :
    (m.put x v).read y = if y = x then v else m.read y := by
  induction m with
  | nil => simp [Variables.put, Variables.read]
  | cons c m ih =>
    simp only [Variables.put]
    split_ifs <;> simp_all [Variables.read]

theorem Variables.read_without (m : Variables) (x y : Nat) :
    (Variables.without m x).read y = if y = x then 0 else m.read y := by
  induction m with
  | nil => simp [Variables.without, Variables.read]
  | cons c m ih =>
    have he : Variables.without (c :: m) x = if c.1 = x then Variables.without m x else c :: Variables.without m x := by
      simp [Variables.without, List.filter_cons]
    rw [he]
    by_cases hc : c.1 = x <;> by_cases hy : y = c.1 <;> simp_all [Variables.read]

/-- A variable just written has the value written, and every other is as before. -/
theorem Variables.read_write (m : Variables) (x v y : Nat) : (m.write x v).read y = if y = x then v else m.read y := by
  unfold Variables.write
  split_ifs with h h' h'
  · rw [read_without, if_pos h', h]
  · rw [read_without, if_neg h']
  · rw [read_put, if_pos h']
  · rw [read_put, if_neg h']

end Sys2Proof.Machine
end

