-- ==== Sys2Proof/Laws/State.lean ====
section
/-! SUPPORT. What each named update of the state leaves in each field, true by definition, so that a proof never unfolds
a record update: for each update, every field of the records it touches, and every other record whole. -/

namespace Sys2Proof.Machine

@[simp] theorem State.setCursor_cfg (s : State) (n : Nat) : (s.setCursor n).cfg = s.cfg := rfl
@[simp] theorem State.setCursor_userCode (s : State) (n : Nat) : (s.setCursor n).userCode = s.userCode := rfl
@[simp] theorem State.setCursor_vars (s : State) (n : Nat) : (s.setCursor n).vars = s.vars := rfl
@[simp] theorem State.setCursor_ctx_txBuffer (s : State) (n : Nat) : (s.setCursor n).ctx.txBuffer = s.ctx.txBuffer := rfl
@[simp] theorem State.setCursor_ctx_rxTarget (s : State) (n : Nat) : (s.setCursor n).ctx.rxTarget = s.ctx.rxTarget := rfl
@[simp] theorem State.setCursor_ctx_cursor (s : State) (n : Nat) : (s.setCursor n).ctx.cursor = n := rfl
@[simp] theorem State.setCursor_ctx_length (s : State) (n : Nat) : (s.setCursor n).ctx.length = s.ctx.length := rfl
@[simp] theorem State.setCursor_ctx_busy (s : State) (n : Nat) : (s.setCursor n).ctx.busy = s.ctx.busy := rfl
@[simp] theorem State.setCursor_ctx_addressAndDirection (s : State) (n : Nat) : (s.setCursor n).ctx.addressAndDirection = s.ctx.addressAndDirection := rfl
@[simp] theorem State.setCursor_ctx_lastError (s : State) (n : Nat) : (s.setCursor n).ctx.lastError = s.ctx.lastError := rfl
@[simp] theorem State.setCursor_ctx_onRequest (s : State) (n : Nat) : (s.setCursor n).ctx.onRequest = s.ctx.onRequest := rfl
@[simp] theorem State.setCursor_ctx_onReceive (s : State) (n : Nat) : (s.setCursor n).ctx.onReceive = s.ctx.onReceive := rfl
@[simp] theorem State.setCursor_written_rxTarget (s : State) (n : Nat) : (s.setCursor n).written.rxTarget = s.written.rxTarget := rfl
@[simp] theorem State.setCursor_written_cursor (s : State) (n : Nat) : (s.setCursor n).written.cursor = true := rfl
@[simp] theorem State.setCursor_written_length (s : State) (n : Nat) : (s.setCursor n).written.length = s.written.length := rfl
@[simp] theorem State.setCursor_written_addressAndDirection (s : State) (n : Nat) : (s.setCursor n).written.addressAndDirection = s.written.addressAndDirection := rfl
@[simp] theorem State.setCursor_written_lastError (s : State) (n : Nat) : (s.setCursor n).written.lastError = s.written.lastError := rfl
@[simp] theorem State.setCursor_written_hsCounter (s : State) (n : Nat) : (s.setCursor n).written.hsCounter = s.written.hsCounter := rfl
@[simp] theorem State.setCursor_control (s : State) (n : Nat) : (s.setCursor n).control = s.control := rfl
@[simp] theorem State.setCursor_run (s : State) (n : Nat) : (s.setCursor n).run = s.run := rfl
@[simp] theorem State.setCursor_memory (s : State) (n : Nat) : (s.setCursor n).memory = s.memory := rfl
@[simp] theorem State.setCursor_dummy (s : State) (n : Nat) : (s.setCursor n).dummy = s.dummy := rfl
@[simp] theorem State.setCursor_adapter (s : State) (n : Nat) : (s.setCursor n).adapter = s.adapter := rfl
@[simp] theorem State.setCursor_env (s : State) (n : Nat) : (s.setCursor n).env = s.env := rfl

@[simp] theorem State.setLength_cfg (s : State) (n : Nat) : (s.setLength n).cfg = s.cfg := rfl
@[simp] theorem State.setLength_userCode (s : State) (n : Nat) : (s.setLength n).userCode = s.userCode := rfl
@[simp] theorem State.setLength_vars (s : State) (n : Nat) : (s.setLength n).vars = s.vars := rfl
@[simp] theorem State.setLength_ctx_txBuffer (s : State) (n : Nat) : (s.setLength n).ctx.txBuffer = s.ctx.txBuffer := rfl
@[simp] theorem State.setLength_ctx_rxTarget (s : State) (n : Nat) : (s.setLength n).ctx.rxTarget = s.ctx.rxTarget := rfl
@[simp] theorem State.setLength_ctx_cursor (s : State) (n : Nat) : (s.setLength n).ctx.cursor = s.ctx.cursor := rfl
@[simp] theorem State.setLength_ctx_length (s : State) (n : Nat) : (s.setLength n).ctx.length = n := rfl
@[simp] theorem State.setLength_ctx_busy (s : State) (n : Nat) : (s.setLength n).ctx.busy = s.ctx.busy := rfl
@[simp] theorem State.setLength_ctx_addressAndDirection (s : State) (n : Nat) : (s.setLength n).ctx.addressAndDirection = s.ctx.addressAndDirection := rfl
@[simp] theorem State.setLength_ctx_lastError (s : State) (n : Nat) : (s.setLength n).ctx.lastError = s.ctx.lastError := rfl
@[simp] theorem State.setLength_ctx_onRequest (s : State) (n : Nat) : (s.setLength n).ctx.onRequest = s.ctx.onRequest := rfl
@[simp] theorem State.setLength_ctx_onReceive (s : State) (n : Nat) : (s.setLength n).ctx.onReceive = s.ctx.onReceive := rfl
@[simp] theorem State.setLength_written_rxTarget (s : State) (n : Nat) : (s.setLength n).written.rxTarget = s.written.rxTarget := rfl
@[simp] theorem State.setLength_written_cursor (s : State) (n : Nat) : (s.setLength n).written.cursor = s.written.cursor := rfl
@[simp] theorem State.setLength_written_length (s : State) (n : Nat) : (s.setLength n).written.length = true := rfl
@[simp] theorem State.setLength_written_addressAndDirection (s : State) (n : Nat) : (s.setLength n).written.addressAndDirection = s.written.addressAndDirection := rfl
@[simp] theorem State.setLength_written_lastError (s : State) (n : Nat) : (s.setLength n).written.lastError = s.written.lastError := rfl
@[simp] theorem State.setLength_written_hsCounter (s : State) (n : Nat) : (s.setLength n).written.hsCounter = s.written.hsCounter := rfl
@[simp] theorem State.setLength_control (s : State) (n : Nat) : (s.setLength n).control = s.control := rfl
@[simp] theorem State.setLength_run (s : State) (n : Nat) : (s.setLength n).run = s.run := rfl
@[simp] theorem State.setLength_memory (s : State) (n : Nat) : (s.setLength n).memory = s.memory := rfl
@[simp] theorem State.setLength_dummy (s : State) (n : Nat) : (s.setLength n).dummy = s.dummy := rfl
@[simp] theorem State.setLength_adapter (s : State) (n : Nat) : (s.setLength n).adapter = s.adapter := rfl
@[simp] theorem State.setLength_env (s : State) (n : Nat) : (s.setLength n).env = s.env := rfl

@[simp] theorem State.setBusy_cfg (s : State) (b : Bool) : (s.setBusy b).cfg = s.cfg := rfl
@[simp] theorem State.setBusy_userCode (s : State) (b : Bool) : (s.setBusy b).userCode = s.userCode := rfl
@[simp] theorem State.setBusy_vars (s : State) (b : Bool) : (s.setBusy b).vars = s.vars := rfl
@[simp] theorem State.setBusy_ctx_txBuffer (s : State) (b : Bool) : (s.setBusy b).ctx.txBuffer = s.ctx.txBuffer := rfl
@[simp] theorem State.setBusy_ctx_rxTarget (s : State) (b : Bool) : (s.setBusy b).ctx.rxTarget = s.ctx.rxTarget := rfl
@[simp] theorem State.setBusy_ctx_cursor (s : State) (b : Bool) : (s.setBusy b).ctx.cursor = s.ctx.cursor := rfl
@[simp] theorem State.setBusy_ctx_length (s : State) (b : Bool) : (s.setBusy b).ctx.length = s.ctx.length := rfl
@[simp] theorem State.setBusy_ctx_busy (s : State) (b : Bool) : (s.setBusy b).ctx.busy = b := rfl
@[simp] theorem State.setBusy_ctx_addressAndDirection (s : State) (b : Bool) : (s.setBusy b).ctx.addressAndDirection = s.ctx.addressAndDirection := rfl
@[simp] theorem State.setBusy_ctx_lastError (s : State) (b : Bool) : (s.setBusy b).ctx.lastError = s.ctx.lastError := rfl
@[simp] theorem State.setBusy_ctx_onRequest (s : State) (b : Bool) : (s.setBusy b).ctx.onRequest = s.ctx.onRequest := rfl
@[simp] theorem State.setBusy_ctx_onReceive (s : State) (b : Bool) : (s.setBusy b).ctx.onReceive = s.ctx.onReceive := rfl
@[simp] theorem State.setBusy_written (s : State) (b : Bool) : (s.setBusy b).written = s.written := rfl
@[simp] theorem State.setBusy_control (s : State) (b : Bool) : (s.setBusy b).control = s.control := rfl
@[simp] theorem State.setBusy_run (s : State) (b : Bool) : (s.setBusy b).run = s.run := rfl
@[simp] theorem State.setBusy_memory (s : State) (b : Bool) : (s.setBusy b).memory = s.memory := rfl
@[simp] theorem State.setBusy_dummy (s : State) (b : Bool) : (s.setBusy b).dummy = s.dummy := rfl
@[simp] theorem State.setBusy_adapter (s : State) (b : Bool) : (s.setBusy b).adapter = s.adapter := rfl
@[simp] theorem State.setBusy_env (s : State) (b : Bool) : (s.setBusy b).env = s.env := rfl

@[simp] theorem State.setAddress_cfg (s : State) (b : Byte) : (s.setAddress b).cfg = s.cfg := rfl
@[simp] theorem State.setAddress_userCode (s : State) (b : Byte) : (s.setAddress b).userCode = s.userCode := rfl
@[simp] theorem State.setAddress_vars (s : State) (b : Byte) : (s.setAddress b).vars = s.vars := rfl
@[simp] theorem State.setAddress_ctx_txBuffer (s : State) (b : Byte) : (s.setAddress b).ctx.txBuffer = s.ctx.txBuffer := rfl
@[simp] theorem State.setAddress_ctx_rxTarget (s : State) (b : Byte) : (s.setAddress b).ctx.rxTarget = s.ctx.rxTarget := rfl
@[simp] theorem State.setAddress_ctx_cursor (s : State) (b : Byte) : (s.setAddress b).ctx.cursor = s.ctx.cursor := rfl
@[simp] theorem State.setAddress_ctx_length (s : State) (b : Byte) : (s.setAddress b).ctx.length = s.ctx.length := rfl
@[simp] theorem State.setAddress_ctx_busy (s : State) (b : Byte) : (s.setAddress b).ctx.busy = s.ctx.busy := rfl
@[simp] theorem State.setAddress_ctx_addressAndDirection (s : State) (b : Byte) : (s.setAddress b).ctx.addressAndDirection = b := rfl
@[simp] theorem State.setAddress_ctx_lastError (s : State) (b : Byte) : (s.setAddress b).ctx.lastError = s.ctx.lastError := rfl
@[simp] theorem State.setAddress_ctx_onRequest (s : State) (b : Byte) : (s.setAddress b).ctx.onRequest = s.ctx.onRequest := rfl
@[simp] theorem State.setAddress_ctx_onReceive (s : State) (b : Byte) : (s.setAddress b).ctx.onReceive = s.ctx.onReceive := rfl
@[simp] theorem State.setAddress_written_rxTarget (s : State) (b : Byte) : (s.setAddress b).written.rxTarget = s.written.rxTarget := rfl
@[simp] theorem State.setAddress_written_cursor (s : State) (b : Byte) : (s.setAddress b).written.cursor = s.written.cursor := rfl
@[simp] theorem State.setAddress_written_length (s : State) (b : Byte) : (s.setAddress b).written.length = s.written.length := rfl
@[simp] theorem State.setAddress_written_addressAndDirection (s : State) (b : Byte) : (s.setAddress b).written.addressAndDirection = true := rfl
@[simp] theorem State.setAddress_written_lastError (s : State) (b : Byte) : (s.setAddress b).written.lastError = s.written.lastError := rfl
@[simp] theorem State.setAddress_written_hsCounter (s : State) (b : Byte) : (s.setAddress b).written.hsCounter = s.written.hsCounter := rfl
@[simp] theorem State.setAddress_control (s : State) (b : Byte) : (s.setAddress b).control = s.control := rfl
@[simp] theorem State.setAddress_run (s : State) (b : Byte) : (s.setAddress b).run = s.run := rfl
@[simp] theorem State.setAddress_memory (s : State) (b : Byte) : (s.setAddress b).memory = s.memory := rfl
@[simp] theorem State.setAddress_dummy (s : State) (b : Byte) : (s.setAddress b).dummy = s.dummy := rfl
@[simp] theorem State.setAddress_adapter (s : State) (b : Byte) : (s.setAddress b).adapter = s.adapter := rfl
@[simp] theorem State.setAddress_env (s : State) (b : Byte) : (s.setAddress b).env = s.env := rfl

@[simp] theorem State.setLastError_cfg (s : State) (e : LastError) : (s.setLastError e).cfg = s.cfg := rfl
@[simp] theorem State.setLastError_userCode (s : State) (e : LastError) : (s.setLastError e).userCode = s.userCode := rfl
@[simp] theorem State.setLastError_vars (s : State) (e : LastError) : (s.setLastError e).vars = s.vars := rfl
@[simp] theorem State.setLastError_ctx_txBuffer (s : State) (e : LastError) : (s.setLastError e).ctx.txBuffer = s.ctx.txBuffer := rfl
@[simp] theorem State.setLastError_ctx_rxTarget (s : State) (e : LastError) : (s.setLastError e).ctx.rxTarget = s.ctx.rxTarget := rfl
@[simp] theorem State.setLastError_ctx_cursor (s : State) (e : LastError) : (s.setLastError e).ctx.cursor = s.ctx.cursor := rfl
@[simp] theorem State.setLastError_ctx_length (s : State) (e : LastError) : (s.setLastError e).ctx.length = s.ctx.length := rfl
@[simp] theorem State.setLastError_ctx_busy (s : State) (e : LastError) : (s.setLastError e).ctx.busy = s.ctx.busy := rfl
@[simp] theorem State.setLastError_ctx_addressAndDirection (s : State) (e : LastError) : (s.setLastError e).ctx.addressAndDirection = s.ctx.addressAndDirection := rfl
@[simp] theorem State.setLastError_ctx_lastError (s : State) (e : LastError) : (s.setLastError e).ctx.lastError = e := rfl
@[simp] theorem State.setLastError_ctx_onRequest (s : State) (e : LastError) : (s.setLastError e).ctx.onRequest = s.ctx.onRequest := rfl
@[simp] theorem State.setLastError_ctx_onReceive (s : State) (e : LastError) : (s.setLastError e).ctx.onReceive = s.ctx.onReceive := rfl
@[simp] theorem State.setLastError_written_rxTarget (s : State) (e : LastError) : (s.setLastError e).written.rxTarget = s.written.rxTarget := rfl
@[simp] theorem State.setLastError_written_cursor (s : State) (e : LastError) : (s.setLastError e).written.cursor = s.written.cursor := rfl
@[simp] theorem State.setLastError_written_length (s : State) (e : LastError) : (s.setLastError e).written.length = s.written.length := rfl
@[simp] theorem State.setLastError_written_addressAndDirection (s : State) (e : LastError) : (s.setLastError e).written.addressAndDirection = s.written.addressAndDirection := rfl
@[simp] theorem State.setLastError_written_lastError (s : State) (e : LastError) : (s.setLastError e).written.lastError = true := rfl
@[simp] theorem State.setLastError_written_hsCounter (s : State) (e : LastError) : (s.setLastError e).written.hsCounter = s.written.hsCounter := rfl
@[simp] theorem State.setLastError_control (s : State) (e : LastError) : (s.setLastError e).control = s.control := rfl
@[simp] theorem State.setLastError_run (s : State) (e : LastError) : (s.setLastError e).run = s.run := rfl
@[simp] theorem State.setLastError_memory (s : State) (e : LastError) : (s.setLastError e).memory = s.memory := rfl
@[simp] theorem State.setLastError_dummy (s : State) (e : LastError) : (s.setLastError e).dummy = s.dummy := rfl
@[simp] theorem State.setLastError_adapter (s : State) (e : LastError) : (s.setLastError e).adapter = s.adapter := rfl
@[simp] theorem State.setLastError_env (s : State) (e : LastError) : (s.setLastError e).env = s.env := rfl

@[simp] theorem State.setRxTarget_cfg (s : State) (rx : RxTarget) : (s.setRxTarget rx).cfg = s.cfg := rfl
@[simp] theorem State.setRxTarget_userCode (s : State) (rx : RxTarget) : (s.setRxTarget rx).userCode = s.userCode := rfl
@[simp] theorem State.setRxTarget_vars (s : State) (rx : RxTarget) : (s.setRxTarget rx).vars = s.vars := rfl
@[simp] theorem State.setRxTarget_ctx_txBuffer (s : State) (rx : RxTarget) : (s.setRxTarget rx).ctx.txBuffer = s.ctx.txBuffer := rfl
@[simp] theorem State.setRxTarget_ctx_rxTarget (s : State) (rx : RxTarget) : (s.setRxTarget rx).ctx.rxTarget = rx := rfl
@[simp] theorem State.setRxTarget_ctx_cursor (s : State) (rx : RxTarget) : (s.setRxTarget rx).ctx.cursor = s.ctx.cursor := rfl
@[simp] theorem State.setRxTarget_ctx_length (s : State) (rx : RxTarget) : (s.setRxTarget rx).ctx.length = s.ctx.length := rfl
@[simp] theorem State.setRxTarget_ctx_busy (s : State) (rx : RxTarget) : (s.setRxTarget rx).ctx.busy = s.ctx.busy := rfl
@[simp] theorem State.setRxTarget_ctx_addressAndDirection (s : State) (rx : RxTarget) : (s.setRxTarget rx).ctx.addressAndDirection = s.ctx.addressAndDirection := rfl
@[simp] theorem State.setRxTarget_ctx_lastError (s : State) (rx : RxTarget) : (s.setRxTarget rx).ctx.lastError = s.ctx.lastError := rfl
@[simp] theorem State.setRxTarget_ctx_onRequest (s : State) (rx : RxTarget) : (s.setRxTarget rx).ctx.onRequest = s.ctx.onRequest := rfl
@[simp] theorem State.setRxTarget_ctx_onReceive (s : State) (rx : RxTarget) : (s.setRxTarget rx).ctx.onReceive = s.ctx.onReceive := rfl
@[simp] theorem State.setRxTarget_written_rxTarget (s : State) (rx : RxTarget) : (s.setRxTarget rx).written.rxTarget = true := rfl
@[simp] theorem State.setRxTarget_written_cursor (s : State) (rx : RxTarget) : (s.setRxTarget rx).written.cursor = s.written.cursor := rfl
@[simp] theorem State.setRxTarget_written_length (s : State) (rx : RxTarget) : (s.setRxTarget rx).written.length = s.written.length := rfl
@[simp] theorem State.setRxTarget_written_addressAndDirection (s : State) (rx : RxTarget) : (s.setRxTarget rx).written.addressAndDirection = s.written.addressAndDirection := rfl
@[simp] theorem State.setRxTarget_written_lastError (s : State) (rx : RxTarget) : (s.setRxTarget rx).written.lastError = s.written.lastError := rfl
@[simp] theorem State.setRxTarget_written_hsCounter (s : State) (rx : RxTarget) : (s.setRxTarget rx).written.hsCounter = s.written.hsCounter := rfl
@[simp] theorem State.setRxTarget_control (s : State) (rx : RxTarget) : (s.setRxTarget rx).control = s.control := rfl
@[simp] theorem State.setRxTarget_run (s : State) (rx : RxTarget) : (s.setRxTarget rx).run = s.run := rfl
@[simp] theorem State.setRxTarget_memory (s : State) (rx : RxTarget) : (s.setRxTarget rx).memory = s.memory := rfl
@[simp] theorem State.setRxTarget_dummy (s : State) (rx : RxTarget) : (s.setRxTarget rx).dummy = s.dummy := rfl
@[simp] theorem State.setRxTarget_adapter (s : State) (rx : RxTarget) : (s.setRxTarget rx).adapter = s.adapter := rfl
@[simp] theorem State.setRxTarget_env (s : State) (rx : RxTarget) : (s.setRxTarget rx).env = s.env := rfl

@[simp] theorem State.setOnRequest_cfg (s : State) (c : CallbackRef) : (s.setOnRequest c).cfg = s.cfg := rfl
@[simp] theorem State.setOnRequest_userCode (s : State) (c : CallbackRef) : (s.setOnRequest c).userCode = s.userCode := rfl
@[simp] theorem State.setOnRequest_vars (s : State) (c : CallbackRef) : (s.setOnRequest c).vars = s.vars := rfl
@[simp] theorem State.setOnRequest_ctx_txBuffer (s : State) (c : CallbackRef) : (s.setOnRequest c).ctx.txBuffer = s.ctx.txBuffer := rfl
@[simp] theorem State.setOnRequest_ctx_rxTarget (s : State) (c : CallbackRef) : (s.setOnRequest c).ctx.rxTarget = s.ctx.rxTarget := rfl
@[simp] theorem State.setOnRequest_ctx_cursor (s : State) (c : CallbackRef) : (s.setOnRequest c).ctx.cursor = s.ctx.cursor := rfl
@[simp] theorem State.setOnRequest_ctx_length (s : State) (c : CallbackRef) : (s.setOnRequest c).ctx.length = s.ctx.length := rfl
@[simp] theorem State.setOnRequest_ctx_busy (s : State) (c : CallbackRef) : (s.setOnRequest c).ctx.busy = s.ctx.busy := rfl
@[simp] theorem State.setOnRequest_ctx_addressAndDirection (s : State) (c : CallbackRef) : (s.setOnRequest c).ctx.addressAndDirection = s.ctx.addressAndDirection := rfl
@[simp] theorem State.setOnRequest_ctx_lastError (s : State) (c : CallbackRef) : (s.setOnRequest c).ctx.lastError = s.ctx.lastError := rfl
@[simp] theorem State.setOnRequest_ctx_onRequest (s : State) (c : CallbackRef) : (s.setOnRequest c).ctx.onRequest = some c := rfl
@[simp] theorem State.setOnRequest_ctx_onReceive (s : State) (c : CallbackRef) : (s.setOnRequest c).ctx.onReceive = s.ctx.onReceive := rfl
@[simp] theorem State.setOnRequest_written (s : State) (c : CallbackRef) : (s.setOnRequest c).written = s.written := rfl
@[simp] theorem State.setOnRequest_control (s : State) (c : CallbackRef) : (s.setOnRequest c).control = s.control := rfl
@[simp] theorem State.setOnRequest_run (s : State) (c : CallbackRef) : (s.setOnRequest c).run = s.run := rfl
@[simp] theorem State.setOnRequest_memory (s : State) (c : CallbackRef) : (s.setOnRequest c).memory = s.memory := rfl
@[simp] theorem State.setOnRequest_dummy (s : State) (c : CallbackRef) : (s.setOnRequest c).dummy = s.dummy := rfl
@[simp] theorem State.setOnRequest_adapter (s : State) (c : CallbackRef) : (s.setOnRequest c).adapter = s.adapter := rfl
@[simp] theorem State.setOnRequest_env (s : State) (c : CallbackRef) : (s.setOnRequest c).env = s.env := rfl

@[simp] theorem State.setOnReceive_cfg (s : State) (c : CallbackRef) : (s.setOnReceive c).cfg = s.cfg := rfl
@[simp] theorem State.setOnReceive_userCode (s : State) (c : CallbackRef) : (s.setOnReceive c).userCode = s.userCode := rfl
@[simp] theorem State.setOnReceive_vars (s : State) (c : CallbackRef) : (s.setOnReceive c).vars = s.vars := rfl
@[simp] theorem State.setOnReceive_ctx_txBuffer (s : State) (c : CallbackRef) : (s.setOnReceive c).ctx.txBuffer = s.ctx.txBuffer := rfl
@[simp] theorem State.setOnReceive_ctx_rxTarget (s : State) (c : CallbackRef) : (s.setOnReceive c).ctx.rxTarget = s.ctx.rxTarget := rfl
@[simp] theorem State.setOnReceive_ctx_cursor (s : State) (c : CallbackRef) : (s.setOnReceive c).ctx.cursor = s.ctx.cursor := rfl
@[simp] theorem State.setOnReceive_ctx_length (s : State) (c : CallbackRef) : (s.setOnReceive c).ctx.length = s.ctx.length := rfl
@[simp] theorem State.setOnReceive_ctx_busy (s : State) (c : CallbackRef) : (s.setOnReceive c).ctx.busy = s.ctx.busy := rfl
@[simp] theorem State.setOnReceive_ctx_addressAndDirection (s : State) (c : CallbackRef) : (s.setOnReceive c).ctx.addressAndDirection = s.ctx.addressAndDirection := rfl
@[simp] theorem State.setOnReceive_ctx_lastError (s : State) (c : CallbackRef) : (s.setOnReceive c).ctx.lastError = s.ctx.lastError := rfl
@[simp] theorem State.setOnReceive_ctx_onRequest (s : State) (c : CallbackRef) : (s.setOnReceive c).ctx.onRequest = s.ctx.onRequest := rfl
@[simp] theorem State.setOnReceive_ctx_onReceive (s : State) (c : CallbackRef) : (s.setOnReceive c).ctx.onReceive = some c := rfl
@[simp] theorem State.setOnReceive_written (s : State) (c : CallbackRef) : (s.setOnReceive c).written = s.written := rfl
@[simp] theorem State.setOnReceive_control (s : State) (c : CallbackRef) : (s.setOnReceive c).control = s.control := rfl
@[simp] theorem State.setOnReceive_run (s : State) (c : CallbackRef) : (s.setOnReceive c).run = s.run := rfl
@[simp] theorem State.setOnReceive_memory (s : State) (c : CallbackRef) : (s.setOnReceive c).memory = s.memory := rfl
@[simp] theorem State.setOnReceive_dummy (s : State) (c : CallbackRef) : (s.setOnReceive c).dummy = s.dummy := rfl
@[simp] theorem State.setOnReceive_adapter (s : State) (c : CallbackRef) : (s.setOnReceive c).adapter = s.adapter := rfl
@[simp] theorem State.setOnReceive_env (s : State) (c : CallbackRef) : (s.setOnReceive c).env = s.env := rfl

@[simp] theorem State.setTxBuffer_cfg (s : State) (m : Memory) : (s.setTxBuffer m).cfg = s.cfg := rfl
@[simp] theorem State.setTxBuffer_userCode (s : State) (m : Memory) : (s.setTxBuffer m).userCode = s.userCode := rfl
@[simp] theorem State.setTxBuffer_vars (s : State) (m : Memory) : (s.setTxBuffer m).vars = s.vars := rfl
@[simp] theorem State.setTxBuffer_ctx_txBuffer (s : State) (m : Memory) : (s.setTxBuffer m).ctx.txBuffer = m := rfl
@[simp] theorem State.setTxBuffer_ctx_rxTarget (s : State) (m : Memory) : (s.setTxBuffer m).ctx.rxTarget = s.ctx.rxTarget := rfl
@[simp] theorem State.setTxBuffer_ctx_cursor (s : State) (m : Memory) : (s.setTxBuffer m).ctx.cursor = s.ctx.cursor := rfl
@[simp] theorem State.setTxBuffer_ctx_length (s : State) (m : Memory) : (s.setTxBuffer m).ctx.length = s.ctx.length := rfl
@[simp] theorem State.setTxBuffer_ctx_busy (s : State) (m : Memory) : (s.setTxBuffer m).ctx.busy = s.ctx.busy := rfl
@[simp] theorem State.setTxBuffer_ctx_addressAndDirection (s : State) (m : Memory) : (s.setTxBuffer m).ctx.addressAndDirection = s.ctx.addressAndDirection := rfl
@[simp] theorem State.setTxBuffer_ctx_lastError (s : State) (m : Memory) : (s.setTxBuffer m).ctx.lastError = s.ctx.lastError := rfl
@[simp] theorem State.setTxBuffer_ctx_onRequest (s : State) (m : Memory) : (s.setTxBuffer m).ctx.onRequest = s.ctx.onRequest := rfl
@[simp] theorem State.setTxBuffer_ctx_onReceive (s : State) (m : Memory) : (s.setTxBuffer m).ctx.onReceive = s.ctx.onReceive := rfl
@[simp] theorem State.setTxBuffer_written (s : State) (m : Memory) : (s.setTxBuffer m).written = s.written := rfl
@[simp] theorem State.setTxBuffer_control (s : State) (m : Memory) : (s.setTxBuffer m).control = s.control := rfl
@[simp] theorem State.setTxBuffer_run (s : State) (m : Memory) : (s.setTxBuffer m).run = s.run := rfl
@[simp] theorem State.setTxBuffer_memory (s : State) (m : Memory) : (s.setTxBuffer m).memory = s.memory := rfl
@[simp] theorem State.setTxBuffer_dummy (s : State) (m : Memory) : (s.setTxBuffer m).dummy = s.dummy := rfl
@[simp] theorem State.setTxBuffer_adapter (s : State) (m : Memory) : (s.setTxBuffer m).adapter = s.adapter := rfl
@[simp] theorem State.setTxBuffer_env (s : State) (m : Memory) : (s.setTxBuffer m).env = s.env := rfl

@[simp] theorem State.setOwnAddress_cfg (s : State) (a : Address) : (s.setOwnAddress a).cfg = s.cfg := rfl
@[simp] theorem State.setOwnAddress_userCode (s : State) (a : Address) : (s.setOwnAddress a).userCode = s.userCode := rfl
@[simp] theorem State.setOwnAddress_vars (s : State) (a : Address) : (s.setOwnAddress a).vars = s.vars := rfl
@[simp] theorem State.setOwnAddress_ctx (s : State) (a : Address) : (s.setOwnAddress a).ctx = s.ctx := rfl
@[simp] theorem State.setOwnAddress_written (s : State) (a : Address) : (s.setOwnAddress a).written = s.written := rfl
@[simp] theorem State.setOwnAddress_control_ownAddress (s : State) (a : Address) : (s.setOwnAddress a).control.ownAddress = some a := rfl
@[simp] theorem State.setOwnAddress_control_generalCallEnable (s : State) (a : Address) : (s.setOwnAddress a).control.generalCallEnable = s.control.generalCallEnable := rfl
@[simp] theorem State.setOwnAddress_control_initialised (s : State) (a : Address) : (s.setOwnAddress a).control.initialised = s.control.initialised := rfl
@[simp] theorem State.setOwnAddress_control_hsCounter (s : State) (a : Address) : (s.setOwnAddress a).control.hsCounter = s.control.hsCounter := rfl
@[simp] theorem State.setOwnAddress_run (s : State) (a : Address) : (s.setOwnAddress a).run = s.run := rfl
@[simp] theorem State.setOwnAddress_memory (s : State) (a : Address) : (s.setOwnAddress a).memory = s.memory := rfl
@[simp] theorem State.setOwnAddress_dummy (s : State) (a : Address) : (s.setOwnAddress a).dummy = s.dummy := rfl
@[simp] theorem State.setOwnAddress_adapter (s : State) (a : Address) : (s.setOwnAddress a).adapter = s.adapter := rfl
@[simp] theorem State.setOwnAddress_env (s : State) (a : Address) : (s.setOwnAddress a).env = s.env := rfl

@[simp] theorem State.setGeneralCall_cfg (s : State) (b : Bool) : (s.setGeneralCall b).cfg = s.cfg := rfl
@[simp] theorem State.setGeneralCall_userCode (s : State) (b : Bool) : (s.setGeneralCall b).userCode = s.userCode := rfl
@[simp] theorem State.setGeneralCall_vars (s : State) (b : Bool) : (s.setGeneralCall b).vars = s.vars := rfl
@[simp] theorem State.setGeneralCall_ctx (s : State) (b : Bool) : (s.setGeneralCall b).ctx = s.ctx := rfl
@[simp] theorem State.setGeneralCall_written (s : State) (b : Bool) : (s.setGeneralCall b).written = s.written := rfl
@[simp] theorem State.setGeneralCall_control_ownAddress (s : State) (b : Bool) : (s.setGeneralCall b).control.ownAddress = s.control.ownAddress := rfl
@[simp] theorem State.setGeneralCall_control_generalCallEnable (s : State) (b : Bool) : (s.setGeneralCall b).control.generalCallEnable = b := rfl
@[simp] theorem State.setGeneralCall_control_initialised (s : State) (b : Bool) : (s.setGeneralCall b).control.initialised = s.control.initialised := rfl
@[simp] theorem State.setGeneralCall_control_hsCounter (s : State) (b : Bool) : (s.setGeneralCall b).control.hsCounter = s.control.hsCounter := rfl
@[simp] theorem State.setGeneralCall_run (s : State) (b : Bool) : (s.setGeneralCall b).run = s.run := rfl
@[simp] theorem State.setGeneralCall_memory (s : State) (b : Bool) : (s.setGeneralCall b).memory = s.memory := rfl
@[simp] theorem State.setGeneralCall_dummy (s : State) (b : Bool) : (s.setGeneralCall b).dummy = s.dummy := rfl
@[simp] theorem State.setGeneralCall_adapter (s : State) (b : Bool) : (s.setGeneralCall b).adapter = s.adapter := rfl
@[simp] theorem State.setGeneralCall_env (s : State) (b : Bool) : (s.setGeneralCall b).env = s.env := rfl

@[simp] theorem State.setInitialised_cfg (s : State) : s.setInitialised.cfg = s.cfg := rfl
@[simp] theorem State.setInitialised_userCode (s : State) : s.setInitialised.userCode = s.userCode := rfl
@[simp] theorem State.setInitialised_vars (s : State) : s.setInitialised.vars = s.vars := rfl
@[simp] theorem State.setInitialised_ctx (s : State) : s.setInitialised.ctx = s.ctx := rfl
@[simp] theorem State.setInitialised_written (s : State) : s.setInitialised.written = s.written := rfl
@[simp] theorem State.setInitialised_control_ownAddress (s : State) : s.setInitialised.control.ownAddress = s.control.ownAddress := rfl
@[simp] theorem State.setInitialised_control_generalCallEnable (s : State) : s.setInitialised.control.generalCallEnable = s.control.generalCallEnable := rfl
@[simp] theorem State.setInitialised_control_initialised (s : State) : s.setInitialised.control.initialised = true := rfl
@[simp] theorem State.setInitialised_control_hsCounter (s : State) : s.setInitialised.control.hsCounter = s.control.hsCounter := rfl
@[simp] theorem State.setInitialised_run (s : State) : s.setInitialised.run = s.run := rfl
@[simp] theorem State.setInitialised_memory (s : State) : s.setInitialised.memory = s.memory := rfl
@[simp] theorem State.setInitialised_dummy (s : State) : s.setInitialised.dummy = s.dummy := rfl
@[simp] theorem State.setInitialised_adapter (s : State) : s.setInitialised.adapter = s.adapter := rfl
@[simp] theorem State.setInitialised_env (s : State) : s.setInitialised.env = s.env := rfl

@[simp] theorem State.setHsCounter_cfg (s : State) (n : Nat) : (s.setHsCounter n).cfg = s.cfg := rfl
@[simp] theorem State.setHsCounter_userCode (s : State) (n : Nat) : (s.setHsCounter n).userCode = s.userCode := rfl
@[simp] theorem State.setHsCounter_vars (s : State) (n : Nat) : (s.setHsCounter n).vars = s.vars := rfl
@[simp] theorem State.setHsCounter_ctx (s : State) (n : Nat) : (s.setHsCounter n).ctx = s.ctx := rfl
@[simp] theorem State.setHsCounter_written_rxTarget (s : State) (n : Nat) : (s.setHsCounter n).written.rxTarget = s.written.rxTarget := rfl
@[simp] theorem State.setHsCounter_written_cursor (s : State) (n : Nat) : (s.setHsCounter n).written.cursor = s.written.cursor := rfl
@[simp] theorem State.setHsCounter_written_length (s : State) (n : Nat) : (s.setHsCounter n).written.length = s.written.length := rfl
@[simp] theorem State.setHsCounter_written_addressAndDirection (s : State) (n : Nat) : (s.setHsCounter n).written.addressAndDirection = s.written.addressAndDirection := rfl
@[simp] theorem State.setHsCounter_written_lastError (s : State) (n : Nat) : (s.setHsCounter n).written.lastError = s.written.lastError := rfl
@[simp] theorem State.setHsCounter_written_hsCounter (s : State) (n : Nat) : (s.setHsCounter n).written.hsCounter = true := rfl
@[simp] theorem State.setHsCounter_control_ownAddress (s : State) (n : Nat) : (s.setHsCounter n).control.ownAddress = s.control.ownAddress := rfl
@[simp] theorem State.setHsCounter_control_generalCallEnable (s : State) (n : Nat) : (s.setHsCounter n).control.generalCallEnable = s.control.generalCallEnable := rfl
@[simp] theorem State.setHsCounter_control_initialised (s : State) (n : Nat) : (s.setHsCounter n).control.initialised = s.control.initialised := rfl
@[simp] theorem State.setHsCounter_control_hsCounter (s : State) (n : Nat) : (s.setHsCounter n).control.hsCounter = n := rfl
@[simp] theorem State.setHsCounter_run (s : State) (n : Nat) : (s.setHsCounter n).run = s.run := rfl
@[simp] theorem State.setHsCounter_memory (s : State) (n : Nat) : (s.setHsCounter n).memory = s.memory := rfl
@[simp] theorem State.setHsCounter_dummy (s : State) (n : Nat) : (s.setHsCounter n).dummy = s.dummy := rfl
@[simp] theorem State.setHsCounter_adapter (s : State) (n : Nat) : (s.setHsCounter n).adapter = s.adapter := rfl
@[simp] theorem State.setHsCounter_env (s : State) (n : Nat) : (s.setHsCounter n).env = s.env := rfl

@[simp] theorem State.goto_cfg (s : State) (p : Phase) : (s.goto p).cfg = s.cfg := rfl
@[simp] theorem State.goto_userCode (s : State) (p : Phase) : (s.goto p).userCode = s.userCode := rfl
@[simp] theorem State.goto_vars (s : State) (p : Phase) : (s.goto p).vars = s.vars := rfl
@[simp] theorem State.goto_ctx (s : State) (p : Phase) : (s.goto p).ctx = s.ctx := rfl
@[simp] theorem State.goto_written (s : State) (p : Phase) : (s.goto p).written = s.written := rfl
@[simp] theorem State.goto_control (s : State) (p : Phase) : (s.goto p).control = s.control := rfl
@[simp] theorem State.goto_run_phase (s : State) (p : Phase) : (s.goto p).run.phase = p := rfl
@[simp] theorem State.goto_run_inHandler (s : State) (p : Phase) : (s.goto p).run.inHandler = s.run.inHandler := rfl
@[simp] theorem State.goto_run_stopWait (s : State) (p : Phase) : (s.goto p).run.stopWait = s.run.stopWait := rfl
@[simp] theorem State.goto_run_requestRun (s : State) (p : Phase) : (s.goto p).run.requestRun = s.run.requestRun := rfl
@[simp] theorem State.goto_run_transmitCalled (s : State) (p : Phase) : (s.goto p).run.transmitCalled = s.run.transmitCalled := rfl
@[simp] theorem State.goto_run_result (s : State) (p : Phase) : (s.goto p).run.result = s.run.result := rfl
@[simp] theorem State.goto_run_callbackResult (s : State) (p : Phase) : (s.goto p).run.callbackResult = s.run.callbackResult := rfl
@[simp] theorem State.goto_memory (s : State) (p : Phase) : (s.goto p).memory = s.memory := rfl
@[simp] theorem State.goto_dummy (s : State) (p : Phase) : (s.goto p).dummy = s.dummy := rfl
@[simp] theorem State.goto_adapter (s : State) (p : Phase) : (s.goto p).adapter = s.adapter := rfl
@[simp] theorem State.goto_env (s : State) (p : Phase) : (s.goto p).env = s.env := rfl

@[simp] theorem State.finish_cfg (s : State) (r : Result) : (s.finish r).cfg = s.cfg := rfl
@[simp] theorem State.finish_userCode (s : State) (r : Result) : (s.finish r).userCode = s.userCode := rfl
@[simp] theorem State.finish_vars (s : State) (r : Result) : (s.finish r).vars = s.vars := rfl
@[simp] theorem State.finish_ctx (s : State) (r : Result) : (s.finish r).ctx = s.ctx := rfl
@[simp] theorem State.finish_written (s : State) (r : Result) : (s.finish r).written = s.written := rfl
@[simp] theorem State.finish_control (s : State) (r : Result) : (s.finish r).control = s.control := rfl
@[simp] theorem State.finish_run_phase (s : State) (r : Result) : (s.finish r).run.phase = .idle := rfl
@[simp] theorem State.finish_run_inHandler (s : State) (r : Result) : (s.finish r).run.inHandler = s.run.inHandler := rfl
@[simp] theorem State.finish_run_stopWait (s : State) (r : Result) : (s.finish r).run.stopWait = s.run.stopWait := rfl
@[simp] theorem State.finish_run_requestRun (s : State) (r : Result) : (s.finish r).run.requestRun = s.run.requestRun := rfl
@[simp] theorem State.finish_run_transmitCalled (s : State) (r : Result) : (s.finish r).run.transmitCalled = s.run.transmitCalled := rfl
@[simp] theorem State.finish_run_result (s : State) (r : Result) : (s.finish r).run.result = r := rfl
@[simp] theorem State.finish_run_callbackResult (s : State) (r : Result) : (s.finish r).run.callbackResult = s.run.callbackResult := rfl
@[simp] theorem State.finish_memory (s : State) (r : Result) : (s.finish r).memory = s.memory := rfl
@[simp] theorem State.finish_dummy (s : State) (r : Result) : (s.finish r).dummy = s.dummy := rfl
@[simp] theorem State.finish_adapter (s : State) (r : Result) : (s.finish r).adapter = s.adapter := rfl
@[simp] theorem State.finish_env (s : State) (r : Result) : (s.finish r).env = s.env := rfl

@[simp] theorem State.beginRequest_cfg (s : State) : s.beginRequest.cfg = s.cfg := rfl
@[simp] theorem State.beginRequest_userCode (s : State) : s.beginRequest.userCode = s.userCode := rfl
@[simp] theorem State.beginRequest_vars (s : State) : s.beginRequest.vars = s.vars := rfl
@[simp] theorem State.beginRequest_ctx (s : State) : s.beginRequest.ctx = s.ctx := rfl
@[simp] theorem State.beginRequest_written (s : State) : s.beginRequest.written = s.written := rfl
@[simp] theorem State.beginRequest_control (s : State) : s.beginRequest.control = s.control := rfl
@[simp] theorem State.beginRequest_run_phase (s : State) : s.beginRequest.run.phase = s.run.phase := rfl
@[simp] theorem State.beginRequest_run_inHandler (s : State) : s.beginRequest.run.inHandler = s.run.inHandler := rfl
@[simp] theorem State.beginRequest_run_stopWait (s : State) : s.beginRequest.run.stopWait = s.run.stopWait := rfl
@[simp] theorem State.beginRequest_run_requestRun (s : State) : s.beginRequest.run.requestRun = true := rfl
@[simp] theorem State.beginRequest_run_transmitCalled (s : State) : s.beginRequest.run.transmitCalled = false := rfl
@[simp] theorem State.beginRequest_run_result (s : State) : s.beginRequest.run.result = s.run.result := rfl
@[simp] theorem State.beginRequest_run_callbackResult (s : State) : s.beginRequest.run.callbackResult = s.run.callbackResult := rfl
@[simp] theorem State.beginRequest_memory (s : State) : s.beginRequest.memory = s.memory := rfl
@[simp] theorem State.beginRequest_dummy (s : State) : s.beginRequest.dummy = s.dummy := rfl
@[simp] theorem State.beginRequest_adapter (s : State) : s.beginRequest.adapter = s.adapter := rfl
@[simp] theorem State.beginRequest_env (s : State) : s.beginRequest.env = s.env := rfl

@[simp] theorem State.endRequest_cfg (s : State) : s.endRequest.cfg = s.cfg := rfl
@[simp] theorem State.endRequest_userCode (s : State) : s.endRequest.userCode = s.userCode := rfl
@[simp] theorem State.endRequest_vars (s : State) : s.endRequest.vars = s.vars := rfl
@[simp] theorem State.endRequest_ctx (s : State) : s.endRequest.ctx = s.ctx := rfl
@[simp] theorem State.endRequest_written (s : State) : s.endRequest.written = s.written := rfl
@[simp] theorem State.endRequest_control (s : State) : s.endRequest.control = s.control := rfl
@[simp] theorem State.endRequest_run_phase (s : State) : s.endRequest.run.phase = s.run.phase := rfl
@[simp] theorem State.endRequest_run_inHandler (s : State) : s.endRequest.run.inHandler = s.run.inHandler := rfl
@[simp] theorem State.endRequest_run_stopWait (s : State) : s.endRequest.run.stopWait = s.run.stopWait := rfl
@[simp] theorem State.endRequest_run_requestRun (s : State) : s.endRequest.run.requestRun = false := rfl
@[simp] theorem State.endRequest_run_transmitCalled (s : State) : s.endRequest.run.transmitCalled = false := rfl
@[simp] theorem State.endRequest_run_result (s : State) : s.endRequest.run.result = s.run.result := rfl
@[simp] theorem State.endRequest_run_callbackResult (s : State) : s.endRequest.run.callbackResult = s.run.callbackResult := rfl
@[simp] theorem State.endRequest_memory (s : State) : s.endRequest.memory = s.memory := rfl
@[simp] theorem State.endRequest_dummy (s : State) : s.endRequest.dummy = s.dummy := rfl
@[simp] theorem State.endRequest_adapter (s : State) : s.endRequest.adapter = s.adapter := rfl
@[simp] theorem State.endRequest_env (s : State) : s.endRequest.env = s.env := rfl

@[simp] theorem State.noteTransmit_cfg (s : State) : s.noteTransmit.cfg = s.cfg := rfl
@[simp] theorem State.noteTransmit_userCode (s : State) : s.noteTransmit.userCode = s.userCode := rfl
@[simp] theorem State.noteTransmit_vars (s : State) : s.noteTransmit.vars = s.vars := rfl
@[simp] theorem State.noteTransmit_ctx (s : State) : s.noteTransmit.ctx = s.ctx := rfl
@[simp] theorem State.noteTransmit_written (s : State) : s.noteTransmit.written = s.written := rfl
@[simp] theorem State.noteTransmit_control (s : State) : s.noteTransmit.control = s.control := rfl
@[simp] theorem State.noteTransmit_run_phase (s : State) : s.noteTransmit.run.phase = s.run.phase := rfl
@[simp] theorem State.noteTransmit_run_inHandler (s : State) : s.noteTransmit.run.inHandler = s.run.inHandler := rfl
@[simp] theorem State.noteTransmit_run_stopWait (s : State) : s.noteTransmit.run.stopWait = s.run.stopWait := rfl
@[simp] theorem State.noteTransmit_run_requestRun (s : State) : s.noteTransmit.run.requestRun = s.run.requestRun := rfl
@[simp] theorem State.noteTransmit_run_transmitCalled (s : State) : s.noteTransmit.run.transmitCalled = true := rfl
@[simp] theorem State.noteTransmit_run_result (s : State) : s.noteTransmit.run.result = s.run.result := rfl
@[simp] theorem State.noteTransmit_run_callbackResult (s : State) : s.noteTransmit.run.callbackResult = s.run.callbackResult := rfl
@[simp] theorem State.noteTransmit_memory (s : State) : s.noteTransmit.memory = s.memory := rfl
@[simp] theorem State.noteTransmit_dummy (s : State) : s.noteTransmit.dummy = s.dummy := rfl
@[simp] theorem State.noteTransmit_adapter (s : State) : s.noteTransmit.adapter = s.adapter := rfl
@[simp] theorem State.noteTransmit_env (s : State) : s.noteTransmit.env = s.env := rfl

@[simp] theorem State.emit_cfg (s : State) (a : Action) : (s.emit a).cfg = s.cfg := rfl
@[simp] theorem State.emit_userCode (s : State) (a : Action) : (s.emit a).userCode = s.userCode := rfl
@[simp] theorem State.emit_vars (s : State) (a : Action) : (s.emit a).vars = s.vars := rfl
@[simp] theorem State.emit_ctx (s : State) (a : Action) : (s.emit a).ctx = s.ctx := rfl
@[simp] theorem State.emit_written (s : State) (a : Action) : (s.emit a).written = s.written := rfl
@[simp] theorem State.emit_control (s : State) (a : Action) : (s.emit a).control = s.control := rfl
@[simp] theorem State.emit_run (s : State) (a : Action) : (s.emit a).run = s.run := rfl
@[simp] theorem State.emit_memory (s : State) (a : Action) : (s.emit a).memory = s.memory := rfl
@[simp] theorem State.emit_dummy (s : State) (a : Action) : (s.emit a).dummy = s.dummy := rfl
@[simp] theorem State.emit_adapter_dataLatch (s : State) (a : Action) : (s.emit a).adapter.dataLatch = s.adapter.dataLatch := rfl
@[simp] theorem State.emit_adapter_stopPending (s : State) (a : Action) : (s.emit a).adapter.stopPending = s.adapter.stopPending := rfl
@[simp] theorem State.emit_adapter_pendingEvent (s : State) (a : Action) : (s.emit a).adapter.pendingEvent = s.adapter.pendingEvent := rfl
@[simp] theorem State.emit_adapter_armed (s : State) (a : Action) : (s.emit a).adapter.armed = s.adapter.armed := rfl
@[simp] theorem State.emit_adapter_lastEvent (s : State) (a : Action) : (s.emit a).adapter.lastEvent = s.adapter.lastEvent := rfl
@[simp] theorem State.emit_adapter_lastReply (s : State) (a : Action) : (s.emit a).adapter.lastReply = s.adapter.lastReply := rfl
@[simp] theorem State.emit_adapter_actions (s : State) (a : Action) : (s.emit a).adapter.actions = s.adapter.actions ++ [a] := rfl
@[simp] theorem State.emit_env (s : State) (a : Action) : (s.emit a).env = s.env := rfl

@[simp] theorem State.setReply_cfg (s : State) (r : Reply) : (s.setReply r).cfg = s.cfg := rfl
@[simp] theorem State.setReply_userCode (s : State) (r : Reply) : (s.setReply r).userCode = s.userCode := rfl
@[simp] theorem State.setReply_vars (s : State) (r : Reply) : (s.setReply r).vars = s.vars := rfl
@[simp] theorem State.setReply_ctx (s : State) (r : Reply) : (s.setReply r).ctx = s.ctx := rfl
@[simp] theorem State.setReply_written (s : State) (r : Reply) : (s.setReply r).written = s.written := rfl
@[simp] theorem State.setReply_control (s : State) (r : Reply) : (s.setReply r).control = s.control := rfl
@[simp] theorem State.setReply_run (s : State) (r : Reply) : (s.setReply r).run = s.run := rfl
@[simp] theorem State.setReply_memory (s : State) (r : Reply) : (s.setReply r).memory = s.memory := rfl
@[simp] theorem State.setReply_dummy (s : State) (r : Reply) : (s.setReply r).dummy = s.dummy := rfl
@[simp] theorem State.setReply_adapter_dataLatch (s : State) (r : Reply) : (s.setReply r).adapter.dataLatch = s.adapter.dataLatch := rfl
@[simp] theorem State.setReply_adapter_stopPending (s : State) (r : Reply) : (s.setReply r).adapter.stopPending = s.adapter.stopPending := rfl
@[simp] theorem State.setReply_adapter_pendingEvent (s : State) (r : Reply) : (s.setReply r).adapter.pendingEvent = s.adapter.pendingEvent := rfl
@[simp] theorem State.setReply_adapter_armed (s : State) (r : Reply) : (s.setReply r).adapter.armed = s.adapter.armed := rfl
@[simp] theorem State.setReply_adapter_lastEvent (s : State) (r : Reply) : (s.setReply r).adapter.lastEvent = s.adapter.lastEvent := rfl
@[simp] theorem State.setReply_adapter_lastReply (s : State) (r : Reply) : (s.setReply r).adapter.lastReply = some r := rfl
@[simp] theorem State.setReply_adapter_actions (s : State) (r : Reply) : (s.setReply r).adapter.actions = s.adapter.actions := rfl
@[simp] theorem State.setReply_env (s : State) (r : Reply) : (s.setReply r).env = s.env := rfl

@[simp] theorem State.requestAck_cfg (s : State) : s.requestAck.cfg = s.cfg := rfl
@[simp] theorem State.requestAck_userCode (s : State) : s.requestAck.userCode = s.userCode := rfl
@[simp] theorem State.requestAck_vars (s : State) : s.requestAck.vars = s.vars := rfl
@[simp] theorem State.requestAck_ctx (s : State) : s.requestAck.ctx = s.ctx := rfl
@[simp] theorem State.requestAck_written (s : State) : s.requestAck.written = s.written := rfl
@[simp] theorem State.requestAck_control (s : State) : s.requestAck.control = s.control := rfl
@[simp] theorem State.requestAck_run (s : State) : s.requestAck.run = s.run := rfl
@[simp] theorem State.requestAck_memory (s : State) : s.requestAck.memory = s.memory := rfl
@[simp] theorem State.requestAck_dummy (s : State) : s.requestAck.dummy = s.dummy := rfl
@[simp] theorem State.requestAck_adapter_dataLatch (s : State) : s.requestAck.adapter.dataLatch = s.adapter.dataLatch := rfl
@[simp] theorem State.requestAck_adapter_stopPending (s : State) : s.requestAck.adapter.stopPending = s.adapter.stopPending := rfl
@[simp] theorem State.requestAck_adapter_pendingEvent (s : State) : s.requestAck.adapter.pendingEvent = s.adapter.pendingEvent := rfl
@[simp] theorem State.requestAck_adapter_armed (s : State) : s.requestAck.adapter.armed = s.adapter.armed := rfl
@[simp] theorem State.requestAck_adapter_lastEvent (s : State) : s.requestAck.adapter.lastEvent = s.adapter.lastEvent := rfl
@[simp] theorem State.requestAck_adapter_lastReply (s : State) : s.requestAck.adapter.lastReply = some .ack := rfl
@[simp] theorem State.requestAck_adapter_actions (s : State) : s.requestAck.adapter.actions = s.adapter.actions ++ [.ack] := rfl
@[simp] theorem State.requestAck_env (s : State) : s.requestAck.env = s.env := rfl

@[simp] theorem State.requestNack_cfg (s : State) : s.requestNack.cfg = s.cfg := rfl
@[simp] theorem State.requestNack_userCode (s : State) : s.requestNack.userCode = s.userCode := rfl
@[simp] theorem State.requestNack_vars (s : State) : s.requestNack.vars = s.vars := rfl
@[simp] theorem State.requestNack_ctx (s : State) : s.requestNack.ctx = s.ctx := rfl
@[simp] theorem State.requestNack_written (s : State) : s.requestNack.written = s.written := rfl
@[simp] theorem State.requestNack_control (s : State) : s.requestNack.control = s.control := rfl
@[simp] theorem State.requestNack_run (s : State) : s.requestNack.run = s.run := rfl
@[simp] theorem State.requestNack_memory (s : State) : s.requestNack.memory = s.memory := rfl
@[simp] theorem State.requestNack_dummy (s : State) : s.requestNack.dummy = s.dummy := rfl
@[simp] theorem State.requestNack_adapter_dataLatch (s : State) : s.requestNack.adapter.dataLatch = s.adapter.dataLatch := rfl
@[simp] theorem State.requestNack_adapter_stopPending (s : State) : s.requestNack.adapter.stopPending = s.adapter.stopPending := rfl
@[simp] theorem State.requestNack_adapter_pendingEvent (s : State) : s.requestNack.adapter.pendingEvent = s.adapter.pendingEvent := rfl
@[simp] theorem State.requestNack_adapter_armed (s : State) : s.requestNack.adapter.armed = s.adapter.armed := rfl
@[simp] theorem State.requestNack_adapter_lastEvent (s : State) : s.requestNack.adapter.lastEvent = s.adapter.lastEvent := rfl
@[simp] theorem State.requestNack_adapter_lastReply (s : State) : s.requestNack.adapter.lastReply = some .nack := rfl
@[simp] theorem State.requestNack_adapter_actions (s : State) : s.requestNack.adapter.actions = s.adapter.actions ++ [.nack] := rfl
@[simp] theorem State.requestNack_env (s : State) : s.requestNack.env = s.env := rfl

@[simp] theorem State.requestStop_cfg (s : State) : s.requestStop.cfg = s.cfg := rfl
@[simp] theorem State.requestStop_userCode (s : State) : s.requestStop.userCode = s.userCode := rfl
@[simp] theorem State.requestStop_vars (s : State) : s.requestStop.vars = s.vars := rfl
@[simp] theorem State.requestStop_ctx (s : State) : s.requestStop.ctx = s.ctx := rfl
@[simp] theorem State.requestStop_written (s : State) : s.requestStop.written = s.written := rfl
@[simp] theorem State.requestStop_control (s : State) : s.requestStop.control = s.control := rfl
@[simp] theorem State.requestStop_run (s : State) : s.requestStop.run = s.run := rfl
@[simp] theorem State.requestStop_memory (s : State) : s.requestStop.memory = s.memory := rfl
@[simp] theorem State.requestStop_dummy (s : State) : s.requestStop.dummy = s.dummy := rfl
@[simp] theorem State.requestStop_adapter_dataLatch (s : State) : s.requestStop.adapter.dataLatch = s.adapter.dataLatch := rfl
@[simp] theorem State.requestStop_adapter_stopPending (s : State) : s.requestStop.adapter.stopPending = true := rfl
@[simp] theorem State.requestStop_adapter_pendingEvent (s : State) : s.requestStop.adapter.pendingEvent = s.adapter.pendingEvent := rfl
@[simp] theorem State.requestStop_adapter_armed (s : State) : s.requestStop.adapter.armed = s.adapter.armed := rfl
@[simp] theorem State.requestStop_adapter_lastEvent (s : State) : s.requestStop.adapter.lastEvent = s.adapter.lastEvent := rfl
@[simp] theorem State.requestStop_adapter_lastReply (s : State) : s.requestStop.adapter.lastReply = some .stop := rfl
@[simp] theorem State.requestStop_adapter_actions (s : State) : s.requestStop.adapter.actions = s.adapter.actions := rfl
@[simp] theorem State.requestStop_env (s : State) : s.requestStop.env = s.env := rfl

@[simp] theorem State.issueStop_cfg (s : State) : s.issueStop.cfg = s.cfg := rfl
@[simp] theorem State.issueStop_userCode (s : State) : s.issueStop.userCode = s.userCode := rfl
@[simp] theorem State.issueStop_vars (s : State) : s.issueStop.vars = s.vars := rfl
@[simp] theorem State.issueStop_ctx (s : State) : s.issueStop.ctx = s.ctx := rfl
@[simp] theorem State.issueStop_written (s : State) : s.issueStop.written = s.written := rfl
@[simp] theorem State.issueStop_control (s : State) : s.issueStop.control = s.control := rfl
@[simp] theorem State.issueStop_run (s : State) : s.issueStop.run = s.run := rfl
@[simp] theorem State.issueStop_memory (s : State) : s.issueStop.memory = s.memory := rfl
@[simp] theorem State.issueStop_dummy (s : State) : s.issueStop.dummy = s.dummy := rfl
@[simp] theorem State.issueStop_adapter_dataLatch (s : State) : s.issueStop.adapter.dataLatch = s.adapter.dataLatch := rfl
@[simp] theorem State.issueStop_adapter_stopPending (s : State) : s.issueStop.adapter.stopPending = true := rfl
@[simp] theorem State.issueStop_adapter_pendingEvent (s : State) : s.issueStop.adapter.pendingEvent = s.adapter.pendingEvent := rfl
@[simp] theorem State.issueStop_adapter_armed (s : State) : s.issueStop.adapter.armed = s.adapter.armed := rfl
@[simp] theorem State.issueStop_adapter_lastEvent (s : State) : s.issueStop.adapter.lastEvent = s.adapter.lastEvent := rfl
@[simp] theorem State.issueStop_adapter_lastReply (s : State) : s.issueStop.adapter.lastReply = some .stop := rfl
@[simp] theorem State.issueStop_adapter_actions (s : State) : s.issueStop.adapter.actions = s.adapter.actions ++ [.stop] := rfl
@[simp] theorem State.issueStop_env (s : State) : s.issueStop.env = s.env := rfl

@[simp] theorem State.writeDataLatch_cfg (s : State) (b : Byte) : (s.writeDataLatch b).cfg = s.cfg := rfl
@[simp] theorem State.writeDataLatch_userCode (s : State) (b : Byte) : (s.writeDataLatch b).userCode = s.userCode := rfl
@[simp] theorem State.writeDataLatch_vars (s : State) (b : Byte) : (s.writeDataLatch b).vars = s.vars := rfl
@[simp] theorem State.writeDataLatch_ctx (s : State) (b : Byte) : (s.writeDataLatch b).ctx = s.ctx := rfl
@[simp] theorem State.writeDataLatch_written (s : State) (b : Byte) : (s.writeDataLatch b).written = s.written := rfl
@[simp] theorem State.writeDataLatch_control (s : State) (b : Byte) : (s.writeDataLatch b).control = s.control := rfl
@[simp] theorem State.writeDataLatch_run (s : State) (b : Byte) : (s.writeDataLatch b).run = s.run := rfl
@[simp] theorem State.writeDataLatch_memory (s : State) (b : Byte) : (s.writeDataLatch b).memory = s.memory := rfl
@[simp] theorem State.writeDataLatch_dummy (s : State) (b : Byte) : (s.writeDataLatch b).dummy = s.dummy := rfl
@[simp] theorem State.writeDataLatch_adapter_dataLatch (s : State) (b : Byte) : (s.writeDataLatch b).adapter.dataLatch = b := rfl
@[simp] theorem State.writeDataLatch_adapter_stopPending (s : State) (b : Byte) : (s.writeDataLatch b).adapter.stopPending = s.adapter.stopPending := rfl
@[simp] theorem State.writeDataLatch_adapter_pendingEvent (s : State) (b : Byte) : (s.writeDataLatch b).adapter.pendingEvent = s.adapter.pendingEvent := rfl
@[simp] theorem State.writeDataLatch_adapter_armed (s : State) (b : Byte) : (s.writeDataLatch b).adapter.armed = s.adapter.armed := rfl
@[simp] theorem State.writeDataLatch_adapter_lastEvent (s : State) (b : Byte) : (s.writeDataLatch b).adapter.lastEvent = s.adapter.lastEvent := rfl
@[simp] theorem State.writeDataLatch_adapter_lastReply (s : State) (b : Byte) : (s.writeDataLatch b).adapter.lastReply = s.adapter.lastReply := rfl
@[simp] theorem State.writeDataLatch_adapter_actions (s : State) (b : Byte) : (s.writeDataLatch b).adapter.actions = s.adapter.actions ++ [.writeLatch b] := rfl
@[simp] theorem State.writeDataLatch_env (s : State) (b : Byte) : (s.writeDataLatch b).env = s.env := rfl

@[simp] theorem State.receiveByte_cfg (s : State) (b : Byte) : (s.receiveByte b).cfg = s.cfg := rfl
@[simp] theorem State.receiveByte_userCode (s : State) (b : Byte) : (s.receiveByte b).userCode = s.userCode := rfl
@[simp] theorem State.receiveByte_vars (s : State) (b : Byte) : (s.receiveByte b).vars = s.vars := rfl
@[simp] theorem State.receiveByte_ctx (s : State) (b : Byte) : (s.receiveByte b).ctx = s.ctx := rfl
@[simp] theorem State.receiveByte_written (s : State) (b : Byte) : (s.receiveByte b).written = s.written := rfl
@[simp] theorem State.receiveByte_control (s : State) (b : Byte) : (s.receiveByte b).control = s.control := rfl
@[simp] theorem State.receiveByte_run (s : State) (b : Byte) : (s.receiveByte b).run = s.run := rfl
@[simp] theorem State.receiveByte_memory (s : State) (b : Byte) : (s.receiveByte b).memory = s.memory := rfl
@[simp] theorem State.receiveByte_dummy (s : State) (b : Byte) : (s.receiveByte b).dummy = s.dummy := rfl
@[simp] theorem State.receiveByte_adapter_dataLatch (s : State) (b : Byte) : (s.receiveByte b).adapter.dataLatch = b := rfl
@[simp] theorem State.receiveByte_adapter_stopPending (s : State) (b : Byte) : (s.receiveByte b).adapter.stopPending = s.adapter.stopPending := rfl
@[simp] theorem State.receiveByte_adapter_pendingEvent (s : State) (b : Byte) : (s.receiveByte b).adapter.pendingEvent = s.adapter.pendingEvent := rfl
@[simp] theorem State.receiveByte_adapter_armed (s : State) (b : Byte) : (s.receiveByte b).adapter.armed = s.adapter.armed := rfl
@[simp] theorem State.receiveByte_adapter_lastEvent (s : State) (b : Byte) : (s.receiveByte b).adapter.lastEvent = s.adapter.lastEvent := rfl
@[simp] theorem State.receiveByte_adapter_lastReply (s : State) (b : Byte) : (s.receiveByte b).adapter.lastReply = s.adapter.lastReply := rfl
@[simp] theorem State.receiveByte_adapter_actions (s : State) (b : Byte) : (s.receiveByte b).adapter.actions = s.adapter.actions := rfl
@[simp] theorem State.receiveByte_env (s : State) (b : Byte) : (s.receiveByte b).env = s.env := rfl

@[simp] theorem State.armController_cfg (s : State) : s.armController.cfg = s.cfg := rfl
@[simp] theorem State.armController_userCode (s : State) : s.armController.userCode = s.userCode := rfl
@[simp] theorem State.armController_vars (s : State) : s.armController.vars = s.vars := rfl
@[simp] theorem State.armController_ctx (s : State) : s.armController.ctx = s.ctx := rfl
@[simp] theorem State.armController_written (s : State) : s.armController.written = s.written := rfl
@[simp] theorem State.armController_control (s : State) : s.armController.control = s.control := rfl
@[simp] theorem State.armController_run (s : State) : s.armController.run = s.run := rfl
@[simp] theorem State.armController_memory (s : State) : s.armController.memory = s.memory := rfl
@[simp] theorem State.armController_dummy (s : State) : s.armController.dummy = s.dummy := rfl
@[simp] theorem State.armController_adapter_dataLatch (s : State) : s.armController.adapter.dataLatch = s.adapter.dataLatch := rfl
@[simp] theorem State.armController_adapter_stopPending (s : State) : s.armController.adapter.stopPending = s.adapter.stopPending := rfl
@[simp] theorem State.armController_adapter_pendingEvent (s : State) : s.armController.adapter.pendingEvent = s.adapter.pendingEvent := rfl
@[simp] theorem State.armController_adapter_armed (s : State) : s.armController.adapter.armed = true := rfl
@[simp] theorem State.armController_adapter_lastEvent (s : State) : s.armController.adapter.lastEvent = s.adapter.lastEvent := rfl
@[simp] theorem State.armController_adapter_lastReply (s : State) : s.armController.adapter.lastReply = s.adapter.lastReply := rfl
@[simp] theorem State.armController_adapter_actions (s : State) : s.armController.adapter.actions = s.adapter.actions ++ [.arm s.ctx.addressAndDirection] := rfl
@[simp] theorem State.armController_env (s : State) : s.armController.env = s.env := rfl

@[simp] theorem State.disarm_cfg (s : State) : s.disarm.cfg = s.cfg := rfl
@[simp] theorem State.disarm_userCode (s : State) : s.disarm.userCode = s.userCode := rfl
@[simp] theorem State.disarm_vars (s : State) : s.disarm.vars = s.vars := rfl
@[simp] theorem State.disarm_ctx (s : State) : s.disarm.ctx = s.ctx := rfl
@[simp] theorem State.disarm_written (s : State) : s.disarm.written = s.written := rfl
@[simp] theorem State.disarm_control (s : State) : s.disarm.control = s.control := rfl
@[simp] theorem State.disarm_run (s : State) : s.disarm.run = s.run := rfl
@[simp] theorem State.disarm_memory (s : State) : s.disarm.memory = s.memory := rfl
@[simp] theorem State.disarm_dummy (s : State) : s.disarm.dummy = s.dummy := rfl
@[simp] theorem State.disarm_adapter_dataLatch (s : State) : s.disarm.adapter.dataLatch = s.adapter.dataLatch := rfl
@[simp] theorem State.disarm_adapter_stopPending (s : State) : s.disarm.adapter.stopPending = s.adapter.stopPending := rfl
@[simp] theorem State.disarm_adapter_pendingEvent (s : State) : s.disarm.adapter.pendingEvent = s.adapter.pendingEvent := rfl
@[simp] theorem State.disarm_adapter_armed (s : State) : s.disarm.adapter.armed = false := rfl
@[simp] theorem State.disarm_adapter_lastEvent (s : State) : s.disarm.adapter.lastEvent = s.adapter.lastEvent := rfl
@[simp] theorem State.disarm_adapter_lastReply (s : State) : s.disarm.adapter.lastReply = s.adapter.lastReply := rfl
@[simp] theorem State.disarm_adapter_actions (s : State) : s.disarm.adapter.actions = s.adapter.actions := rfl
@[simp] theorem State.disarm_env (s : State) : s.disarm.env = s.env := rfl

@[simp] theorem State.setVariable_cfg (s : State) (x v : Nat) : (s.setVariable x v).cfg = s.cfg := rfl
@[simp] theorem State.setVariable_userCode (s : State) (x v : Nat) : (s.setVariable x v).userCode = s.userCode := rfl
@[simp] theorem State.setVariable_vars (s : State) (x v : Nat) : (s.setVariable x v).vars = s.vars.write x v := rfl
@[simp] theorem State.setVariable_ctx (s : State) (x v : Nat) : (s.setVariable x v).ctx = s.ctx := rfl
@[simp] theorem State.setVariable_written (s : State) (x v : Nat) : (s.setVariable x v).written = s.written := rfl
@[simp] theorem State.setVariable_control (s : State) (x v : Nat) : (s.setVariable x v).control = s.control := rfl
@[simp] theorem State.setVariable_run (s : State) (x v : Nat) : (s.setVariable x v).run = s.run := rfl
@[simp] theorem State.setVariable_memory (s : State) (x v : Nat) : (s.setVariable x v).memory = s.memory := rfl
@[simp] theorem State.setVariable_dummy (s : State) (x v : Nat) : (s.setVariable x v).dummy = s.dummy := rfl
@[simp] theorem State.setVariable_adapter (s : State) (x v : Nat) : (s.setVariable x v).adapter = s.adapter := rfl
@[simp] theorem State.setVariable_env (s : State) (x v : Nat) : (s.setVariable x v).env = s.env := rfl

@[simp] theorem State.setMemoryByte_cfg (s : State) (a : Nat) (v : Byte) : (s.setMemoryByte a v).cfg = s.cfg := rfl
@[simp] theorem State.setMemoryByte_userCode (s : State) (a : Nat) (v : Byte) : (s.setMemoryByte a v).userCode = s.userCode := rfl
@[simp] theorem State.setMemoryByte_vars (s : State) (a : Nat) (v : Byte) : (s.setMemoryByte a v).vars = s.vars := rfl
@[simp] theorem State.setMemoryByte_ctx (s : State) (a : Nat) (v : Byte) : (s.setMemoryByte a v).ctx = s.ctx := rfl
@[simp] theorem State.setMemoryByte_written (s : State) (a : Nat) (v : Byte) : (s.setMemoryByte a v).written = s.written := rfl
@[simp] theorem State.setMemoryByte_control (s : State) (a : Nat) (v : Byte) : (s.setMemoryByte a v).control = s.control := rfl
@[simp] theorem State.setMemoryByte_run (s : State) (a : Nat) (v : Byte) : (s.setMemoryByte a v).run = s.run := rfl
@[simp] theorem State.setMemoryByte_memory (s : State) (a : Nat) (v : Byte) : (s.setMemoryByte a v).memory = s.memory.write a v := rfl
@[simp] theorem State.setMemoryByte_dummy (s : State) (a : Nat) (v : Byte) : (s.setMemoryByte a v).dummy = s.dummy := rfl
@[simp] theorem State.setMemoryByte_adapter (s : State) (a : Nat) (v : Byte) : (s.setMemoryByte a v).adapter = s.adapter := rfl
@[simp] theorem State.setMemoryByte_env (s : State) (a : Nat) (v : Byte) : (s.setMemoryByte a v).env = s.env := rfl

@[simp] theorem State.setPending_cfg (s : State) (b : List Byte) : (s.setPending b).cfg = s.cfg := rfl
@[simp] theorem State.setPending_userCode (s : State) (b : List Byte) : (s.setPending b).userCode = s.userCode := rfl
@[simp] theorem State.setPending_vars (s : State) (b : List Byte) : (s.setPending b).vars = s.vars := rfl
@[simp] theorem State.setPending_ctx (s : State) (b : List Byte) : (s.setPending b).ctx = s.ctx := rfl
@[simp] theorem State.setPending_written (s : State) (b : List Byte) : (s.setPending b).written = s.written := rfl
@[simp] theorem State.setPending_control (s : State) (b : List Byte) : (s.setPending b).control = s.control := rfl
@[simp] theorem State.setPending_run (s : State) (b : List Byte) : (s.setPending b).run = s.run := rfl
@[simp] theorem State.setPending_memory (s : State) (b : List Byte) : (s.setPending b).memory = s.memory := rfl
@[simp] theorem State.setPending_dummy (s : State) (b : List Byte) : (s.setPending b).dummy = s.dummy := rfl
@[simp] theorem State.setPending_adapter_dataLatch (s : State) (b : List Byte) : (s.setPending b).adapter.dataLatch = s.adapter.dataLatch := rfl
@[simp] theorem State.setPending_adapter_stopPending (s : State) (b : List Byte) : (s.setPending b).adapter.stopPending = s.adapter.stopPending := rfl
@[simp] theorem State.setPending_adapter_pendingEvent (s : State) (b : List Byte) : (s.setPending b).adapter.pendingEvent = some b := rfl
@[simp] theorem State.setPending_adapter_armed (s : State) (b : List Byte) : (s.setPending b).adapter.armed = s.adapter.armed := rfl
@[simp] theorem State.setPending_adapter_lastEvent (s : State) (b : List Byte) : (s.setPending b).adapter.lastEvent = s.adapter.lastEvent := rfl
@[simp] theorem State.setPending_adapter_lastReply (s : State) (b : List Byte) : (s.setPending b).adapter.lastReply = s.adapter.lastReply := rfl
@[simp] theorem State.setPending_adapter_actions (s : State) (b : List Byte) : (s.setPending b).adapter.actions = s.adapter.actions := rfl
@[simp] theorem State.setPending_env (s : State) (b : List Byte) : (s.setPending b).env = s.env := rfl

@[simp] theorem State.enterHandler_cfg (s : State) (raw : Byte) : (s.enterHandler raw).cfg = s.cfg := rfl
@[simp] theorem State.enterHandler_userCode (s : State) (raw : Byte) : (s.enterHandler raw).userCode = s.userCode := rfl
@[simp] theorem State.enterHandler_vars (s : State) (raw : Byte) : (s.enterHandler raw).vars = s.vars := rfl
@[simp] theorem State.enterHandler_ctx (s : State) (raw : Byte) : (s.enterHandler raw).ctx = s.ctx := rfl
@[simp] theorem State.enterHandler_written (s : State) (raw : Byte) : (s.enterHandler raw).written = s.written := rfl
@[simp] theorem State.enterHandler_control (s : State) (raw : Byte) : (s.enterHandler raw).control = s.control := rfl
@[simp] theorem State.enterHandler_run_phase (s : State) (raw : Byte) : (s.enterHandler raw).run.phase = s.run.phase := rfl
@[simp] theorem State.enterHandler_run_inHandler (s : State) (raw : Byte) : (s.enterHandler raw).run.inHandler = true := rfl
@[simp] theorem State.enterHandler_run_stopWait (s : State) (raw : Byte) : (s.enterHandler raw).run.stopWait = s.run.stopWait := rfl
@[simp] theorem State.enterHandler_run_requestRun (s : State) (raw : Byte) : (s.enterHandler raw).run.requestRun = s.run.requestRun := rfl
@[simp] theorem State.enterHandler_run_transmitCalled (s : State) (raw : Byte) : (s.enterHandler raw).run.transmitCalled = s.run.transmitCalled := rfl
@[simp] theorem State.enterHandler_run_result (s : State) (raw : Byte) : (s.enterHandler raw).run.result = s.run.result := rfl
@[simp] theorem State.enterHandler_run_callbackResult (s : State) (raw : Byte) : (s.enterHandler raw).run.callbackResult = s.run.callbackResult := rfl
@[simp] theorem State.enterHandler_memory (s : State) (raw : Byte) : (s.enterHandler raw).memory = s.memory := rfl
@[simp] theorem State.enterHandler_dummy (s : State) (raw : Byte) : (s.enterHandler raw).dummy = s.dummy := rfl
@[simp] theorem State.enterHandler_adapter_dataLatch (s : State) (raw : Byte) : (s.enterHandler raw).adapter.dataLatch = s.adapter.dataLatch := rfl
@[simp] theorem State.enterHandler_adapter_stopPending (s : State) (raw : Byte) : (s.enterHandler raw).adapter.stopPending = s.adapter.stopPending := rfl
@[simp] theorem State.enterHandler_adapter_pendingEvent (s : State) (raw : Byte) : (s.enterHandler raw).adapter.pendingEvent = s.adapter.pendingEvent := rfl
@[simp] theorem State.enterHandler_adapter_armed (s : State) (raw : Byte) : (s.enterHandler raw).adapter.armed = s.adapter.armed := rfl
@[simp] theorem State.enterHandler_adapter_lastEvent (s : State) (raw : Byte) : (s.enterHandler raw).adapter.lastEvent = some raw := rfl
@[simp] theorem State.enterHandler_adapter_lastReply (s : State) (raw : Byte) : (s.enterHandler raw).adapter.lastReply = s.adapter.lastReply := rfl
@[simp] theorem State.enterHandler_adapter_actions (s : State) (raw : Byte) : (s.enterHandler raw).adapter.actions = s.adapter.actions := rfl
@[simp] theorem State.enterHandler_env (s : State) (raw : Byte) : (s.enterHandler raw).env = s.env := rfl

@[simp] theorem State.recordError_cfg (s : State) (raw : Byte) : (s.recordError raw).cfg = s.cfg := rfl
@[simp] theorem State.recordError_userCode (s : State) (raw : Byte) : (s.recordError raw).userCode = s.userCode := rfl
@[simp] theorem State.recordError_vars (s : State) (raw : Byte) : (s.recordError raw).vars = s.vars := rfl
@[simp] theorem State.recordError_ctx_txBuffer (s : State) (raw : Byte) : (s.recordError raw).ctx.txBuffer = s.ctx.txBuffer := rfl
@[simp] theorem State.recordError_ctx_rxTarget (s : State) (raw : Byte) : (s.recordError raw).ctx.rxTarget = s.ctx.rxTarget := rfl
@[simp] theorem State.recordError_ctx_cursor (s : State) (raw : Byte) : (s.recordError raw).ctx.cursor = s.ctx.cursor := rfl
@[simp] theorem State.recordError_ctx_length (s : State) (raw : Byte) : (s.recordError raw).ctx.length = s.ctx.length := rfl
@[simp] theorem State.recordError_ctx_busy (s : State) (raw : Byte) : (s.recordError raw).ctx.busy = s.ctx.busy := rfl
@[simp] theorem State.recordError_ctx_addressAndDirection (s : State) (raw : Byte) : (s.recordError raw).ctx.addressAndDirection = s.ctx.addressAndDirection := rfl
@[simp] theorem State.recordError_ctx_lastError (s : State) (raw : Byte) : (s.recordError raw).ctx.lastError = .code raw := rfl
@[simp] theorem State.recordError_ctx_onRequest (s : State) (raw : Byte) : (s.recordError raw).ctx.onRequest = s.ctx.onRequest := rfl
@[simp] theorem State.recordError_ctx_onReceive (s : State) (raw : Byte) : (s.recordError raw).ctx.onReceive = s.ctx.onReceive := rfl
@[simp] theorem State.recordError_written_rxTarget (s : State) (raw : Byte) : (s.recordError raw).written.rxTarget = s.written.rxTarget := rfl
@[simp] theorem State.recordError_written_cursor (s : State) (raw : Byte) : (s.recordError raw).written.cursor = s.written.cursor := rfl
@[simp] theorem State.recordError_written_length (s : State) (raw : Byte) : (s.recordError raw).written.length = s.written.length := rfl
@[simp] theorem State.recordError_written_addressAndDirection (s : State) (raw : Byte) : (s.recordError raw).written.addressAndDirection = s.written.addressAndDirection := rfl
@[simp] theorem State.recordError_written_lastError (s : State) (raw : Byte) : (s.recordError raw).written.lastError = true := rfl
@[simp] theorem State.recordError_written_hsCounter (s : State) (raw : Byte) : (s.recordError raw).written.hsCounter = s.written.hsCounter := rfl
@[simp] theorem State.recordError_control (s : State) (raw : Byte) : (s.recordError raw).control = s.control := rfl
@[simp] theorem State.recordError_run (s : State) (raw : Byte) : (s.recordError raw).run = s.run := rfl
@[simp] theorem State.recordError_memory (s : State) (raw : Byte) : (s.recordError raw).memory = s.memory := rfl
@[simp] theorem State.recordError_dummy (s : State) (raw : Byte) : (s.recordError raw).dummy = s.dummy := rfl
@[simp] theorem State.recordError_adapter (s : State) (raw : Byte) : (s.recordError raw).adapter = s.adapter := rfl
@[simp] theorem State.recordError_env (s : State) (raw : Byte) : (s.recordError raw).env = s.env := rfl

@[simp] theorem State.clearError_cfg (s : State) : s.clearError.cfg = s.cfg := rfl
@[simp] theorem State.clearError_userCode (s : State) : s.clearError.userCode = s.userCode := rfl
@[simp] theorem State.clearError_vars (s : State) : s.clearError.vars = s.vars := rfl
@[simp] theorem State.clearError_ctx_txBuffer (s : State) : s.clearError.ctx.txBuffer = s.ctx.txBuffer := rfl
@[simp] theorem State.clearError_ctx_rxTarget (s : State) : s.clearError.ctx.rxTarget = s.ctx.rxTarget := rfl
@[simp] theorem State.clearError_ctx_cursor (s : State) : s.clearError.ctx.cursor = s.ctx.cursor := rfl
@[simp] theorem State.clearError_ctx_length (s : State) : s.clearError.ctx.length = s.ctx.length := rfl
@[simp] theorem State.clearError_ctx_busy (s : State) : s.clearError.ctx.busy = s.ctx.busy := rfl
@[simp] theorem State.clearError_ctx_addressAndDirection (s : State) : s.clearError.ctx.addressAndDirection = s.ctx.addressAndDirection := rfl
@[simp] theorem State.clearError_ctx_lastError (s : State) : s.clearError.ctx.lastError = .noError := rfl
@[simp] theorem State.clearError_ctx_onRequest (s : State) : s.clearError.ctx.onRequest = s.ctx.onRequest := rfl
@[simp] theorem State.clearError_ctx_onReceive (s : State) : s.clearError.ctx.onReceive = s.ctx.onReceive := rfl
@[simp] theorem State.clearError_written_rxTarget (s : State) : s.clearError.written.rxTarget = s.written.rxTarget := rfl
@[simp] theorem State.clearError_written_cursor (s : State) : s.clearError.written.cursor = s.written.cursor := rfl
@[simp] theorem State.clearError_written_length (s : State) : s.clearError.written.length = s.written.length := rfl
@[simp] theorem State.clearError_written_addressAndDirection (s : State) : s.clearError.written.addressAndDirection = s.written.addressAndDirection := rfl
@[simp] theorem State.clearError_written_lastError (s : State) : s.clearError.written.lastError = true := rfl
@[simp] theorem State.clearError_written_hsCounter (s : State) : s.clearError.written.hsCounter = s.written.hsCounter := rfl
@[simp] theorem State.clearError_control (s : State) : s.clearError.control = s.control := rfl
@[simp] theorem State.clearError_run (s : State) : s.clearError.run = s.run := rfl
@[simp] theorem State.clearError_memory (s : State) : s.clearError.memory = s.memory := rfl
@[simp] theorem State.clearError_dummy (s : State) : s.clearError.dummy = s.dummy := rfl
@[simp] theorem State.clearError_adapter (s : State) : s.clearError.adapter = s.adapter := rfl
@[simp] theorem State.clearError_env (s : State) : s.clearError.env = s.env := rfl

@[simp] theorem State.setArmed_cfg (s : State) : s.setArmed.cfg = s.cfg := rfl
@[simp] theorem State.setArmed_userCode (s : State) : s.setArmed.userCode = s.userCode := rfl
@[simp] theorem State.setArmed_vars (s : State) : s.setArmed.vars = s.vars := rfl
@[simp] theorem State.setArmed_ctx_txBuffer (s : State) : s.setArmed.ctx.txBuffer = s.ctx.txBuffer := rfl
@[simp] theorem State.setArmed_ctx_rxTarget (s : State) : s.setArmed.ctx.rxTarget = s.ctx.rxTarget := rfl
@[simp] theorem State.setArmed_ctx_cursor (s : State) : s.setArmed.ctx.cursor = s.ctx.cursor := rfl
@[simp] theorem State.setArmed_ctx_length (s : State) : s.setArmed.ctx.length = s.ctx.length := rfl
@[simp] theorem State.setArmed_ctx_busy (s : State) : s.setArmed.ctx.busy = true := rfl
@[simp] theorem State.setArmed_ctx_addressAndDirection (s : State) : s.setArmed.ctx.addressAndDirection = s.ctx.addressAndDirection := rfl
@[simp] theorem State.setArmed_ctx_lastError (s : State) : s.setArmed.ctx.lastError = s.ctx.lastError := rfl
@[simp] theorem State.setArmed_ctx_onRequest (s : State) : s.setArmed.ctx.onRequest = s.ctx.onRequest := rfl
@[simp] theorem State.setArmed_ctx_onReceive (s : State) : s.setArmed.ctx.onReceive = s.ctx.onReceive := rfl
@[simp] theorem State.setArmed_written (s : State) : s.setArmed.written = s.written := rfl
@[simp] theorem State.setArmed_control (s : State) : s.setArmed.control = s.control := rfl
@[simp] theorem State.setArmed_run (s : State) : s.setArmed.run = s.run := rfl
@[simp] theorem State.setArmed_memory (s : State) : s.setArmed.memory = s.memory := rfl
@[simp] theorem State.setArmed_dummy (s : State) : s.setArmed.dummy = s.dummy := rfl
@[simp] theorem State.setArmed_adapter (s : State) : s.setArmed.adapter = s.adapter := rfl
@[simp] theorem State.setArmed_env (s : State) : s.setArmed.env = s.env := rfl

@[simp] theorem State.endTransfer_cfg (s : State) : s.endTransfer.cfg = s.cfg := rfl
@[simp] theorem State.endTransfer_userCode (s : State) : s.endTransfer.userCode = s.userCode := rfl
@[simp] theorem State.endTransfer_vars (s : State) : s.endTransfer.vars = s.vars := rfl
@[simp] theorem State.endTransfer_ctx_txBuffer (s : State) : s.endTransfer.ctx.txBuffer = s.ctx.txBuffer := rfl
@[simp] theorem State.endTransfer_ctx_rxTarget (s : State) : s.endTransfer.ctx.rxTarget = s.ctx.rxTarget := rfl
@[simp] theorem State.endTransfer_ctx_cursor (s : State) : s.endTransfer.ctx.cursor = s.ctx.cursor := rfl
@[simp] theorem State.endTransfer_ctx_length (s : State) : s.endTransfer.ctx.length = s.ctx.length := rfl
@[simp] theorem State.endTransfer_ctx_busy (s : State) : s.endTransfer.ctx.busy = false := rfl
@[simp] theorem State.endTransfer_ctx_addressAndDirection (s : State) : s.endTransfer.ctx.addressAndDirection = s.ctx.addressAndDirection := rfl
@[simp] theorem State.endTransfer_ctx_lastError (s : State) : s.endTransfer.ctx.lastError = s.ctx.lastError := rfl
@[simp] theorem State.endTransfer_ctx_onRequest (s : State) : s.endTransfer.ctx.onRequest = s.ctx.onRequest := rfl
@[simp] theorem State.endTransfer_ctx_onReceive (s : State) : s.endTransfer.ctx.onReceive = s.ctx.onReceive := rfl
@[simp] theorem State.endTransfer_written (s : State) : s.endTransfer.written = s.written := rfl
@[simp] theorem State.endTransfer_control (s : State) : s.endTransfer.control = s.control := rfl
@[simp] theorem State.endTransfer_run (s : State) : s.endTransfer.run = s.run := rfl
@[simp] theorem State.endTransfer_memory (s : State) : s.endTransfer.memory = s.memory := rfl
@[simp] theorem State.endTransfer_dummy (s : State) : s.endTransfer.dummy = s.dummy := rfl
@[simp] theorem State.endTransfer_adapter (s : State) : s.endTransfer.adapter = s.adapter := rfl
@[simp] theorem State.endTransfer_env (s : State) : s.endTransfer.env = s.env := rfl

@[simp] theorem State.setArrivals_cfg (s : State) (l : List Arrival) : (s.setArrivals l).cfg = s.cfg := rfl
@[simp] theorem State.setArrivals_userCode (s : State) (l : List Arrival) : (s.setArrivals l).userCode = s.userCode := rfl
@[simp] theorem State.setArrivals_vars (s : State) (l : List Arrival) : (s.setArrivals l).vars = s.vars := rfl
@[simp] theorem State.setArrivals_ctx (s : State) (l : List Arrival) : (s.setArrivals l).ctx = s.ctx := rfl
@[simp] theorem State.setArrivals_written (s : State) (l : List Arrival) : (s.setArrivals l).written = s.written := rfl
@[simp] theorem State.setArrivals_control (s : State) (l : List Arrival) : (s.setArrivals l).control = s.control := rfl
@[simp] theorem State.setArrivals_run (s : State) (l : List Arrival) : (s.setArrivals l).run = s.run := rfl
@[simp] theorem State.setArrivals_memory (s : State) (l : List Arrival) : (s.setArrivals l).memory = s.memory := rfl
@[simp] theorem State.setArrivals_dummy (s : State) (l : List Arrival) : (s.setArrivals l).dummy = s.dummy := rfl
@[simp] theorem State.setArrivals_adapter (s : State) (l : List Arrival) : (s.setArrivals l).adapter = s.adapter := rfl
@[simp] theorem State.setArrivals_env_arrivals (s : State) (l : List Arrival) : (s.setArrivals l).env.arrivals = l := rfl
@[simp] theorem State.setArrivals_env_calls (s : State) (l : List Arrival) : (s.setArrivals l).env.calls = s.env.calls := rfl
@[simp] theorem State.setArrivals_env_lines (s : State) (l : List Arrival) : (s.setArrivals l).env.lines = s.env.lines := rfl
@[simp] theorem State.setArrivals_env_stops (s : State) (l : List Arrival) : (s.setArrivals l).env.stops = s.env.stops := rfl
@[simp] theorem State.setArrivals_env_inputs (s : State) (l : List Arrival) : (s.setArrivals l).env.inputs = s.env.inputs := rfl
@[simp] theorem State.setArrivals_env_draws (s : State) (l : List Arrival) : (s.setArrivals l).env.draws = s.env.draws := rfl

@[simp] theorem State.answer_cfg (s : State) (r : Result) : (s.answer r).cfg = s.cfg := by
  unfold State.answer; (repeat' split) <;> rfl
@[simp] theorem State.answer_userCode (s : State) (r : Result) : (s.answer r).userCode = s.userCode := by
  unfold State.answer; (repeat' split) <;> rfl
@[simp] theorem State.answer_vars (s : State) (r : Result) : (s.answer r).vars = s.vars := by
  unfold State.answer; (repeat' split) <;> rfl
@[simp] theorem State.answer_ctx (s : State) (r : Result) : (s.answer r).ctx = s.ctx := by
  unfold State.answer; (repeat' split) <;> rfl
@[simp] theorem State.answer_written (s : State) (r : Result) : (s.answer r).written = s.written := by
  unfold State.answer; (repeat' split) <;> rfl
@[simp] theorem State.answer_control (s : State) (r : Result) : (s.answer r).control = s.control := by
  unfold State.answer; (repeat' split) <;> rfl
@[simp] theorem State.answer_memory (s : State) (r : Result) : (s.answer r).memory = s.memory := by
  unfold State.answer; (repeat' split) <;> rfl
@[simp] theorem State.answer_dummy (s : State) (r : Result) : (s.answer r).dummy = s.dummy := by
  unfold State.answer; (repeat' split) <;> rfl
@[simp] theorem State.answer_adapter (s : State) (r : Result) : (s.answer r).adapter = s.adapter := by
  unfold State.answer; (repeat' split) <;> rfl
@[simp] theorem State.answer_env (s : State) (r : Result) : (s.answer r).env = s.env := by
  unfold State.answer; (repeat' split) <;> rfl

@[simp] theorem State.leaveHandler_cfg (s : State) : s.leaveHandler.cfg = s.cfg := by
  unfold State.leaveHandler; (repeat' split) <;> rfl
@[simp] theorem State.leaveHandler_userCode (s : State) : s.leaveHandler.userCode = s.userCode := by
  unfold State.leaveHandler; (repeat' split) <;> rfl
@[simp] theorem State.leaveHandler_vars (s : State) : s.leaveHandler.vars = s.vars := by
  unfold State.leaveHandler; (repeat' split) <;> rfl
@[simp] theorem State.leaveHandler_ctx (s : State) : s.leaveHandler.ctx = s.ctx := by
  unfold State.leaveHandler; (repeat' split) <;> rfl
@[simp] theorem State.leaveHandler_written (s : State) : s.leaveHandler.written = s.written := by
  unfold State.leaveHandler; (repeat' split) <;> rfl
@[simp] theorem State.leaveHandler_control (s : State) : s.leaveHandler.control = s.control := by
  unfold State.leaveHandler; (repeat' split) <;> rfl
@[simp] theorem State.leaveHandler_memory (s : State) : s.leaveHandler.memory = s.memory := by
  unfold State.leaveHandler; (repeat' split) <;> rfl
@[simp] theorem State.leaveHandler_dummy (s : State) : s.leaveHandler.dummy = s.dummy := by
  unfold State.leaveHandler; (repeat' split) <;> rfl
@[simp] theorem State.leaveHandler_adapter (s : State) : s.leaveHandler.adapter = s.adapter := by
  unfold State.leaveHandler; (repeat' split) <;> rfl
@[simp] theorem State.leaveHandler_env (s : State) : s.leaveHandler.env = s.env := by
  unfold State.leaveHandler; (repeat' split) <;> rfl

@[simp] theorem State.observeLines_cfg (s : State) : s.observeLines.cfg = s.cfg := by
  unfold State.observeLines; (repeat' split) <;> rfl
@[simp] theorem State.observeLines_userCode (s : State) : s.observeLines.userCode = s.userCode := by
  unfold State.observeLines; (repeat' split) <;> rfl
@[simp] theorem State.observeLines_vars (s : State) : s.observeLines.vars = s.vars := by
  unfold State.observeLines; (repeat' split) <;> rfl
@[simp] theorem State.observeLines_ctx (s : State) : s.observeLines.ctx = s.ctx := by
  unfold State.observeLines; (repeat' split) <;> rfl
@[simp] theorem State.observeLines_written (s : State) : s.observeLines.written = s.written := by
  unfold State.observeLines; (repeat' split) <;> rfl
@[simp] theorem State.observeLines_control (s : State) : s.observeLines.control = s.control := by
  unfold State.observeLines; (repeat' split) <;> rfl
@[simp] theorem State.observeLines_run (s : State) : s.observeLines.run = s.run := by
  unfold State.observeLines; (repeat' split) <;> rfl
@[simp] theorem State.observeLines_memory (s : State) : s.observeLines.memory = s.memory := by
  unfold State.observeLines; (repeat' split) <;> rfl
@[simp] theorem State.observeLines_dummy (s : State) : s.observeLines.dummy = s.dummy := by
  unfold State.observeLines; (repeat' split) <;> rfl

@[simp] theorem State.useStopAnswer_cfg (s : State) : s.useStopAnswer.cfg = s.cfg := by
  unfold State.useStopAnswer; (repeat' split) <;> rfl
@[simp] theorem State.useStopAnswer_userCode (s : State) : s.useStopAnswer.userCode = s.userCode := by
  unfold State.useStopAnswer; (repeat' split) <;> rfl
@[simp] theorem State.useStopAnswer_vars (s : State) : s.useStopAnswer.vars = s.vars := by
  unfold State.useStopAnswer; (repeat' split) <;> rfl
@[simp] theorem State.useStopAnswer_ctx (s : State) : s.useStopAnswer.ctx = s.ctx := by
  unfold State.useStopAnswer; (repeat' split) <;> rfl
@[simp] theorem State.useStopAnswer_written (s : State) : s.useStopAnswer.written = s.written := by
  unfold State.useStopAnswer; (repeat' split) <;> rfl
@[simp] theorem State.useStopAnswer_control (s : State) : s.useStopAnswer.control = s.control := by
  unfold State.useStopAnswer; (repeat' split) <;> rfl
@[simp] theorem State.useStopAnswer_run (s : State) : s.useStopAnswer.run = s.run := by
  unfold State.useStopAnswer; (repeat' split) <;> rfl
@[simp] theorem State.useStopAnswer_memory (s : State) : s.useStopAnswer.memory = s.memory := by
  unfold State.useStopAnswer; (repeat' split) <;> rfl
@[simp] theorem State.useStopAnswer_dummy (s : State) : s.useStopAnswer.dummy = s.dummy := by
  unfold State.useStopAnswer; (repeat' split) <;> rfl
@[simp] theorem State.useStopAnswer_adapter (s : State) : s.useStopAnswer.adapter = s.adapter := by
  unfold State.useStopAnswer; (repeat' split) <;> rfl

@[simp] theorem State.useLastError_cfg (s : State) : s.useLastError.cfg = s.cfg := by
  unfold State.useLastError; (repeat' split) <;> rfl
@[simp] theorem State.useLastError_userCode (s : State) : s.useLastError.userCode = s.userCode := by
  unfold State.useLastError; (repeat' split) <;> rfl
@[simp] theorem State.useLastError_vars (s : State) : s.useLastError.vars = s.vars := by
  unfold State.useLastError; (repeat' split) <;> rfl
@[simp] theorem State.useLastError_ctx (s : State) : s.useLastError.ctx = s.ctx := by
  unfold State.useLastError; (repeat' split) <;> rfl
@[simp] theorem State.useLastError_written (s : State) : s.useLastError.written = s.written := by
  unfold State.useLastError; (repeat' split) <;> rfl
@[simp] theorem State.useLastError_control (s : State) : s.useLastError.control = s.control := by
  unfold State.useLastError; (repeat' split) <;> rfl
@[simp] theorem State.useLastError_run (s : State) : s.useLastError.run = s.run := by
  unfold State.useLastError; (repeat' split) <;> rfl
@[simp] theorem State.useLastError_memory (s : State) : s.useLastError.memory = s.memory := by
  unfold State.useLastError; (repeat' split) <;> rfl
@[simp] theorem State.useLastError_dummy (s : State) : s.useLastError.dummy = s.dummy := by
  unfold State.useLastError; (repeat' split) <;> rfl
@[simp] theorem State.useLastError_adapter (s : State) : s.useLastError.adapter = s.adapter := by
  unfold State.useLastError; (repeat' split) <;> rfl

@[simp] theorem State.useInput_cfg (s : State) : s.useInput.cfg = s.cfg := by
  unfold State.useInput; (repeat' split) <;> rfl
@[simp] theorem State.useInput_userCode (s : State) : s.useInput.userCode = s.userCode := by
  unfold State.useInput; (repeat' split) <;> rfl
@[simp] theorem State.useInput_vars (s : State) : s.useInput.vars = s.vars := by
  unfold State.useInput; (repeat' split) <;> rfl
@[simp] theorem State.useInput_ctx (s : State) : s.useInput.ctx = s.ctx := by
  unfold State.useInput; (repeat' split) <;> rfl
@[simp] theorem State.useInput_written (s : State) : s.useInput.written = s.written := by
  unfold State.useInput; (repeat' split) <;> rfl
@[simp] theorem State.useInput_control (s : State) : s.useInput.control = s.control := by
  unfold State.useInput; (repeat' split) <;> rfl
@[simp] theorem State.useInput_run (s : State) : s.useInput.run = s.run := by
  unfold State.useInput; (repeat' split) <;> rfl
@[simp] theorem State.useInput_memory (s : State) : s.useInput.memory = s.memory := by
  unfold State.useInput; (repeat' split) <;> rfl
@[simp] theorem State.useInput_dummy (s : State) : s.useInput.dummy = s.dummy := by
  unfold State.useInput; (repeat' split) <;> rfl
@[simp] theorem State.useInput_adapter (s : State) : s.useInput.adapter = s.adapter := by
  unfold State.useInput; (repeat' split) <;> rfl

@[simp] theorem State.pollStop_cfg (s : State) : s.pollStop.cfg = s.cfg := by
  unfold State.pollStop State.useStopAnswer; (repeat' split) <;> rfl
@[simp] theorem State.pollStop_userCode (s : State) : s.pollStop.userCode = s.userCode := by
  unfold State.pollStop State.useStopAnswer; (repeat' split) <;> rfl
@[simp] theorem State.pollStop_vars (s : State) : s.pollStop.vars = s.vars := by
  unfold State.pollStop State.useStopAnswer; (repeat' split) <;> rfl
@[simp] theorem State.pollStop_written (s : State) : s.pollStop.written = s.written := by
  unfold State.pollStop State.useStopAnswer; (repeat' split) <;> rfl
@[simp] theorem State.pollStop_control (s : State) : s.pollStop.control = s.control := by
  unfold State.pollStop State.useStopAnswer; (repeat' split) <;> rfl
@[simp] theorem State.pollStop_memory (s : State) : s.pollStop.memory = s.memory := by
  unfold State.pollStop State.useStopAnswer; (repeat' split) <;> rfl
@[simp] theorem State.pollStop_dummy (s : State) : s.pollStop.dummy = s.dummy := by
  unfold State.pollStop State.useStopAnswer; (repeat' split) <;> rfl

@[simp] theorem State.replyByExhaustion_cfg (s : State) : s.replyByExhaustion.cfg = s.cfg := by
  unfold State.replyByExhaustion; (repeat' split) <;> rfl
@[simp] theorem State.replyByExhaustion_userCode (s : State) : s.replyByExhaustion.userCode = s.userCode := by
  unfold State.replyByExhaustion; (repeat' split) <;> rfl
@[simp] theorem State.replyByExhaustion_vars (s : State) : s.replyByExhaustion.vars = s.vars := by
  unfold State.replyByExhaustion; (repeat' split) <;> rfl
@[simp] theorem State.replyByExhaustion_ctx (s : State) : s.replyByExhaustion.ctx = s.ctx := by
  unfold State.replyByExhaustion; (repeat' split) <;> rfl
@[simp] theorem State.replyByExhaustion_written (s : State) : s.replyByExhaustion.written = s.written := by
  unfold State.replyByExhaustion; (repeat' split) <;> rfl
@[simp] theorem State.replyByExhaustion_control (s : State) : s.replyByExhaustion.control = s.control := by
  unfold State.replyByExhaustion; (repeat' split) <;> rfl
@[simp] theorem State.replyByExhaustion_run (s : State) : s.replyByExhaustion.run = s.run := by
  unfold State.replyByExhaustion; (repeat' split) <;> rfl
@[simp] theorem State.replyByExhaustion_memory (s : State) : s.replyByExhaustion.memory = s.memory := by
  unfold State.replyByExhaustion; (repeat' split) <;> rfl
@[simp] theorem State.replyByExhaustion_dummy (s : State) : s.replyByExhaustion.dummy = s.dummy := by
  unfold State.replyByExhaustion; (repeat' split) <;> rfl
@[simp] theorem State.replyByExhaustion_env (s : State) : s.replyByExhaustion.env = s.env := by
  unfold State.replyByExhaustion; (repeat' split) <;> rfl

end Sys2Proof.Machine
end

