-- ==== Sys2Proof/Laws/Ops.lean ====
section
/-! SUPPORT. For each shared operation what it does, said once: when it goes on, and what follows if it answers a next
state. Proofs cite these instead of unfolding the operation. -/

namespace Sys2Proof.Machine

/-! ### Sequencing -/

@[simp] theorem andThen_next (s : State) (k : State → Out) : andThen (.next s) k = k s := rfl
@[simp] theorem andThen_fault (f : Fault) (k : State → Out) : andThen (.fault f) k = .fault f := rfl
@[simp] theorem andThen_refused (r : Refusal) (k : State → Out) : andThen (.refused r) k = .refused r := rfl

/-- A sequence answers a next state exactly if both parts do. -/
theorem andThen_eq_next {o : Out} {k : State → Out} {t : State} :
    andThen o k = .next t ↔ ∃ u, o = .next u ∧ k u = .next t := by
  cases o <;> simp

/-! ### Registers that reset leaves unspecified -/

theorem reading_eq {s : State} {f : Field} (h : s.readable f = true) (k : Out) : s.reading f k = k := by
  simp [State.reading, h]

theorem reading_eq_next {s : State} {f : Field} {k : Out} {t : State} :
    s.reading f k = .next t ↔ s.readable f = true ∧ k = .next t := by
  unfold State.reading
  split <;> simp_all

theorem readable_of_written {s : State} {f : Field} (h : s.wasWritten f = true) : s.readable f = true := by
  unfold State.readable
  split <;> simp [h]

theorem readable_of_value {s : State} (h : s.cfg.resetReads = .value) (f : Field) : s.readable f = true := by
  simp [State.readable, h]

/-! ### Bounds and guards -/

theorem guardAdvance_eq {s : State} (h : s.ctx.cursor < s.ctx.length) (k : Out) : s.guardAdvance k = k := by
  simp [State.guardAdvance, State.moreToCome, h]

theorem guardAdvance_eq_next {s : State} {k : Out} {t : State} :
    s.guardAdvance k = .next t ↔ s.ctx.cursor < s.ctx.length ∧ k = .next t := by
  unfold State.guardAdvance State.moreToCome
  split <;> simp_all

theorem withTxByte_eq {s : State} {i : Nat} {b : Byte} (hi : i < s.cfg.cap) (hb : s.ctx.txBuffer.read i = some b)
    (k : Byte → Out) : s.withTxByte i k = k b := by
  simp [State.withTxByte, hi, hb]

theorem withTxByte_eq_next {s : State} {i : Nat} {k : Byte → Out} {t : State} :
    s.withTxByte i k = .next t ↔ i < s.cfg.cap ∧ ∃ b, s.ctx.txBuffer.read i = some b ∧ k b = .next t := by
  unfold State.withTxByte
  split_ifs with h
  · cases s.ctx.txBuffer.read i <;> simp_all
  · simp [h]

theorem withMemoryByte_eq_next {s : State} {a : Nat} {k : Byte → Out} {t : State} :
    s.withMemoryByte a k = .next t ↔ ∃ b, s.memory.read a = some b ∧ k b = .next t := by
  unfold State.withMemoryByte
  cases s.memory.read a <;> simp

theorem storeTx_eq {s : State} {i : Nat} (hi : i < s.cfg.cap) (b : Byte) (k : State → Out) :
    s.storeTx i b k = k (s.setTxBuffer (s.ctx.txBuffer.write i b)) := by
  simp [State.storeTx, hi]

theorem storeTx_eq_next {s : State} {i : Nat} {b : Byte} {k : State → Out} {t : State} :
    s.storeTx i b k = .next t ↔ i < s.cfg.cap ∧ k (s.setTxBuffer (s.ctx.txBuffer.write i b)) = .next t := by
  unfold State.storeTx
  split_ifs with h <;> simp [h]

theorem storeRx_eq {s : State} {i : Nat} (hr : s.readable .rxTarget = true) (hi : i < s.ctx.rxTarget.cap) (b : Byte)
    (k : State → Out) : s.storeRx i b k = k (s.storeRegion s.ctx.rxTarget i b) := by
  simp [State.storeRx, reading_eq hr, hi]

theorem storeRx_eq_next {s : State} {i : Nat} {b : Byte} {k : State → Out} {t : State} :
    s.storeRx i b k = .next t ↔
      s.readable .rxTarget = true ∧ i < s.ctx.rxTarget.cap ∧ k (s.storeRegion s.ctx.rxTarget i b) = .next t := by
  unfold State.storeRx
  rw [reading_eq_next]
  split_ifs with h <;> simp [h]

/-! A store to the region changes nothing but the caller's memory or the handshake's `dummy`. -/

@[simp] theorem storeRegion_cfg (s : State) (rx : RxTarget) (i : Nat) (b : Byte) :
    (s.storeRegion rx i b).cfg = s.cfg := by
  unfold State.storeRegion; split <;> rfl

@[simp] theorem storeRegion_userCode (s : State) (rx : RxTarget) (i : Nat) (b : Byte) :
    (s.storeRegion rx i b).userCode = s.userCode := by
  unfold State.storeRegion; split <;> rfl

@[simp] theorem storeRegion_vars (s : State) (rx : RxTarget) (i : Nat) (b : Byte) :
    (s.storeRegion rx i b).vars = s.vars := by
  unfold State.storeRegion; split <;> rfl

@[simp] theorem storeRegion_ctx (s : State) (rx : RxTarget) (i : Nat) (b : Byte) :
    (s.storeRegion rx i b).ctx = s.ctx := by
  unfold State.storeRegion; split <;> rfl

@[simp] theorem storeRegion_written (s : State) (rx : RxTarget) (i : Nat) (b : Byte) :
    (s.storeRegion rx i b).written = s.written := by
  unfold State.storeRegion; split <;> rfl

@[simp] theorem storeRegion_control (s : State) (rx : RxTarget) (i : Nat) (b : Byte) :
    (s.storeRegion rx i b).control = s.control := by
  unfold State.storeRegion; split <;> rfl

@[simp] theorem storeRegion_run (s : State) (rx : RxTarget) (i : Nat) (b : Byte) :
    (s.storeRegion rx i b).run = s.run := by
  unfold State.storeRegion; split <;> rfl

@[simp] theorem storeRegion_adapter (s : State) (rx : RxTarget) (i : Nat) (b : Byte) :
    (s.storeRegion rx i b).adapter = s.adapter := by
  unfold State.storeRegion; split <;> rfl

@[simp] theorem storeRegion_env (s : State) (rx : RxTarget) (i : Nat) (b : Byte) :
    (s.storeRegion rx i b).env = s.env := by
  unfold State.storeRegion; split <;> rfl

/-- A store to the region keeps the canonical form of the caller's memory. -/
theorem storeRegion_wf {s : State} (h : s.memory.wf) (rx : RxTarget) (i : Nat) (b : Byte) :
    (s.storeRegion rx i b).memory.wf := by
  unfold State.storeRegion
  split
  · exact Memory.wf_write h _ _
  · exact h

/-- Every byte of the caller's memory but the one stored to is as before. -/
theorem storeRegion_read (s : State) (rx : RxTarget) (i : Nat) (b : Byte) (a : Nat) (h : rx.addressOf i ≠ some a) :
    (s.storeRegion rx i b).memory.read a = s.memory.read a := by
  unfold State.storeRegion
  split
  · rename_i a' ha
    exact Memory.read_write_other _ _ (fun e => h (e ▸ ha))
  · rfl

/-- A block copy within `CAP` goes through and leaves the block in `txBuffer`. -/
theorem copyToTx_eq (s : State) (i : Nat) (data : List Byte) (k : State → Out) (h : i + data.length ≤ s.cfg.cap) :
    s.copyToTx i data k = k (s.setTxBuffer (s.ctx.txBuffer.writeAll i data)) := by
  induction data generalizing s i with
  | nil => rfl
  | cons b rest ih =>
    simp only [List.length_cons] at h
    rw [State.copyToTx, storeTx_eq (by omega), ih _ _ (by simp; omega)]
    rfl

/-! ### The interrupt -/

theorem takeEvent_eq {s : State} (h : s.deliverable = true) (raw : Byte) (rule : State → Out) :
    takeEvent raw rule s = andThen (rule (s.enterHandler raw)) (fun t => .next t.leaveHandler) := by
  simp [takeEvent, h]

/-- A Handler run answers a next state exactly if events are deliverable and its rule answers one. -/
theorem takeEvent_eq_next {s t : State} {raw : Byte} {rule : State → Out} :
    takeEvent raw rule s = .next t ↔
      s.deliverable = true ∧ ∃ u, rule (s.enterHandler raw) = .next u ∧ t = u.leaveHandler := by
  unfold takeEvent
  split_ifs with h
  · rw [andThen_eq_next]
    constructor
    · rintro ⟨u, hu, ht⟩
      exact ⟨h, u, hu, by simpa using ht.symm⟩
    · rintro ⟨-, u, hu, ht⟩
      exact ⟨u, hu, by rw [ht]⟩
  · simp [h]

theorem deliverable_iff (s : State) :
    s.deliverable = true ↔ s.control.initialised = true ∧ s.run.inHandler = false := by
  simp [State.deliverable]

theorem leaveHandler_eq {s : State} (h : s.run.stopWait = false) :
    s.leaveHandler = { s with run := { s.run with inHandler := false } } := by
  simp [State.leaveHandler, h]

/-! ### Entry of a host operation -/

theorem isIdle_iff (p : Phase) : p.isIdle = true ↔ p = .idle := by
  cases p <;> simp [Phase.isIdle]

theorem hostCall_eq {s : State} (hi : s.control.initialised = true)
    (hp : s.run.inHandler = true ∨ s.run.phase = .idle) (k : Out) : hostCall s k = k := by
  unfold hostCall
  rcases hp with hp | hp <;> simp [hi, hp, Phase.isIdle]

theorem hostCall_eq_next {s t : State} {k : Out} :
    hostCall s k = .next t ↔
      s.control.initialised = true ∧ (s.run.inHandler = true ∨ s.run.phase = .idle) ∧ k = .next t := by
  unfold hostCall
  rw [← isIdle_iff]
  split_ifs with h1 h2 <;> simp_all

theorem blockingCall_eq_next {s t : State} {k : Out} :
    blockingCall s k = .next t ↔ s.run.inHandler = false ∧ k = .next t := by
  unfold blockingCall
  split_ifs with h <;> simp_all

end Sys2Proof.Machine
end

