-- ==== Sys2Proof/Laws/Callbacks.lean ====
section
/-! SUPPORT. What the code of a callback can do (R165, R199): the frame of one call, of a body, and of any callback,
said once. -/

namespace Sys2Proof.Machine

/-- What the code of a callback leaves alone. -/
def CallbackFrame (s t : State) : Prop :=
  t.cfg = s.cfg ∧ t.userCode = s.userCode ∧ t.adapter = s.adapter ∧ t.dummy = s.dummy ∧
  t.control.ownAddress = s.control.ownAddress ∧ t.control.generalCallEnable = s.control.generalCallEnable ∧
  t.control.initialised = s.control.initialised ∧ s.control.hsCounter ≤ t.control.hsCounter ∧
  t.run.phase = s.run.phase ∧ t.run.inHandler = s.run.inHandler ∧ t.run.stopWait = s.run.stopWait ∧
  t.run.requestRun = s.run.requestRun ∧ t.run.result = s.run.result ∧
  t.ctx.busy = s.ctx.busy ∧ t.ctx.addressAndDirection = s.ctx.addressAndDirection ∧
  t.ctx.rxTarget = s.ctx.rxTarget ∧ t.ctx.lastError = s.ctx.lastError ∧
  t.env.arrivals = s.env.arrivals ∧ t.env.calls = s.env.calls ∧ t.env.lines = s.env.lines ∧
  t.env.stops = s.env.stops ∧
  (s.written.cursor = true → t.written.cursor = true) ∧ (s.written.length = true → t.written.length = true) ∧
  (t.run.transmitCalled = true → s.run.transmitCalled = true ∨ t.written.cursor = true ∧ t.written.length = true)

theorem CallbackFrame.refl (s : State) : CallbackFrame s s := by
  simp only [CallbackFrame, le_refl, true_and, imp_self]; exact .inl

theorem CallbackFrame.trans {s t u : State} (h : CallbackFrame s t) (h' : CallbackFrame t u) : CallbackFrame s u := by
  simp only [CallbackFrame] at *
  obtain ⟨h1, h2, h3, h4, h5, h6, h7, h8, h9, h10, h11, h12, h13, h14, h15, h16, h17, h18, h19, h20, h21, h22, h23, h24⟩ := h
  obtain ⟨k1, k2, k3, k4, k5, k6, k7, k8, k9, k10, k11, k12, k13, k14, k15, k16, k17, k18, k19, k20, k21, k22, k23, k24⟩ := h'
  simp_all only [true_and]
  refine ⟨by omega, ?_, ?_, ?_⟩ <;> tauto

theorem copyOwned_eq_next {s t : State} {d i n : Nat} {k : State → Out} (h : s.copyOwned d i n k = .next t) :
    ∃ m, k { s with memory := m } = .next t := by
  induction n generalizing s i with
  | zero => exact ⟨s.memory, h⟩
  | succ n ih =>
    simp only [State.copyOwned, withTxByte_eq_next] at h
    obtain ⟨-, b, -, h⟩ := h
    simpa using ih h

theorem copyToTx_eq_next {s t : State} {i : Nat} {data : List Byte} {k : State → Out}
    (h : s.copyToTx i data k = .next t) : ∃ m, k (s.setTxBuffer m) = .next t := by
  induction data generalizing s i with
  | nil => exact ⟨s.ctx.txBuffer, h⟩
  | cons b rest ih =>
    simp only [State.copyToTx, storeTx_eq_next] at h
    obtain ⟨m, hm⟩ := ih h.2
    exact ⟨m, hm⟩

theorem transmitRule_eq_next {s t : State} {data : List Byte} {n : Nat} (h : transmitRule data n s = .next t) :
    ∃ m, t = ((((s.setTxBuffer m).setCursor 0).setLength n).noteTransmit.answer .nothing) := by
  simp only [transmitRule, hostCall_eq_next] at h
  obtain ⟨-, -, h⟩ := h
  split_ifs at h
  obtain ⟨m, hm⟩ := copyToTx_eq_next h
  simp at hm
  exact ⟨m, hm.symm⟩

/-! ### Each call a callback may make -/

theorem execSetOnRequest_frame {n : Nat} {s t : State} (hh : s.run.inHandler = true)
    (h : execSetOnRequest n s = .next t) : CallbackFrame s t := by
  simp only [execSetOnRequest, hostCall_eq_next, Host.Outcome.next.injEq] at h
  obtain ⟨-, -, rfl⟩ := h
  simp [CallbackFrame, State.answer, hh]
  exact .inl

theorem execSetOnReceive_frame {n : Nat} {s t : State} (hh : s.run.inHandler = true)
    (h : execSetOnReceive n s = .next t) : CallbackFrame s t := by
  simp only [execSetOnReceive, hostCall_eq_next, Host.Outcome.next.injEq] at h
  obtain ⟨-, -, rfl⟩ := h
  simp [CallbackFrame, State.answer, hh]
  exact .inl

theorem execTransmit_frame {data : List Byte} {n : Nat} {s t : State} (hh : s.run.inHandler = true)
    (h : execTransmit data n s = .next t) : CallbackFrame s t := by
  obtain ⟨m, rfl⟩ := transmitRule_eq_next h
  simp [CallbackFrame, State.answer, hh]

theorem execAddressForIdentity_frame {id : Nat} {s t : State} (hh : s.run.inHandler = true)
    (h : execAddressForIdentity id s = .next t) : CallbackFrame s t := by
  simp only [execAddressForIdentity, hostCall_eq_next] at h
  obtain ⟨-, -, h⟩ := h
  split_ifs at h
  obtain rfl := Host.Outcome.next.inj h
  simp [CallbackFrame, State.answer, hh]
  exact .inl

/-- A write of user state is within the frame. -/
theorem setVariable_frame (s : State) (x v : Nat) : CallbackFrame s (s.setVariable x v) := by
  simp [CallbackFrame]
  exact .inl

theorem useInput_frame (s : State) : CallbackFrame s s.useInput := by
  unfold State.useInput
  split <;> (simp [CallbackFrame]; exact .inl)

theorem runCall_frame {c : Call} {s t : State} (hh : s.run.inHandler = true) (h : runCall c s = .next t) :
    CallbackFrame s t := by
  cases c with
  | configureAddress => simp [runCall, execConfigureAddress, hostCall_eq_next, hh] at h
  | write => simp [runCall, execWrite, beginWrite, hostCall_eq_next, blockingCall_eq_next, hh] at h
  | read => simp [runCall, execRead, beginRead, hostCall_eq_next, blockingCall_eq_next, hh] at h
  | handshake => simp [runCall, execHandshake, hostCall_eq_next, blockingCall_eq_next, hh] at h
  | transmit | transmitComputed => exact execTransmit_frame hh h
  | setOnRequest | setOnRequestComputed => exact execSetOnRequest_frame hh h
  | setOnReceive | setOnReceiveComputed => exact execSetOnReceive_frame hh h
  | addressForIdentity | addressForIdentityComputed => exact execAddressForIdentity_frame hh h
  | lastError =>
    simp only [runCall, execLastError, hostCall_eq_next, Host.Outcome.next.injEq] at h
    obtain ⟨-, -, rfl⟩ := h
    by_cases hw : s.written.lastError = true <;> simp [CallbackFrame, State.answer, State.useLastError, hh, hw]
      <;> exact .inl
  | ownedBuffer =>
    simp only [runCall, execOwnedBuffer, hostCall_eq_next, Host.Outcome.next.injEq] at h
    obtain ⟨-, -, rfl⟩ := h
    simp [CallbackFrame, State.answer, hh]
    exact .inl
  | copyOwned d n =>
    obtain ⟨m, hm⟩ := copyOwned_eq_next h
    obtain rfl := Host.Outcome.next.inj hm
    simp [CallbackFrame]
    exact .inl
  | loadOwned x index =>
    simp only [runCall, withTxByte_eq_next, Host.Outcome.next.injEq] at h
    obtain ⟨-, b, -, rfl⟩ := h
    exact setVariable_frame s x _
  | load x address =>
    simp only [runCall, withMemoryByte_eq_next, Host.Outcome.next.injEq] at h
    obtain ⟨b, -, rfl⟩ := h
    exact setVariable_frame s x _
  | store address value =>
    obtain rfl := Host.Outcome.next.inj h
    simp [CallbackFrame]
    exact .inl
  | assign x value =>
    obtain rfl := Host.Outcome.next.inj h
    exact setVariable_frame s x _
  | input x =>
    obtain rfl := Host.Outcome.next.inj h
    exact (useInput_frame s).trans (setVariable_frame _ x _)

/-! ### Bodies -/

/-- What user code computes depends on its variables and on what its last operation returned, and on nothing else. -/
theorem userValue_congr {s t : State} (hv : t.vars = s.vars) (hr : t.run.callbackResult = s.run.callbackResult)
    (e : UserExpr) : t.userValue e = s.userValue e := by
  induction e with
  | const n => rfl
  | var x => simp only [State.userValue, hv]
  | result => simp only [State.userValue, hr]
  | op o a b iha ihb => simp only [State.userValue, iha, ihb]

/-- A callback stays inside its Handler run. -/
theorem CallbackFrame.inHandler {s t : State} (h : CallbackFrame s t) (hh : s.run.inHandler = true) :
    t.run.inHandler = true := h.2.2.2.2.2.2.2.2.2.1.trans hh

/-- A loop keeps the frame if one round does. -/
theorem iterate_frame {k : State → Out} (hk : ∀ s t, s.run.inHandler = true → k s = .next t → CallbackFrame s t)
    {n : Nat} {s t : State} (hh : s.run.inHandler = true) (h : iterate k n s = .next t) : CallbackFrame s t := by
  induction n generalizing s with
  | zero => obtain rfl := Host.Outcome.next.inj h; exact .refl s
  | succ n ih =>
    obtain ⟨u, hu, h⟩ := andThen_eq_next.mp h
    have hf := hk s u hh hu
    exact hf.trans (ih (hf.inHandler hh) h)

theorem runBody_frame {b : Body} {s t : State} (hh : s.run.inHandler = true) (h : runBody b s = .next t) :
    CallbackFrame s t := by
  induction b generalizing s t with
  | done => obtain rfl := Host.Outcome.next.inj h; exact .refl s
  | call c rest ih =>
    obtain ⟨u, hu, h⟩ := andThen_eq_next.mp h
    have hf := runCall_frame hh hu
    exact hf.trans (ih (hf.inHandler hh) h)
  | choose condition yes no rest ihy ihn ih =>
    obtain ⟨u, hu, h⟩ := andThen_eq_next.mp h
    have hf : CallbackFrame s u := by
      split at hu
      · exact ihy hh hu
      · exact ihn hh hu
    exact hf.trans (ih (hf.inHandler hh) h)
  | loop times body rest ihb ih =>
    obtain ⟨u, hu, h⟩ := andThen_eq_next.mp h
    have hf := iterate_frame (fun _ _ hs ht => ihb hs ht) hh hu
    exact hf.trans (ih (hf.inHandler hh) h)

theorem runCallback_frame {c : CallbackRef} {s t : State} (hh : s.run.inHandler = true)
    (h : runCallback c s = .next t) : CallbackFrame s t := by
  cases c with
  | user n => exact runBody_frame hh h
  | hsOnRequest =>
    simp only [runCallback, hsOnRequestBody, reading_eq_next] at h
    obtain ⟨-, h⟩ := h
    split_ifs at h
    obtain ⟨m, rfl⟩ := transmitRule_eq_next h
    simp [CallbackFrame, State.answer, hh]
  | hsOnReceive => simp only [runCallback, Host.Outcome.next.injEq] at h; subst h; exact .refl s

end Sys2Proof.Machine
end

