-- ==== Sys2Proof/Laws/Decode.lean ====
section
/-! SUPPORT. What the parts of the decoder read and what the parts of the encoder write, each said once in both
directions; that a status code stands for one symbol (R8: the map is injective); the two fields of the address byte
(R95). -/

namespace Sys2Proof

@[simp] theorem parseThen_ok {α β : Type} (a : α) (rest : List Byte) (k : α → List Byte → Parsed β) :
    parseThen (.ok (a, rest)) k = k a rest := rfl

theorem parseThen_eq_ok {α β : Type} {p : Parsed α} {k : α → List Byte → Parsed β} {x : β × List Byte} :
    parseThen p k = .ok x ↔ ∃ a rest, p = .ok (a, rest) ∧ k a rest = .ok x := by
  unfold parseThen
  split
  · rename_i a rest; exact ⟨fun h => ⟨a, rest, rfl, h⟩, by rintro ⟨_, _, h, h'⟩; cases h; exact h'⟩
  · simp

theorem takeWord_wordBytes (n : Nat) (rest : List Byte) (h : n < 65536) :
    takeWord (wordBytes n ++ rest) = .ok (n, rest) := by
  simp [wordBytes, takeWord, low8]
  omega

theorem takeWord_eq_ok {bytes rest : List Byte} {n : Nat} (h : takeWord bytes = .ok (n, rest)) :
    n < 65536 ∧ bytes = wordBytes n ++ rest := by
  match bytes, h with
  | lo :: hi :: r, h =>
    simp only [takeWord, Except.ok.injEq, Prod.mk.injEq] at h
    obtain ⟨rfl, rfl⟩ := h
    have h1 := lo.isLt
    have h2 := hi.isLt
    refine ⟨by omega, ?_⟩
    have e1 : low8 (lo.toNat + 256 * hi.toNat) = lo := by
      apply BitVec.eq_of_toNat_eq; simp [low8]; omega
    have e2 : low8 ((lo.toNat + 256 * hi.toNat) / 256) = hi := by
      apply BitVec.eq_of_toNat_eq; simp [low8]; omega
    simp [wordBytes, e1, e2]

theorem takeBool_boolByte (b : Bool) (rest : List Byte) : takeBool (boolByte b :: rest) = .ok (b, rest) := by
  cases b <;> rfl

theorem takeBool_eq_ok {bytes rest : List Byte} {b : Bool} (h : takeBool bytes = .ok (b, rest)) :
    bytes = boolByte b :: rest := by
  match bytes, h with
  | x :: r, h =>
    simp only [takeBool] at h
    split_ifs at h with h1 h2 <;> cases h <;> simp [boolByte, *]

theorem takeByte_eq_ok {bytes rest : List Byte} {b : Byte} (h : takeByte bytes = .ok (b, rest)) :
    bytes = b :: rest := by
  match bytes, h with
  | x :: r, h => cases h; rfl

theorem takeBytes_append (data rest : List Byte) : takeBytes data.length (data ++ rest) = .ok (data, rest) := by
  induction data with
  | nil => rfl
  | cons b data ih => simp [takeBytes, ih]

theorem takeBytes_eq_ok {n : Nat} {bytes data rest : List Byte} (h : takeBytes n bytes = .ok (data, rest)) :
    data.length = n ∧ bytes = data ++ rest := by
  induction n generalizing bytes data with
  | zero => cases h; exact ⟨rfl, rfl⟩
  | succ n ih =>
    match bytes, h with
    | b :: bytes, h =>
      obtain ⟨d, r, h1, h2⟩ := parseThen_eq_ok.mp h
      cases h2
      obtain ⟨h3, h4⟩ := ih h1
      exact ⟨by simp [h3], by simp [h4]⟩

theorem takeBuffer_bufferBytes (data rest : List Byte) (n : Nat) (h : bufferOk data n = true) :
    takeBuffer (bufferBytes data n ++ rest) = .ok ((data, n), rest) := by
  simp only [bufferOk, fitsWord, Bool.and_eq_true, decide_eq_true_eq] at h
  simp only [takeBuffer, bufferBytes, List.append_assoc]
  rw [takeWord_wordBytes _ _ (by omega), parseThen_ok, takeWord_wordBytes _ _ h.2, parseThen_ok, takeBytes_append,
    parseThen_ok, if_pos h.1]

theorem takeBuffer_eq_ok {bytes rest data : List Byte} {n : Nat} (h : takeBuffer bytes = .ok ((data, n), rest)) :
    bufferOk data n = true ∧ bytes = bufferBytes data n ++ rest := by
  obtain ⟨n', r1, h1, h⟩ := parseThen_eq_ok.mp h
  obtain ⟨m, r2, h2, h⟩ := parseThen_eq_ok.mp h
  obtain ⟨d, r3, h3, h⟩ := parseThen_eq_ok.mp h
  split_ifs at h with hl
  cases h
  obtain ⟨k1, rfl⟩ := takeWord_eq_ok h1
  obtain ⟨k2, rfl⟩ := takeWord_eq_ok h2
  obtain ⟨rfl, rfl⟩ := takeBytes_eq_ok h3
  exact ⟨by simp [bufferOk, fitsWord, hl, k2], by simp [bufferBytes]⟩

theorem Status.mem_all (x : Status) : x ∈ Status.all := by cases x <;> decide

theorem Config.code_inj {c : Config} (h : c.Legal) {x y : Status} (e : c.code x = c.code y) : x = y := by
  have hn := h.2.2.2
  have hl := h.2.2.1
  simp only [Config.code] at e
  have hx : ∀ z : Status, z.index < c.statusCodes.length := by intro z; rw [hl]; cases z <;> decide
  rw [List.getD_eq_getElem _ _ (hx x), List.getD_eq_getElem _ _ (hx y)] at e
  have := (List.Nodup.getElem_inj_iff hn).mp e
  revert this
  cases x <;> cases y <;> simp [Status.index]

theorem Config.symbol_eq_some {c : Config} {b : Byte} {x : Status} (h : c.symbol? b = some x) : c.code x = b := by
  have := List.find?_some h
  simpa using this

theorem Config.symbol_code {c : Config} (h : c.Legal) (x : Status) : c.symbol? (c.code x) = some x := by
  cases hs : c.symbol? (c.code x) with
  | none =>
    have := List.find?_eq_none.mp hs x (Status.mem_all x)
    simp at this
  | some y => rw [Config.code_inj h (Config.symbol_eq_some hs)]

theorem Config.symbol_eq_none {c : Config} {b : Byte} : c.symbol? b = none ↔ ∀ x : Status, c.code x ≠ b := by
  simp only [Config.symbol?, List.find?_eq_none]
  exact ⟨fun h x => by simpa using h x (Status.mem_all x), fun h x _ => by simpa using h x⟩

theorem Config.mem_codes {c : Config} (h : c.Legal) (b : Byte) : b ∈ c.statusCodes ↔ ∃ x : Status, c.code x = b := by
  have hl := h.2.2.1
  constructor
  · intro hb
    obtain ⟨i, hi, rfl⟩ := List.getElem_of_mem hb
    rw [hl] at hi
    have : ∃ x : Status, x.index = i := by
      have hall : ∀ i : Fin 27, ∃ x ∈ Status.all, x.index = i.val := by decide
      obtain ⟨x, -, hx⟩ := hall ⟨i, hi⟩
      exact ⟨x, hx⟩
    obtain ⟨x, rfl⟩ := this
    exact ⟨x, by rw [Config.code, List.getD_eq_getElem]⟩
  · rintro ⟨x, rfl⟩
    have hx : x.index < c.statusCodes.length := by rw [hl]; cases x <;> decide
    rw [Config.code, List.getD_eq_getElem _ _ hx]
    exact List.getElem_mem _

theorem Config.contains_codes {c : Config} (h : c.Legal) (b : Byte) : c.statusCodes.contains b = (c.symbol? b).isSome := by
  cases hs : c.symbol? b with
  | none =>
    have := Config.symbol_eq_none.mp hs
    have hb : b ∉ c.statusCodes := fun hb => by
      obtain ⟨x, hx⟩ := (Config.mem_codes h b).mp hb
      exact this x hx
    simpa using hb
  | some x =>
    have := (Config.mem_codes h b).mpr ⟨x, Config.symbol_eq_some hs⟩
    simpa using this

/-! ### The address byte -/

/-- The two fields side by side. -/
theorem addrByte_toNat (a : Address) (d : Bool) : (addrByte a d).toNat = a.toNat <<< 1 + (BitVec.ofBool d).toNat := by
  rw [addrByte, BitVec.toNat_append, ← Nat.shiftLeft_add_eq_or_of_lt (BitVec.isLt _)]

theorem addrByte_address (a : Address) (d : Bool) : (addrByte a d).extractLsb' 1 7 = a := by
  apply BitVec.eq_of_toNat_eq
  have := a.isLt
  rw [BitVec.extractLsb'_toNat, addrByte_toNat, Nat.shiftLeft_eq, Nat.shiftRight_eq_div_pow]
  cases d <;> simp <;> omega

theorem addrByte_dir (a : Address) (d : Bool) : (addrByte a d).getLsbD 0 = d := by
  rw [BitVec.getLsbD, addrByte_toNat, Nat.shiftLeft_eq, Nat.testBit_zero]
  cases d <;> simp

/-- Every byte is the address byte of its two fields. -/
theorem addrByte_surj (b : Byte) : addrByte (b.extractLsb' 1 7) (b.getLsbD 0) = b := by
  apply BitVec.eq_of_toNat_eq
  have := b.isLt
  rw [addrByte_toNat, Nat.shiftLeft_eq, BitVec.extractLsb'_toNat, Nat.shiftRight_eq_div_pow, BitVec.getLsbD, Nat.testBit_zero]
  rcases Nat.mod_two_eq_zero_or_one b.toNat with h | h <;> simp [h] <;> omega

end Sys2Proof
end

