-- ==== Sys2Proof/Laws/Rules.lean ====
section
/-! SUPPORT. For each rule of the Handler, what it answers: the condition under which it goes on and the one state it
then leaves; and that every status is one Handler run of one rule (R140). -/

namespace Sys2Proof.Machine

theorem startRule_eq_next {s t : State} :
    startRule s = .next t ↔
      s.readable .addressAndDirection = true ∧
        t = (s.disarm.writeDataLatch s.ctx.addressAndDirection).requestAck := by
  rw [startRule, State.sendAddress, reading_eq_next, Host.Outcome.next.injEq]
  exact and_congr Iff.rfl eq_comm

theorem ctSendNext_eq_next {s t : State} :
    ctSendNext s = .next t ↔
      s.readable .cursor = true ∧ s.readable .length = true ∧
        (s.ctx.cursor = s.ctx.length ∧ t = s.issueStop.endTransfer ∨
         s.ctx.cursor < s.ctx.length ∧ s.ctx.cursor < s.cfg.cap ∧ ∃ b, s.ctx.txBuffer.read s.ctx.cursor = some b ∧
           t = ((s.setCursor (s.ctx.cursor + 1)).writeDataLatch b).requestAck) := by
  rw [ctSendNext, reading_eq_next, reading_eq_next]
  refine and_congr Iff.rfl (and_congr Iff.rfl ?_)
  by_cases h : s.ctx.cursor = s.ctx.length
  · simp [State.exhausted, h, eq_comm]
  · simp [State.exhausted, h, guardAdvance_eq_next, State.sendByte, withTxByte_eq_next, eq_comm (a := t)]

theorem crAddrAckRule_eq_next {s t : State} :
    crAddrAckRule s = .next t ↔
      s.readable .cursor = true ∧ s.readable .length = true ∧ t = s.replyByExhaustion := by
  rw [crAddrAckRule, reading_eq_next, reading_eq_next, Host.Outcome.next.injEq]
  exact and_congr Iff.rfl (and_congr Iff.rfl eq_comm)

theorem crDataAckRule_eq_next {s t : State} :
    crDataAckRule s = .next t ↔
      s.readable .cursor = true ∧ s.readable .length = true ∧ s.readable .rxTarget = true ∧
      s.ctx.cursor < s.ctx.length ∧ s.ctx.cursor < s.ctx.rxTarget.cap ∧
      t = ((s.storeRegion s.ctx.rxTarget s.ctx.cursor s.readDataLatch).setCursor (s.ctx.cursor + 1)).replyByExhaustion := by
  rw [crDataAckRule, reading_eq_next, reading_eq_next, guardAdvance_eq_next, storeRx_eq_next]
  simp only [storeRegion_ctx, Host.Outcome.next.injEq, eq_comm (a := t)]
  tauto

theorem crDataNackRule_eq_next {s t : State} :
    crDataNackRule s = .next t ↔
      s.readable .cursor = true ∧ s.readable .rxTarget = true ∧ s.ctx.cursor < s.ctx.rxTarget.cap ∧
      t = (s.storeRegion s.ctx.rxTarget s.ctx.cursor s.readDataLatch).issueStop.endTransfer := by
  rw [crDataNackRule, reading_eq_next, storeRx_eq_next, Host.Outcome.next.injEq, eq_comm (a := t)]

theorem trDataRule_eq_next {s t : State} :
    trDataRule s = .next t ↔
      s.readable .cursor = true ∧ s.ctx.cursor < s.cfg.cap ∧
      t = ((s.setTxBuffer (s.ctx.txBuffer.write s.ctx.cursor s.readDataLatch)).setCursor
        (s.ctx.cursor + 1)).requestAck := by
  rw [trDataRule, reading_eq_next]
  refine and_congr Iff.rfl ?_
  by_cases h : s.ctx.cursor < s.cfg.cap
  · simp [h, storeTx_eq, eq_comm]
  · simp [h]

theorem ttSendNext_eq_next {s t : State} :
    ttSendNext s = .next t ↔
      s.readable .cursor = true ∧ s.readable .length = true ∧ s.ctx.cursor < s.ctx.length ∧
      s.ctx.cursor < s.cfg.cap ∧ ∃ b, s.ctx.txBuffer.read s.ctx.cursor = some b ∧
        t = ((s.setCursor (s.ctx.cursor + 1)).writeDataLatch b).replyByExhaustion := by
  rw [ttSendNext, reading_eq_next, reading_eq_next, guardAdvance_eq_next, State.sendByte, withTxByte_eq_next]
  simp [eq_comm (a := t)]

theorem callOnReceive_eq_next {s t : State} :
    callOnReceive s = .next t ↔
      ∃ callback, s.ctx.onReceive = some callback ∧ runCallback callback (s.emit .callOnReceive) = .next t := by
  unfold callOnReceive
  cases s.ctx.onReceive <;> simp

theorem callOnRequest_eq_next {s t : State} :
    callOnRequest s = .next t ↔
      ∃ callback u, s.ctx.onRequest = some callback ∧
        runCallback callback (s.beginRequest.emit .callOnRequest) = .next u ∧ u.run.transmitCalled = true ∧
        t = u.endRequest := by
  unfold callOnRequest
  cases s.ctx.onRequest with
  | none => simp
  | some callback =>
    simp only [andThen_eq_next, Option.some.injEq]
    constructor
    · rintro ⟨u, hu, h⟩
      split_ifs at h with hc
      exact ⟨callback, u, rfl, hu, hc, (Host.Outcome.next.inj h).symm⟩
    · rintro ⟨_, u, rfl, hu, hc, rfl⟩
      exact ⟨u, hu, by rw [if_pos hc]⟩

theorem trStopRule_eq_next {s t : State} :
    trStopRule s = .next t ↔ ∃ u, callOnReceive s = .next u ∧ t = u.endTransfer.requestAck := by
  rw [trStopRule, andThen_eq_next]
  simp only [Host.Outcome.next.injEq, eq_comm (a := t)]

theorem ttAddressed_eq_next {s t : State} :
    ttAddressed s = .next t ↔ ∃ u, callOnRequest s.setArmed = .next u ∧ ttSendNext u = .next t := by
  rw [ttAddressed, andThen_eq_next]

/-- The raw status a status instruction is delivered as. -/
def rawOf (c : Config) : Instr → Byte
  | .busError => c.code .busError | .start => c.code .start | .repStart => c.code .repStart
  | .ctAddrAck => c.code .ctAddrAck | .ctAddrNack => c.code .ctAddrNack | .ctDataAck => c.code .ctDataAck
  | .ctDataNack => c.code .ctDataNack | .arbLost => c.code .arbLost | .crAddrAck => c.code .crAddrAck
  | .crAddrNack => c.code .crAddrNack | .crDataAck _ => c.code .crDataAck | .crDataNack _ => c.code .crDataNack
  | .trAddrAck => c.code .trAddrAck | .trArbLostAddrAck => c.code .trArbLostAddrAck
  | .trGcallAck => c.code .trGcallAck | .trArbLostGcallAck => c.code .trArbLostGcallAck
  | .trDataAck _ => c.code .trDataAck | .trDataNack => c.code .trDataNack
  | .trGcallDataAck _ => c.code .trGcallDataAck | .trGcallDataNack => c.code .trGcallDataNack
  | .trStop => c.code .trStop | .ttAddrAck => c.code .ttAddrAck | .ttArbLostAddrAck => c.code .ttArbLostAddrAck
  | .ttDataAck => c.code .ttDataAck | .ttDataNack => c.code .ttDataNack | .ttLastData => c.code .ttLastData
  | .noInfo => c.code .noInfo | .otherStatus b => b
  | .addrByteWrite _ | .addrByteRead _ | .configureAddress _ _ | .write _ _ _ _ | .read _ _ _ | .transmit _ _
  | .setOnRequest _ | .setOnReceive _ | .lastError | .ownedBuffer | .addressForIdentity _ | .handshake | .init
  | .writeObject _ _ _ | .readObject _ _ _ | .transmitObject _ => 0

/-- The rule a status selects (R140). -/
def ruleOf (c : Config) : Instr → State → Out
  | .start | .repStart => startRule
  | .ctAddrAck | .ctDataAck => ctSendNext
  | .arbLost => arbLostRule (c.code .arbLost)
  | .crAddrAck => crAddrAckRule
  | .crDataAck latch => fun s => crDataAckRule (s.receiveByte latch)
  | .crDataNack latch => fun s => crDataNackRule (s.receiveByte latch)
  | .trAddrAck | .trArbLostAddrAck | .trGcallAck | .trArbLostGcallAck => trAddressed
  | .trDataAck latch | .trGcallDataAck latch => fun s => trDataRule (s.receiveByte latch)
  | .trStop => trStopRule
  | .ttAddrAck | .ttArbLostAddrAck => ttAddressed
  | .ttDataAck => ttSendNext
  | .ttDataNack | .ttLastData => ttEndRule
  | .busError => errorRule (c.code .busError) | .ctAddrNack => errorRule (c.code .ctAddrNack)
  | .ctDataNack => errorRule (c.code .ctDataNack) | .crAddrNack => errorRule (c.code .crAddrNack)
  | .trDataNack => errorRule (c.code .trDataNack) | .trGcallDataNack => errorRule (c.code .trGcallDataNack)
  | .noInfo => errorRule (c.code .noInfo) | .otherStatus b => errorRule b
  | .addrByteWrite _ | .addrByteRead _ | .configureAddress _ _ | .write _ _ _ _ | .read _ _ _ | .transmit _ _
  | .setOnRequest _ | .setOnReceive _ | .lastError | .ownedBuffer | .addressForIdentity _ | .handshake | .init
  | .writeObject _ _ _ | .readObject _ _ _ | .transmitObject _ => .next

/-- Every status is one Handler run (R140, R141). -/
theorem exec_status {i : Instr} (h : i.format = .status) (s : State) :
    exec i s = takeEvent (rawOf s.cfg i) (ruleOf s.cfg i) s := by
  cases i <;> first | rfl | cases h

end Sys2Proof.Machine
end

