-- ==== Sys2Proof/Laws/Lobby.lean ====
section
/-! SUPPORT. What a turn of a device in the handshake can do (spec/43_handshake.md R232): the probe's owner, the frame of the
two Handler runs a probe is at its owner, and the turn taken apart. -/

namespace Sys2Proof.Machine

theorem putBack_eq_next {o : Out} {k : State → List State} {js : List State} :
    putBack o k = .next js ↔ ∃ s, o = .next s ∧ js = k s := by
  cases o <;> simp [putBack, eq_comm]

/-- The owner of an address is another device that has it as its own. -/
theorem ownerOf_eq_some {js : List State} {p d : Nat} {a : Address} (h : ownerOf js p a = some d) :
    d ≠ p ∧ ∃ t, js[d]? = some t ∧ t.control.ownAddress = some a := by
  have h := List.find?_some h
  cases ht : js[d]? <;> simp [ht] at h
  exact ⟨h.1, _, rfl, h.2⟩

/-- An address without an owner is no other device's own. -/
theorem ownerOf_eq_none {js : List State} {p : Nat} {a : Address} (h : ownerOf js p a = none) (d : Nat) (t : State)
    (hd : d ≠ p) (ht : js[d]? = some t) : t.control.ownAddress ≠ some a := by
  have hlt := (List.getElem?_eq_some_iff.mp ht).1
  have h := List.find?_eq_none.mp h d (List.mem_range.mpr hlt)
  simpa [hd, ht] using h

/-- A device holds identity `i` exactly if its own address is that of `i` (R222). -/
theorem held_eq_iff {t : State} (hl : t.cfg.Legal) {i : Nat} (hi : i < t.cfg.joiners) :
    t.held = some i ↔ t.control.ownAddress = some (identityAddress t.cfg i) := by
  have hk := hl.2.1.2.2.2
  have hn : (identityAddress t.cfg i).toNat = t.cfg.offset + i := by
    simp [identityAddress, busAddress, low8]
    omega
  unfold State.held
  cases h : t.control.ownAddress with
  | none => simp
  | some a =>
    simp only [Option.some.injEq, Option.ite_none_right_eq_some]
    constructor
    · rintro ⟨h1, h2⟩
      exact BitVec.eq_of_toNat_eq (by omega)
    · rintro rfl
      omega

theorem leaveHandler_frame (s : State) :
    s.leaveHandler.cfg = s.cfg ∧ s.leaveHandler.run.phase = s.run.phase ∧ s.leaveHandler.control = s.control := by
  unfold State.leaveHandler
  split <;> simp

/-- A probe changes neither where its owner stands nor which address it has, whatever its `onRequest` does. -/
theorem answerProbe_frame {t u : State} (h : answerProbe t = .next u) :
    u.cfg = t.cfg ∧ u.run.phase = t.run.phase ∧ u.control.ownAddress = t.control.ownAddress := by
  obtain ⟨v, hv, hu⟩ := andThen_eq_next.mp h
  simp only [exec, execTtAddrAck, execTtDataNack, takeEvent_eq_next] at hv hu
  obtain ⟨-, w, hw, rfl⟩ := hv
  obtain ⟨-, x, hx, rfl⟩ := hu
  obtain ⟨y, hy, hw⟩ := ttAddressed_eq_next.mp hw
  obtain ⟨callback, z, -, hz, -, rfl⟩ := callOnRequest_eq_next.mp hy
  obtain ⟨-, -, -, -, b, -, rfl⟩ := ttSendNext_eq_next.mp hw
  obtain rfl := Host.Outcome.next.inj hx
  obtain ⟨f1, -, -, -, f5, -, -, -, f9, -⟩ := runCallback_frame rfl hz
  simp [leaveHandler_frame, State.enterHandler, State.endTransfer, State.setArmed, f1, f5, f9]

/-- Everything a turn can do: nothing, a micro-step of the device's Host, or one of the three outcomes of a probe. -/
theorem lobbyTurn_cases {js js' : List State} {t : Turn} (h : lobbyTurn js t = .next js') :
    (js[t.device]? = none ∧ js' = js) ∨
    (∃ s s', js[t.device]? = some s ∧ s.candidate = none ∧ hostStep s = .next s' ∧ js' = js.set t.device s') ∨
    (∃ s i, js[t.device]? = some s ∧ s.candidate = some i ∧
      ((t.contended = true ∧ js' = js.set t.device (s.probeEnds i (.code (s.cfg.code .arbLost)))) ∨
       (t.contended = false ∧ ownerOf js t.device (identityAddress s.cfg i) = none ∧
        js' = js.set t.device (s.probeEnds i (.code (s.cfg.code .crAddrNack)))) ∨
       (t.contended = false ∧ ∃ d v u, d ≠ t.device ∧ js[d]? = some v ∧
        v.control.ownAddress = some (identityAddress s.cfg i) ∧ answerProbe v = .next u ∧
        js' = (js.set d u).set t.device
          (({ s with dummy := u.adapter.dataLatch } : State).probeEnds i .noError)))) := by
  unfold lobbyTurn at h
  cases hs : js[t.device]? with
  | none => exact .inl ⟨rfl, by simpa [hs] using h.symm⟩
  | some s =>
    cases hc : s.candidate with
    | none =>
      simp only [hs, hc, putBack_eq_next] at h
      obtain ⟨s', hs', rfl⟩ := h
      exact .inr (.inl ⟨s, s', rfl, hc, hs', rfl⟩)
    | some i =>
      refine .inr (.inr ⟨s, i, rfl, hc, ?_⟩)
      simp only [hs, hc, probe] at h
      cases hb : t.contended with
      | true => exact .inl ⟨rfl, by simpa [hb] using h.symm⟩
      | false =>
        cases ho : ownerOf js t.device (identityAddress s.cfg i) with
        | none => exact .inr (.inl ⟨rfl, rfl, by simpa [hb, ho] using h.symm⟩)
        | some d =>
          obtain ⟨hd, v, hv, ha⟩ := ownerOf_eq_some ho
          simp only [hb, ho, hv, putBack_eq_next, Bool.false_eq_true, if_false] at h
          obtain ⟨u, hu, rfl⟩ := h
          exact .inr (.inr ⟨rfl, d, v, u, hd, hv, ha, hu, rfl⟩)

end Sys2Proof.Machine
end

