-- ==== Sys2Proof/Laws/PerInstr.lean ====
section
/-! SUPPORT. Statements made per instruction: one lemma per constructor of Instr. -/

namespace Sys2Proof.Laws.EncodeNonempty

/-- Every message has a first byte, the one that says what it is (R90). -/
def Statement (i : Instr) : Prop := ∀ c : Config, encode c i ≠ []

theorem busError : Statement .busError := fun _ => List.cons_ne_nil _ _
theorem start : Statement .start := fun _ => List.cons_ne_nil _ _
theorem repStart : Statement .repStart := fun _ => List.cons_ne_nil _ _
theorem ctAddrAck : Statement .ctAddrAck := fun _ => List.cons_ne_nil _ _
theorem ctAddrNack : Statement .ctAddrNack := fun _ => List.cons_ne_nil _ _
theorem ctDataAck : Statement .ctDataAck := fun _ => List.cons_ne_nil _ _
theorem ctDataNack : Statement .ctDataNack := fun _ => List.cons_ne_nil _ _
theorem arbLost : Statement .arbLost := fun _ => List.cons_ne_nil _ _
theorem crAddrAck : Statement .crAddrAck := fun _ => List.cons_ne_nil _ _
theorem crAddrNack : Statement .crAddrNack := fun _ => List.cons_ne_nil _ _
theorem crDataAck (latch : Byte) : Statement (.crDataAck latch) := fun _ => List.cons_ne_nil _ _
theorem crDataNack (latch : Byte) : Statement (.crDataNack latch) := fun _ => List.cons_ne_nil _ _
theorem trAddrAck : Statement .trAddrAck := fun _ => List.cons_ne_nil _ _
theorem trArbLostAddrAck : Statement .trArbLostAddrAck := fun _ => List.cons_ne_nil _ _
theorem trGcallAck : Statement .trGcallAck := fun _ => List.cons_ne_nil _ _
theorem trArbLostGcallAck : Statement .trArbLostGcallAck := fun _ => List.cons_ne_nil _ _
theorem trDataAck (latch : Byte) : Statement (.trDataAck latch) := fun _ => List.cons_ne_nil _ _
theorem trDataNack : Statement .trDataNack := fun _ => List.cons_ne_nil _ _
theorem trGcallDataAck (latch : Byte) : Statement (.trGcallDataAck latch) := fun _ => List.cons_ne_nil _ _
theorem trGcallDataNack : Statement .trGcallDataNack := fun _ => List.cons_ne_nil _ _
theorem trStop : Statement .trStop := fun _ => List.cons_ne_nil _ _
theorem ttAddrAck : Statement .ttAddrAck := fun _ => List.cons_ne_nil _ _
theorem ttArbLostAddrAck : Statement .ttArbLostAddrAck := fun _ => List.cons_ne_nil _ _
theorem ttDataAck : Statement .ttDataAck := fun _ => List.cons_ne_nil _ _
theorem ttDataNack : Statement .ttDataNack := fun _ => List.cons_ne_nil _ _
theorem ttLastData : Statement .ttLastData := fun _ => List.cons_ne_nil _ _
theorem noInfo : Statement .noInfo := fun _ => List.cons_ne_nil _ _
theorem otherStatus (status : Byte) : Statement (.otherStatus status) := fun _ => List.cons_ne_nil _ _
theorem addrByteWrite (address : Address) : Statement (.addrByteWrite address) := fun _ => List.cons_ne_nil _ _
theorem addrByteRead (address : Address) : Statement (.addrByteRead address) := fun _ => List.cons_ne_nil _ _
theorem configureAddress (address : Byte) (generalCallEnabled : Bool) : Statement (.configureAddress address generalCallEnabled) := fun _ => List.cons_ne_nil _ _
theorem write (address : Byte) (data : List Byte) (length : Nat) (blocking : Bool) : Statement (.write address data length blocking) := fun _ => List.cons_ne_nil _ _
theorem read (address : Byte) (destination : Nat) (length : Nat) : Statement (.read address destination length) := fun _ => List.cons_ne_nil _ _
theorem transmit (data : List Byte) (length : Nat) : Statement (.transmit data length) := fun _ => List.cons_ne_nil _ _
theorem setOnRequest (callback : Nat) : Statement (.setOnRequest callback) := fun _ => List.cons_ne_nil _ _
theorem setOnReceive (callback : Nat) : Statement (.setOnReceive callback) := fun _ => List.cons_ne_nil _ _
theorem lastError : Statement .lastError := fun _ => List.cons_ne_nil _ _
theorem ownedBuffer : Statement .ownedBuffer := fun _ => List.cons_ne_nil _ _
theorem addressForIdentity (id : Nat) : Statement (.addressForIdentity id) := fun _ => List.cons_ne_nil _ _
theorem handshake : Statement .handshake := fun _ => List.cons_ne_nil _ _
theorem init : Statement .init := fun _ => List.cons_ne_nil _ _
theorem writeObject (address : Byte) (obj : List Byte) (blocking : Bool) : Statement (.writeObject address obj blocking) := fun _ => List.cons_ne_nil _ _
theorem readObject (address : Byte) (destination : Nat) (size : Nat) : Statement (.readObject address destination size) := fun _ => List.cons_ne_nil _ _
theorem transmitObject (obj : List Byte) : Statement (.transmitObject obj) := fun _ => List.cons_ne_nil _ _

end Sys2Proof.Laws.EncodeNonempty
end

