-- ==== Sys2Proof/Laws/Steps.lean ====
section
/-! SUPPORT. Runs of several steps taken apart, and what a step is on Host's turn. -/

namespace Sys2Proof.Machine

theorem runs_zero (s : State) : runs 0 s s := rfl

/-- One step, then the rest. -/
theorem runs_succ {k : Nat} {s t u : State} (h : step s = .next t) (h' : runs k t u) : runs (k + 1) s u := by
  have h : Sys2Proof.core.step s = .next t := h
  simp only [runs, Host.Core.run] at *
  rw [h]
  exact h'

theorem runs_one {s t : State} (h : step s = .next t) : runs 1 s t := runs_succ h (runs_zero t)

/-- Runs compose. -/
theorem runs_add {k m : Nat} {s t u : State} (h : runs k s t) (h' : runs m t u) : runs (k + m) s u := by
  induction k generalizing s with
  | zero =>
    obtain rfl : s = t := Host.Outcome.next.inj h
    rwa [Nat.zero_add]
  | succ k ih =>
    have hs : ∃ v, step s = .next v ∧ runs k v t := by
      simp only [runs, Host.Core.run] at h
      split at h
      · rename_i v hv
        exact ⟨v, hv, h⟩
      · cases h
      · cases h
    obtain ⟨v, hv, h⟩ := hs
    rw [show k + 1 + m = k + m + 1 by omega]
    exact runs_succ hv (ih h)

/-- With no bus traffic to count down, a turn of Host leaves the environment alone. -/
theorem setArrivals_nil {s : State} (h : s.env.arrivals = []) : s.setArrivals (countDown s.env.arrivals) = s := by
  have : ({ s.env with arrivals := [] } : Environment) = s.env := by rw [← h]
  simp [h, State.setArrivals, countDown, this]

/-- A quiet device with an operation in progress takes one micro-step of it. -/
theorem step_of_quiet {s : State} (h : s.Quiet) (hp : s.run.phase ≠ .idle) : step s = hostStep s := by
  obtain ⟨h1, h2, h3, h4⟩ := h
  have hi : s.run.phase.isIdle = false := by
    cases hb : s.run.phase.isIdle
    · rfl
    · exact absurd ((isIdle_iff _).mp hb) hp
  simp only [step, h1, h2, h3, h4, hostTurn]
  simp [hi, State.setArrivals, countDown]
  congr 1
  have : ({ s.env with arrivals := [] } : Environment) = s.env := by rw [← h4]
  simp [this]

theorem handles_append {is js : List Instr} {s t u : State} (h : handles is s t) (h' : handles js t u) :
    handles (is ++ js) s u := by
  induction is generalizing s with
  | nil => obtain rfl : s = t := h; exact h'
  | cons i is ih =>
    obtain ⟨v, hv, h⟩ := h
    exact ⟨v, hv, ih h⟩

end Sys2Proof.Machine
end

