-- ==== Sys2Proof/Tests/Slice0.lean ====
section
/-! SUPPORT. Tests of one step each, their expected results taken from spec/95_test_vectors.md (V1 to V25, PR1 to PR3) and
from the examples of the rules; the words of the encodings; the checks of WellFormed; and for every statement with
hypotheses a state that meets them. No test evaluates an OPEN parameter: the parameters are written out here. -/

namespace Sys2Proof.Tests

open Sys2Proof.Machine

/-! ### Small states -/

/-- The defaults of the spec, with the OPEN parameters chosen for these tests: `T = 2`, `K = 2`, `OFFSET = 0x10`. -/
def cfg : Config :=
  { cap := 32, idleThreshold := 2, idlePolicy := .respin, joiners := 2, offset := 0x10, maxAddresses := 2,
    statusCodes := standardStatusCodes, idxWidth := 8, reachTest := .ge, otherError := .fault,
    secondTransmit := .lastWins, resetReads := .value }

/-- S0 of spec/95_test_vectors.md: after reset and `init()`. -/
def s0 : State := { State.reset with cfg := cfg, control := { State.reset.control with initialised := true } }

/-- A write of `[0xAA, 0xBB]` to 0x20 after W8 (V1). -/
def writing : State :=
  { s0 with
    ctx := { s0.ctx with
      txBuffer := [(0, 0xAA), (1, 0xBB)], cursor := 0, length := 2, busy := true, addressAndDirection := 0x40,
      lastError := .noError }
    written := { s0.written with cursor := true, length := true, addressAndDirection := true, lastError := true }
    adapter := { s0.adapter with armed := true } }

/-- A read of three bytes from 0x20 into the caller's memory at 100 after RD8 (V2). -/
def reading : State :=
  { writing with
    ctx := { writing.ctx with rxTarget := ⟨.caller 100, 3⟩, addressAndDirection := 0x41 }
    written := { writing.written with rxTarget := true } }

/-- A probe of the handshake after RD8: one byte into `dummy` (V5, V9). -/
def probing : State :=
  { reading with ctx := { reading.ctx with rxTarget := ⟨.dummy, 1⟩, length := 0, addressAndDirection := 0x4B } }

/-- A body that answers with one more than the byte received first, or with an error code where `lastError()` is not "no
error" (256). -/
def echo : Body :=
  .call .lastError
    (.choose (.op .equal .result (.const 256))
      (.call (.loadOwned 0 (.const 0)) (.call (.transmitComputed [.op .add (.var 0) (.const 1)] (.const 1)) .done))
      (.call (.transmitComputed [.result] (.const 1)) .done)
      .done)

/-- A body that loads `count` received bytes one by one and stores each from `destination` on. -/
def collect (destination count : Nat) : Body :=
  .loop (.const count)
    (.call (.loadOwned 0 (.var 1))
      (.call (.store (.op .add (.const destination) (.var 1)) (.var 0))
        (.call (.assign 1 (.op .add (.var 1) (.const 1))) .done)))
    .done

/-- A target at 0x12 with user callbacks 1 (transmit [7, 8]) and 2 (copy two bytes to 200) (V3, V8, PR2). -/
def target : State :=
  { s0 with
    userCode := [(1, .call (.transmit [7, 8] 2) .done), (2, .call (.copyOwned 200 2) .done), (3, .done),
      (4, .call (.transmit [1, 2, 3] 3) (.call (.transmit [4] 1) .done)), (5, echo), (6, collect 300 2)]
    ctx := { s0.ctx with onRequest := some (.user 1), onReceive := some (.user 2) }
    control := { s0.control with ownAddress := some 0x12, generalCallEnable := true } }

/-- Inside the `onRequest` call of a Handler run. -/
def requesting : State :=
  { target with run := { target.run with inHandler := true, requestRun := true } }

/-- A device that waits at H7 with identity 1 (PR3). -/
def joined : State :=
  { s0 with
    ctx := { s0.ctx with onRequest := some .hsOnRequest, onReceive := some .hsOnReceive }
    written := { s0.written with hsCounter := true }
    control := { s0.control with ownAddress := some 0x11, generalCallEnable := true }
    run := { s0.run with phase := .handshake 1 .h7 } }

def atCursor (s : State) (cursor length : Nat) : State :=
  { s with ctx := { s.ctx with cursor := cursor, length := length } }

def samples (s : State) (lines : List Lines) : State := { s with env := { s.env with lines := lines } }

def stops (s : State) (answers : List Bool) : State := { s with env := { s.env with stops := answers } }

def atPhase (s : State) (p : Phase) : State := { s with run := { s.run with phase := p } }

/-- The state answered, if one is. -/
def next? : Out → Option State
  | .next s => some s
  | .fault _ => none
  | .refused _ => none

/-- The fault, if the instruction ends in one. -/
def fault? : Out → Option Fault
  | .fault f => some f
  | .next _ => none
  | .refused _ => none

/-- The refusal, if the instruction ends in one. -/
def refusal? : Out → Option Refusal
  | .refused r => some r
  | .next _ => none
  | .fault _ => none

/-- `cursor`, `busy`, `lastError` and the commands after one instruction. -/
def brief (o : Out) : Option (Nat × Bool × LastError × List Action) :=
  (next? o).map fun s => (s.ctx.cursor, s.ctx.busy, s.ctx.lastError, s.adapter.actions)

/-! ### WellFormed refuses -/

theorem test_wf_named_code_is_no_other_status : (Instr.otherStatus 0x48).wellFormed cfg = false := by decide
theorem test_wf_other_status : (Instr.otherStatus 0xE0).wellFormed cfg = true := by decide
theorem test_wf_write_short_buffer : (Instr.write 0x20 [1, 2] 3 true).wellFormed cfg = false := by decide
theorem test_wf_write_oversized_is_a_call : (Instr.write 0x20 (List.replicate 33 1) 33 true).wellFormed cfg = true := by decide
theorem test_wf_transmit_short_buffer : (Instr.transmit [1] 2).wellFormed cfg = false := by decide
theorem test_wf_read_destination : (Instr.read 0x20 65536 1).wellFormed cfg = false := by decide
theorem test_wf_read_length : (Instr.read 0x20 0 65536).wellFormed cfg = false := by decide
theorem test_wf_setOnRequest : (Instr.setOnRequest 65536).wellFormed cfg = false := by decide
theorem test_wf_setOnReceive : (Instr.setOnReceive 65536).wellFormed cfg = false := by decide
theorem test_wf_addressForIdentity : (Instr.addressForIdentity 65536).wellFormed cfg = false := by decide
theorem test_wf_writeObject_empty : (Instr.writeObject 0x20 [] true).wellFormed cfg = false := by decide
theorem test_wf_writeObject_long : (Instr.writeObject 0x20 (List.replicate 33 1) true).wellFormed cfg = false := by decide
theorem test_wf_readObject_empty : (Instr.readObject 0x20 0 0).wellFormed cfg = false := by decide
theorem test_wf_readObject_destination : (Instr.readObject 0x20 65536 1).wellFormed cfg = false := by decide
theorem test_wf_transmitObject_empty : (Instr.transmitObject []).wellFormed cfg = false := by decide
theorem test_wf_transmitObject_long : (Instr.transmitObject (List.replicate 33 1)).wellFormed cfg = false := by decide

/-! ### Words of the encodings (R92, R95, R103; log entry 9 for the operand bytes of a call) -/

def read? (f : Format) (bytes : List Byte) : Option Instr :=
  match decode cfg f bytes with
  | .ok (i, []) => some i
  | .ok (_, _ :: _) => none
  | .error _ => none

def statusWords : List (List Byte × Instr) :=
  [([0x00], .busError), ([0x08], .start), ([0x10], .repStart), ([0x18], .ctAddrAck), ([0x20], .ctAddrNack),
   ([0x28], .ctDataAck), ([0x30], .ctDataNack), ([0x38], .arbLost), ([0x40], .crAddrAck), ([0x48], .crAddrNack),
   ([0x50, 0x01], .crDataAck 1), ([0x58, 0x5A], .crDataNack 0x5A), ([0x60], .trAddrAck), ([0x68], .trArbLostAddrAck)] ++
  [([0x70], .trGcallAck), ([0x78], .trArbLostGcallAck), ([0x80, 0x11], .trDataAck 0x11), ([0x88], .trDataNack),
   ([0x90, 0x33], .trGcallDataAck 0x33), ([0x98], .trGcallDataNack), ([0xA0], .trStop), ([0xA8], .ttAddrAck),
   ([0xB0], .ttArbLostAddrAck), ([0xB8], .ttDataAck), ([0xC0], .ttDataNack), ([0xC8], .ttLastData), ([0xF8], .noInfo),
   ([0xE0], .otherStatus 0xE0), ([0x01], .otherStatus 0x01), ([0xFF], .otherStatus 0xFF)]

theorem test_decode_status : ∀ w ∈ statusWords, read? .status w.1 = some w.2 := by decide

theorem test_decode_status_without_its_byte : decode cfg .status [0x80] = .error .truncated := by decide

/-- R95: address 0x20 gives 0x40 for a write and 0x41 for a read; V5: 0x25 for a read is 0x4B. -/
theorem test_decode_addrByte :
    read? .addrByte [0x40] = some (.addrByteWrite 0x20) ∧ read? .addrByte [0x41] = some (.addrByteRead 0x20) ∧
    read? .addrByte [0x4B] = some (.addrByteRead 0x25) ∧ read? .addrByte [0xFE] = some (.addrByteWrite 0x7F) := by decide

def callWords : List (List Byte × Instr) :=
  [([0, 0x12, 1], .configureAddress 0x12 true),
   ([1, 0x20, 1, 2, 0, 2, 0, 0xAA, 0xBB], .write 0x20 [0xAA, 0xBB] 2 true),
   ([2, 0x20, 0x00, 0x01, 3, 0], .read 0x20 256 3),
   ([3, 2, 0, 2, 0, 7, 8], .transmit [7, 8] 2), ([4, 1, 0], .setOnRequest 1), ([5, 2, 0], .setOnReceive 2),
   ([6], .lastError), ([7], .ownedBuffer), ([8, 1, 0], .addressForIdentity 1), ([9], .handshake), ([10], .init)]

theorem test_decode_call : ∀ w ∈ callWords, read? .hostOp w.1 = some w.2 := by decide

theorem test_decode_call_rejects :
    decode cfg .hostOp [11] = .error (.unknownOperation 11) ∧ decode cfg .hostOp [0, 0x12, 2] = .error (.badBoolean 2) ∧
    decode cfg .hostOp [3, 2, 0, 1, 0, 7] = .error (.shortData 2 1) ∧ decode cfg .hostOp [2, 0x20, 0] = .error .truncated ∧
    decode cfg .status [] = .error .truncated ∧ decode cfg .addrByte [] = .error .truncated := by decide

/-- R98: an object form is the call it expands to. -/
theorem test_decode_objects :
    read? .hostOp (encode cfg (.writeObject 0x20 [5, 6] false)) = some (.write 0x20 [5, 6] 2 false) ∧
    read? .hostOp (encode cfg (.readObject 0x20 7 2)) = some (.read 0x20 7 2) ∧
    read? .hostOp (encode cfg (.transmitObject [9])) = some (.transmit [9] 1) := by decide

/-! ### Statuses of the controller roles -/

/-- V1. -/
theorem test_start : brief (exec .start writing) = some (0, true, .noError, [.writeLatch 0x40, .ack]) := by decide

/-- V18: `REP_START` is recognised. -/
theorem test_repStart : brief (exec .repStart reading) = some (0, true, .noError, [.writeLatch 0x41, .ack]) := by decide

/-- V15, under R39's reading (log entry 3). -/
theorem test_start_uninitialised :
    fault? (exec .start { s0 with cfg := { cfg with resetReads := .fault } }) =
      some (.uninitialisedRead .addressAndDirection) := by decide

/-- V1. -/
theorem test_ctAddrAck : brief (exec .ctAddrAck writing) = some (1, true, .noError, [.writeLatch 0xAA, .ack]) := by decide

/-- R144: `length = 0` would stop at once. -/
theorem test_ctAddrAck_nothing_to_send :
    brief (exec .ctAddrAck (atCursor writing 0 0)) = some (0, false, .noError, [.stop]) := by decide

/-- V1, the event after the last byte. -/
theorem test_ctDataAck_stops :
    brief (exec .ctDataAck (atCursor writing 2 2)) = some (2, false, .noError, [.stop]) := by decide

/-- V15. -/
theorem test_ctDataAck_overrun : fault? (exec .ctDataAck (atCursor writing 3 2)) = some (.cursorOverrun 3 2) := by decide

/-- V4. -/
theorem test_arbLost : brief (exec .arbLost writing) = some (0, false, .code 0x38, [.ack]) := by decide

/-- R147: a read of three, then V9: a read of one. -/
theorem test_crAddrAck :
    brief (exec .crAddrAck reading) = some (0, true, .noError, [.ack]) ∧
    brief (exec .crAddrAck (atCursor reading 0 0)) = some (0, true, .noError, [.nack]) := by decide

/-- R148: the second of three bytes. -/
theorem test_crDataAck :
    brief (exec (.crDataAck 2) (atCursor reading 1 2)) = some (2, true, .noError, [.nack]) ∧
    ((next? (exec (.crDataAck 2) (atCursor reading 1 2))).map (fun s => s.memory)) = some [(101, 2)] := by decide

/-- V15: nothing is stored. -/
theorem test_crDataAck_overrun :
    fault? (exec (.crDataAck 9) (atCursor reading 2 2)) = some (.cursorOverrun 2 2) := by decide

/-- R149. -/
theorem test_crDataNack :
    brief (exec (.crDataNack 3) (atCursor reading 2 2)) = some (2, false, .noError, [.stop]) ∧
    ((next? (exec (.crDataNack 3) (atCursor reading 2 2))).map (fun s => s.memory)) = some [(102, 3)] := by decide

/-- V15: one byte short is no fault. -/
theorem test_crDataNack_short :
    ((next? (exec (.crDataNack 9) (atCursor reading 1 2))).map (fun s => (s.memory, s.ctx.busy))) =
      some ([(101, 9)], false) := by decide

/-- V9 as a probe: the byte goes to `dummy`. -/
theorem test_crDataNack_probe :
    ((next? (exec (.crDataNack 0x5A) probing)).map (fun s => (s.dummy, s.memory))) = some (0x5A, []) := by decide

/-! ### Statuses without a rule of their own -/

/-- V18, V6, V7, V5 and the rest of R251: the raw code is recorded, and with the stop confirmed `busy` is clear. -/
theorem test_error_statuses :
    ∀ p ∈ [(Instr.busError, (0x00 : Byte)), (.ctAddrNack, 0x20), (.ctDataNack, 0x30), (.crAddrNack, 0x48),
           (.trDataNack, 0x88), (.trGcallDataNack, 0x98), (.noInfo, 0xF8), (.otherStatus 0xE0, 0xE0)],
      brief (exec p.1 (stops writing [true])) = some (0, false, .code p.2, [.stopWait]) := by decide

/-- R134, last row: a bus error instead of the start leaves no start to come. -/
theorem test_busError_instead_of_start :
    ((next? (exec .busError (stops writing [true]))).map (fun s => (s.adapter.armed, decide (Status.start ∈ s.legalNext)))) =
      some (false, false) := by decide

/-- V6: the adapter answers `false` first; `busy` stays and the Handler has not returned. -/
theorem test_stop_wait_goes_on :
    ((next? (exec .ctAddrNack (stops writing [false, true]))).map (fun s => (s.ctx.busy, s.run.inHandler))) =
      some (true, true) := by decide

/-! ### Statuses of the target roles -/

/-- R150 to R153. -/
theorem test_tr_addressed :
    ∀ i ∈ [Instr.trAddrAck, .trArbLostAddrAck, .trGcallAck, .trArbLostGcallAck],
      brief (exec i (atCursor target 5 0)) = some (0, true, .code 0, [.ack]) := by decide

/-- V8. -/
theorem test_trDataAck :
    ((next? (exec (.trDataAck 0x11) target)).map (fun s => (s.ctx.txBuffer, s.ctx.cursor, s.adapter.actions))) =
      some ([(0, 0x11)], 1, [.ack]) := by decide

/-- V24. -/
theorem test_trDataAck_overrun :
    fault? (exec (.trDataAck 1) (atCursor target 32 0)) = some (.targetReceiveOverrun 32) := by decide

/-- R155. -/
theorem test_trGcallDataAck :
    ((next? (exec (.trGcallDataAck 0x22) (atCursor target 1 0))).map (fun s => (s.ctx.txBuffer, s.ctx.cursor))) =
      some ([(1, 0x22)], 2) := by decide

/-- V8 and PR2: the callback copies the two bytes received. -/
theorem test_trStop :
    ((next? (exec .trStop { target with ctx := { target.ctx with txBuffer := [(0, 0x11), (1, 0x22)], busy := true } })).map
      (fun s => (s.memory, s.ctx.busy, s.adapter.actions))) =
      some ([(200, 0x11), (201, 0x22)], false, [.callOnReceive, .ack]) := by decide

/-- R165, R192: a callback that loads each byte at an index it counts. -/
theorem test_trStop_computed :
    ((next? (exec .trStop { target with
      ctx := { target.ctx with txBuffer := [(0, 0x11), (1, 0x22)], onReceive := some (.user 6) } })).map
      (fun s => (s.memory, s.vars))) = some ([(300, 0x11), (301, 0x22)], [(0, 0x22), (1, 2)]) := by decide

/-- V15. -/
theorem test_trStop_empty_slot : fault? (exec .trStop s0) = some (.nullCallback .onReceive) := by decide

/-- V3. -/
theorem test_ttAddrAck :
    ((next? (exec .ttAddrAck target)).map (fun s => (s.ctx.txBuffer, s.ctx.length, s.ctx.busy, s.adapter.actions))) =
      some ([(0, 7), (1, 8)], 2, true, [.callOnRequest, .writeLatch 7, .ack]) := by decide

/-- R165: a callback whose answer depends on the byte received, and on `lastError()`. -/
theorem test_ttAddrAck_computed :
    let s (e : LastError) : State := { target with
      written := { target.written with lastError := true }
      ctx := { target.ctx with txBuffer := [(0, 0x41)], lastError := e, onRequest := some (.user 5) } }
    ((next? (exec .ttAddrAck (s .noError))).map (fun s => s.adapter.dataLatch)) = some 0x42 ∧
    ((next? (exec .ttAddrAck (s (.code 0x38)))).map (fun s => s.adapter.dataLatch)) = some 0x38 := by decide

/-- R41: two runs of one body differ by what the environment gives it. -/
theorem test_callback_input :
    let s (n : Nat) : State := { target with env := { target.env with inputs := [n] } }
    ∀ n ∈ [0, 7], ((next? (runCall (.input 3) (s n))).map (fun s => (s.vars, s.env.inputs))) =
      some (if n = 0 then [] else [(3, n)], []) := by decide

/-- V15: no `transmit`. -/
theorem test_ttAddrAck_without_transmit :
    fault? (exec .ttAddrAck { target with ctx := { target.ctx with onRequest := some (.user 3) } }) =
      some .transmitNotCalled := by decide

/-- V21: `transmit` twice, the last wins. -/
theorem test_ttArbLostAddrAck :
    ((next? (exec .ttArbLostAddrAck { target with ctx := { target.ctx with onRequest := some (.user 4) } })).map
      (fun s => (s.ctx.txBuffer, s.ctx.cursor, s.ctx.length, s.adapter.actions))) =
      some ([(0, 4), (1, 2), (2, 3)], 1, 1, [.callOnRequest, .writeLatch 4, .nack]) := by decide

/-- R188, the strict reading. -/
theorem test_transmit_twice_refused :
    refusal? (exec .ttAddrAck { target with
      cfg := { cfg with secondTransmit := .refuse }, ctx := { target.ctx with onRequest := some (.user 4) } }) =
      some .transmitCalledTwice := by decide

/-- PR3: a probe of a device that waits at H7. -/
theorem test_ttAddrAck_probe :
    ((next? (exec .ttAddrAck joined)).map (fun s => (s.control.hsCounter, s.adapter.actions))) =
      some (1, [.callOnRequest, .writeLatch 1, .nack]) := by decide

/-- V3. -/
theorem test_ttDataAck :
    brief (exec .ttDataAck { writing with ctx := { writing.ctx with txBuffer := [(0, 7), (1, 8)], cursor := 1 } }) =
      some (2, true, .noError, [.writeLatch 8, .nack]) := by decide

/-- V15. -/
theorem test_ttDataAck_overrun : fault? (exec .ttDataAck (atCursor writing 2 2)) = some (.cursorOverrun 2 2) := by decide

/-- V20 and the other ending of V3. -/
theorem test_tt_endings :
    brief (exec .ttDataNack (atCursor writing 1 3)) = some (1, false, .noError, [.ack]) ∧
    brief (exec .ttLastData (atCursor writing 2 2)) = some (2, false, .noError, [.ack]) := by decide

/-! ### Address bytes on the bus -/

/-- V8: a write to 0x12, and a general call; R133. -/
theorem test_addrByteWrite :
    ((next? (exec (.addrByteWrite 0x12) target)).map (fun s => s.adapter.pendingEvent)) = some (some [0x60]) ∧
    ((next? (exec (.addrByteWrite 0) target)).map (fun s => s.adapter.pendingEvent)) = some (some [0x70]) ∧
    ((next? (exec (.addrByteWrite 0x13) target)).map (fun s => s.adapter.pendingEvent)) = some none := by decide

/-- V3: a read from the own address. -/
theorem test_addrByteRead :
    ((next? (exec (.addrByteRead 0x12) target)).map (fun s => s.adapter.pendingEvent)) = some (some [0xA8]) := by decide

/-! ### Host operations -/

/-- R180 and its example; V14 for the refusal. -/
theorem test_configureAddress :
    ((next? (exec (.configureAddress 0x12 true) s0)).map (fun s => (s.control.ownAddress, s.run.phase))) =
      some (some 0x12, .configure true) ∧
    refusal? (exec (.configureAddress 0x80 true) s0) = some .addressOutOfRange := by decide

/-- V14. -/
theorem test_write_limits :
    refusal? (exec (.write 0x20 (List.replicate 33 1) 33 true) s0) = some .lengthExceedsCapacity ∧
    (next? (exec (.write 0x20 (List.replicate 32 1) 32 true) s0)).isSome = true := by decide

/-- V13: zero length, also with `busy` set. -/
theorem test_write_zero : brief (exec (.write 0x20 [] 0 true) writing) = brief (.next writing) := by decide

/-- V14. -/
theorem test_read_limits :
    refusal? (exec (.read 0x20 100 256) s0) = some .lengthOutOfRange ∧
    (next? (exec (.read 0x20 100 255) s0)).isSome = true ∧
    refusal? (exec (.read 0x80 100 1) s0) = some .addressOutOfRange := by decide

/-- R187 and its example. -/
theorem test_transmit :
    ((next? (exec (.transmit [7, 8] 2) requesting)).map (fun s => (s.ctx.txBuffer, s.ctx.cursor, s.ctx.length))) =
      some ([(0, 7), (1, 8)], 0, 2) := by decide

/-- V15. -/
theorem test_transmit_refusals :
    refusal? (exec (.transmit [1] 1) s0) = some .transmitOutsideRequest ∧
    refusal? (exec (.transmit [] 0) requesting) = some .zeroLengthTransmit ∧
    refusal? (exec (.transmit (List.replicate 33 1) 33) requesting) = some .lengthExceedsCapacity := by decide

/-- R189, R190. -/
theorem test_callback_slots :
    ((next? (exec (.setOnRequest 5) s0)).map (fun s => s.ctx.onRequest)) = some (some (.user 5)) ∧
    ((next? (exec (.setOnReceive 6) s0)).map (fun s => s.ctx.onReceive)) = some (some (.user 6)) := by decide

/-- R191, PR1 line 3. -/
theorem test_lastError :
    ((next? (exec .lastError writing)).map (fun s => s.run.result)) = some (.error .noError) := by decide

/-- R192. -/
theorem test_ownedBuffer : ((next? (exec .ownedBuffer s0)).map (fun s => s.run.result)) = some .buffer := by decide

/-- PR3: `addressForIdentity(1) = 0x11`; V15 for `K`. -/
theorem test_addressForIdentity :
    ((next? (exec (.addressForIdentity 1) s0)).map (fun s => s.run.result)) = some (.address 0x11) ∧
    refusal? (exec (.addressForIdentity 2) s0) = some .identityOutOfRange := by decide

/-- R223 H0. -/
theorem test_handshake :
    ((next? (exec .handshake joined)).map (fun s => s.run.phase)) = none ∧
    ((next? (exec .handshake s0)).map (fun s => (s.control.hsCounter, s.run.phase))) = some (0, .hsLoop 2) := by decide

/-- PR1 line 1; V14: every operation before it is refused. -/
theorem test_init :
    ((next? (exec .init State.reset)).map (fun s => s.control.initialised)) = some true ∧
    refusal? (exec .ownedBuffer State.reset) = some .notInitialised := by decide

/-- R98. -/
theorem test_objects :
    exec (.writeObject 0x20 [1, 2] true) s0 = exec (.write 0x20 [1, 2] 2 true) s0 ∧
    exec (.readObject 0x20 100 3) s0 = exec (.read 0x20 100 3) s0 ∧
    exec (.transmitObject [7, 8]) requesting = exec (.transmit [7, 8] 2) requesting := by
  exact ⟨rfl, rfl, rfl⟩

/-- V15: inside a callback. -/
theorem test_refused_in_callback :
    refusal? (exec (.write 0x20 [1] 1 true) requesting) = some .blockingCallInHandler ∧
    refusal? (exec (.read 0x20 0 1) requesting) = some .blockingCallInHandler ∧
    refusal? (exec .handshake requesting) = some .blockingCallInHandler ∧
    refusal? (exec (.configureAddress 0x12 true) requesting) = some .configureInHandler := by decide

/-! ### Micro-steps of Host -/

/-- R182 W4: address 0x20 with direction 0 is 0x40. -/
theorem test_w4 :
    ((next? (step (atPhase s0 (.write ⟨0x20, [1], 1, true⟩ .w4)))).map (fun s => s.ctx.addressAndDirection)) =
      some 0x40 := by decide

/-- V2, RD3 and RD4: a read of 3 stores 2; the byte is 0x41. -/
theorem test_rd3_rd4 :
    ((next? (step (atPhase s0 (.read ⟨0x20, .caller 100, 3⟩ .rd3Length .user)))).map (fun s => s.ctx.length)) = some 2 ∧
    ((next? (step (atPhase s0 (.read ⟨0x20, .caller 100, 3⟩ .rd4 .user)))).map (fun s => s.ctx.addressAndDirection)) =
      some 0x41 := by decide

/-- V10: a sample that is not idle resets the counter to `T`. -/
theorem test_respin :
    ((next? (step (samples (atPhase writing (.write ⟨0x20, [1], 1, true⟩ (.w7 1))) [⟨true, false⟩]))).map
      (fun s => (s.run.phase, s.adapter.actions))) =
      some (.write ⟨0x20, [1], 1, true⟩ (.w7 2), [.lines ⟨true, false⟩]) := by decide

/-- V11: under `Abort` it ends the confirmation. -/
theorem test_abort :
    ((next? (step ({ samples (atPhase writing (.write ⟨0x20, [1], 1, true⟩ (.w7 1))) [⟨false, true⟩] with
      cfg := { cfg with idlePolicy := .abort } }))).map (fun s => s.run.phase)) =
      some (.write ⟨0x20, [1], 1, true⟩ .w7AbortError) := by decide

/-- R229: the counter has reached the identity. -/
theorem test_h7 :
    ((next? (step { joined with control := { joined.control with hsCounter := 1 } })).map (fun s => s.run.result)) =
      some (.identity 1) ∧
    ((next? (step joined)).map (fun s => s.run.phase)) = some (.handshake 1 .h7) := by decide

/-! ### The first instruction after reset -/

/-- The words of spec/opcode_table.json, placed as the next thing the device does. -/
theorem test_placed_words :
    ((next? (step (State.reset.withFetchWord 8 0x0A))).map (fun s => s.control.initialised)) = some true ∧
    ((next? (step (State.reset.withFetchWord 8 0x08))).map (fun s => s.adapter.actions)) =
      some [.writeLatch 0, .ack] ∧
    ((next? (step (State.reset.withFetchWord 16 0x1180))).map (fun s => s.ctx.txBuffer)) = some [(0, 0x11)] := by decide

/-! ### States that meet the hypotheses of the statements

Named after the statement, one theorem for each clause. -/

theorem holds_of_all (m : Memory) (data : List Byte)
    (h : (List.range data.length).all (fun j => m.read j == data[j]?) = true) :
    ∀ j b, data[j]? = some b → m.read j = some b := by
  intro j b hj
  have hl := (List.getElem?_eq_some_iff.mp hj).1
  have := List.all_eq_true.mp h j (List.mem_range.mpr hl)
  rw [← hj]
  simpa using this

theorem legal : cfg.Legal := by decide

/-- A device to which an event arrives. -/
def arriving (port : BusPort) (delay : Nat) (bytes : List Byte) (s : State) : State :=
  { s with env := { s.env with arrivals := [⟨delay, port, bytes⟩] } }

def calling (bytes : List Byte) (s : State) : State := { s with env := { s.env with calls := [bytes] } }

def waiting (bytes : List Byte) (s : State) : State := { s with adapter := { s.adapter with pendingEvent := some bytes } }

def strict (s : State) : State := { s with cfg := { s.cfg with resetReads := .fault } }

theorem witness_DecodeOfEncode : cfg.Legal ∧ (Instr.write 0x20 [1, 2, 3] 2 true).wellFormed cfg = true ∧
    (Instr.writeObject 0x7F (List.replicate 32 1) true).wellFormed cfg = true := by decide

theorem witness_EncodeOfDecode : cfg.Legal ∧
    decode cfg .hostOp [2, 0x20, 0x00, 0x01, 3, 0, 9] = .ok (.read 0x20 256 3, [9]) := by decide

theorem witness_StepRuns_event :
    target.run.inHandler = false ∧ target.run.stopWait = false ∧ target.control.initialised = true ∧
    target.adapter.pendingEvent = none ∧ (arriving .event 0 [0x60] target).env.arrivals = [⟨0, .event, [0x60]⟩] ∧
    decode cfg .status [0x60] = .ok (.trAddrAck, []) := by decide

theorem witness_StepRuns_waiting :
    (waiting [0x80, 5] target).control.initialised = true ∧
    (waiting [0x80, 5] target).adapter.pendingEvent = some [0x80, 5] ∧
    decode cfg .status [0x80, 5] = .ok (.trDataAck 5, []) := by decide

theorem witness_StepRuns_address :
    target.adapter.pendingEvent = none ∧ (arriving .address 0 [0x24] target).env.arrivals = [⟨0, .address, [0x24]⟩] ∧
    decode cfg .addrByte [0x24] = .ok (.addrByteWrite 0x12, []) := by decide

theorem witness_StepRuns_call :
    (calling [6] s0).HostTurn ∧ s0.run.phase = .idle ∧ (calling [6] s0).env.calls = [[6]] ∧
    decode cfg .hostOp [6] = .ok (.lastError, []) :=
  ⟨⟨rfl, rfl, .inr ⟨rfl, fun _ _ h => by cases h⟩⟩, rfl, rfl, by decide⟩

/-- With bus traffic still to come. -/
theorem witness_StepRuns_call_before_traffic : (calling [6] (arriving .event 1 [0x60] s0)).HostTurn :=
  ⟨rfl, rfl, .inr ⟨rfl, fun _ _ h => by cases h; decide⟩⟩

/-- With an event that waits for `init()`. -/
theorem witness_StepRuns_call_before_init : (calling [10] (waiting [0x60] State.reset)).HostTurn :=
  ⟨rfl, rfl, .inl ⟨rfl, rfl⟩⟩

theorem witness_EventsAreMasked_before_init :
    State.reset.control.initialised = false ∧ State.reset.run.inHandler = false ∧ State.reset.run.stopWait = false ∧
    State.reset.adapter.pendingEvent = none ∧
    (arriving .event 0 [0x60] State.reset).env.arrivals = [⟨0, .event, [0x60]⟩] := by decide

theorem witness_EventsAreMasked_in_a_run : requesting.run.inHandler = true := by decide

theorem witness_Start : writing.EventReady ∧ writing.readable .addressAndDirection = true ∧
    s0.EventReady ∧ (strict s0).cfg.resetReads = .fault ∧ (strict s0).written.addressAndDirection = false := by decide

theorem witness_ControllerTransmit :
    writing.EventReady ∧ writing.readable .cursor = true ∧ writing.readable .length = true ∧
    (writing.ctx.cursor < writing.ctx.length ∧ writing.ctx.cursor < writing.cfg.cap ∧
      writing.ctx.txBuffer.read writing.ctx.cursor = some 0xAA) ∧
    (atCursor writing 2 2).ctx.cursor = (atCursor writing 2 2).ctx.length ∧
    (atCursor writing 3 2).ctx.length < (atCursor writing 3 2).ctx.cursor ∧
    ((atCursor writing 31 32).ctx.cursor < 32 ∧ (atCursor writing 31 32).ctx.txBuffer.read 31 = none) ∧
    ((atCursor writing 32 33).ctx.cursor < 33 ∧ cfg.cap ≤ (atCursor writing 32 33).ctx.cursor) := by decide

theorem witness_ControllerReceive :
    reading.EventReady ∧ reading.readable .cursor = true ∧ reading.readable .length = true ∧
    reading.readable .rxTarget = true ∧
    ((atCursor reading 1 2).ctx.cursor < 2 ∧ (atCursor reading 1 2).ctx.cursor < (atCursor reading 1 2).ctx.rxTarget.cap ∧
      reading.ctx.rxTarget.base = .caller 100) ∧
    ((atCursor probing 0 1).ctx.cursor < 1 ∧ (atCursor probing 0 1).ctx.cursor < probing.ctx.rxTarget.cap ∧
      probing.ctx.rxTarget.base = .dummy) ∧
    (atCursor reading 2 2).ctx.length ≤ (atCursor reading 2 2).ctx.cursor ∧
    ((atCursor reading 3 4).ctx.cursor < 4 ∧ reading.ctx.rxTarget.cap ≤ (atCursor reading 3 4).ctx.cursor) := by decide

theorem witness_ReceivedByte :
    (next? (exec (.crDataAck 2) reading)).isSome = true ∧ reading.ctx.rxTarget.addressOf 0 = some 100 ∧
    (next? (exec (.crDataNack 2) probing)).isSome = true ∧ probing.ctx.rxTarget.addressOf 0 = none := by decide

theorem witness_TargetReceive :
    target.EventReady ∧ target.readable .cursor = true ∧ (atCursor target 31 0).ctx.cursor < cfg.cap ∧
    cfg.cap ≤ (atCursor target 32 0).ctx.cursor := by decide

/-- A target that has received two bytes. -/
def received : State := { target with ctx := { target.ctx with txBuffer := [(0, 0x11), (1, 0x22)], cursor := 2, busy := true } }

theorem witness_TargetReceiveEnd :
    joined.EventReady ∧ joined.ctx.onReceive = some .hsOnReceive ∧ received.EventReady ∧
    received.ctx.onReceive = some (.user 2) ∧
    (next? (runBody (received.bodyOf 2) { received with
      run := { received.run with inHandler := true }
      adapter := { received.adapter with
        lastEvent := some (received.cfg.code .trStop), actions := received.adapter.actions ++ [.callOnReceive] } })).isSome =
      true ∧
    s0.ctx.onReceive = none := by decide

theorem witness_ReceiveCallback :
    received.EventReady ∧ received.ctx.onReceive = some (.user 2) ∧ received.vars.read 1 = 0 ∧ (0 : Nat) ≠ 1 ∧
    received.bodyOf 2 = .call (.copyOwned 200 ([0x11, 0x22] : List Byte).length) .done ∧
    ([0x11, 0x22] : List Byte).length ≤ received.cfg.cap ∧
    (∀ i b, ([0x11, 0x22] : List Byte)[i]? = some b → received.ctx.txBuffer.read i = some b) :=
  ⟨by decide, by decide, by decide, by decide, by decide, by decide, holds_of_all _ _ (by decide)⟩

/-- The same with the bytes loaded one by one, and with one byte loaded at the last index of a full buffer. -/
theorem witness_ReceiveCallback_computed :
    received.bodyOf 6 = .loop (.const ([0x11, 0x22] : List Byte).length)
      (.call (.loadOwned 0 (.var 1))
        (.call (.store (.op .add (.const 300) (.var 1)) (.var 0))
          (.call (.assign 1 (.op .add (.var 1) (.const 1))) .done))) .done ∧
    (let s : State := { received with
       userCode := [(2, .call (.loadOwned 5 (.op .sub (.const 32) (.const 1))) .done)]
       ctx := { received.ctx with txBuffer := [(31, 9)] } }
     s.EventReady ∧ s.ctx.onReceive = some (.user 2) ∧
     s.bodyOf 2 = .call (.loadOwned 5 (.op .sub (.const 32) (.const 1))) .done ∧
     s.userValue (.op .sub (.const 32) (.const 1)) < s.cfg.cap ∧
     s.ctx.txBuffer.read (s.userValue (.op .sub (.const 32) (.const 1))) = some 9) := by decide

/-- The state the `onRequest` call of `TT_ADDR_ACK` leaves. -/
def requested (s : State) : State :=
  { s with
    ctx := { s.ctx with busy := true }
    run := { s.run with inHandler := true, requestRun := true, transmitCalled := false }
    adapter := { s.adapter with
      lastEvent := some (s.cfg.code .ttAddrAck), actions := s.adapter.actions ++ [.callOnRequest] } }

theorem witness_AddressedForTransmit :
    target.EventReady ∧ target.ctx.onRequest = some (.user 1) ∧
    ((next? (runBody (target.bodyOf 1) (requested target))).map (fun u => (u.run.transmitCalled,
      decide (u.ctx.cursor < u.ctx.length), decide (u.ctx.cursor < u.cfg.cap), u.ctx.txBuffer.read u.ctx.cursor))) =
      some (true, true, true, some 7) ∧
    ((next? (runBody (target.bodyOf 3) (requested target))).map (fun u => u.run.transmitCalled)) = some false ∧
    s0.ctx.onRequest = none := by decide

theorem witness_AddressedForTransmitFirstByte :
    target.bodyOf 1 = .call (.transmit [7, 8] 2) .done ∧ 1 ≤ 2 ∧ 2 ≤ target.cfg.cap ∧ 2 ≤ ([7, 8] : List Byte).length := by decide

theorem witness_Probe :
    joined.EventReady ∧ joined.ctx.onRequest = some .hsOnRequest ∧ joined.readable .hsCounter = true ∧ 1 ≤ joined.cfg.cap ∧
    joined.control.hsCounter < joined.cfg.maxIndex ∧
    ({ joined with control := { joined.control with hsCounter := 254 } } : State).control.hsCounter < joined.cfg.maxIndex ∧
    joined.cfg.maxIndex ≤ ({ joined with control := { joined.control with hsCounter := 255 } } : State).control.hsCounter := by
  decide

theorem witness_TargetTransmitNext :
    (atCursor writing 1 2).EventReady ∧ (atCursor writing 1 2).ctx.txBuffer.read 1 = some 0xBB ∧
    (atCursor writing 1 2).ctx.cursor < 2 ∧ (atCursor writing 2 2).ctx.length ≤ (atCursor writing 2 2).ctx.cursor ∧
    ((atCursor writing 31 32).ctx.cursor < 32 ∧ (atCursor writing 31 32).ctx.txBuffer.read 31 = none) ∧
    ((atCursor writing 32 33).ctx.cursor < 33 ∧ cfg.cap ≤ (atCursor writing 32 33).ctx.cursor) := by decide

theorem witness_Unrecognised :
    (Instr.crAddrNack, cfg.code .crAddrNack) ∈ errorStatuses cfg ∧ (stops writing [true]).EventReady ∧
    (stops writing [true]).env.stops = true :: [] := by decide

theorem witness_StopCompleteWait :
    (stops writing [false, false, true]).EventReady ∧
    (stops writing [false, false, true]).env.stops = List.replicate (1 + 1) false ++ true :: [] := by decide

theorem witness_AddressByte :
    target.adapter.pendingEvent = none ∧ target.run.inHandler = false ∧ target.wire = .idle ∧
    target.control.ownAddress = some 0x12 ∧ (0x12 : Address) ≠ 0 ∧ target.control.generalCallEnable = true ∧
    target.control.ownAddress ≠ some 0x13 ∧ s0.control.ownAddress = none := by decide

/-- A device at 0x12 whose own address byte 0x42 (a write to 0x21) is on the wire. -/
def addressing : State :=
  { target with
    adapter := { target.adapter with
      dataLatch := 0x42, lastEvent := some (target.cfg.code .start), lastReply := some .ack } }

theorem witness_AddressByteOfAWinner :
    addressing.adapter.pendingEvent = none ∧ addressing.run.inHandler = false ∧ addressing.wire = .addressing false ∧
    addressing.control.ownAddress = some 0x12 ∧ (0x12 : Address) ≠ 0 ∧ addressing.control.generalCallEnable = true ∧
    addressing.control.ownAddress ≠ some 0x13 ∧ addrByte 0x21 false = addressing.adapter.dataLatch ∧
    (∀ a ∈ [(0x12 : Address), 0, 0x13], addrByte a false ≠ addressing.adapter.dataLatch) ∧
    addrByte 0x12 true ≠ addressing.adapter.dataLatch ∧
    addrByte 0x21 true = ({ addressing with adapter := { addressing.adapter with dataLatch := 0x43 } } : State).adapter.dataLatch := by
  decide

theorem witness_WrongContext :
    State.reset.control.initialised = false ∧ Instr.handshake.format = .hostOp ∧ Instr.handshake ≠ .init ∧
    requesting.control.initialised = true ∧ requesting.run.inHandler = true := by decide

theorem witness_Arguments :
    s0.CallReady ∧ 0x80 ≤ (0x80 : Byte).toNat ∧ (0x7F : Byte).toNat ≤ 0x7F ∧ s0.cfg.cap < 33 ∧ s0.cfg.maxIndex < 256 ∧
    requesting.RequestReady ∧ s0.AnyCallReady ∧ requesting.AnyCallReady ∧ s0.cfg.joiners ≤ 2 ∧
    s0.cfg.cap < (List.replicate 33 (1 : Byte)).length ∧ s0.run.inHandler = false ∧
    (let receiving : State := { target with run := { target.run with inHandler := true } }
     receiving.AnyCallReady ∧ receiving.run.inHandler = true ∧ receiving.run.requestRun = false) := by decide

theorem witness_Init : requesting.run.inHandler = true ∧ State.reset.run.phase = .idle := by decide

theorem witness_ConfigureAddress : s0.CallReady ∧ s0.Quiet ∧ (0x12 : Byte).toNat ≤ 0x7F := by decide

theorem witness_OneStep :
    s0.AnyCallReady ∧ 1 < s0.cfg.joiners ∧ writing.written.lastError = true ∧ s0.written.lastError = false := by decide

theorem witness_Transmit :
    requesting.RequestReady ∧ 1 ≤ 32 ∧ 32 ≤ requesting.cfg.cap ∧ 32 ≤ (List.replicate 32 (5 : Byte)).length := by decide

theorem witness_ZeroLength : writing.CallReady ∧ writing.ctx.busy = true := by decide

/-- A write at W1 on an idle bus, and a read at RD1. -/
def atW1 : State := samples (atPhase s0 (.write ⟨0x20, [1, 2], 2, true⟩ .w1)) [⟨true, true⟩, ⟨true, true⟩]

def atRd1 : State := samples (atPhase s0 (.read ⟨0x20, .caller 100, 3⟩ .rd1 .user)) [⟨true, true⟩, ⟨true, true⟩]

theorem witness_WriteArms :
    s0.CallReady ∧ 1 ≤ 32 ∧ 32 ≤ s0.cfg.cap ∧ atW1.Quiet ∧ atW1.run.phase = .write ⟨0x20, [1, 2], 2, true⟩ .w1 ∧
    atW1.ctx.busy = false ∧ atW1.env.lines = List.replicate atW1.cfg.idleThreshold ⟨true, true⟩ ++ [] := by decide

theorem witness_ReadArms :
    s0.CallReady ∧ 255 ≤ s0.cfg.maxIndex ∧ atRd1.Quiet ∧ atRd1.run.phase = .read ⟨0x20, .caller 100, 3⟩ .rd1 .user ∧
    atRd1.ctx.busy = false ∧ atRd1.env.lines = List.replicate atRd1.cfg.idleThreshold ⟨true, true⟩ ++ [] := by decide

theorem witness_SpinWaits :
    atW1.Quiet ∧ (atPhase s0 (.write ⟨0x20, [1], 1, false⟩ .w9)).Quiet ∧ atRd1.Quiet ∧
    (atPhase s0 (.read ⟨0x20, .caller 100, 3⟩ .rd9 .user)).Quiet ∧
    (atPhase s0 (.read ⟨0x11, .dummy, 1⟩ .rd9 (.handshake 1))).Quiet := by decide

theorem witness_Respin :
    (atPhase s0 (.write ⟨0x20, [1], 1, true⟩ (.w7 2))).Quiet ∧ s0.cfg.idlePolicy = .respin ∧ 1 < 2 ∧
    (⟨true, false⟩ : Lines) ≠ ⟨true, true⟩ ∧
    (samples s0 [⟨true, true⟩, ⟨true, false⟩, ⟨true, true⟩, ⟨true, true⟩]).env.lines =
      List.replicate 1 ⟨true, true⟩ ++ ⟨true, false⟩ :: (List.replicate s0.cfg.idleThreshold ⟨true, true⟩ ++ []) ∧
    (∃ w, (fun n => Phase.write ⟨0x20, [1], 1, true⟩ (.w7 n)) = (fun n => .write w (.w7 n))) :=
  ⟨by decide, by decide, by decide, by decide, by decide, _, rfl⟩

theorem witness_Abort :
    let s := samples (atPhase { s0 with cfg := { cfg with idlePolicy := .abort } } (.write ⟨0x20, [1], 1, true⟩ (.w7 1)))
      [⟨false, true⟩]
    s.Quiet ∧ s.cfg.idlePolicy = .abort ∧ s.env.lines = ⟨false, true⟩ :: [] ∧
    s.run.phase = .write ⟨0x20, [1], 1, true⟩ (.w7 (0 + 1)) := by decide

theorem witness_Handshake :
    s0.cfg.Legal ∧ s0.CallReady ∧ (atPhase s0 (.hsLoop (1 + 1))).Quiet ∧ 1 < s0.cfg.joiners ∧
    (atPhase s0 (.hsLoop 0)).Quiet := by decide

theorem witness_FreeProbe :
    let s := { atPhase s0 (.handshake 1 .h2) with
      ctx := { s0.ctx with lastError := .code 0x48 }, written := { s0.written with lastError := true } }
    s.Quiet ∧ 1 < s.cfg.joiners ∧ s.run.phase = .handshake 1 .h2 ∧ s.written.lastError = true ∧
    s.ctx.lastError = .code (s.cfg.code .crAddrNack) := by decide

theorem witness_OtherProbeOutcomes :
    (atPhase s0 (.handshake 1 (.h3 .noError))).Quiet ∧ (atPhase s0 (.handshake 1 (.h3 (.code 0x38)))).Quiet ∧
    LastError.code 0x38 = .code (cfg.code .arbLost) ∧ (atPhase s0 (.handshake 1 (.h3 (.code 0x00)))).Quiet ∧
    (0x00 : Byte) ≠ cfg.code .arbLost ∧ (0x00 : Byte) ≠ cfg.code .crAddrNack ∧ cfg.otherError = .fault ∧
    ({ cfg with otherError := .retrySame } : Config).otherError = .retrySame := by decide

theorem witness_HandshakeWait :
    joined.Quiet ∧ joined.readable .hsCounter = true ∧ joined.run.phase = .handshake 1 .h7 ∧
    (joined.cfg.reachTest = .ge ∧ joined.control.hsCounter < 1) ∧
    (joined.cfg.reachTest = .ge ∧ 1 ≤ ({ joined with control := { joined.control with hsCounter := 1 } } : State).control.hsCounter) ∧
    (let e : State := { joined with cfg := { cfg with reachTest := .eq }, control := { joined.control with hsCounter := 1 } }
     e.cfg.reachTest = .eq ∧ e.control.hsCounter = 1) ∧
    (let e : State := { joined with cfg := { cfg with reachTest := .eq }, control := { joined.control with hsCounter := 2 } }
     e.cfg.reachTest = .eq ∧ e.control.hsCounter ≠ 1) := by decide

theorem witness_HandlerRun : Instr.ctDataAck.format = .status ∧ (next? (exec .ctDataAck writing)).isSome = true := by decide

theorem inv_of_idle {s : State} (h : s.cfg = cfg) (hm : s.memory = []) (ht : s.ctx.txBuffer = []) (hv : s.vars = [])
    (hc : s.ctx.cursor ≤ 255 ∧ s.ctx.length ≤ 255 ∧ s.control.hsCounter ≤ 255)
    (hr : s.run.inHandler = false ∧ s.run.stopWait = false ∧ s.run.requestRun = false)
    (hi : s.control.initialised = true) (hp : s.run.phase.Sound s.cfg) : s.Inv where
  legal := h ▸ legal
  memory := by rw [hm]; exact List.Pairwise.nil
  txBuffer := by rw [ht]; exact List.Pairwise.nil
  txBound := by rw [ht]; intro c hc; cases hc
  vars := by rw [hv]; exact ⟨List.Pairwise.nil, nofun⟩
  cursor := by rw [h]; exact hc.1
  length := by rw [h]; exact hc.2.1
  counter := by rw [h]; exact hc.2.2
  handler := by rw [hr.1, hr.2.1]
  request := hr.2.2
  stopWait := by rw [hr.2.1]; intro h; cases h
  passive := by rw [hi]; intro h; cases h
  phase := hp

/-- In the middle of a write. -/
theorem witness_StepKeeps : atW1.Inv ∧ (next? (step atW1)).isSome = true :=
  ⟨inv_of_idle rfl rfl rfl rfl (by decide) (by decide) rfl
    ⟨(by decide : 1 ≤ 2), (by decide : 2 ≤ 32), (by decide : 2 ≤ 2), by decide, nofun, nofun⟩, by decide⟩

theorem witness_HostMicroSteps : atW1.Quiet ∧ atW1.run.phase ≠ .idle ∧ atW1.readable .hsCounter = true ∧
    (∀ i e, atW1.run.phase ≠ .handshake i (.h3 e)) :=
  ⟨by decide, by decide, by decide, fun _ _ h => by cases h⟩

theorem txHolds : writing.TxHolds :=
  ⟨by decide, fun i hi => by
    have : i = 0 ∨ i = 1 := by have : i < 2 := hi; omega
    rcases this with rfl | rfl <;> rfl⟩

/-- A write whose start is awaited; a read whose last byte is awaited. -/
theorem witness_Contract :
    writing.ControllerInv ∧ Status.start ∈ writing.legalNext ∧ Status.start.addressesTarget = false :=
  ⟨⟨legal, by decide, by decide, by decide, by decide, by decide, by decide, by
    have hw : writing.wire = .idle := by decide
    rw [hw]
    exact ⟨by decide, by decide, txHolds⟩⟩, by decide, by decide⟩

/-- A read at its last byte. -/
def lastByte : State :=
  { atCursor reading 2 2 with
    adapter := { reading.adapter with
      dataLatch := 0x41, lastEvent := some (cfg.code .crDataAck), lastReply := some .nack } }

theorem witness_Contract_read :
    lastByte.ControllerInv ∧ Status.crDataNack ∈ lastByte.legalNext ∧ Status.arbLost ∈ lastByte.legalNext :=
  ⟨⟨legal, by decide, by decide, by decide, by decide, by decide, by decide, by
    have hw : lastByte.wire = .crLast := by decide
    rw [hw]
    exact ⟨by decide, rfl⟩⟩, by decide, by decide⟩

theorem witness_AcknowledgedWrite :
    writing.EventReady ∧ ([0xAA, 0xBB] : List Byte) ≠ [] ∧ writing.ctx.length = ([0xAA, 0xBB] : List Byte).length ∧
    writing.ctx.cursor = 0 ∧ ([0xAA, 0xBB] : List Byte).length ≤ writing.cfg.cap ∧ writing.readable .cursor = true ∧
    writing.readable .length = true ∧ writing.readable .addressAndDirection = true ∧
    (∀ j b, ([0xAA, 0xBB] : List Byte)[j]? = some b → writing.ctx.txBuffer.read j = some b) :=
  ⟨by decide, by decide, by decide, by decide, by decide, by decide, by decide, by decide, holds_of_all _ _ (by decide)⟩

theorem witness_ReadStores :
    reading.EventReady ∧ reading.ctx.rxTarget = ⟨.caller 100, ([1, 2] : List Byte).length + 1⟩ ∧
    reading.ctx.length = ([1, 2] : List Byte).length ∧ reading.ctx.cursor = 0 ∧ reading.readable .cursor = true ∧
    reading.readable .length = true ∧ reading.readable .rxTarget = true ∧
    reading.readable .addressAndDirection = true := by decide

theorem witness_TargetReceiveAll : target.EventReady ∧ (List.replicate 32 (1 : Byte)).length ≤ target.cfg.cap := by decide

theorem witness_TargetTransmitAll :
    target.EventReady ∧ target.ctx.onRequest = some (.user 1) ∧ target.bodyOf 1 = .call (.transmit ([7] ++ [8]) (([7] : List Byte).length + 1)) .done ∧
    ([7] : List Byte).length + 1 ≤ target.cfg.cap ∧ Instr.ttDataNack ∈ [Instr.ttDataNack, .ttLastData] := by decide

/-- PR2: device A writes two bytes to device B at 0x12. -/
theorem witness_WriteArrives :
    let a : State := { writing with ctx := { writing.ctx with addressAndDirection := addrByte 0x12 false } }
    (0x12 : Address) ≠ 0 ∧ a.cfg.Legal ∧ a.EventReady ∧ a.wire = .idle ∧ a.adapter.armed = true ∧
    a.ctx.addressAndDirection = addrByte 0x12 false ∧ a.ctx.cursor = 0 ∧ a.ctx.length = ([0xAA, 0xBB] : List Byte).length ∧
    a.readable .cursor = true ∧ a.readable .length = true ∧ a.readable .addressAndDirection = true ∧
    target.EventReady ∧ target.wire = .idle ∧ target.control.ownAddress = some 0x12 ∧
    target.ctx.onReceive = some (.user 2) ∧ target.bodyOf 2 = .call (.copyOwned 200 ([0xAA, 0xBB] : List Byte).length) .done := by decide

/-- PR2: device A reads two bytes from device B. -/
theorem witness_ReadBrings :
    let a : State := { reading with
      ctx := { reading.ctx with addressAndDirection := addrByte 0x12 true, length := 1, rxTarget := ⟨.caller 100, 2⟩ } }
    1 ≤ 2 ∧ 2 ≤ ([7, 8] : List Byte).length ∧ a.cfg.Legal ∧ a.EventReady ∧ a.wire = .idle ∧ a.adapter.armed = true ∧
    a.ctx.addressAndDirection = addrByte 0x12 true ∧ a.ctx.cursor = 0 ∧ a.ctx.length = 2 - 1 ∧
    a.ctx.rxTarget = ⟨.caller 100, 2⟩ ∧ a.readable .rxTarget = true ∧ target.ctx.onRequest = some (.user 1) ∧
    target.bodyOf 1 = .call (.transmit [7, 8] ([7, 8] : List Byte).length) .done := by decide

/-- A target-transmit transfer with its second and last byte to come, and one that has sent its last. -/
def sending (reply : Reply) (cursor : Nat) : State :=
  { atCursor writing cursor 2 with
    adapter := { s0.adapter with lastEvent := some (cfg.code .ttAddrAck), lastReply := some reply } }

theorem witness_Contract_target :
    (sending .ack 1).TargetTransmitInv ∧ Status.ttDataAck ∈ (sending .ack 1).legalNext ∧
    Status.ttDataNack ∈ (sending .ack 1).legalNext ∧
    (sending .nack 2).TargetTransmitInv ∧ Status.ttLastData ∈ (sending .nack 2).legalNext ∧
    Status.busError ∈ (sending .nack 2).legalNext := by
  refine ⟨⟨legal, by decide, by decide, by decide, by decide, txHolds, ?_⟩, by decide, by decide,
    ⟨legal, by decide, by decide, by decide, by decide, txHolds, ?_⟩, by decide, by decide⟩
  · have hw : (sending .ack 1).wire = .ttMore := by decide
    rw [hw]
    decide
  · have hw : (sending .nack 2).wire = .ttLast := by decide
    rw [hw]
    decide

theorem witness_Contract_entry :
    target.EventReady ∧ (next? (exec .ttAddrAck target)).isSome = true ∧
    (next? (exec .ttArbLostAddrAck target)).isSome = true := by decide

/-- A device that has just entered `handshake()`. -/
def fresh : State :=
  { s0 with written := { s0.written with hsCounter := true }, run := { s0.run with phase := .hsLoop 2 } }

/-- Where each device of a lobby stands: its phase, the identity it holds, its counter. -/
def standing (o : LobbyOut) : Option (List (Phase × Option Nat × Nat)) :=
  match o with
  | .next js => some (js.map fun s => (s.run.phase, s.held, s.control.hsCounter))
  | .fault _ => none
  | .refused _ => none

def turns (ps : List Nat) : List Turn := ps.map (⟨·, false⟩)

/-- R234 with `K = 2`, on a bus that is contended once: device 0 claims 1 and device 1 claims 0, counting up device 0. -/
theorem test_lobby :
    standing (lobbyRun (turns [0, 0, 0, 0, 0, 0, 0] ++ ⟨1, true⟩ :: turns [1, 1, 1, 1, 1, 1, 1, 1, 1, 1, 1, 1, 0]) [fresh, fresh]) =
      some [(.idle, some 1, 1), (.handshake 0 .h7, some 0, 0)] := by decide

/-- R233, R309: where both probes of identity 1 end before either has claimed it, both claim it. -/
theorem test_two_devices_claim_one_identity :
    standing (lobbyRun (turns [0, 1, 0, 0, 0, 1, 1, 1]) [fresh, fresh]) =
      some [(.handshake 1 .h4Call, some 1, 0), (.handshake 1 .h4Call, some 1, 0)] := by decide

theorem fresh_is_fresh : fresh.Fresh cfg := ⟨rfl, by decide, rfl, rfl, rfl, by decide⟩

/-- The premises of P4, with one turn of each device (their probes of identity 1 apart). -/
theorem witness_HandshakeAssigns :
    cfg.Legal ∧ [fresh, fresh].length = cfg.joiners ∧ cfg.joiners ≤ cfg.maxIndex + 1 ∧ 2 ≤ [fresh, fresh].length ∧
    (∀ s ∈ [fresh, fresh], s.Fresh cfg) ∧
    runApart State.claimsNext (turns [0, 0]) [fresh, fresh] ∧ runApart State.settling (turns [0, 0]) [fresh, fresh] := by
  refine ⟨legal, rfl, by decide, by decide, by simp [fresh_is_fresh], ?_, ?_⟩ <;>
  · refine ⟨?_, fun js' h => ⟨?_, fun _ _ => trivial⟩⟩
    · intro s i _ _ q u hq hu
      rcases q with _ | _ | q
      · exact absurd rfl hq
      · obtain rfl : fresh = u := by simpa using hu
        show (none : Option Nat) ≠ some i
        nofun
      · simp at hu
    · obtain rfl := Host.Outcome.next.inj h
      intro s i hs hi
      obtain rfl : _ = s := by simpa using hs
      cases hi

/-- PR5, in the small: of three devices the third comes when 1 and 0 are claimed. -/
theorem witness_LateDevice :
    let owner (address : Address) : State :=
      { joined with control := { joined.control with ownAddress := some address } }
    let js := [owner 0x11, owner 0x10, fresh]
    js[2]? = some fresh ∧ fresh.cfg.Legal ∧ fresh.run.phase = .hsLoop 2 ∧ 2 ≤ fresh.cfg.joiners ∧
    (owner 0x11).control.ownAddress = some (identityAddress cfg 1) ∧
    (owner 0x10).control.ownAddress = some (identityAddress cfg 0) ∧ (owner 0x11).CountsProbes ∧ (owner 0x10).CountsProbes ∧
    identityAddress cfg 1 ≠ identityAddress cfg 0 := by decide

theorem witness_ProbeAsOneStep :
    [joined, fresh][1]? = some fresh ∧ fresh.run.phase = .hsLoop (1 + 1) ∧ [joined, fresh][0]? = some joined ∧ (0 : Nat) ≠ 1 ∧
    joined.control.ownAddress = some (identityAddress fresh.cfg 1) ∧ joined.CountsProbes ∧
    (let t : State := { target with control := { target.control with ownAddress := some 0x11 } }
     t.EventReady ∧ t.ctx.onRequest = some (.user 1) ∧ t.bodyOf 1 = .call (.transmit [7, 8] 2) .done ∧
     t.control.ownAddress = some (identityAddress fresh.cfg 1)) ∧
    fresh.control.ownAddress ≠ some (identityAddress fresh.cfg 1) := by decide

/-- A lobby in which one device is about to claim identity 1 and the other, which has found it owned, probes identity 0. -/
theorem witness_LobbyTurn :
    let claiming : State := { fresh with run := { fresh.run with phase := .handshake 1 .h4Own } }
    let passed : State := { fresh with run := { fresh.run with phase := .hsLoop 1 } }
    LobbyInv cfg [claiming, passed] ∧ turnApart State.claimsNext [claiming, passed] ⟨1, false⟩ ∧
    (standing (lobbyTurn [claiming, passed] ⟨1, false⟩)).isSome = true := by
  intro claiming passed
  refine ⟨⟨?_, ?_⟩, ?_, by decide⟩
  · intro s hs
    rcases List.mem_cons.mp hs with rfl | hs
    · exact ⟨rfl, (by decide : 1 < 2), by decide⟩
    · obtain rfl : s = passed := by simpa using hs
      exact ⟨rfl, (by decide : 1 ≤ 2), by decide⟩
  · intro p q s u i hpq hs hu h
    have hp : passed.stake = none := by decide
    rcases p with _ | _ | p <;> rcases q with _ | _ | q <;> simp at hpq hs hu
    · subst hu; rw [hp]; nofun
    · subst hs; rw [hp] at h; cases h
  · intro s i hs hi q u hq hu
    obtain rfl : passed = s := by simpa using hs
    obtain rfl : 0 = i := by simpa [State.candidate, passed] using hi
    rcases q with _ | _ | q
    · obtain rfl : claiming = u := by simpa using hu
      decide
    · exact absurd rfl hq
    · simp at hu

theorem witness_ProbeOutcomes :
    let s := stops probing [true]
    s.EventReady ∧ s.ctx.rxTarget = ⟨.dummy, 1⟩ ∧ s.ctx.length = 0 ∧ s.ctx.cursor = 0 ∧ s.ctx.lastError = .noError ∧
    s.readable .cursor = true ∧ s.readable .length = true ∧ s.readable .rxTarget = true ∧
    s.readable .addressAndDirection = true ∧ s.env.stops = true :: [] := by decide

end Sys2Proof.Tests
end

section
/-! Proofs for spec/41_transfer_state_machine.md: the Handler runs that only reply (R147) and those that set registers of
the context and reply (R146, R150 to R153). In both the rule ends in a reply to the state it has changed; the first lemmas
say what such a run leaves, and each statement then says which state that is. -/

namespace Sys2Proof.Machine

theorem deliverable_of_eventReady {s : State} (h : s.EventReady) : s.deliverable = true :=
  (deliverable_iff s).mpr ⟨h.1, h.2.1⟩

/-- Reading a register does not depend on entry into the Handler, which writes none of them (R260). -/
@[simp] theorem enterHandler_readable (s : State) (raw : Byte) (f : Field) :
    (s.enterHandler raw).readable f = s.readable f := by
  cases f <;> rfl

/-- The reply by exhaustion is one command and its record, chosen by `cursor < length` (R147). -/
theorem replyByExhaustion_eq (s : State) :
    s.replyByExhaustion = (s.emit (replyWhile (s.ctx.cursor < s.ctx.length)).command).setReply
      (replyWhile (s.ctx.cursor < s.ctx.length)) := by
  by_cases h : s.ctx.cursor < s.ctx.length
  · simp [State.replyByExhaustion, State.moreToCome, replyWhile, h, State.requestAck, Reply.command]
  · simp [State.replyByExhaustion, State.moreToCome, replyWhile, h, State.requestNack, Reply.command]

/-- A Handler run whose rule turns `s` into `t` and replies `r` leaves `t`, handled: nothing is left of entry and return
but the adapter's record of the status and the reply (R141, R260, R261). -/
theorem exec_eq_handled {i : Instr} {s t : State} {r : Reply} (hi : i.format = .status) (hs : s.EventReady)
    (ht : t.run.stopWait = false)
    (hrule : ruleOf s.cfg i (s.enterHandler (rawOf s.cfg i)) =
      .next (((t.enterHandler (rawOf s.cfg i)).emit r.command).setReply r)) :
    exec i s = .next (t.handled (rawOf s.cfg i) r [r.command]) := by
  rw [exec_status hi, takeEvent_eq (deliverable_of_eventReady hs), hrule, andThen_next, leaveHandler_eq (by simpa using ht)]
  rfl

/-- A status whose rule is `TrAddressed` resets `cursor`, sets `busy` and acknowledges (R164). -/
theorem exec_eq_handled_of_trAddressed {i : Instr} {s : State} (hi : i.format = .status)
    (hrule : ruleOf s.cfg i = trAddressed) (hs : s.EventReady) :
    exec i s = .next ((s.setCursor 0).setArmed.handled (rawOf s.cfg i) .ack [.ack]) :=
  exec_eq_handled hi hs hs.2.2 (by rw [hrule]; rfl)

/-- Settles O10: the rule of `ARB_LOST` records the code, clears `busy` and acknowledges. -/
theorem arbitrationLossIsRecordedAndEndsTheTransfer : Obligations.ArbitrationLossIsRecordedAndEndsTheTransfer := by
  intro s hs
  exact exec_eq_handled (t := (s.recordError (s.cfg.code .arbLost)).endTransfer) (r := .ack) rfl hs hs.2.2 rfl

/-- Settles O11: both registers can be read, so the rule is the reply by exhaustion and nothing else. -/
theorem controllerReceiveAddressAckOnlyReplies : Obligations.ControllerReceiveAddressAckOnlyReplies := by
  intro s hs hcursor hlength
  refine exec_eq_handled (i := .crAddrAck) rfl hs hs.2.2 (crAddrAckRule_eq_next.mpr ⟨?_, ?_, ?_⟩)
  · rwa [enterHandler_readable]
  · rwa [enterHandler_readable]
  · exact (replyByExhaustion_eq _).symm

/-- Settles O15: each of the four statuses selects the rule `TrAddressed`. -/
theorem addressedForReceiveArmsTheTarget : Obligations.AddressedForReceiveArmsTheTarget := by
  intro i x s hix hs
  simp only [List.mem_cons, Prod.mk.injEq, List.not_mem_nil, or_false] at hix
  obtain ⟨rfl, rfl⟩ | ⟨rfl, rfl⟩ | ⟨rfl, rfl⟩ | ⟨rfl, rfl⟩ := hix
  · exact exec_eq_handled_of_trAddressed (i := .trAddrAck) rfl rfl hs
  · exact exec_eq_handled_of_trAddressed (i := .trArbLostAddrAck) rfl rfl hs
  · exact exec_eq_handled_of_trAddressed (i := .trGcallAck) rfl rfl hs
  · exact exec_eq_handled_of_trAddressed (i := .trArbLostGcallAck) rfl rfl hs

end Sys2Proof.Machine
end

section
/-! Proofs for spec/30_encoding.md: a message decodes to what was encoded, and what was decoded encodes to the bytes read.
One lemma says what a status code decodes to, with and without a received byte; the parts of a call are read by the laws of
Laws/Decode.lean. -/

namespace Sys2Proof

/-- The code of a status that carries no byte is the whole message (R90). -/
theorem decode_code {c : Config} (h : c.Legal) {x : Status} (hx : x.carriesLatch = false) (rest : List Byte) :
    decode c .status (c.code x :: rest) = .ok (x.instr 0, rest) := by
  simp [decode, decodeStatus, Config.symbol_code h, hx]

/-- The code of a status that carries a byte is followed by that byte (R104). -/
theorem decode_code_latch {c : Config} (h : c.Legal) {x : Status} (hx : x.carriesLatch = true) (latch : Byte)
    (rest : List Byte) : decode c .status (c.code x :: latch :: rest) = .ok (x.instr latch, rest) := by
  simp [decode, decodeStatus, Config.symbol_code h, hx]

/-- The instruction of a status that carries no byte does not depend on the byte. -/
theorem Status.instr_eq_of_no_latch {x : Status} (h : x.carriesLatch = false) (latch : Byte) :
    x.instr latch = x.instr 0 := by
  cases x <;> cases h <;> rfl

/-- A byte that is no symbol's code is `OTHER_STATUS` (R99). -/
theorem decode_otherStatus {c : Config} {b : Byte} (h : c.symbol? b = none) (rest : List Byte) :
    decode c .status (b :: rest) = .ok (.otherStatus b, rest) := by
  simp [decode, decodeStatus, h]

theorem decode_addrByte (c : Config) (a : Address) (read : Bool) (rest : List Byte) :
    decode c .addrByte (addrByte a read :: rest) =
      .ok (if read then .addrByteRead a else .addrByteWrite a, rest) := by
  simp only [decode, decodeAddrByte, addrByte_address, addrByte_dir]
  cases read <;> rfl

/-- What follows the operation number is read by the operation's own parts. -/
theorem decode_write (c : Config) (address : Byte) (data : List Byte) (length : Nat) (blocking : Bool) (rest : List Byte)
    (h : bufferOk data length = true) :
    decode c .hostOp ([1, address, boolByte blocking] ++ bufferBytes data length ++ rest) =
      .ok (.write address data length blocking, rest) := by
  simp [decode, decodeHostOp, takeByte, takeBool_boolByte, takeBuffer_bufferBytes _ _ _ h]

theorem decode_read (c : Config) (address : Byte) (destination length : Nat) (rest : List Byte)
    (hd : destination < 65536) (hl : length < 65536) :
    decode c .hostOp ([2, address] ++ wordBytes destination ++ wordBytes length ++ rest) =
      .ok (.read address destination length, rest) := by
  simp [decode, decodeHostOp, takeByte, takeWord_wordBytes _ _ hd, takeWord_wordBytes _ _ hl]

theorem decode_transmit (c : Config) (data : List Byte) (length : Nat) (rest : List Byte)
    (h : bufferOk data length = true) :
    decode c .hostOp ([3] ++ bufferBytes data length ++ rest) = .ok (.transmit data length, rest) := by
  simp [decode, decodeHostOp, takeBuffer_bufferBytes _ _ _ h]

/-- An object of a size the encoding can carry is a buffer of its own length (R64). -/
theorem bufferOk_length {data : List Byte} (h : fitsWord data.length = true) : bufferOk data data.length = true := by
  simp [bufferOk, h]

/-- Settles O1, by the cases of the instruction: a status by its code, an address byte by its two fields, a call by the
parts of its operands. -/
theorem decodeOfEncodeGivesTheInstruction : Obligations.DecodeOfEncodeGivesTheInstruction := by
  intro c i rest hc hi
  cases i with
  | crDataAck latch => exact decode_code_latch hc (x := .crDataAck) rfl latch rest
  | crDataNack latch => exact decode_code_latch hc (x := .crDataNack) rfl latch rest
  | trDataAck latch => exact decode_code_latch hc (x := .trDataAck) rfl latch rest
  | trGcallDataAck latch => exact decode_code_latch hc (x := .trGcallDataAck) rfl latch rest
  | busError => exact decode_code hc (x := .busError) rfl rest
  | start => exact decode_code hc (x := .start) rfl rest
  | repStart => exact decode_code hc (x := .repStart) rfl rest
  | ctAddrAck => exact decode_code hc (x := .ctAddrAck) rfl rest
  | ctAddrNack => exact decode_code hc (x := .ctAddrNack) rfl rest
  | ctDataAck => exact decode_code hc (x := .ctDataAck) rfl rest
  | ctDataNack => exact decode_code hc (x := .ctDataNack) rfl rest
  | arbLost => exact decode_code hc (x := .arbLost) rfl rest
  | crAddrAck => exact decode_code hc (x := .crAddrAck) rfl rest
  | crAddrNack => exact decode_code hc (x := .crAddrNack) rfl rest
  | trAddrAck => exact decode_code hc (x := .trAddrAck) rfl rest
  | trArbLostAddrAck => exact decode_code hc (x := .trArbLostAddrAck) rfl rest
  | trGcallAck => exact decode_code hc (x := .trGcallAck) rfl rest
  | trArbLostGcallAck => exact decode_code hc (x := .trArbLostGcallAck) rfl rest
  | trDataNack => exact decode_code hc (x := .trDataNack) rfl rest
  | trGcallDataNack => exact decode_code hc (x := .trGcallDataNack) rfl rest
  | trStop => exact decode_code hc (x := .trStop) rfl rest
  | ttAddrAck => exact decode_code hc (x := .ttAddrAck) rfl rest
  | ttArbLostAddrAck => exact decode_code hc (x := .ttArbLostAddrAck) rfl rest
  | ttDataAck => exact decode_code hc (x := .ttDataAck) rfl rest
  | ttDataNack => exact decode_code hc (x := .ttDataNack) rfl rest
  | ttLastData => exact decode_code hc (x := .ttLastData) rfl rest
  | noInfo => exact decode_code hc (x := .noInfo) rfl rest
  | otherStatus b =>
    refine decode_otherStatus ?_ rest
    rw [Instr.wellFormed, Config.contains_codes hc] at hi
    simpa using hi
  | addrByteWrite a => exact decode_addrByte c a false rest
  | addrByteRead a => exact decode_addrByte c a true rest
  | configureAddress a enabled =>
    simp [decode, Instr.format, encode, Instr.expand, decodeHostOp, takeByte, takeBool_boolByte]
  | write a data length blocking => exact decode_write c a data length blocking rest hi
  | read a destination length =>
    simp only [Instr.wellFormed, fitsWord, Bool.and_eq_true, decide_eq_true_eq] at hi
    exact decode_read c a destination length rest hi.1 hi.2
  | transmit data length => exact decode_transmit c data length rest hi
  | setOnRequest n | setOnReceive n | addressForIdentity n =>
    have hn : n < 65536 := by simpa [Instr.wellFormed, fitsWord] using hi
    simp [decode, Instr.format, encode, Instr.expand, decodeHostOp, takeWord_wordBytes _ _ hn]
  | lastError | ownedBuffer | handshake | init => rfl
  | writeObject a obj blocking =>
    obtain ⟨-, hobj⟩ := Bool.and_eq_true_iff.mp hi
    exact decode_write c a obj obj.length blocking rest (bufferOk_length hobj)
  | readObject a destination size =>
    simp only [Instr.wellFormed, fitsWord, Bool.and_eq_true, decide_eq_true_eq] at hi
    exact decode_read c a destination size rest hi.2 hi.1.2
  | transmitObject obj =>
    obtain ⟨-, hobj⟩ := Bool.and_eq_true_iff.mp hi
    exact decode_transmit c obj obj.length rest (bufferOk_length hobj)

/-! ### From the bytes to the instruction and back -/

/-- What reading one message of format `f` gives: an instruction of that format, well formed, that is its own expansion and
encodes to the bytes read. -/
def ReadsBack (c : Config) (f : Format) (bytes : List Byte) (i : Instr) (rest : List Byte) : Prop :=
  i.wellFormed c = true ∧ i.format = f ∧ i.expand = i ∧ encode c i ++ rest = bytes

/-- The instruction of a symbol reads back from its code and, where it carries one, its byte. -/
theorem readsBack_instr (c : Config) (x : Status) (latch : Byte) (rest : List Byte) :
    ReadsBack c .status (if x.carriesLatch then c.code x :: latch :: rest else c.code x :: rest) (x.instr latch) rest := by
  cases x <;> exact ⟨rfl, rfl, rfl, rfl⟩

theorem decodeStatus_readsBack {c : Config} (hc : c.Legal) {bytes rest : List Byte} {i : Instr}
    (h : decodeStatus c bytes = .ok (i, rest)) : ReadsBack c .status bytes i rest := by
  match bytes, h with
  | b :: bytes, h =>
    simp only [decodeStatus] at h
    split at h
    next hs =>
      cases h
      have hb : c.statusCodes.contains b = false := by rw [Config.contains_codes hc, hs]; rfl
      exact ⟨by simp only [Instr.wellFormed, hb, Bool.not_false], rfl, rfl, rfl⟩
    next x hs =>
      obtain rfl := Config.symbol_eq_some hs
      split_ifs at h with hx
      · match bytes, h with
        | latch :: bytes, h =>
          cases h
          simpa [hx] using readsBack_instr c x latch rest
      · cases h
        simpa [hx] using readsBack_instr c x 0 rest

theorem decodeAddrByte_readsBack {c : Config} {bytes rest : List Byte} {i : Instr}
    (h : decodeAddrByte bytes = .ok (i, rest)) : ReadsBack c .addrByte bytes i rest := by
  match bytes, h with
  | b :: bytes, h =>
    have hb := addrByte_surj b
    simp only [decodeAddrByte] at h
    split_ifs at h with hd
    · cases h
      rw [hd] at hb
      exact ⟨rfl, rfl, rfl, by rw [encode, hb]; rfl⟩
    · cases h
      rw [Bool.not_eq_true] at hd
      rw [hd] at hb
      exact ⟨rfl, rfl, rfl, by rw [encode, hb]; rfl⟩

/-- The operand bytes of each call, read off in the order its arm of the decoder takes them. -/
theorem decodeHostOp_readsBack {c : Config} {bytes rest : List Byte} {i : Instr}
    (h : decodeHostOp bytes = .ok (i, rest)) : ReadsBack c .hostOp bytes i rest := by
  match bytes, h with
  | op :: bytes, h =>
    have hop {n : Nat} (hn : op.toNat = n) : op = BitVec.ofNat 8 n := by rw [← hn, BitVec.ofNat_toNat, BitVec.setWidth_eq]
    simp only [decodeHostOp] at h
    split at h
    case h_1 hn =>
      obtain ⟨a, r1, h1, h⟩ := parseThen_eq_ok.mp h
      obtain ⟨b, r2, h2, h⟩ := parseThen_eq_ok.mp h
      cases h
      rw [hop hn, takeByte_eq_ok h1, takeBool_eq_ok h2]
      exact ⟨rfl, rfl, rfl, rfl⟩
    case h_2 hn =>
      obtain ⟨a, r1, h1, h⟩ := parseThen_eq_ok.mp h
      obtain ⟨b, r2, h2, h⟩ := parseThen_eq_ok.mp h
      obtain ⟨⟨data, length⟩, r3, h3, h⟩ := parseThen_eq_ok.mp h
      cases h
      obtain ⟨hd, h3⟩ := takeBuffer_eq_ok h3
      rw [hop hn, takeByte_eq_ok h1, takeBool_eq_ok h2, h3]
      exact ⟨hd, rfl, rfl, by simp [encode]⟩
    case h_3 hn =>
      obtain ⟨a, r1, h1, h⟩ := parseThen_eq_ok.mp h
      obtain ⟨m, r2, h2, h⟩ := parseThen_eq_ok.mp h
      obtain ⟨n, r3, h3, h⟩ := parseThen_eq_ok.mp h
      cases h
      obtain ⟨hm, h2⟩ := takeWord_eq_ok h2
      obtain ⟨hl, h3⟩ := takeWord_eq_ok h3
      rw [hop hn, takeByte_eq_ok h1, h2, h3]
      exact ⟨by simp [Instr.wellFormed, fitsWord, hm, hl], rfl, rfl, by simp [encode]⟩
    case h_4 hn =>
      obtain ⟨⟨data, length⟩, r1, h1, h⟩ := parseThen_eq_ok.mp h
      cases h
      obtain ⟨hd, h1⟩ := takeBuffer_eq_ok h1
      rw [hop hn, h1]
      exact ⟨hd, rfl, rfl, by simp [encode]⟩
    case h_5 hn | h_6 hn | h_9 hn =>
      obtain ⟨n, r1, h1, h⟩ := parseThen_eq_ok.mp h
      cases h
      obtain ⟨hm, h1⟩ := takeWord_eq_ok h1
      rw [hop hn, h1]
      exact ⟨by simp [Instr.wellFormed, fitsWord, hm], rfl, rfl, by simp [encode]⟩
    case h_7 hn | h_8 hn | h_10 hn | h_11 hn =>
      cases h
      rw [hop hn]
      exact ⟨rfl, rfl, rfl, rfl⟩
    case h_12 => cases h

/-- Settles O2, by the three formats. -/
theorem encodeOfDecodeGivesTheBytes : Obligations.EncodeOfDecodeGivesTheBytes := by
  intro c f bytes i rest hc h
  cases f with
  | status => exact decodeStatus_readsBack hc h
  | addrByte => exact decodeAddrByte_readsBack h
  | hostOp => exact decodeHostOp_readsBack h

/-- Settles O3: the byte is a symbol's code, or none's. -/
theorem everyStatusByteDecodes : Obligations.EveryStatusByteDecodes := by
  intro c b latch rest hc
  cases hs : c.symbol? b with
  | none =>
    have hn := Config.symbol_eq_none.mp hs
    exact ⟨_, _, decode_otherStatus hs _, fun x hx => absurd hx (hn x), fun _ => rfl⟩
  | some x =>
    obtain rfl := Config.symbol_eq_some hs
    cases hx : x.carriesLatch with
    | true =>
      exact ⟨_, _, decode_code_latch hc hx latch rest, fun y hy => by rw [Config.code_inj hc hy], fun h => absurd rfl (h x)⟩
    | false =>
      refine ⟨_, _, decode_code hc hx _, fun y hy => ?_, fun h => absurd rfl (h x)⟩
      rw [Config.code_inj hc hy, Status.instr_eq_of_no_latch hx latch]

/-- Settles O4: the words are closed and the decoder computes on them. -/
theorem tableWordsDecode : Obligations.TableWordsDecode := by
  unfold Obligations.TableWordsDecode
  decide

/-- Settles O5: the two fields of the address byte lie side by side. -/
theorem addressByteIsTwiceTheAddressPlusDirection : Obligations.AddressByteIsTwiceTheAddressPlusDirection := by
  intro a dir
  rw [addrByte_toNat, Nat.shiftLeft_eq, pow_one]
  cases dir <;> rfl

end Sys2Proof
end

section
/-! Proofs for spec/41_transfer_state_machine.md: the Handler runs that move bytes (R142 to R145, R148, R149, R154, R155, R159,
R160). First when each shared operation faults, then what a run leaves whose rule ends in one or two commands, then the
statements, each by the condition its rule goes on or faults under. -/

namespace Sys2Proof.Machine

/-! ### When a shared operation faults -/

theorem reading_fault {s : State} {f : Field} (h : s.readable f = false) (k : Out) :
    s.reading f k = .fault (.uninitialisedRead f) := by
  simp [State.reading, h]

theorem guardAdvance_fault {s : State} (h : s.ctx.length ≤ s.ctx.cursor) (k : Out) :
    s.guardAdvance k = .fault (.cursorOverrun s.ctx.cursor s.ctx.length) := by
  simp [State.guardAdvance, State.moreToCome, Nat.not_lt.mpr h]

theorem withTxByte_unwritten {s : State} {i : Nat} (hi : i < s.cfg.cap) (hb : s.ctx.txBuffer.read i = none)
    (k : Byte → Out) : s.withTxByte i k = .fault (.uninitialisedRead (.txByte i)) := by
  simp [State.withTxByte, hi, hb]

theorem withTxByte_outside {s : State} {i : Nat} (hi : s.cfg.cap ≤ i) (k : Byte → Out) :
    s.withTxByte i k = .fault (.txIndexOutOfRange i) := by
  simp [State.withTxByte, Nat.not_lt.mpr hi]

theorem storeRx_outside {s : State} {i : Nat} (hr : s.readable .rxTarget = true) (hi : s.ctx.rxTarget.cap ≤ i) (b : Byte)
    (k : State → Out) : s.storeRx i b k = .fault (.rxIndexOutOfRange i) := by
  simp [State.storeRx, reading_eq hr, Nat.not_lt.mpr hi]

/-- The store to a region of the caller is a store at its base plus the index (R13, R61). -/
theorem storeRegion_caller {rx : RxTarget} {base : Nat} (h : rx.base = .caller base) (s : State) (i : Nat) (b : Byte) :
    s.storeRegion rx i b = { s with memory := s.memory.write (base + i) b } := by
  simp [State.storeRegion, RxTarget.addressOf, h]

/-- The store to the handshake's `dummy` is no store to the caller's memory. -/
theorem storeRegion_dummy {rx : RxTarget} (h : rx.base = .dummy) (s : State) (i : Nat) (b : Byte) :
    s.storeRegion rx i b = { s with dummy := b } := by
  simp [State.storeRegion, RxTarget.addressOf, h]

/-! ### When the rules fault -/

theorem ctSendNext_overrun {s : State} (hc : s.readable .cursor = true) (hl : s.readable .length = true)
    (h : s.ctx.length < s.ctx.cursor) : ctSendNext s = .fault (.cursorOverrun s.ctx.cursor s.ctx.length) := by
  have hne : s.exhausted = false := by simp [State.exhausted]; omega
  rw [ctSendNext, reading_eq hc, reading_eq hl, hne, guardAdvance_fault h.le]
  rfl

/-- Below the length the rule of a controller byte is the send of the next byte (R163). -/
theorem ctSendNext_of_lt {s : State} (hc : s.readable .cursor = true) (hl : s.readable .length = true)
    (h : s.ctx.cursor < s.ctx.length) : ctSendNext s = s.sendByte fun s => .next s.requestAck := by
  have hne : s.exhausted = false := by simp [State.exhausted]; omega
  rw [ctSendNext, reading_eq hc, reading_eq hl, hne, guardAdvance_eq h]
  rfl

theorem ttSendNext_of_lt {s : State} (hc : s.readable .cursor = true) (hl : s.readable .length = true)
    (h : s.ctx.cursor < s.ctx.length) : ttSendNext s = s.sendByte fun s => .next s.replyByExhaustion := by
  rw [ttSendNext, reading_eq hc, reading_eq hl, guardAdvance_eq h]

/-! ### What the byte rules leave, written out -/

/-- The rule of `CR_DATA_ACK` within its bounds, `u` the state after the store, the reply by exhaustion written out
(R148). -/
theorem crDataAckRule_eq {s u : State} (hu : s.storeRegion s.ctx.rxTarget s.ctx.cursor s.readDataLatch = u) (hc : s.readable .cursor = true) (hl : s.readable .length = true)
    (hr : s.readable .rxTarget = true) (h : s.ctx.cursor < s.ctx.length) (hcap : s.ctx.cursor < s.ctx.rxTarget.cap) :
    crDataAckRule s =
      .next (((u.setCursor (s.ctx.cursor + 1)).emit
        (replyWhile (s.ctx.cursor + 1 < s.ctx.length)).command).setReply
          (replyWhile (s.ctx.cursor + 1 < s.ctx.length))) := by
  refine crDataAckRule_eq_next.mpr ⟨hc, hl, hr, h, hcap, ?_⟩
  rw [hu, replyByExhaustion_eq, ← hu]
  simp

/-- The rule of `CR_DATA_NACK` within the region (R149). -/
theorem crDataNackRule_eq {s u : State} (hu : s.storeRegion s.ctx.rxTarget s.ctx.cursor s.readDataLatch = u) (hc : s.readable .cursor = true) (hr : s.readable .rxTarget = true)
    (hcap : s.ctx.cursor < s.ctx.rxTarget.cap) :
    crDataNackRule s =
      .next u.issueStop.endTransfer :=
  crDataNackRule_eq_next.mpr ⟨hc, hr, hcap, by rw [hu]⟩

/-- The rule of a byte sent as a target, the reply by exhaustion written out (R159, R163). -/
theorem ttSendNext_eq {s : State} {b : Byte} (hc : s.readable .cursor = true) (hl : s.readable .length = true)
    (h : s.ctx.cursor < s.ctx.length) (hcap : s.ctx.cursor < s.cfg.cap) (hb : s.ctx.txBuffer.read s.ctx.cursor = some b) :
    ttSendNext s = .next ((((s.setCursor (s.ctx.cursor + 1)).writeDataLatch b).emit
      (replyWhile (s.ctx.cursor + 1 < s.ctx.length)).command).setReply
        (replyWhile (s.ctx.cursor + 1 < s.ctx.length))) := by
  refine ttSendNext_eq_next.mpr ⟨hc, hl, h, hcap, b, hb, ?_⟩
  rw [replyByExhaustion_eq]
  rfl

/-! ### A Handler run from its rule -/

/-- A Handler run whose rule faults is that fault. -/
theorem exec_eq_fault {i : Instr} {s : State} {f : Fault} (hi : i.format = .status) (hs : s.EventReady)
    (hrule : ruleOf s.cfg i (s.enterHandler (rawOf s.cfg i)) = .fault f) : exec i s = .fault f := by
  rw [exec_status hi, takeEvent_eq (deliverable_of_eventReady hs), hrule, andThen_fault]

/-- A Handler run whose rule turns `s` into `t`, gives one command `a` and replies `r` leaves `t`, handled. -/
theorem exec_eq_handled_command {i : Instr} {s t : State} {a : Action} {r : Reply} (hi : i.format = .status)
    (hs : s.EventReady) (ht : t.run.stopWait = false)
    (hrule : ruleOf s.cfg i (s.enterHandler (rawOf s.cfg i)) =
      .next ((((t.enterHandler (rawOf s.cfg i)).emit a).emit r.command).setReply r)) :
    exec i s = .next (t.handled (rawOf s.cfg i) r [a, r.command]) := by
  rw [exec_status hi, takeEvent_eq (deliverable_of_eventReady hs), hrule, andThen_next, leaveHandler_eq (by simpa using ht)]
  simp [State.handled, State.emit, State.setReply, State.enterHandler]

/-! ### The statements -/

/-- Settles O8: both statuses select the start rule, which goes on exactly if the address register can be read. -/
theorem startSendsTheLatchedAddressByte : Obligations.StartSendsTheLatchedAddressByte := by
  intro i x s hix hs
  have hix : i.format = .status ∧ rawOf s.cfg i = s.cfg.code x ∧ ruleOf s.cfg i = startRule := by
    simp only [List.mem_cons, Prod.mk.injEq, List.not_mem_nil, or_false] at hix
    obtain ⟨rfl, rfl⟩ | ⟨rfl, rfl⟩ := hix <;> exact ⟨rfl, rfl, rfl⟩
  obtain ⟨hi, hraw, hrule⟩ := hix
  refine ⟨fun hr => ?_, fun hf hw => exec_eq_fault hi hs ?_⟩
  · rw [← hraw]
    refine exec_eq_handled_command (r := .ack) hi hs hs.2.2 ?_
    rw [hrule]
    exact startRule_eq_next.mpr ⟨by simpa using hr, rfl⟩
  · have hr : s.readable .addressAndDirection = false := by simp [State.readable, hf, State.wasWritten, hw]
    rw [hrule]
    exact reading_fault hr _

/-- Settles O9: at exhaustion the rule stops, below it sends a byte or faults on it, above it the guard faults. -/
theorem controllerTransmitSendsOrStops : Obligations.ControllerTransmitSendsOrStops := by
  intro i x s hix hs hc hl
  have hix : i.format = .status ∧ rawOf s.cfg i = s.cfg.code x ∧ ruleOf s.cfg i = ctSendNext := by
    simp only [List.mem_cons, Prod.mk.injEq, List.not_mem_nil, or_false] at hix
    obtain ⟨rfl, rfl⟩ | ⟨rfl, rfl⟩ := hix <;> exact ⟨rfl, rfl, rfl⟩
  obtain ⟨hi, hraw, hrule⟩ := hix
  have hc' : (s.enterHandler (rawOf s.cfg i)).readable .cursor = true := by simpa using hc
  have hl' : (s.enterHandler (rawOf s.cfg i)).readable .length = true := by simpa using hl
  refine ⟨fun h => ?_, fun b h hcap hb => ?_, fun h => exec_eq_fault hi hs ?_, fun h hcap hb => exec_eq_fault hi hs ?_,
    fun h hcap => exec_eq_fault hi hs ?_⟩
  · rw [← hraw]
    refine exec_eq_handled (r := .stop) hi hs hs.2.2 ?_
    rw [hrule]
    exact ctSendNext_eq_next.mpr ⟨hc', hl', .inl ⟨h, rfl⟩⟩
  · rw [← hraw]
    refine exec_eq_handled_command (r := .ack) hi hs hs.2.2 ?_
    rw [hrule]
    exact ctSendNext_eq_next.mpr ⟨hc', hl', .inr ⟨h, hcap, b, hb, rfl⟩⟩
  · rw [hrule]
    exact ctSendNext_overrun hc' hl' h
  · rw [hrule, ctSendNext_of_lt hc' hl' h]
    exact withTxByte_unwritten hcap hb _
  · rw [hrule, ctSendNext_of_lt hc' hl' h]
    exact withTxByte_outside hcap _

/-- Settles O12: the guard, the bound of the region, and the kind of region decide. -/
theorem controllerReceiveStoresTheByte : Obligations.ControllerReceiveStoresTheByte := by
  intro s v hs hc hl hr
  have hc' : ((s.enterHandler (s.cfg.code .crDataAck)).receiveByte v).readable .cursor = true := hc
  have hl' : ((s.enterHandler (s.cfg.code .crDataAck)).receiveByte v).readable .length = true := hl
  have hr' : ((s.enterHandler (s.cfg.code .crDataAck)).receiveByte v).readable .rxTarget = true := hr
  refine ⟨fun base h hcap hb => ?_, fun h hcap hb => ?_, fun h => exec_eq_fault rfl hs ?_,
    fun h hcap => exec_eq_fault rfl hs ?_⟩
  · exact exec_eq_handled (i := .crDataAck v) rfl hs hs.2.2
      (crDataAckRule_eq (s := (s.enterHandler _).receiveByte v) (storeRegion_caller hb _ _ _) hc' hl' hr' h hcap)
  · exact exec_eq_handled (i := .crDataAck v) rfl hs hs.2.2
      (crDataAckRule_eq (s := (s.enterHandler _).receiveByte v) (storeRegion_dummy hb _ _ _) hc' hl' hr' h hcap)
  · simp only [ruleOf, rawOf, crDataAckRule, reading_eq hc', reading_eq hl']
    exact guardAdvance_fault h _
  · simp only [ruleOf, rawOf, crDataAckRule, reading_eq hc', reading_eq hl']
    exact (guardAdvance_eq h _).trans (storeRx_outside hr' hcap _ _)

/-- Settles O13: the bound of the region and its kind decide. -/
theorem controllerReceiveStoresTheFinalByteAndStops : Obligations.ControllerReceiveStoresTheFinalByteAndStops := by
  intro s v hs hc hr
  have hc' : ((s.enterHandler (s.cfg.code .crDataNack)).receiveByte v).readable .cursor = true := hc
  have hr' : ((s.enterHandler (s.cfg.code .crDataNack)).receiveByte v).readable .rxTarget = true := hr
  refine ⟨fun base hcap hb => ?_, fun hcap hb => ?_, fun hcap => exec_eq_fault rfl hs ?_⟩
  · exact exec_eq_handled (i := .crDataNack v) (r := .stop) rfl hs hs.2.2
      (crDataNackRule_eq (s := (s.enterHandler _).receiveByte v) (storeRegion_caller hb _ _ _) hc' hr' hcap)
  · exact exec_eq_handled (i := .crDataNack v) (r := .stop) rfl hs hs.2.2
      (crDataNackRule_eq (s := (s.enterHandler _).receiveByte v) (storeRegion_dummy hb _ _ _) hc' hr' hcap)
  · simp only [ruleOf, rawOf, crDataNackRule, reading_eq hc']
    exact storeRx_outside hr' hcap _ _

/-- Settles O16: the bound `CAP` decides. -/
theorem targetReceiveStoresTheByte : Obligations.TargetReceiveStoresTheByte := by
  intro i x s v hix hs hc
  have hix : i.format = .status ∧ rawOf s.cfg i = s.cfg.code x ∧
      ruleOf s.cfg i = fun s => trDataRule (s.receiveByte v) := by
    simp only [List.mem_cons, Prod.mk.injEq, List.not_mem_nil, or_false] at hix
    obtain ⟨rfl, rfl⟩ | ⟨rfl, rfl⟩ := hix <;> exact ⟨rfl, rfl, rfl⟩
  obtain ⟨hi, hraw, hrule⟩ := hix
  have hc' : ((s.enterHandler (rawOf s.cfg i)).receiveByte v).readable .cursor = true := hc
  refine ⟨fun hcap => ?_, fun hcap => exec_eq_fault hi hs ?_⟩
  · rw [← hraw]
    refine exec_eq_handled (r := .ack) hi hs hs.2.2 ?_
    rw [hrule]
    exact trDataRule_eq_next.mpr ⟨hc', hcap, rfl⟩
  · rw [hrule]
    simp only [trDataRule, reading_eq hc']
    exact if_neg (Nat.not_lt.mpr hcap)

/-- Settles O22: the guard, the bound `CAP` and the byte decide. -/
theorem targetTransmitSendsTheNextByte : Obligations.TargetTransmitSendsTheNextByte := by
  intro s hs hc hl
  have hc' : (s.enterHandler (s.cfg.code .ttDataAck)).readable .cursor = true := by simpa using hc
  have hl' : (s.enterHandler (s.cfg.code .ttDataAck)).readable .length = true := by simpa using hl
  refine ⟨fun b h hcap hb => ?_, fun h => exec_eq_fault rfl hs ?_, fun h hcap hb => exec_eq_fault rfl hs ?_,
    fun h hcap => exec_eq_fault rfl hs ?_⟩
  · exact exec_eq_handled_command (i := .ttDataAck) rfl hs hs.2.2 (ttSendNext_eq hc' hl' h hcap hb)
  · simp only [ruleOf, rawOf, ttSendNext, reading_eq hc', reading_eq hl']
    exact guardAdvance_fault h _
  · refine (ttSendNext_of_lt hc' hl' h).trans ?_
    exact withTxByte_unwritten hcap hb _
  · refine (ttSendNext_of_lt hc' hl' h).trans ?_
    exact withTxByte_outside hcap _

/-- Settles O23: both endings select the one rule. -/
theorem targetTransmitEndClearsBusy : Obligations.TargetTransmitEndClearsBusy := by
  intro i x s hix hs
  simp only [List.mem_cons, Prod.mk.injEq, List.not_mem_nil, or_false] at hix
  obtain ⟨rfl, rfl⟩ | ⟨rfl, rfl⟩ := hix
  · exact exec_eq_handled (i := .ttDataNack) (t := s.endTransfer) (r := .ack) rfl hs hs.2.2 rfl
  · exact exec_eq_handled (i := .ttLastData) (t := s.endTransfer) (r := .ack) rfl hs hs.2.2 rfl

end Sys2Proof.Machine
end

section
/-! Proofs for spec/41_transfer_state_machine.md sections 2, 6 and 7 and spec/42_transfer_api.md section 4: the Handler runs
that call a callback (R156 to R158, R165), and what `transmit` and the handshake's callback do inside one (R187, R227). -/

namespace Sys2Proof.Machine

/-- Entry into the Handler changes nothing of a state inside a run of the same status (R260). -/
theorem enterHandler_self {s : State} {raw : Byte} (h : s.run.inHandler = true) (h' : s.adapter.lastEvent = some raw) :
    s.enterHandler raw = s := by
  simp only [State.enterHandler, ← h, ← h']

/-- A callback runs inside the Handler run that calls it: it neither enters nor leaves it nor waits (R165). -/
theorem CallbackFrame.insideRun {s t : State} (h : CallbackFrame s t) (hh : s.run.inHandler = true)
    (hw : s.run.stopWait = false) :
    t.run.inHandler = true ∧ t.run.stopWait = false ∧ t.adapter = s.adapter := by
  obtain ⟨-, -, hadapter, -, -, -, -, -, -, hin, hwait, -⟩ := h
  exact ⟨hin.trans hh, hwait.trans hw, hadapter⟩

/-- A callback that has called `transmit` has written `cursor` and `length` (R187). -/
theorem CallbackFrame.written {s t : State} (h : CallbackFrame s t) (hs : s.run.transmitCalled = false)
    (ht : t.run.transmitCalled = true) : t.written.cursor = true ∧ t.written.length = true := by
  obtain ⟨-, -, -, -, -, -, -, -, -, -, -, -, -, -, -, -, -, -, -, -, -, -, -, h⟩ := h
  exact (h ht).resolve_left (by simp [hs])

/-! ### Calling a callback -/

/-- `onReceive` that is user code runs its body (R165). -/
theorem callOnReceive_user {s : State} {n : Nat} (h : s.ctx.onReceive = some (.user n)) :
    callOnReceive s = runBody (s.bodyOf n) (s.emit .callOnReceive) := by
  simp only [callOnReceive, h]
  rfl

/-- `onRequest` that is user code runs its body, and is a fault if that has not called `transmit` (R157, R165). -/
theorem callOnRequest_user {s u : State} {n : Nat} (h : s.ctx.onRequest = some (.user n))
    (hu : runBody (s.bodyOf n) (s.beginRequest.emit .callOnRequest) = .next u) :
    callOnRequest s = if u.run.transmitCalled then .next u.endRequest else .fault .transmitNotCalled := by
  have hu' : runCallback (.user n) (s.beginRequest.emit .callOnRequest) = .next u := hu
  simp only [callOnRequest, h, hu', andThen_next]

/-- Settles O17: the callback runs inside the rule, from whose end the rule goes on. -/
theorem targetReceiveEndCallsTheCallbackAndClearsBusy : Obligations.TargetReceiveEndCallsTheCallbackAndClearsBusy := by
  intro s hs
  refine ⟨fun h => ?_, fun n u h hu => ?_, fun h => exec_eq_fault rfl hs ?_⟩
  · refine exec_eq_handled_command (i := .trStop) (t := s.endTransfer) (r := .ack) rfl hs hs.2.2 ?_
    exact trStopRule_eq_next.mpr ⟨_, callOnReceive_eq_next.mpr ⟨.hsOnReceive, h, rfl⟩, rfl⟩
  · obtain ⟨hin, hwait, hadapter⟩ := (runBody_frame (by rfl) hu).insideRun rfl hs.2.2
    refine exec_eq_handled (i := .trStop) (t := u.endTransfer) (r := .ack) rfl hs hwait (trStopRule_eq_next.mpr ⟨u, ?_, ?_⟩)
    · exact (callOnReceive_user (s := s.enterHandler (s.cfg.code .trStop)) h).trans hu
    · rw [enterHandler_self]
      · rfl
      · exact hin
      · exact congrArg Adapter.lastEvent hadapter
  · have h' : (s.enterHandler (rawOf s.cfg .trStop)).ctx.onReceive = none := h
    simp only [ruleOf, trStopRule, callOnReceive, h', andThen_fault]

/-- The state in which a Handler run of an addressed status calls `onRequest`: entered, busy, the call begun (R157). -/
def State.requestEntered (s : State) (raw : Byte) : State :=
  (s.enterHandler raw).setArmed.beginRequest.emit .callOnRequest

theorem requestEntered_requestReady {s : State} (hs : s.EventReady) (raw : Byte) :
    (s.requestEntered raw).RequestReady := ⟨hs.1, rfl, rfl, .inl rfl⟩

/-- A status that selects the rule of R157. -/
def IsTtAddressed (s : State) (i : Instr) (x : Status) : Prop :=
  i.format = .status ∧ rawOf s.cfg i = s.cfg.code x ∧ ruleOf s.cfg i = ttAddressed

theorem isTtAddressed_of_mem {s : State} {i : Instr} {x : Status}
    (h : (i, x) ∈ [(Instr.ttAddrAck, Status.ttAddrAck), (.ttArbLostAddrAck, .ttArbLostAddrAck)]) :
    IsTtAddressed s i x := by
  simp only [List.mem_cons, Prod.mk.injEq, List.not_mem_nil, or_false] at h
  obtain ⟨rfl, rfl⟩ | ⟨rfl, rfl⟩ := h <;> exact ⟨rfl, rfl, rfl⟩

/-- Settles O19: `busy`, the callback, and the send of the next byte follow each other in one rule. -/
theorem addressedForTransmitCallsTheCallbackAndSends : Obligations.AddressedForTransmitCallsTheCallbackAndSends := by
  intro i x s hix hs
  obtain ⟨hi, hraw, hrule⟩ := isTtAddressed_of_mem (s := s) hix
  refine ⟨fun n u h hu => ?_, fun h => exec_eq_fault hi hs ?_⟩
  · have hframe := runBody_frame (by rfl) hu
    obtain ⟨hin, hwait, hadapter⟩ := hframe.insideRun rfl hs.2.2
    have hcall : callOnRequest (s.enterHandler (rawOf s.cfg i)).setArmed =
        if u.run.transmitCalled then .next u.endRequest else .fault .transmitNotCalled :=
      callOnRequest_user h (by rw [hraw]; exact hu)
    refine ⟨fun b hcalled hlt hcap hb => ?_, fun hcalled => exec_eq_fault hi hs ?_⟩
    · obtain ⟨hwc, hwl⟩ := hframe.written rfl hcalled
      rw [← hraw]
      refine exec_eq_handled_command hi hs hwait ?_
      rw [hrule, ttAddressed, hcall, if_pos hcalled, andThen_next]
      refine (ttSendNext_eq (s := u.endRequest) (readable_of_written hwc) (readable_of_written hwl) hlt hcap hb).trans ?_
      rw [enterHandler_self]
      · simp only [State.setCursor, State.endRequest, ← hwc]
        rfl
      · exact hin
      · exact (congrArg Adapter.lastEvent hadapter).trans (congrArg some hraw.symm)
    · rw [hrule, ttAddressed, hcall, hcalled]
      rfl
  · have h' : (s.enterHandler (rawOf s.cfg i)).setArmed.ctx.onRequest = none := h
    simp only [hrule, ttAddressed, callOnRequest, h', andThen_fault]

/-! ### `transmit` -/

/-- What `transmit` leaves, inside the `onRequest` call of a Handler run (R187). -/
def State.transmitted (s : State) (data : List Byte) (n : Nat) : State :=
  { s with
    ctx := { s.ctx with txBuffer := s.ctx.txBuffer.writeAll 0 (data.take n), cursor := 0, length := n }
    written := { s.written with cursor := true, length := true }
    run := { s.run with transmitCalled := true, callbackResult := .nothing } }

theorem transmitRule_eq {s : State} {data : List Byte} {n : Nat} (hs : s.RequestReady) (h1 : 1 ≤ n)
    (hcap : n ≤ s.cfg.cap) (hdata : n ≤ data.length) : transmitRule data n s = .next (s.transmitted data n) := by
  obtain ⟨hinit, hin, hreq, htwice⟩ := hs
  have htwice : (s.run.transmitCalled && s.cfg.secondTransmit = .refuse) = false := by
    rcases htwice with h | h <;> simp [h]
  have hlen : 0 + (data.take n).length ≤ s.cfg.cap := by
    rw [List.length_take]
    omega
  rw [transmitRule, hostCall_eq hinit (.inl hin), if_neg (by simp [hin, hreq]), if_neg (by omega), if_neg (by omega),
    if_neg (by omega), htwice, if_neg (by simp), copyToTx_eq _ _ _ _ hlen]
  simp [State.answer, hin, State.transmitted, State.setTxBuffer, State.setCursor, State.setLength, State.noteTransmit]

/-- The bytes `transmit` has put into `txBuffer`. -/
theorem read_writeAll_take_of_lt (m : Memory) {data : List Byte} {n j : Nat} (hdata : n ≤ data.length) (hj : j < n) :
    (m.writeAll 0 (data.take n)).read j = data[j]? := by
  rw [Memory.read_writeAll, if_pos ⟨by omega, by rw [List.length_take]; omega⟩, List.getElem?_take, Nat.sub_zero, if_pos hj]

theorem read_writeAll_take_of_le (m : Memory) {data : List Byte} {n j : Nat} (hj : n ≤ j) :
    (m.writeAll 0 (data.take n)).read j = m.read j := by
  rw [Memory.read_writeAll, if_neg (by rw [List.length_take]; omega)]

/-- Settles O33: the copy, the cursor and the length are what `transmit` writes of the context. -/
theorem transmitSetsUpTheBuffer : Obligations.TransmitSetsUpTheBuffer := by
  intro i s data n hs h1 hcap hdata hi
  have hexec : exec i s = .next (s.transmitted data n) := by
    rcases hi with rfl | ⟨rfl, rfl⟩
    · exact transmitRule_eq hs h1 hcap hdata
    · exact transmitRule_eq hs h1 hcap hdata
  exact ⟨_, hexec, rfl, fun j => read_writeAll_take_of_lt _ hdata, fun j => read_writeAll_take_of_le _⟩

/-! ### Addressed for transmit with one `transmit` -/

/-- What a target leaves that was addressed for transmit and whose `onRequest` transmitted the first `length` bytes of
`b :: data`, before return from the Handler is recorded (R157, R187). -/
def State.firstByteSent (s : State) (b : Byte) (data : List Byte) (length : Nat) : State :=
  { s with
    ctx := { s.ctx with
      txBuffer := s.ctx.txBuffer.writeAll 0 ((b :: data).take length), cursor := 1, length := length, busy := true }
    written := { s.written with cursor := true, length := true }
    run := { s.run with requestRun := false, transmitCalled := false, callbackResult := .nothing }
    adapter := { s.adapter with dataLatch := b } }

/-- The rule goes on from the `transmit` of the callback: it sends the first byte. -/
theorem ttSendNext_transmitted {s : State} {b : Byte} {data : List Byte} {length : Nat} (h1 : 1 ≤ length)
    (hcap : length ≤ s.cfg.cap) (hdata : length ≤ (b :: data).length) :
    ttSendNext (s.transmitted (b :: data) length).endRequest =
      .next ((((((s.transmitted (b :: data) length).endRequest).setCursor 1).writeDataLatch b).emit
        (replyWhile (1 < length)).command).setReply (replyWhile (1 < length))) :=
  ttSendNext_eq (readable_of_written rfl) (readable_of_written rfl) h1 (Nat.lt_of_lt_of_le h1 hcap)
    ((read_writeAll_take_of_lt _ hdata h1).trans rfl)

/-- The Handler run of an addressed status whose callback, from the state `s'` in which it is called, transmits. -/
theorem exec_ttAddressed_of_transmit {i : Instr} {x : Status} {s s' : State} {b : Byte} {data : List Byte} {length : Nat}
    (hix : IsTtAddressed s i x) (hs : s.EventReady) (h1 : 1 ≤ length) (hcap : length ≤ s'.cfg.cap)
    (hdata : length ≤ (b :: data).length) (hwait : s'.run.stopWait = false)
    (hcall : callOnRequest (s.enterHandler (s.cfg.code x)).setArmed = .next (s'.transmitted (b :: data) length).endRequest) :
    exec i s = .next { s'.firstByteSent b data length with
      ctx := { s'.ctx with
        txBuffer := s'.ctx.txBuffer.writeAll 0 ((b :: data).take length), cursor := 1, length := length }
      run := { (s'.firstByteSent b data length).run with inHandler := false }
      adapter := { s'.adapter with
        dataLatch := b, lastReply := some (replyWhile (1 < length))
        actions := s'.adapter.actions ++ [.writeLatch b, (replyWhile (1 < length)).command] } } := by
  obtain ⟨hi, hraw, hrule⟩ := hix
  rw [exec_status hi, takeEvent_eq (deliverable_of_eventReady hs), hrule, hraw, ttAddressed, hcall, andThen_next,
    ttSendNext_transmitted h1 hcap hdata, andThen_next, leaveHandler_eq (by exact hwait)]
  simp [State.emit, State.setReply, State.writeDataLatch, State.setCursor, State.endRequest, State.transmitted,
    State.firstByteSent]

theorem exec_ttAddressed_transmit {i : Instr} {x : Status} {s : State} {n length : Nat} {b : Byte} {data : List Byte}
    (hix : IsTtAddressed s i x) (hs : s.EventReady) (hreq : s.ctx.onRequest = some (.user n))
    (hbody : s.bodyOf n = .call (.transmit (b :: data) length) .done) (h1 : 1 ≤ length) (hcap : length ≤ s.cfg.cap)
    (hdata : length ≤ (b :: data).length) :
    exec i s = .next ((s.firstByteSent b data length).handled (s.cfg.code x) (replyWhile (1 < length))
      [.callOnRequest, .writeLatch b, (replyWhile (1 < length)).command]) := by
  have hrun : runBody (s.bodyOf n) (s.requestEntered (s.cfg.code x)) =
      .next ((s.requestEntered (s.cfg.code x)).transmitted (b :: data) length) := by
    rw [hbody, runBody, runCall, execTransmit, transmitRule_eq (requestEntered_requestReady hs _) h1 hcap hdata]
    rfl
  have hcall := (callOnRequest_user (s := (s.enterHandler (s.cfg.code x)).setArmed) hreq hrun).trans (if_pos rfl)
  rw [exec_ttAddressed_of_transmit (s' := s.requestEntered (s.cfg.code x)) hix hs h1 hcap hdata hs.2.2 hcall]
  simp [State.handled, State.firstByteSent, State.requestEntered, State.emit, State.beginRequest, State.setArmed,
    State.setBusy, State.enterHandler]

/-- Settles O20: the state left is written out, and `txBuffer` in it is a block write. -/
theorem addressedForTransmitSendsTheFirstByte : Obligations.AddressedForTransmitSendsTheFirstByte := by
  intro i x s n length b data hix hs hreq hbody h1 hcap hdata
  exact ⟨_, exec_ttAddressed_transmit (isTtAddressed_of_mem hix) hs hreq hbody h1 hcap hdata, rfl,
    fun j => read_writeAll_take_of_lt _ hdata, fun j => read_writeAll_take_of_le _⟩

/-! ### The handshake's callback -/

/-- `hsOnRequest` counts the probe and transmits the count (R227). -/
theorem hsOnRequestBody_eq {s : State} (hs : s.RequestReady) (hr : s.readable .hsCounter = true) (hcap : 1 ≤ s.cfg.cap)
    (h : s.control.hsCounter < s.cfg.maxIndex) :
    hsOnRequestBody s =
      .next ((s.setHsCounter (s.control.hsCounter + 1)).transmitted [low8 (s.control.hsCounter + 1)] 1) := by
  rw [hsOnRequestBody, reading_eq hr, if_pos h]
  exact transmitRule_eq (s := s.setHsCounter (s.control.hsCounter + 1)) hs le_rfl hcap le_rfl

/-- A count past the index width is the fault of R227. -/
theorem hsOnRequestBody_overflow {s : State} (hr : s.readable .hsCounter = true)
    (h : s.cfg.maxIndex ≤ s.control.hsCounter) : hsOnRequestBody s = .fault .counterOverflow := by
  rw [hsOnRequestBody, reading_eq hr, if_neg (Nat.not_lt.mpr h)]

/-- Settles O21: the probe is the addressed status with one `transmit` of the count, or the fault of the counter's bound. -/
theorem probeIsCountedAndAnswered : Obligations.ProbeIsCountedAndAnswered := by
  intro i x s hix hs hreq hr hcap
  have hix := isTtAddressed_of_mem (s := s) hix
  have hr' : (s.requestEntered (s.cfg.code x)).readable .hsCounter = true := hr
  refine ⟨fun h => ?_, fun h => ?_⟩
  · have hrun := hsOnRequestBody_eq (requestEntered_requestReady hs _) hr' hcap h
    rw [exec_ttAddressed_of_transmit hix hs le_rfl hcap le_rfl hs.2.2
      (s' := (s.requestEntered (s.cfg.code x)).setHsCounter (s.control.hsCounter + 1))
      (callOnRequest_eq_next.mpr ⟨.hsOnRequest, _, hreq, hrun, rfl, rfl⟩)]
    simp [State.handled, State.firstByteSent, State.requestEntered, State.setHsCounter, State.emit, State.beginRequest,
      State.setArmed, State.setBusy, State.enterHandler, replyWhile, Reply.command, Memory.writeAll, low8]
  · obtain ⟨hi, hraw, hrule⟩ := hix
    refine exec_eq_fault hi hs ?_
    have hreq' : (s.enterHandler (s.cfg.code x)).setArmed.ctx.onRequest = some .hsOnRequest := hreq
    have hrun : hsOnRequestBody ((s.enterHandler (s.cfg.code x)).setArmed.beginRequest.emit .callOnRequest) =
        .fault .counterOverflow := hsOnRequestBody_overflow hr' h
    simp only [hrule, hraw, ttAddressed, callOnRequest, hreq', runCallback, hrun, andThen_fault]

end Sys2Proof.Machine
end

section
/-! Proofs for spec/41_transfer_state_machine.md section 8: a status without a rule of its own and the stop-complete wait
(R162). One poll is said once, confirmed and refused; a run of refusals is an induction over them. -/

namespace Sys2Proof.Machine

/-! ### One poll -/

/-- A poll uses up one answer; if that is the confirmation the wait, the pending stop and `busy` end (R125, R162). -/
theorem pollStop_eq (s : State) :
    s.pollStop = if s.nextStopAnswer then
      { s.useStopAnswer with
        ctx := { s.ctx with busy := false }
        run := { s.run with stopWait := false }
        adapter := { s.adapter with stopPending := false } }
    else s.useStopAnswer := by
  unfold State.pollStop
  split_ifs
  · simp [State.setBusy]
  · rfl

theorem nextStopAnswer_cons {s : State} {b : Bool} {later : List Bool} (h : s.env.stops = b :: later) :
    s.nextStopAnswer = b := by
  simp [State.nextStopAnswer, h]

theorem useStopAnswer_cons {s : State} {b : Bool} {later : List Bool} (h : s.env.stops = b :: later) :
    s.useStopAnswer = { s with env := { s.env with stops := later } } := by
  simp [State.useStopAnswer, h]

theorem pollStop_confirmed {s : State} {later : List Bool} (h : s.env.stops = true :: later) :
    s.pollStop = { s with
      ctx := { s.ctx with busy := false }
      run := { s.run with stopWait := false }
      env := { s.env with stops := later }
      adapter := { s.adapter with stopPending := false } } := by
  rw [pollStop_eq, nextStopAnswer_cons h, useStopAnswer_cons h, if_pos rfl]

theorem pollStop_refused {s : State} {later : List Bool} (h : s.env.stops = false :: later) :
    s.pollStop = { s with env := { s.env with stops := later } } := by
  rw [pollStop_eq, nextStopAnswer_cons h, useStopAnswer_cons h, if_neg (by decide)]

/-- Whatever the answer, a poll leaves the recorded error, the last event and the commands. -/
theorem pollStop_leaves (s : State) :
    s.pollStop.ctx.lastError = s.ctx.lastError ∧ s.pollStop.adapter.lastEvent = s.adapter.lastEvent ∧
      s.pollStop.adapter.actions = s.adapter.actions := by
  rw [pollStop_eq]
  split_ifs <;> simp

/-! ### The rule -/

/-- The state in which the rule polls for the first time (R162). -/
def State.stopAwaited (s : State) (raw : Byte) : State :=
  { s with
    ctx := { s.ctx with lastError := .code raw }
    written := { s.written with lastError := true }
    run := { s.run with inHandler := true, stopWait := true }
    adapter := { s.adapter with
      lastEvent := some raw, actions := s.adapter.actions ++ [.stopWait], stopPending := true, lastReply := some .stop
      armed := false } }

/-- A status without a rule of its own selects the rule of R162, with its raw byte. -/
theorem ruleOf_errorStatus {c : Config} {i : Instr} {raw : Byte}
    (h : (i, raw) ∈ errorStatuses c ∨ i = .otherStatus raw) :
    i.format = .status ∧ rawOf c i = raw ∧ ruleOf c i = errorRule raw := by
  rcases h with h | rfl
  · simp only [errorStatuses, List.mem_cons, Prod.mk.injEq, List.not_mem_nil, or_false] at h
    obtain ⟨rfl, rfl⟩ | ⟨rfl, rfl⟩ | ⟨rfl, rfl⟩ | ⟨rfl, rfl⟩ | ⟨rfl, rfl⟩ | ⟨rfl, rfl⟩ | ⟨rfl, rfl⟩ := h <;>
      exact ⟨rfl, rfl, rfl⟩
  · exact ⟨rfl, rfl, rfl⟩

theorem exec_errorStatus {i : Instr} {raw : Byte} {s : State}
    (h : (i, raw) ∈ errorStatuses s.cfg ∨ i = .otherStatus raw) (hs : s.EventReady) :
    exec i s = .next (s.stopAwaited raw).pollStop.leaveHandler := by
  obtain ⟨hi, hraw, hrule⟩ := ruleOf_errorStatus h
  rw [exec_status hi, takeEvent_eq (deliverable_of_eventReady hs), hraw, hrule]
  rfl

/-- Settles O24: what the rule leaves before its poll, and what a confirmation makes of it. -/
theorem unrecognisedStatusForcesAStop : Obligations.UnrecognisedStatusForcesAStop := by
  intro i raw s h hs
  obtain ⟨herror, hevent, hactions⟩ := pollStop_leaves (s.stopAwaited raw)
  refine ⟨⟨_, exec_errorStatus h hs, ?_, ?_, ?_⟩, fun later hstops => ?_⟩
  · rw [State.leaveHandler_ctx, herror]
    rfl
  · rw [State.leaveHandler_adapter, hevent]
    rfl
  · rw [State.leaveHandler_adapter, hactions]
    rfl
  · rw [exec_errorStatus h hs, pollStop_confirmed (s := s.stopAwaited raw) hstops, leaveHandler_eq rfl]
    simp [State.handled, State.stopAwaited, hs.2.2]

/-! ### The wait -/

theorem step_of_stopWait {s : State} (h : s.run.stopWait = true) : step s = .next s.pollStop.leaveHandler := by
  simp [step, h]

/-- Every refused poll is a step that only uses up the answer. -/
theorem runs_refused {k : Nat} {s : State} {later : List Bool} (hw : s.run.stopWait = true)
    (h : s.env.stops = List.replicate k false ++ later) :
    runs k s { s with env := { s.env with stops := later } } := by
  induction k generalizing s with
  | zero =>
    rw [List.replicate_zero, List.nil_append] at h
    rw [← h]
    exact runs_zero s
  | succ k ih =>
    rw [List.replicate_succ, List.cons_append] at h
    have hstep : step s = .next { s with env := { s.env with stops := List.replicate k false ++ later } } := by
      rw [step_of_stopWait hw, pollStop_refused h]
      simp [State.leaveHandler, hw]
    exact runs_succ hstep (ih hw rfl)

/-- Settles O25: the refusals one by one, then the confirmation. -/
theorem stopCompleteWaitEndsWithTheConfirmation : Obligations.StopCompleteWaitEndsWithTheConfirmation := by
  intro i raw s n later h hs hstops
  rw [List.replicate_succ, List.cons_append] at hstops
  have hexec : exec i s = .next { s.stopAwaited raw with
      env := { s.env with stops := List.replicate n false ++ true :: later } } := by
    rw [exec_errorStatus h hs, pollStop_refused (s := s.stopAwaited raw) hstops]
    rfl
  refine ⟨_, hexec, rfl, rfl, rfl, rfl, fun k hk => ?_, ?_⟩
  · have hsplit : List.replicate n false ++ true :: later =
        List.replicate k false ++ (List.replicate (n - k) false ++ true :: later) := by
      rw [← List.append_assoc, List.replicate_append_replicate, show k + (n - k) = n by omega]
    exact ⟨_, runs_refused rfl hsplit, rfl, rfl⟩
  · refine runs_add (runs_refused rfl rfl) (runs_one ?_)
    rw [step_of_stopWait rfl, pollStop_confirmed (later := later) rfl, leaveHandler_eq rfl]
    simp [State.handled, State.stopAwaited, hs.2.2]

end Sys2Proof.Machine
end

section
/-! Proofs for spec/41_transfer_state_machine.md sections 5 and 6: the frame of a received byte (R148, R149, R61), and what a
receive callback reads through `ownedBuffer()` (R156, R192). -/

namespace Sys2Proof.Machine

/-- A Handler run that answers is its rule, run after entry, and the return (R140, R141). -/
theorem exec_status_eq_next {i : Instr} {s t : State} (hi : i.format = .status) (h : exec i s = .next t) :
    s.deliverable = true ∧
      ∃ u, ruleOf s.cfg i (s.enterHandler (rawOf s.cfg i)) = .next u ∧ t = u.leaveHandler := by
  rw [exec_status hi] at h
  exact takeEvent_eq_next.mp h

/-! ### A received byte -/

/-- Of a store to the region: the byte stored, where it is one of the caller's. -/
theorem storeRegion_of_addressOf {rx : RxTarget} {i a : Nat} (h : rx.addressOf i = some a) (s : State) (b : Byte) :
    s.storeRegion rx i b = { s with memory := s.memory.write a b } := by
  simp [State.storeRegion, h]

theorem storeRegion_of_no_address {rx : RxTarget} {i : Nat} (h : rx.addressOf i = none) (s : State) (b : Byte) :
    s.storeRegion rx i b = { s with dummy := b } := by
  simp [State.storeRegion, h]

/-- What a received byte leaves: one store to the region, and of everything else only `cursor`, `busy`, the records of which
registers have been written, and what the adapter holds (R148, R149). -/
theorem received_byte_leaves {i : Instr} {s t : State} {v : Byte} (hi : i ∈ [Instr.crDataAck v, .crDataNack v])
    (h : exec i s = .next t) :
    t.memory = (s.storeRegion s.ctx.rxTarget s.ctx.cursor v).memory ∧
    t.dummy = (s.storeRegion s.ctx.rxTarget s.ctx.cursor v).dummy ∧
    t.ctx = { s.ctx with cursor := t.ctx.cursor, busy := t.ctx.busy } ∧
    t.control = s.control ∧ t.cfg = s.cfg ∧ t.run.phase = s.run.phase ∧ t.vars = s.vars := by
  have hregion (raw : Byte) (r : RxTarget) (j : Nat) :
      (((s.enterHandler raw).receiveByte v).storeRegion r j v).memory = (s.storeRegion r j v).memory ∧
      (((s.enterHandler raw).receiveByte v).storeRegion r j v).dummy = (s.storeRegion r j v).dummy := by
    unfold State.storeRegion
    split <;> exact ⟨rfl, rfl⟩
  obtain rfl | rfl : i = .crDataAck v ∨ i = .crDataNack v := by simpa using hi
  · obtain ⟨-, u, hu, rfl⟩ := exec_status_eq_next rfl h
    obtain ⟨-, -, -, -, -, rfl⟩ := crDataAckRule_eq_next.mp hu
    simp [State.readDataLatch, leaveHandler_frame, hregion, State.setCursor]
  · obtain ⟨-, u, hu, rfl⟩ := exec_status_eq_next rfl h
    obtain ⟨-, -, -, rfl⟩ := crDataNackRule_eq_next.mp hu
    simp [State.readDataLatch, leaveHandler_frame, hregion, State.endTransfer, State.setBusy]

/-- Settles O14: the store to the region is one byte of memory, or none of it. -/
theorem receivedByteChangesOneByteOfMemory : Obligations.ReceivedByteChangesOneByteOfMemory := by
  intro i s t v hi h
  obtain ⟨hmem, hdummy, hctx, hcontrol, hcfg, hphase, hvars⟩ := received_byte_leaves hi h
  refine ⟨fun a ha => ?_, fun ha => ?_, by rw [hctx], by rw [hctx], by rw [hctx], by rw [hctx], by rw [hctx],
    by rw [hctx], by rw [hctx], hcontrol, hcfg, hphase, hvars⟩
  · rw [storeRegion_of_addressOf ha] at hmem hdummy
    exact ⟨by rw [hmem, Memory.read_write_same], hdummy, fun b hb => by rw [hmem, Memory.read_write_other _ _ hb]⟩
  · rw [storeRegion_of_no_address ha] at hmem hdummy
    exact ⟨hdummy, hmem⟩

/-! ### A callback that copies the received bytes -/

/-- The block copy of user code goes through where the bytes have been received, and is a block write to its memory. -/
theorem copyOwned_eq {s : State} {i : Nat} {data : List Byte} (destination : Nat) (k : State → Out)
    (hcap : i + data.length ≤ s.cfg.cap) (hdata : ∀ j b, data[j]? = some b → s.ctx.txBuffer.read (i + j) = some b) :
    s.copyOwned destination i data.length k = k { s with memory := s.memory.writeAll (destination + i) data } := by
  induction data generalizing s i with
  | nil => rfl
  | cons b rest ih =>
    rw [List.length_cons] at hcap
    have hrest : ∀ j c, rest[j]? = some c → s.ctx.txBuffer.read (i + 1 + j) = some c := fun j c hj => by
      rw [show i + 1 + j = i + (j + 1) by omega]
      exact hdata (j + 1) c hj
    rw [List.length_cons, State.copyOwned, withTxByte_eq (i := i) (by omega) (hdata 0 b rfl)]
    exact ih (s := { s with memory := s.memory.write (destination + i) b }) (by omega : i + 1 + rest.length ≤ s.cfg.cap)
      hrest

/-- The body of a callback that loads byte `y` of the buffer, stores it, and counts `y` up. -/
def copyRound (destination x y : Nat) : Body :=
  .call (.loadOwned x (.var y))
    (.call (.store (.op .add (.const destination) (.var y)) (.var x))
      (.call (.assign y (.op .add (.var y) (.const 1))) .done))

/-- One round copies one byte. -/
theorem runBody_copyRound {s : State} {i : Nat} {b : Byte} (destination : Nat) {x y : Nat} (hxy : x ≠ y)
    (hy : s.vars.read y = i) (hcap : i < s.cfg.cap) (hb : s.ctx.txBuffer.read i = some b) :
    ∃ v : Variables, v.read y = i + 1 ∧
      runBody (copyRound destination x y) s =
        .next { s with memory := s.memory.write (destination + i) b, vars := v } := by
  have hload : (s.vars.write x b.toNat).read y = i := by rw [Variables.read_write, if_neg hxy.symm, hy]
  have hbyte : low8 ((s.vars.write x b.toNat).read x) = b := by
    rw [Variables.read_write, if_pos rfl, low8, BitVec.ofNat_toNat, BitVec.setWidth_eq]
  refine ⟨(s.vars.write x b.toNat).write y (i + 1), by rw [Variables.read_write, if_pos rfl], ?_⟩
  simp only [copyRound, runBody, runCall, State.userValue, hy, withTxByte_eq hcap hb, andThen_next, userApply]
  simp only [State.setVariable, State.setMemoryByte, hload, hbyte]

/-- The rounds copy the bytes one after the other. -/
theorem iterate_copyRound {s : State} {i : Nat} {data : List Byte} (destination : Nat) {x y : Nat} (hxy : x ≠ y)
    (hy : s.vars.read y = i) (hcap : i + data.length ≤ s.cfg.cap)
    (hdata : ∀ j b, data[j]? = some b → s.ctx.txBuffer.read (i + j) = some b) :
    ∃ v : Variables, iterate (runBody (copyRound destination x y)) data.length s =
      .next { s with memory := s.memory.writeAll (destination + i) data, vars := v } := by
  induction data generalizing s i with
  | nil => exact ⟨s.vars, rfl⟩
  | cons b rest ih =>
    rw [List.length_cons] at hcap
    obtain ⟨w, hw, hround⟩ := runBody_copyRound destination hxy hy (by omega) (hdata 0 b rfl)
    have hrest : ∀ j c, rest[j]? = some c → s.ctx.txBuffer.read (i + 1 + j) = some c := fun j c hj => by
      rw [show i + 1 + j = i + (j + 1) by omega]
      exact hdata (j + 1) c hj
    obtain ⟨v, hv⟩ := ih (s := { s with memory := s.memory.write (destination + i) b, vars := w }) hw
      (by omega : i + 1 + rest.length ≤ s.cfg.cap) hrest
    exact ⟨v, by rw [List.length_cons, iterate, hround, andThen_next, hv]; rfl⟩

/-- The state in which a Handler run of `TR_STOP` calls `onReceive`. -/
def State.receiveEntered (s : State) : State := (s.enterHandler (s.cfg.code .trStop)).emit .callOnReceive

/-- A receive callback that only changes user state: the run around it clears `busy` and gives its two commands (R156). -/
theorem exec_trStop_of_user_state {s : State} {n : Nat} {m : Memory} {v : Variables} (hs : s.EventReady)
    (hrec : s.ctx.onReceive = some (.user n))
    (hrun : runBody (s.bodyOf n) s.receiveEntered = .next { s.receiveEntered with memory := m, vars := v }) :
    ∃ t, exec .trStop s = .next t ∧ t.ctx = { s.ctx with busy := false } ∧
      t.adapter.actions = s.adapter.actions ++ [.callOnReceive, .ack] ∧ t.memory = m ∧ t.vars = v := by
  obtain ⟨-, hexec, -⟩ := targetReceiveEndCallsTheCallbackAndClearsBusy s hs
  exact ⟨_, hexec n _ hrec hrun, rfl, by simp [State.handled, State.receiveEntered], rfl, rfl⟩

/-- Both bodies that copy the received bytes leave a block write to memory. -/
theorem runBody_copies {s : State} {body : Body} {destination x y : Nat} {data : List Byte}
    (hcap : data.length ≤ s.cfg.cap) (hxy : x ≠ y) (hy : s.vars.read y = 0)
    (hdata : ∀ i b, data[i]? = some b → s.ctx.txBuffer.read i = some b)
    (hbody : body = .call (.copyOwned destination data.length) .done ∨
      body = .loop (.const data.length) (copyRound destination x y) .done) :
    ∃ v : Variables, runBody body s = .next { s with memory := s.memory.writeAll destination data, vars := v } := by
  have hdata : ∀ j b, data[j]? = some b → s.ctx.txBuffer.read (0 + j) = some b := fun j b hj => by
    rw [Nat.zero_add]
    exact hdata j b hj
  rcases hbody with rfl | rfl
  · refine ⟨s.vars, ?_⟩
    rw [runBody, runCall, copyOwned_eq destination _ (by omega) hdata]
    rfl
  · obtain ⟨v, hv⟩ := iterate_copyRound destination hxy hy (by omega) hdata
    refine ⟨v, ?_⟩
    rw [runBody, State.userValue, hv]
    rfl

/-- Settles O18: the bodies leave a block write, or one variable. -/
theorem receiveCallbackReadsTheReceivedBytes : Obligations.ReceiveCallbackReadsTheReceivedBytes := by
  intro s n hs hrec
  refine ⟨fun destination x y data hcap hxy hy hdata hbody => ?_, fun x index b hbody hcap hb => ?_⟩
  · obtain ⟨v, hv⟩ := runBody_copies (s := s.receiveEntered) hcap hxy hy hdata hbody
    obtain ⟨t, ht, hctx, hactions, hmem, -⟩ := exec_trStop_of_user_state hs hrec hv
    refine ⟨t, ht, hctx, hactions, fun i b hi => ?_, fun a ha => ?_⟩
    · have hlt := (List.getElem?_eq_some_iff.mp hi).1
      rw [hmem, Memory.read_writeAll, if_pos (by omega), Nat.add_sub_cancel_left, hi]
    · rw [hmem, Memory.read_writeAll, if_neg (by omega)]
      rfl
  · have hrun : runBody (s.bodyOf n) s.receiveEntered =
        .next { s.receiveEntered with memory := s.memory, vars := s.vars.write x b.toNat } := by
      rw [hbody, runBody, runCall]
      have hv : s.receiveEntered.userValue index = s.userValue index :=
        userValue_congr (s := s) (t := s.receiveEntered) rfl rfl index
      rw [hv, withTxByte_eq (s := s.receiveEntered) hcap hb]
      rfl
    obtain ⟨t, ht, hctx, -, hmem, hvars⟩ := exec_trStop_of_user_state hs hrec hrun
    refine ⟨t, ht, hctx, hmem, ?_, fun y hy => ?_⟩
    · rw [hvars, Variables.read_write, if_pos rfl]
    · rw [hvars, Variables.read_write, if_neg hy]

end Sys2Proof.Machine
end

section
/-! The invariant of one device, first part (spec/10_state.md section 6): what one call of a callback does, taken apart once,
and the bounds and canonical forms of the data, kept by a call, a body, a callback and every rule of the Handler. -/

namespace Sys2Proof.Machine

/-! ### What one call of a callback does -/

/-- `transmit` answers only inside an `onRequest` run and within its bounds, and then as R187 says. -/
theorem transmitRule_inv {s t : State} {data : List Byte} {n : Nat} (h : transmitRule data n s = .next t) :
    s.RequestReady ∧ 1 ≤ n ∧ n ≤ s.cfg.cap ∧ n ≤ data.length ∧ t = s.transmitted data n := by
  have h' := h
  rw [transmitRule, hostCall_eq_next] at h'
  obtain ⟨hinit, -, h'⟩ := h'
  split_ifs at h' with hreq hzero hcap hdata htwice
  have hready : s.RequestReady := by
    simp only [Bool.not_eq_true', Bool.and_eq_false_iff, not_or, Bool.not_eq_false] at hreq
    refine ⟨hinit, hreq.1, hreq.2, ?_⟩
    simp only [Bool.and_eq_true, decide_eq_true_eq, not_and] at htwice
    cases hs : s.cfg.secondTransmit with
    | lastWins => exact .inr rfl
    | refuse => exact .inl (by simpa [hs] using htwice)
  refine ⟨hready, by omega, by omega, by omega, ?_⟩
  rw [transmitRule_eq hready (by omega) (by omega) (by omega)] at h
  exact (Host.Outcome.next.inj h).symm

/-- Everything a call may change in a Handler run: a `transmit`; a slot or a result, with what is used up of the
environment; memory; a variable (R165). -/
inductive CallEffect (s : State) : State → Prop where
  | transmit (data : List Byte) (n : Nat) (h1 : 1 ≤ n) (hcap : n ≤ s.cfg.cap) (hdata : n ≤ data.length) :
    CallEffect s (s.transmitted data n)
  | answer (onRequest onReceive : Option CallbackRef) (r : Result) (e : Environment) :
    CallEffect s { s with
      ctx := { s.ctx with onRequest := onRequest, onReceive := onReceive }
      run := { s.run with callbackResult := r }
      env := e }
  | userMemory (m : Memory) (h : s.memory.wf → m.wf) : CallEffect s { s with memory := m }
  | userVariable (x v : Nat) (e : Environment) : CallEffect s { s with vars := s.vars.write x v, env := e }

/-- The block copy of user code writes memory and nothing else, and keeps its canonical form. -/
theorem copyOwned_memory {s t : State} {d i n : Nat} {k : State → Out} (h : s.copyOwned d i n k = .next t) :
    ∃ m : Memory, (s.memory.wf → m.wf) ∧ k { s with memory := m } = .next t := by
  induction n generalizing s i with
  | zero => exact ⟨s.memory, id, h⟩
  | succ n ih =>
    rw [State.copyOwned, withTxByte_eq_next] at h
    obtain ⟨-, b, -, h⟩ := h
    obtain ⟨m, hm, h⟩ := ih h
    exact ⟨m, fun hs => hm (Memory.wf_write hs _ _), h⟩

/-- An operation that only answers inside a Handler run. -/
theorem CallEffect.of_answer {s u : State} (hh : s.run.inHandler = true) (r : Result) (onRequest onReceive : Option CallbackRef)
    (e : Environment)
    (hu : u = { s with ctx := { s.ctx with onRequest := onRequest, onReceive := onReceive }, env := e }) :
    CallEffect s (u.answer r) := by
  subst hu
  have h := CallEffect.answer (s := s) onRequest onReceive r e
  rwa [State.answer, if_pos hh]

theorem useLastError_env (s : State) : ∃ e, s.useLastError = { s with env := e } := by
  unfold State.useLastError
  split_ifs
  · exact ⟨s.env, rfl⟩
  · exact ⟨_, rfl⟩

theorem useInput_env (s : State) : ∃ e, s.useInput = { s with env := e } := by
  unfold State.useInput
  split <;> exact ⟨_, rfl⟩

theorem execSetOnRequest_effect {n : Nat} {s t : State} (hh : s.run.inHandler = true)
    (h : execSetOnRequest n s = .next t) : CallEffect s t := by
  rw [execSetOnRequest, hostCall_eq_next] at h
  obtain ⟨-, -, h⟩ := h
  obtain rfl := Host.Outcome.next.inj h
  exact .of_answer hh _ (some (.user n)) s.ctx.onReceive s.env rfl

theorem execSetOnReceive_effect {n : Nat} {s t : State} (hh : s.run.inHandler = true)
    (h : execSetOnReceive n s = .next t) : CallEffect s t := by
  rw [execSetOnReceive, hostCall_eq_next] at h
  obtain ⟨-, -, h⟩ := h
  obtain rfl := Host.Outcome.next.inj h
  exact .of_answer hh _ s.ctx.onRequest (some (.user n)) s.env rfl

theorem execAddressForIdentity_effect {id : Nat} {s t : State} (hh : s.run.inHandler = true)
    (h : execAddressForIdentity id s = .next t) : CallEffect s t := by
  rw [execAddressForIdentity, hostCall_eq_next] at h
  obtain ⟨-, -, h⟩ := h
  split_ifs at h
  obtain rfl := Host.Outcome.next.inj h
  exact .of_answer hh _ s.ctx.onRequest s.ctx.onReceive s.env rfl

theorem execTransmit_effect {data : List Byte} {n : Nat} {s t : State} (h : execTransmit data n s = .next t) :
    CallEffect s t := by
  obtain ⟨-, h1, hcap, hdata, rfl⟩ := transmitRule_inv h
  exact .transmit data n h1 hcap hdata

theorem runCall_effect {c : Call} {s t : State} (hh : s.run.inHandler = true) (h : runCall c s = .next t) :
    CallEffect s t := by
  cases c with
  | configureAddress => simp [runCall, execConfigureAddress, hostCall_eq_next, hh] at h
  | write => simp [runCall, execWrite, beginWrite, hostCall_eq_next, blockingCall_eq_next, hh] at h
  | read => simp [runCall, execRead, beginRead, hostCall_eq_next, blockingCall_eq_next, hh] at h
  | handshake => simp [runCall, execHandshake, hostCall_eq_next, blockingCall_eq_next, hh] at h
  | transmit | transmitComputed => exact execTransmit_effect h
  | setOnRequest | setOnRequestComputed => exact execSetOnRequest_effect hh h
  | setOnReceive | setOnReceiveComputed => exact execSetOnReceive_effect hh h
  | addressForIdentity | addressForIdentityComputed => exact execAddressForIdentity_effect hh h
  | lastError =>
    rw [runCall, execLastError, hostCall_eq_next] at h
    obtain ⟨-, -, h⟩ := h
    obtain rfl := Host.Outcome.next.inj h
    obtain ⟨e, he⟩ := useLastError_env s
    exact .of_answer hh _ s.ctx.onRequest s.ctx.onReceive e he
  | ownedBuffer =>
    rw [runCall, execOwnedBuffer, hostCall_eq_next] at h
    obtain ⟨-, -, h⟩ := h
    obtain rfl := Host.Outcome.next.inj h
    exact .of_answer hh _ s.ctx.onRequest s.ctx.onReceive s.env rfl
  | copyOwned d n =>
    obtain ⟨m, hm, h⟩ := copyOwned_memory h
    obtain rfl := Host.Outcome.next.inj h
    exact .userMemory m hm
  | loadOwned x index =>
    rw [runCall, withTxByte_eq_next] at h
    obtain ⟨-, b, -, h⟩ := h
    obtain rfl := Host.Outcome.next.inj h
    exact .userVariable x b.toNat s.env
  | load x address =>
    rw [runCall, withMemoryByte_eq_next] at h
    obtain ⟨b, -, h⟩ := h
    obtain rfl := Host.Outcome.next.inj h
    exact .userVariable x b.toNat s.env
  | store address value =>
    obtain rfl := Host.Outcome.next.inj h
    exact .userMemory _ fun hs => Memory.wf_write hs _ _
  | assign x value =>
    obtain rfl := Host.Outcome.next.inj h
    exact .userVariable x _ s.env
  | input x =>
    obtain rfl := Host.Outcome.next.inj h
    obtain ⟨e, he⟩ := useInput_env s
    rw [he]
    exact .userVariable x _ e

theorem CallEffect.inHandler {s t : State} (h : CallEffect s t) : t.run.inHandler = s.run.inHandler := by
  cases h <;> rfl

/-! ### What every call keeps, every callback keeps -/

/-- A predicate on states that every call in a Handler run keeps. -/
def KeptByCalls (P : State → Prop) : Prop := ∀ s t, P s → CallEffect s t → P t

theorem iterate_keeps {P : State → Prop} {k : State → Out}
    (hk : ∀ s t, P s → s.run.inHandler = true → k s = .next t → P t ∧ t.run.inHandler = true) {n : Nat} {s t : State}
    (hs : P s) (hh : s.run.inHandler = true) (h : iterate k n s = .next t) : P t ∧ t.run.inHandler = true := by
  induction n generalizing s with
  | zero =>
    obtain rfl := Host.Outcome.next.inj h
    exact ⟨hs, hh⟩
  | succ n ih =>
    obtain ⟨u, hu, h⟩ := andThen_eq_next.mp h
    obtain ⟨hu, huh⟩ := hk s u hs hh hu
    exact ih hu huh h

theorem runBody_keeps {P : State → Prop} (hP : KeptByCalls P) {b : Body} {s t : State} (hs : P s)
    (hh : s.run.inHandler = true) (h : runBody b s = .next t) : P t ∧ t.run.inHandler = true := by
  induction b generalizing s t with
  | done =>
    obtain rfl := Host.Outcome.next.inj h
    exact ⟨hs, hh⟩
  | call c rest ih =>
    obtain ⟨u, hu, h⟩ := andThen_eq_next.mp h
    have he := runCall_effect hh hu
    exact ih (hP s u hs he) (he.inHandler.trans hh) h
  | choose condition yes no rest ihy ihn ih =>
    obtain ⟨u, hu, h⟩ := andThen_eq_next.mp h
    have hu : P u ∧ u.run.inHandler = true := by
      split at hu
      · exact ihy hs hh hu
      · exact ihn hs hh hu
    exact ih hu.1 hu.2 h
  | loop times body rest ihb ih =>
    obtain ⟨u, hu, h⟩ := andThen_eq_next.mp h
    obtain ⟨hu, huh⟩ := iterate_keeps (fun _ _ => ihb) hs hh hu
    exact ih hu huh h

/-- A callback keeps what every call keeps and the count of a probe keeps (R165, R227). -/
theorem runCallback_keeps {P : State → Prop} (hP : KeptByCalls P)
    (hcount : ∀ s, P s → s.control.hsCounter < s.cfg.maxIndex → P (s.setHsCounter (s.control.hsCounter + 1)))
    {c : CallbackRef} {s t : State} (hs : P s) (hh : s.run.inHandler = true) (h : runCallback c s = .next t) : P t := by
  cases c with
  | user n => exact (runBody_keeps hP hs hh h).1
  | hsOnRequest =>
    rw [runCallback, hsOnRequestBody, reading_eq_next] at h
    obtain ⟨-, h⟩ := h
    split_ifs at h with hlt
    exact hP _ _ (hcount s hs hlt) (execTransmit_effect h)
  | hsOnReceive =>
    obtain rfl := Host.Outcome.next.inj h
    exact hs

/-! ### The bounds and canonical forms of the data -/

/-- The part of the invariant that speaks of data: the legal parameters, the canonical memories, the bounds of the
indices. -/
structure State.Bounded (s : State) : Prop where
  legal : s.cfg.Legal
  memory : s.memory.wf
  txBuffer : s.ctx.txBuffer.wf
  txBound : ∀ cell ∈ s.ctx.txBuffer, cell.1 < s.cfg.cap
  vars : s.vars.wf
  cursor : s.ctx.cursor ≤ s.cfg.maxIndex
  length : s.ctx.length ≤ s.cfg.maxIndex
  counter : s.control.hsCounter ≤ s.cfg.maxIndex

theorem State.Inv.bounded {s : State} (h : s.Inv) : s.Bounded :=
  ⟨h.legal, h.memory, h.txBuffer, h.txBound, h.vars, h.cursor, h.length, h.counter⟩

/-- The bounds depend on the fields they name only. -/
theorem State.Bounded.congr {s t : State} (h : s.Bounded) (hcfg : t.cfg = s.cfg := by rfl)
    (hmem : t.memory = s.memory := by rfl) (htx : t.ctx.txBuffer = s.ctx.txBuffer := by rfl)
    (hvars : t.vars = s.vars := by rfl) (hcur : t.ctx.cursor = s.ctx.cursor := by rfl)
    (hlen : t.ctx.length = s.ctx.length := by rfl) (hcnt : t.control.hsCounter = s.control.hsCounter := by rfl) :
    t.Bounded := by
  obtain ⟨h1, h2, h3, h4, h5, h6, h7, h8⟩ := h
  constructor <;> simp only [hcfg, hmem, htx, hvars, hcur, hlen, hcnt] <;> assumption

theorem State.Bounded.cap_le {s : State} (h : s.Bounded) : s.cfg.cap ≤ s.cfg.maxIndex := h.legal.1.2

theorem State.Bounded.setCursor {s : State} (h : s.Bounded) {n : Nat} (hn : n ≤ s.cfg.maxIndex) :
    (s.setCursor n).Bounded := { h with cursor := hn }

theorem State.Bounded.setLength {s : State} (h : s.Bounded) {n : Nat} (hn : n ≤ s.cfg.maxIndex) :
    (s.setLength n).Bounded := { h with length := hn }

theorem State.Bounded.setHsCounter {s : State} (h : s.Bounded) {n : Nat} (hn : n ≤ s.cfg.maxIndex) :
    (s.setHsCounter n).Bounded := { h with counter := hn }

theorem State.Bounded.setTxBuffer {s : State} (h : s.Bounded) {m : Memory} (hm : m.wf)
    (hb : ∀ cell ∈ m, cell.1 < s.cfg.cap) : (s.setTxBuffer m).Bounded := { h with txBuffer := hm, txBound := hb }

/-- A byte stored below `CAP` keeps the bounds. -/
theorem State.Bounded.storeTx {s : State} (h : s.Bounded) {i : Nat} (hi : i < s.cfg.cap) (b : Byte) :
    (s.setTxBuffer (s.ctx.txBuffer.write i b)).Bounded :=
  h.setTxBuffer (Memory.wf_write h.txBuffer i b) (Memory.bound_write h.txBound hi)

theorem State.Bounded.storeRegion {s : State} (h : s.Bounded) (rx : RxTarget) (i : Nat) (b : Byte) :
    (s.storeRegion rx i b).Bounded := by
  unfold State.storeRegion
  split
  · exact { h with memory := Memory.wf_write h.memory _ _ }
  · exact h.congr

theorem State.Bounded.keptByCalls : KeptByCalls State.Bounded := by
  intro s t h he
  cases he with
  | transmit data n h1 hcap hdata =>
    have hlen : 0 + (data.take n).length ≤ s.cfg.cap := by
      rw [List.length_take]
      omega
    exact { h with
      txBuffer := Memory.wf_writeAll h.txBuffer 0 _
      txBound := Memory.bound_writeAll h.txBound hlen
      cursor := Nat.zero_le _
      length := hcap.trans h.cap_le }
  | answer => exact h.congr
  | userMemory m hm => exact { h with memory := hm h.memory }
  | userVariable x v => exact { h with vars := Variables.wf_write h.vars x v }

theorem State.Bounded.runCallback {c : CallbackRef} {s t : State} (h : s.Bounded) (hh : s.run.inHandler = true)
    (ht : runCallback c s = .next t) : t.Bounded :=
  runCallback_keeps State.Bounded.keptByCalls (fun _ h hlt => h.setHsCounter hlt) h hh ht

end Sys2Proof.Machine
end

section
/-! The invariant of one device, second part (spec/10_state.md section 6, spec/60_exceptions.md section 3): it is kept inside
a Handler run by every rule, and so by every Handler run; by every micro-step of Host; by every call; and so by every step. -/

namespace Sys2Proof.Machine

/-! ### Inside a Handler run -/

/-- The invariant inside a Handler run, between its entry and its return (R260, R261). -/
structure State.RunInv (s : State) : Prop where
  bounded : s.Bounded
  initialised : s.control.initialised = true
  inHandler : s.run.inHandler = true
  request : s.run.requestRun = false
  stopWait : s.run.stopWait = true → s.adapter.stopPending = true
  phase : s.run.phase.Sound s.cfg

theorem State.Inv.enterHandler {s : State} (h : s.Inv) (hi : s.control.initialised = true) (raw : Byte) :
    (s.enterHandler raw).RunInv :=
  ⟨h.bounded.congr, hi, rfl, h.request, h.stopWait, h.phase⟩

/-- The invariant from its parts, once events are enabled. -/
theorem State.Inv.of_initialised {s : State} (hb : s.Bounded) (hi : s.control.initialised = true)
    (hh : s.run.inHandler = s.run.stopWait) (hr : s.run.requestRun = false)
    (hw : s.run.stopWait = true → s.adapter.stopPending = true) (hp : s.run.phase.Sound s.cfg) : s.Inv :=
  ⟨hb.legal, hb.memory, hb.txBuffer, hb.txBound, hb.vars, hb.cursor, hb.length, hb.counter, hh, hr, hw,
    fun h => absurd hi (by simp [h]), hp⟩

theorem State.RunInv.leaveHandler {s : State} (h : s.RunInv) : s.leaveHandler.Inv := by
  have hb : s.leaveHandler.Bounded := h.bounded.congr (by simp) (by simp) (by simp) (by simp) (by simp) (by simp) (by simp)
  cases hw : s.run.stopWait with
  | true =>
    have he : s.leaveHandler = s := by simp [State.leaveHandler, hw]
    rw [he] at hb ⊢
    exact .of_initialised hb h.initialised (by rw [h.inHandler, hw]) h.request h.stopWait h.phase
  | false =>
    rw [leaveHandler_eq hw] at hb ⊢
    exact .of_initialised hb h.initialised hw.symm h.request h.stopWait h.phase

/-- An update that leaves the control points alone and keeps the bounds keeps the invariant of a run. -/
theorem State.RunInv.of_run_eq {s t : State} (h : s.RunInv) (hb : t.Bounded) (hcfg : t.cfg = s.cfg := by rfl)
    (hrun : t.run = s.run := by rfl) (hi : t.control.initialised = s.control.initialised := by rfl)
    (hp : s.adapter.stopPending = true → t.adapter.stopPending = true := by exact id) : t.RunInv :=
  ⟨hb, hi.trans h.initialised, by rw [hrun, h.inHandler], by rw [hrun, h.request],
    fun hw => hp (h.stopWait (by rwa [hrun] at hw)), by rw [hrun, hcfg]; exact h.phase⟩

/-- What a rule of the Handler keeps. -/
def RuleKeepsRunInv (rule : State → Out) : Prop := ∀ s t, s.RunInv → rule s = .next t → t.RunInv

theorem startRule_keepsRunInv : RuleKeepsRunInv startRule := by
  intro s t h ht
  obtain ⟨-, rfl⟩ := startRule_eq_next.mp ht
  exact h.of_run_eq h.bounded.congr

theorem ctSendNext_keepsRunInv : RuleKeepsRunInv ctSendNext := by
  intro s t h ht
  obtain ⟨-, -, ⟨-, rfl⟩ | ⟨hlt, -, b, -, rfl⟩⟩ := ctSendNext_eq_next.mp ht
  · exact h.of_run_eq h.bounded.congr (hp := fun _ => rfl)
  · have hb := h.bounded.setCursor (n := s.ctx.cursor + 1) (hlt.trans_le h.bounded.length)
    exact h.of_run_eq hb.congr

theorem arbLostRule_keepsRunInv (raw : Byte) : RuleKeepsRunInv (arbLostRule raw) := by
  intro s t h ht
  obtain rfl := Host.Outcome.next.inj ht
  exact h.of_run_eq h.bounded.congr

/-- The reply by exhaustion changes what the adapter holds only, and no pending stop. -/
theorem State.RunInv.replyByExhaustion {s : State} (h : s.RunInv) : s.replyByExhaustion.RunInv := by
  rw [replyByExhaustion_eq]
  exact h.of_run_eq h.bounded.congr

theorem crAddrAckRule_keepsRunInv : RuleKeepsRunInv crAddrAckRule := by
  intro s t h ht
  obtain ⟨-, -, rfl⟩ := crAddrAckRule_eq_next.mp ht
  exact h.replyByExhaustion

/-- The adapter shifts in a byte. -/
theorem State.RunInv.receiveByte {s : State} (h : s.RunInv) (v : Byte) : (s.receiveByte v).RunInv :=
  h.of_run_eq h.bounded.congr

theorem State.RunInv.storeRegion {s : State} (h : s.RunInv) (rx : RxTarget) (i : Nat) (b : Byte) :
    (s.storeRegion rx i b).RunInv :=
  h.of_run_eq (h.bounded.storeRegion rx i b) (by simp) (by simp) (by simp) (by simp)

theorem State.RunInv.setCursor {s : State} (h : s.RunInv) {n : Nat} (hn : n ≤ s.cfg.maxIndex) : (s.setCursor n).RunInv :=
  h.of_run_eq (h.bounded.setCursor hn)

theorem crDataAckRule_keepsRunInv : RuleKeepsRunInv crDataAckRule := by
  intro s t h ht
  obtain ⟨-, -, -, hlt, -, rfl⟩ := crDataAckRule_eq_next.mp ht
  have hn : s.ctx.cursor + 1 ≤ s.cfg.maxIndex := hlt.trans_le h.bounded.length
  exact ((h.storeRegion _ _ _).setCursor (by simpa using hn)).replyByExhaustion

theorem crDataNackRule_keepsRunInv : RuleKeepsRunInv crDataNackRule := by
  intro s t h ht
  obtain ⟨-, -, -, rfl⟩ := crDataNackRule_eq_next.mp ht
  have h := h.storeRegion s.ctx.rxTarget s.ctx.cursor s.readDataLatch
  exact h.of_run_eq h.bounded.congr (hp := fun _ => rfl)

theorem trAddressed_keepsRunInv : RuleKeepsRunInv trAddressed := by
  intro s t h ht
  obtain rfl := Host.Outcome.next.inj ht
  have h := h.setCursor (Nat.zero_le s.cfg.maxIndex)
  exact h.of_run_eq h.bounded.congr

theorem trDataRule_keepsRunInv : RuleKeepsRunInv trDataRule := by
  intro s t h ht
  obtain ⟨-, hcap, rfl⟩ := trDataRule_eq_next.mp ht
  have hb := (h.bounded.storeTx hcap s.readDataLatch).setCursor (n := s.ctx.cursor + 1) (hcap.trans_le h.bounded.cap_le)
  exact h.of_run_eq hb.congr

/-- The code of a callback keeps the invariant of a run, but for whether it is inside an `onRequest` call, which it leaves
as it is (R165). -/
theorem runCallback_runInv {c : CallbackRef} {s t : State} (hb : s.Bounded) (hi : s.control.initialised = true)
    (hh : s.run.inHandler = true) (hw : s.run.stopWait = true → s.adapter.stopPending = true)
    (hp : s.run.phase.Sound s.cfg) (ht : runCallback c s = .next t) :
    t.Bounded ∧ t.control.initialised = true ∧ t.run.inHandler = true ∧ t.run.requestRun = s.run.requestRun ∧
      (t.run.stopWait = true → t.adapter.stopPending = true) ∧ t.run.phase.Sound t.cfg := by
  obtain ⟨hcfg, -, hadapter, -, -, -, hinit, -, hphase, hin, hwait, hreq, -⟩ := runCallback_frame hh ht
  refine ⟨hb.runCallback hh ht, hinit.trans hi, hin.trans hh, hreq, fun h => ?_, ?_⟩
  · rw [hadapter]
    exact hw (hwait ▸ h)
  · rw [hphase, hcfg]
    exact hp

theorem trStopRule_keepsRunInv : RuleKeepsRunInv trStopRule := by
  intro s t h ht
  obtain ⟨u, hu, rfl⟩ := trStopRule_eq_next.mp ht
  obtain ⟨callback, -, hu⟩ := callOnReceive_eq_next.mp hu
  obtain ⟨hb, hi, hh, hr, hw, hp⟩ := runCallback_runInv (s := s.emit .callOnReceive) h.bounded.congr
    h.initialised h.inHandler h.stopWait h.phase hu
  exact ⟨hb.congr, hi, hh, hr.trans h.request, hw, hp⟩

theorem ttSendNext_keepsRunInv : RuleKeepsRunInv ttSendNext := by
  intro s t h ht
  obtain ⟨-, -, hlt, -, b, -, rfl⟩ := ttSendNext_eq_next.mp ht
  have h := h.setCursor (n := s.ctx.cursor + 1) (hlt.trans_le h.bounded.length)
  exact (h.of_run_eq (t := (s.setCursor (s.ctx.cursor + 1)).writeDataLatch b)
    h.bounded.congr).replyByExhaustion

theorem ttAddressed_keepsRunInv : RuleKeepsRunInv ttAddressed := by
  intro s t h ht
  obtain ⟨u, hu, ht⟩ := ttAddressed_eq_next.mp ht
  obtain ⟨callback, v, -, hv, -, rfl⟩ := callOnRequest_eq_next.mp hu
  obtain ⟨hb, hi, hh, -, hw, hp⟩ := runCallback_runInv (s := s.setArmed.beginRequest.emit .callOnRequest)
    h.bounded.congr h.initialised h.inHandler h.stopWait h.phase hv
  exact ttSendNext_keepsRunInv v.endRequest t ⟨hb.congr, hi, hh, rfl, hw, hp⟩ ht

theorem ttEndRule_keepsRunInv : RuleKeepsRunInv ttEndRule := by
  intro s t h ht
  obtain rfl := Host.Outcome.next.inj ht
  exact h.of_run_eq h.bounded.congr

/-- A poll keeps it: the wait and the pending stop end together (R162). -/
theorem State.RunInv.pollStop {s : State} (h : s.RunInv) : s.pollStop.RunInv := by
  have hb : s.useStopAnswer.Bounded :=
    h.bounded.congr (by simp) (by simp) (by simp) (by simp) (by simp) (by simp) (by simp)
  have hu : s.useStopAnswer.RunInv := h.of_run_eq hb (by simp) (by simp) (by simp) (by simp)
  rw [pollStop_eq]
  split_ifs
  · exact ⟨hb.congr (htx := by simp) (hcur := by simp) (hlen := by simp), hu.initialised, h.inHandler, h.request, nofun,
      by simpa using h.phase⟩
  · exact hu

theorem errorRule_keepsRunInv (raw : Byte) : RuleKeepsRunInv (errorRule raw) := by
  intro s t h ht
  obtain rfl := Host.Outcome.next.inj ht
  exact State.RunInv.pollStop ⟨h.bounded.congr, h.initialised, h.inHandler, h.request,
    fun _ => rfl, h.phase⟩

/-- Every rule a status selects keeps the invariant of a run (R140). -/
theorem ruleOf_keepsRunInv (c : Config) {i : Instr} (hi : i.format = .status) : RuleKeepsRunInv (ruleOf c i) := by
  cases i with
  | start | repStart => exact startRule_keepsRunInv
  | ctAddrAck | ctDataAck => exact ctSendNext_keepsRunInv
  | arbLost => exact arbLostRule_keepsRunInv _
  | crAddrAck => exact crAddrAckRule_keepsRunInv
  | crDataAck v => exact fun s t h => crDataAckRule_keepsRunInv _ t (h.receiveByte v)
  | crDataNack v => exact fun s t h => crDataNackRule_keepsRunInv _ t (h.receiveByte v)
  | trAddrAck | trArbLostAddrAck | trGcallAck | trArbLostGcallAck => exact trAddressed_keepsRunInv
  | trDataAck v | trGcallDataAck v => exact fun s t h => trDataRule_keepsRunInv _ t (h.receiveByte v)
  | trStop => exact trStopRule_keepsRunInv
  | ttAddrAck | ttArbLostAddrAck => exact ttAddressed_keepsRunInv
  | ttDataAck => exact ttSendNext_keepsRunInv
  | ttDataNack | ttLastData => exact ttEndRule_keepsRunInv
  | busError | ctAddrNack | ctDataNack | crAddrNack | trDataNack | trGcallDataNack | noInfo | otherStatus =>
    exact errorRule_keepsRunInv _
  | _ => cases hi

/-- A Handler run keeps the invariant. -/
theorem State.Inv.exec_status {i : Instr} {s t : State} (h : s.Inv) (hi : i.format = .status) (ht : exec i s = .next t) :
    t.Inv := by
  obtain ⟨hd, u, hu, rfl⟩ := exec_status_eq_next hi ht
  obtain ⟨hinit, -⟩ := (deliverable_iff s).mp hd
  exact (ruleOf_keepsRunInv _ hi _ _ (h.enterHandler hinit _) hu).leaveHandler

/-! ### Host -/

/-- An operation in progress means that `init()` has been called (R290). -/
theorem State.Inv.initialised_of_phase {s : State} (h : s.Inv) (hp : s.run.phase ≠ .idle) :
    s.control.initialised = true := by
  cases hi : s.control.initialised with
  | true => rfl
  | false =>
    obtain ⟨-, -, -, -, -, hidle, -⟩ := h.passive hi
    exact absurd hidle hp

/-- What a micro-step does before it moves Host's control point: it leaves the control points, the parameters,
`initialised` and a pending stop alone. -/
def SameRun (s u : State) : Prop :=
  u.run = s.run ∧ u.cfg = s.cfg ∧ u.control.initialised = s.control.initialised ∧
    u.adapter.stopPending = s.adapter.stopPending

/-- A micro-step that moves Host's control point to a sound one keeps the invariant. -/
theorem State.Inv.goto {s u : State} (h : s.Inv) (hi : s.control.initialised = true) {p : Phase} (hp : p.Sound s.cfg)
    (hb : u.Bounded) (hu : SameRun s u := by exact ⟨rfl, rfl, rfl, rfl⟩) : (u.goto p).Inv := by
  obtain ⟨hrun, hcfg, hinit, hstop⟩ := hu
  refine .of_initialised hb.congr (hinit.trans hi) ?_ ?_ ?_ ?_
  · simpa [hrun] using h.handler
  · simpa [hrun] using h.request
  · simpa [hrun, hstop] using h.stopWait
  · simpa [hcfg] using hp

/-- A micro-step that returns to ordinary code keeps it. -/
theorem State.Inv.finish {s u : State} (h : s.Inv) (hi : s.control.initialised = true) (hb : u.Bounded) (r : Result)
    (hu : SameRun s u := by exact ⟨rfl, rfl, rfl, rfl⟩) : (u.finish r).Inv := by
  have hg := h.goto hi (p := .idle) trivial hb hu
  exact .of_initialised (hg.bounded.congr) (hu.2.2.1.trans hi) hg.handler hg.request hg.stopWait
    trivial

/-- One round of the idle confirmation never sets the counter above its start (R194). -/
theorem idleRound_le {s : State} {c c' : Nat} (hc : c ≤ s.cfg.idleThreshold) (h : idleRound s c = .again c') :
    c' ≤ s.cfg.idleThreshold := by
  cases c with
  | zero => cases h
  | succ c =>
    simp only [idleRound] at h
    split_ifs at h
    · cases h
      omega
    · split at h <;> cases h
      exact le_rfl

/-- Taking a sample of the lines leaves everything of a state but what the trace and the environment hold. -/
theorem idleSample_sameRun (s : State) (c : Nat) : SameRun s (idleSample s c) ∧ (s.Bounded → (idleSample s c).Bounded) := by
  cases c with
  | zero => exact ⟨⟨rfl, rfl, rfl, rfl⟩, id⟩
  | succ c =>
    have hp : s.observeLines.adapter.stopPending = s.adapter.stopPending := by
      unfold State.observeLines
      split <;> rfl
    exact ⟨⟨State.observeLines_run s, State.observeLines_cfg s, by simp [idleSample], hp⟩,
      fun h => h.congr (by simp [idleSample]) (by simp [idleSample]) (by simp [idleSample]) (by simp [idleSample])
        (by simp [idleSample]) (by simp [idleSample]) (by simp [idleSample])⟩

/-- Moving within a `write` needs only the counter of the new point. -/
theorem sound_write {c : Config} {w : WriteCall} {pt pt' : WriteAt} (h : (Phase.write w pt).Sound c)
    (h2 : ∀ j, pt' = .w2 j → j ≤ w.length := by nofun) (h7 : ∀ n, pt' = .w7 n → n ≤ c.idleThreshold := by nofun) :
    (Phase.write w pt').Sound c := by
  obtain ⟨h1, hcap, hdata, haddr, -, -⟩ := h
  exact ⟨h1, hcap, hdata, haddr, h2, h7⟩

theorem sound_read {c : Config} {r : ReadCall} {pt pt' : ReadAt} {caller : Caller} (h : (Phase.read r pt caller).Sound c)
    (h7 : ∀ n, pt' = .rd7 n → n ≤ c.idleThreshold := by nofun) : (Phase.read r pt' caller).Sound c := by
  obtain ⟨h1, hmax, haddr, -, hcaller⟩ := h
  exact ⟨h1, hmax, haddr, h7, hcaller⟩

theorem writeStep_keepsInv {w : WriteCall} {pt : WriteAt} {s t : State} (h : s.Inv) (hp : s.run.phase = .write w pt)
    (ht : writeStep w pt s = .next t) : t.Inv := by
  have hi : s.control.initialised = true := h.initialised_of_phase (by simp [hp])
  have hsound : (Phase.write w pt).Sound s.cfg := hp ▸ h.phase
  have hcap : w.length ≤ s.cfg.cap := hsound.2.1
  have hb := h.bounded
  cases pt with
  | w1 =>
    obtain rfl := Host.Outcome.next.inj ht
    split_ifs
    · exact h
    · exact h.goto hi (sound_write hsound (h2 := by rintro j ⟨⟩; omega)) hb
  | w2 j =>
    simp only [writeStep] at ht
    split_ifs at ht with hj
    · split at ht
      · obtain ⟨hlt, ht⟩ := storeTx_eq_next.mp ht
        obtain rfl := Host.Outcome.next.inj ht
        exact h.goto hi (sound_write hsound (h2 := by rintro k ⟨⟩; omega)) (hb.storeTx hlt _)
      · cases ht
    · obtain rfl := Host.Outcome.next.inj ht
      exact h.goto hi (sound_write hsound) hb
  | w3Length =>
    obtain rfl := Host.Outcome.next.inj ht
    exact h.goto hi (sound_write hsound) (hb.setLength (hcap.trans hb.cap_le))
  | w3Cursor =>
    obtain rfl := Host.Outcome.next.inj ht
    exact h.goto hi (sound_write hsound) (hb.setCursor (Nat.zero_le _))
  | w4 | w5 | w7AbortError | w8 =>
    obtain rfl := Host.Outcome.next.inj ht
    exact h.goto hi (sound_write hsound) hb.congr
  | w6 =>
    obtain rfl := Host.Outcome.next.inj ht
    exact h.goto hi (sound_write hsound (h7 := by rintro n ⟨⟩; exact le_rfl)) hb.congr
  | w7 c =>
    obtain ⟨hsame, hsample⟩ := idleSample_sameRun s c
    have hc : c ≤ s.cfg.idleThreshold := hsound.2.2.2.2.2 c rfl
    cases hr : idleRound s c with
    | again c' =>
      simp only [writeStep, hr] at ht
      obtain rfl := Host.Outcome.next.inj ht
      exact h.goto hi (sound_write hsound (h7 := by rintro n ⟨⟩; exact idleRound_le hc hr)) (hsample hb) hsame
    | proceed | aborted =>
      simp only [writeStep, hr] at ht
      obtain rfl := Host.Outcome.next.inj ht
      exact h.goto hi (sound_write hsound) (hsample hb) hsame
  | w7AbortBusy =>
    obtain rfl := Host.Outcome.next.inj ht
    exact h.finish hi hb.congr .nothing
  | w9 =>
    obtain rfl := Host.Outcome.next.inj ht
    split_ifs
    · exact h
    · exact h.finish hi hb .nothing

/-- A `read` returns to ordinary code, or to its handshake at a candidate below `K`. -/
theorem State.Inv.finishRead {s u : State} (h : s.Inv) (hi : s.control.initialised = true) (hb : u.Bounded)
    {caller : Caller} (hc : ∀ i, caller = .handshake i → i < s.cfg.joiners)
    (hu : SameRun s u := by exact ⟨rfl, rfl, rfl, rfl⟩) : (u.finishRead caller).Inv := by
  cases caller with
  | user => exact h.finish hi hb .nothing hu
  | handshake i => exact h.goto hi (p := .handshake i .h2) (hc i rfl) hb hu

theorem readStep_keepsInv {r : ReadCall} {pt : ReadAt} {caller : Caller} {s t : State} (h : s.Inv)
    (hp : s.run.phase = .read r pt caller) (ht : readStep r pt caller s = .next t) : t.Inv := by
  have hi : s.control.initialised = true := h.initialised_of_phase (by simp [hp])
  have hsound : (Phase.read r pt caller).Sound s.cfg := hp ▸ h.phase
  have hmax : r.length ≤ s.cfg.maxIndex := hsound.2.1
  have hcaller : ∀ i, caller = .handshake i → i < s.cfg.joiners := fun i e => (hsound.2.2.2.2 i e).1
  have hb := h.bounded
  cases pt with
  | rd1 =>
    obtain rfl := Host.Outcome.next.inj ht
    split_ifs
    · exact h
    · exact h.goto hi (sound_read hsound) hb
  | rd3Length =>
    obtain rfl := Host.Outcome.next.inj ht
    exact h.goto hi (sound_read hsound) (hb.setLength (n := r.length - 1) (by omega))
  | rd3Cursor =>
    obtain rfl := Host.Outcome.next.inj ht
    exact h.goto hi (sound_read hsound) (hb.setCursor (Nat.zero_le _))
  | rd2 | rd4 | rd5 | rd7AbortError | rd8 =>
    obtain rfl := Host.Outcome.next.inj ht
    exact h.goto hi (sound_read hsound) hb.congr
  | rd6 =>
    obtain rfl := Host.Outcome.next.inj ht
    exact h.goto hi (sound_read hsound (by rintro n ⟨⟩; exact le_rfl)) hb.congr
  | rd7 c =>
    obtain ⟨hsame, hsample⟩ := idleSample_sameRun s c
    have hc : c ≤ s.cfg.idleThreshold := hsound.2.2.2.1 c rfl
    cases hr : idleRound s c with
    | again c' =>
      simp only [readStep, hr] at ht
      obtain rfl := Host.Outcome.next.inj ht
      exact h.goto hi (sound_read hsound (by rintro n ⟨⟩; exact idleRound_le hc hr)) (hsample hb) hsame
    | proceed | aborted =>
      simp only [readStep, hr] at ht
      obtain rfl := Host.Outcome.next.inj ht
      exact h.goto hi (sound_read hsound) (hsample hb) hsame
  | rd7AbortBusy =>
    obtain rfl := Host.Outcome.next.inj ht
    exact h.finishRead hi hb.congr hcaller
  | rd9 =>
    obtain rfl := Host.Outcome.next.inj ht
    split_ifs
    · exact h
    · exact h.finishRead hi hb hcaller

/-- The loop head makes a sound probe, or returns. -/
theorem probeStep_keepsInv {left : Nat} {s t : State} (h : s.Inv) (hp : s.run.phase = .hsLoop left)
    (ht : probeStep left s = .next t) : t.Inv := by
  have hi : s.control.initialised = true := h.initialised_of_phase (by simp [hp])
  have hsound : left ≤ s.cfg.joiners := by simpa [hp, Phase.Sound] using h.phase
  have hb := h.bounded
  cases left with
  | zero =>
    obtain rfl := Host.Outcome.next.inj ht
    exact h.finish hi hb .alreadyComplete
  | succ i =>
    simp only [probeStep] at ht
    split_ifs at ht with haddr
    obtain rfl := Host.Outcome.next.inj ht
    have hone : 1 ≤ s.cfg.maxIndex := hb.legal.1.1.trans hb.legal.1.2
    have hok : addressOk (low8 (s.cfg.offset + i)) = true := by
      simp only [addressOk, low8, BitVec.toNat_ofNat, decide_eq_true_eq]
      omega
    exact h.goto hi ⟨le_rfl, hone, hok, nofun, by rintro k ⟨⟩; exact ⟨hsound, rfl, rfl⟩⟩ hb

/-- The outcome of a probe leads to a sound control point or stops. -/
theorem probeOutcome_keepsInv {i : Nat} {e : LastError} {s t : State} (h : s.Inv) (hi : s.control.initialised = true)
    (hsound : i < s.cfg.joiners) (ht : probeOutcome i e s = .next t) : t.Inv := by
  have hgoto {p : Phase} (hp : p.Sound s.cfg) : (s.goto p).Inv := h.goto hi hp h.bounded
  cases e with
  | noError =>
    obtain rfl := Host.Outcome.next.inj ht
    exact hgoto (p := .hsLoop i) hsound.le
  | code c =>
    simp only [probeOutcome] at ht
    split_ifs at ht
    · obtain rfl := Host.Outcome.next.inj ht
      exact hgoto (p := .handshake i .h4Own) hsound
    · obtain rfl := Host.Outcome.next.inj ht
      exact hgoto (p := .hsLoop (i + 1)) hsound
    · split at ht
      · obtain rfl := Host.Outcome.next.inj ht
        exact hgoto (p := .hsLoop (i + 1)) hsound
      · cases ht

theorem handshakeStep_keepsInv {i : Nat} {pt : HandshakeAt} {s t : State} (h : s.Inv)
    (hp : s.run.phase = .handshake i pt) (ht : handshakeStep i pt s = .next t) : t.Inv := by
  have hi : s.control.initialised = true := h.initialised_of_phase (by simp [hp])
  have hsound : i < s.cfg.joiners := by simpa [hp, Phase.Sound] using h.phase
  have hb := h.bounded
  cases pt with
  | h2 =>
    obtain rfl := Host.Outcome.next.inj ht
    obtain ⟨e, he⟩ := useLastError_env s
    rw [he]
    exact h.goto hi (p := .handshake i (.h3 _)) hsound hb.congr
  | h3 e => exact probeOutcome_keepsInv h hi hsound ht
  | h4Own =>
    obtain rfl := Host.Outcome.next.inj ht
    exact h.goto hi (p := .handshake i .h4Call) hsound hb.congr
  | h4Call =>
    obtain rfl := Host.Outcome.next.inj ht
    exact h.goto hi (p := .handshake i .h5) hsound hb.congr
  | h5 =>
    obtain rfl := Host.Outcome.next.inj ht
    exact h.goto hi (p := .handshake i .h6) hsound hb.congr
  | h6 =>
    obtain rfl := Host.Outcome.next.inj ht
    exact h.goto hi (p := .handshake i .h7) hsound hb.congr
  | h7 =>
    obtain ⟨-, ht⟩ := reading_eq_next.mp ht
    obtain rfl := Host.Outcome.next.inj ht
    split_ifs
    · exact h.finish hi hb (.identity i)
    · exact h

/-- Every micro-step of Host keeps the invariant. -/
theorem hostStep_keepsInv {s t : State} (h : s.Inv) (ht : hostStep s = .next t) : t.Inv := by
  cases hp : s.run.phase with
  | idle =>
    simp only [hostStep, hp] at ht
    obtain rfl := Host.Outcome.next.inj ht
    exact h
  | configure enabled =>
    simp only [hostStep, hp] at ht
    obtain rfl := Host.Outcome.next.inj ht
    exact h.finish (h.initialised_of_phase (by simp [hp])) (u := s.setGeneralCall enabled) h.bounded.congr .nothing
  | write w pt => exact writeStep_keepsInv h hp (by simpa [hostStep, hp] using ht)
  | read r pt caller => exact readStep_keepsInv h hp (by simpa [hostStep, hp] using ht)
  | hsLoop left => exact probeStep_keepsInv h hp (by simpa [hostStep, hp] using ht)
  | handshake i pt => exact handshakeStep_keepsInv h hp (by simpa [hostStep, hp] using ht)

end Sys2Proof.Machine
end

section
/-! The invariant of one device, third part: every call of ordinary code keeps it, every step keeps it, the machine after
reset meets it, and under it Host's micro-steps do not stop (R39, R198). -/

namespace Sys2Proof.Machine

/-! ### Calls of ordinary code -/

/-- An operation that answers leaves the invariant, where what it did before leaves the control points alone. -/
theorem State.Inv.answer {s u : State} (h : s.Inv) (hi : u.control.initialised = true) (hh : s.run.inHandler = false)
    (hb : u.Bounded) (hrun : u.run = s.run := by rfl) (hcfg : u.cfg = s.cfg := by rfl)
    (hstop : u.adapter.stopPending = s.adapter.stopPending := by rfl) (r : Result) : (u.answer r).Inv := by
  rw [State.answer, if_neg (by simp [hrun, hh])]
  refine .of_initialised hb.congr hi ?_ ?_ ?_ ?_
  · simpa [hrun] using h.handler
  · simpa [hrun] using h.request
  · simpa [hrun, hstop] using h.stopWait
  · simpa [hrun, hcfg] using h.phase

theorem beginWrite_keepsInv {address : Byte} {data : List Byte} {length : Nat} {blocking : Bool} {s t : State}
    (h : s.Inv) (ht : beginWrite address data length blocking s = .next t) : t.Inv := by
  rw [beginWrite, hostCall_eq_next, blockingCall_eq_next] at ht
  obtain ⟨hi, -, hh, ht⟩ := ht
  split_ifs at ht with hzero haddr hcap hdata
  · obtain rfl := Host.Outcome.next.inj ht
    exact h.answer hi hh h.bounded (r := .nothing)
  · obtain rfl := Host.Outcome.next.inj ht
    exact h.goto hi ⟨by show 1 ≤ length; omega, not_lt.mp hcap, not_lt.mp hdata, by simpa using haddr, nofun, nofun⟩ h.bounded

theorem beginRead_keepsInv {address : Byte} {destination length : Nat} {s t : State}
    (h : s.Inv) (ht : beginRead address destination length s = .next t) : t.Inv := by
  rw [beginRead, hostCall_eq_next, blockingCall_eq_next] at ht
  obtain ⟨hi, -, hh, ht⟩ := ht
  split_ifs at ht with hzero haddr hmax
  · obtain rfl := Host.Outcome.next.inj ht
    exact h.answer hi hh h.bounded (r := .nothing)
  · obtain rfl := Host.Outcome.next.inj ht
    exact h.goto hi ⟨by show 1 ≤ length; omega, not_lt.mp hmax, by simpa using haddr, nofun, nofun⟩ h.bounded

/-- `transmit` is refused outside an `onRequest` run, so it never answers ordinary code. -/
theorem transmitRule_not_next {data : List Byte} {n : Nat} {s t : State} (hh : s.run.inHandler = false) :
    transmitRule data n s ≠ .next t := by
  intro ht
  obtain ⟨⟨-, hin, -⟩, -⟩ := transmitRule_inv ht
  simp [hh] at hin

/-- Every call of ordinary code that answers keeps the invariant. -/
theorem exec_hostOp_keepsInv {i : Instr} {s t : State} (h : s.Inv) (hf : i.format = .hostOp)
    (hh : s.run.inHandler = false) (ht : exec i s = .next t) : t.Inv := by
  cases i with
  | configureAddress a enabled =>
    replace ht : execConfigureAddress a enabled s = .next t := ht
    rw [execConfigureAddress, hostCall_eq_next] at ht
    obtain ⟨hi, -, ht⟩ := ht
    split_ifs at ht
    obtain rfl := Host.Outcome.next.inj ht
    exact h.goto hi (p := .configure enabled) trivial h.bounded.congr
  | write | writeObject => exact beginWrite_keepsInv h ht
  | read | readObject => exact beginRead_keepsInv h ht
  | transmit | transmitObject => exact absurd ht (transmitRule_not_next hh)
  | setOnRequest n =>
    obtain ⟨hi, -, ht⟩ := hostCall_eq_next.mp ht
    obtain rfl := Host.Outcome.next.inj ht
    exact h.answer (u := s.setOnRequest (.user n)) hi hh h.bounded.congr (r := .nothing)
  | setOnReceive n =>
    obtain ⟨hi, -, ht⟩ := hostCall_eq_next.mp ht
    obtain rfl := Host.Outcome.next.inj ht
    exact h.answer (u := s.setOnReceive (.user n)) hi hh h.bounded.congr (r := .nothing)
  | lastError =>
    obtain ⟨hi, -, ht⟩ := hostCall_eq_next.mp ht
    obtain rfl := Host.Outcome.next.inj ht
    obtain ⟨e, he⟩ := useLastError_env s
    rw [he]
    exact h.answer (u := { s with env := e }) hi hh h.bounded.congr (r := .error s.readLastError)
  | ownedBuffer =>
    obtain ⟨hi, -, ht⟩ := hostCall_eq_next.mp ht
    obtain rfl := Host.Outcome.next.inj ht
    exact h.answer hi hh h.bounded (r := .buffer)
  | addressForIdentity id =>
    obtain ⟨hi, -, ht⟩ := hostCall_eq_next.mp ht
    split_ifs at ht
    obtain rfl := Host.Outcome.next.inj ht
    exact h.answer hi hh h.bounded (r := .address _)
  | handshake =>
    obtain ⟨hi, -, ht⟩ := hostCall_eq_next.mp ht
    obtain ⟨-, ht⟩ := blockingCall_eq_next.mp ht
    obtain rfl := Host.Outcome.next.inj ht
    exact h.goto hi (p := .hsLoop s.cfg.joiners) le_rfl (h.bounded.setHsCounter (Nat.zero_le _))
  | init =>
    replace ht : execInit s = .next t := ht
    rw [execInit] at ht
    split_ifs at ht
    obtain rfl := Host.Outcome.next.inj ht
    exact h.answer (u := s.setInitialised) rfl hh h.bounded.congr (r := .nothing)
  | _ => cases hf

/-! ### Every step -/

/-- The invariant does not speak of the environment nor of the event that waits. -/
theorem State.Inv.congr_env {s : State} (h : s.Inv) (e : Environment) (p : Option (List Byte)) :
    ({ s with env := e, adapter := { s.adapter with pendingEvent := p } } : State).Inv :=
  { h with }

theorem State.Inv.setArrivals {s : State} (h : s.Inv) (arrivals : List Arrival) : (s.setArrivals arrivals).Inv :=
  { h with }

/-- A message that is run is an instruction of its format (R90). -/
theorem runMessage_eq_next {f : Format} {bytes : List Byte} {s t : State} (hl : s.cfg.Legal)
    (ht : runMessage f bytes s = .next t) : ∃ i : Instr, i.format = f ∧ exec i s = .next t := by
  unfold runMessage at ht
  split at ht
  · rename_i i rest hd
    obtain ⟨-, hf, -, -⟩ := encodeOfDecodeGivesTheBytes _ _ _ _ _ hl hd
    exact ⟨i, hf, ht⟩
  · cases ht

/-- An address byte at most makes an event wait. -/
theorem addressSeen_eq_next {address : Address} {read : Bool} {s t : State} (ht : addressSeen address read s = .next t) :
    t = s ∨ ∃ x, t = s.report x := by
  unfold addressSeen at ht
  split at ht
  · cases ht
  · cases hw : s.wire <;> simp only [hw] at ht
    case idle =>
      split at ht <;> cases ht
      · exact .inr ⟨_, rfl⟩
      · exact .inl rfl
    case addressing =>
      split at ht
      · cases ht
        exact .inl rfl
      · split at ht <;> cases ht <;> exact .inr ⟨_, rfl⟩
    all_goals cases ht

theorem addressSeen_keepsInv {address : Address} {read : Bool} {s t : State} (h : s.Inv)
    (ht : addressSeen address read s = .next t) : t.Inv := by
  obtain rfl | ⟨x, rfl⟩ := addressSeen_eq_next ht
  · exact h
  · exact h.congr_env s.env _

theorem exec_addrByte_keepsInv {i : Instr} {s t : State} (h : s.Inv) (hf : i.format = .addrByte)
    (ht : exec i s = .next t) : t.Inv := by
  cases i with
  | addrByteWrite | addrByteRead => exact addressSeen_keepsInv h ht
  | _ => cases hf

theorem arrive_keepsInv {a : Arrival} {rest : List Arrival} {s t : State} (h : s.Inv)
    (ht : arrive a rest s = .next t) : t.Inv := by
  have h := h.setArrivals rest
  unfold arrive at ht
  split at ht
  · simp only at ht
    split at ht
    · obtain ⟨i, hf, ht⟩ := runMessage_eq_next h.legal ht
      exact h.exec_status hf ht
    · obtain rfl := Host.Outcome.next.inj ht
      exact h.congr_env _ _
  · obtain ⟨i, hf, ht⟩ := runMessage_eq_next h.legal ht
    exact exec_addrByte_keepsInv h hf ht

theorem hostTurn_keepsInv {s t : State} (h : s.Inv) (hh : s.run.inHandler = false) (ht : hostTurn s = .next t) :
    t.Inv := by
  have h := h.setArrivals (countDown s.env.arrivals)
  unfold hostTurn at ht
  simp only at ht
  split_ifs at ht with hidle
  · split at ht
    · rename_i bytes rest hcalls
      have h := h.congr_env { (s.setArrivals (countDown s.env.arrivals)).env with calls := rest } s.adapter.pendingEvent
      obtain ⟨i, hf, ht⟩ := runMessage_eq_next h.legal ht
      exact exec_hostOp_keepsInv h hf hh ht
    · obtain rfl := Host.Outcome.next.inj ht
      exact h
  · exact hostStep_keepsInv h ht

/-- A poll of a waiting Handler keeps the invariant. -/
theorem State.Inv.pollStop_leaveHandler {s : State} (h : s.Inv) (hw : s.run.stopWait = true) :
    s.pollStop.leaveHandler.Inv := by
  have hin : s.run.inHandler = true := h.handler.trans hw
  have hi : s.control.initialised = true := by
    cases hi : s.control.initialised with
    | true => rfl
    | false =>
      obtain ⟨-, -, -, -, -, -, hnot⟩ := h.passive hi
      simp [hin] at hnot
  exact State.RunInv.leaveHandler (State.RunInv.pollStop ⟨h.bounded, hi, hin, h.request, h.stopWait, h.phase⟩)

/-- Settles O48, by the agent whose turn it is: the waiting Handler, the event that waits, the traffic that arrives, or
Host. -/
theorem stepKeepsTheDeviceInvariant : Obligations.StepKeepsTheDeviceInvariant := by
  intro s t h ht
  unfold step at ht
  by_cases hw : s.run.stopWait = true
  · rw [if_pos hw] at ht
    obtain rfl := Host.Outcome.next.inj ht
    exact h.pollStop_leaveHandler hw
  by_cases hh : s.run.inHandler = true
  · rw [if_neg hw, if_pos hh] at ht
    obtain rfl := Host.Outcome.next.inj ht
    exact h
  rw [if_neg hw, if_neg hh] at ht
  rw [Bool.not_eq_true] at hh
  cases hp : s.adapter.pendingEvent with
  | some bytes =>
    simp only [hp] at ht
    split at ht
    · have h := h.congr_env s.env none
      obtain ⟨i, hf, ht⟩ := runMessage_eq_next h.legal ht
      exact h.exec_status hf ht
    · exact hostTurn_keepsInv h hh ht
  | none =>
    cases ha : s.env.arrivals with
    | cons a rest =>
      simp only [hp, ha] at ht
      split at ht
      · exact arrive_keepsInv h ht
      · exact hostTurn_keepsInv h hh ht
    | nil =>
      simp only [hp, ha] at ht
      exact hostTurn_keepsInv h hh ht

/-- The parameters after reset are legal, whatever the free values are (R4, R7, R8). -/
theorem resetConfig_legal : resetConfig.Legal := by
  have ho : 1 ≤ resetOffset ∧ resetOffset ≤ 127 := by
    unfold resetOffset
    omega
  have hk : 1 ≤ resetJoiners ∧ resetOffset + resetJoiners ≤ 128 := by
    have := Nat.mod_lt Config.openJoiners (show 0 < 128 - resetOffset by omega)
    unfold resetJoiners
    omega
  exact ⟨⟨by decide, by decide⟩, ⟨hk.1, Nat.le_add_right _ _, ho.1, hk.2⟩, rfl, by decide⟩

/-- Settles O47: everything is empty, zero or idle after reset. -/
theorem resetMeetsTheDeviceInvariant : Obligations.ResetMeetsTheDeviceInvariant where
  legal := resetConfig_legal
  memory := List.Pairwise.nil
  txBuffer := List.Pairwise.nil
  txBound := nofun
  vars := ⟨List.Pairwise.nil, nofun⟩
  cursor := Nat.zero_le _
  length := Nat.zero_le _
  counter := Nat.zero_le _
  handler := rfl
  request := rfl
  stopWait := nofun
  passive := fun _ => ⟨rfl, rfl, rfl, rfl, rfl, rfl, rfl⟩
  phase := trivial

/-! ### Host always has its next micro-step -/

theorem writeStep_goes_on {w : WriteCall} {pt : WriteAt} {s : State} (h : (Phase.write w pt).Sound s.cfg) :
    ∃ t, writeStep w pt s = .next t := by
  obtain ⟨-, hcap, hdata, -⟩ := h
  cases pt with
  | w2 j =>
    simp only [writeStep]
    split_ifs with hj
    · rw [List.getElem?_eq_getElem (hj.trans_le hdata)]
      exact ⟨_, storeTx_eq (hj.trans_le hcap) _ _⟩
    · exact ⟨_, rfl⟩
  | w7 c =>
    simp only [writeStep]
    split <;> exact ⟨_, rfl⟩
  | _ => exact ⟨_, rfl⟩

theorem readStep_goes_on (r : ReadCall) (pt : ReadAt) (caller : Caller) (s : State) :
    ∃ t, readStep r pt caller s = .next t := by
  cases pt with
  | rd7 c =>
    simp only [readStep]
    split <;> exact ⟨_, rfl⟩
  | _ => exact ⟨_, rfl⟩

/-- Settles O49, by the operation in progress: the bounds of the invariant admit every store and every probe. -/
theorem hostMicroStepsDoNotStop : Obligations.HostMicroStepsDoNotStop := by
  intro s h hq hp hr h3
  rw [step_of_quiet hq hp]
  cases hphase : s.run.phase with
  | idle => exact absurd hphase hp
  | configure enabled => exact ⟨_, by simp only [hostStep, hphase]; rfl⟩
  | write w pt =>
    simp only [hostStep, hphase]
    exact writeStep_goes_on (hphase ▸ h.phase)
  | read r pt caller =>
    simp only [hostStep, hphase]
    exact readStep_goes_on r pt caller s
  | hsLoop left =>
    simp only [hostStep, hphase]
    have hleft : left ≤ s.cfg.joiners := by simpa [hphase, Phase.Sound] using h.phase
    cases left with
    | zero => exact ⟨_, rfl⟩
    | succ i =>
      have hrange := h.legal.2.1.2.2.2
      exact ⟨_, if_pos (show s.cfg.offset + i ≤ 0x7F by omega)⟩
  | handshake i pt =>
    simp only [hostStep, hphase]
    cases pt with
    | h3 e => exact absurd hphase (h3 i e)
    | h7 => exact ⟨_, reading_eq hr _⟩
    | _ => exact ⟨_, rfl⟩

end Sys2Proof.Machine
end

section
/-! Proofs for spec/43_handshake.md sections 2 to 4: what a turn of one device of the lobby does, and that no two devices come
to have, or to be about to claim, one identity (R233, R234). -/

namespace Sys2Proof.Machine

/-! ### The moves of one device -/

/-- A micro-step of a device of the lobby, one constructor per control point of R223. -/
inductive LobbyMove (s : State) : State → Prop where
  | stay (hp : s.run.phase = .idle ∨ ∃ i, s.run.phase = .handshake i .h7) : LobbyMove s s
  | complete (hp : s.run.phase = .hsLoop 0) : LobbyMove s (s.finish .alreadyComplete)
  | outcome (i : Nat) (hp : s.run.phase = .handshake i .h2) : LobbyMove s (s.goto (.handshake i (.h3 s.ctx.lastError)))
  | owned (i : Nat) (hp : s.run.phase = .handshake i (.h3 .noError)) : LobbyMove s (s.goto (.hsLoop i))
  | free (i : Nat) (hp : s.run.phase = .handshake i (.h3 (.code (s.cfg.code .crAddrNack)))) :
    LobbyMove s (s.goto (.handshake i .h4Own))
  | again (i : Nat) (e : LastError) (hp : s.run.phase = .handshake i (.h3 e)) (h1 : e ≠ .noError)
    (h2 : e ≠ .code (s.cfg.code .crAddrNack)) : LobbyMove s (s.goto (.hsLoop (i + 1)))
  | claim (i : Nat) (hp : s.run.phase = .handshake i .h4Own) :
    LobbyMove s ((s.setOwnAddress (identityAddress s.cfg i)).goto (.handshake i .h4Call))
  | general (i : Nat) (hp : s.run.phase = .handshake i .h4Call) :
    LobbyMove s ((s.setGeneralCall true).goto (.handshake i .h5))
  | onReceive (i : Nat) (hp : s.run.phase = .handshake i .h5) :
    LobbyMove s ((s.setOnReceive .hsOnReceive).goto (.handshake i .h6))
  | onRequest (i : Nat) (hp : s.run.phase = .handshake i .h6) :
    LobbyMove s ((s.setOnRequest .hsOnRequest).goto (.handshake i .h7))
  | returned (i : Nat) (hp : s.run.phase = .handshake i .h7) : LobbyMove s (s.finish (.identity i))

/-- H3 takes apart the outcome of the probe (R224 to R226). -/
theorem probeOutcome_move {i : Nat} {e : LastError} {s s' : State} (hp : s.run.phase = .handshake i (.h3 e))
    (h : probeOutcome i e s = .next s') : LobbyMove s s' := by
  cases e with
  | noError =>
    obtain rfl := Host.Outcome.next.inj h
    exact .owned i hp
  | code c =>
    simp only [probeOutcome] at h
    split_ifs at h with h1 h2
    · obtain rfl := Host.Outcome.next.inj h
      exact .free i (h1 ▸ hp)
    · obtain rfl := Host.Outcome.next.inj h
      exact .again i _ hp nofun (by simpa using h1)
    · split at h
      · obtain rfl := Host.Outcome.next.inj h
        exact .again i _ hp nofun (by simpa using h1)
      · cases h

/-- A device whose last error has been written reads it and uses up no free value (R191). -/
theorem readLastError_of_written {s : State} (h : s.written.lastError = true) :
    s.useLastError = s ∧ s.readLastError = s.ctx.lastError := by
  simp [State.useLastError, State.readLastError, h]

/-- A micro-step of a device of the lobby that makes no probe is one of the moves. -/
theorem hostStep_move {c : Config} {s s' : State} (hm : s.LobbyMember c) (hc : s.candidate = none)
    (h : hostStep s = .next s') : LobbyMove s s' := by
  obtain ⟨-, hm⟩ := hm
  cases hp : s.run.phase with
  | configure | write | read => simp [hp] at hm
  | idle =>
    simp only [hostStep, hp] at h
    obtain rfl := Host.Outcome.next.inj h
    exact .stay (.inl hp)
  | hsLoop left =>
    cases left with
    | zero =>
      simp only [hostStep, hp] at h
      obtain rfl := Host.Outcome.next.inj h
      exact .complete hp
    | succ i => simp [State.candidate, hp] at hc
  | handshake i pt =>
    simp only [hostStep, hp] at h
    cases pt with
    | h2 =>
      simp only [hp] at hm
      obtain ⟨huse, hread⟩ := readLastError_of_written hm.2.2
      simp only [handshakeStep, huse, hread] at h
      obtain rfl := Host.Outcome.next.inj h
      exact .outcome i hp
    | h3 e => exact probeOutcome_move hp h
    | h4Own =>
      obtain rfl := Host.Outcome.next.inj h
      exact .claim i hp
    | h4Call =>
      obtain rfl := Host.Outcome.next.inj h
      exact .general i hp
    | h5 =>
      obtain rfl := Host.Outcome.next.inj h
      exact .onReceive i hp
    | h6 =>
      obtain rfl := Host.Outcome.next.inj h
      exact .onRequest i hp
    | h7 =>
      obtain ⟨-, h⟩ := reading_eq_next.mp h
      obtain rfl := Host.Outcome.next.inj h
      split_ifs
      · exact .returned i hp
      · exact .stay (.inr ⟨i, hp⟩)

/-! ### Where a device stands and what it has -/

theorem candidate_eq_some {s : State} {i : Nat} : s.candidate = some i ↔ s.run.phase = .hsLoop (i + 1) := by
  unfold State.candidate
  split <;> simp_all

/-- What a device holds depends on its own address and the parameters. -/
theorem held_congr {s t : State} (ha : t.control.ownAddress = s.control.ownAddress) (hc : t.cfg = s.cfg) :
    t.held = s.held := by
  unfold State.held
  rw [ha, hc]

/-- A device that sets the address of a candidate holds that identity (R222). -/
theorem held_claim {s : State} (hl : s.cfg.Legal) {i : Nat} (hi : i < s.cfg.joiners) (p : Phase) :
    ((s.setOwnAddress (identityAddress s.cfg i)).goto p).held = some i :=
  (held_eq_iff (t := (s.setOwnAddress (identityAddress s.cfg i)).goto p) hl hi).mpr rfl

theorem stake_of_claimsNext_none {s : State} (h : s.claimsNext = none) : s.stake = s.held := by
  rw [State.stake, h, Option.none_or]

theorem stake_of_claimsNext_some {s : State} {i : Nat} (h : s.claimsNext = some i) : s.stake = some i := by
  rw [State.stake, h, Option.some_or]

/-- Of two devices that are not about to claim, with one identity held by both, the stakes are the same. -/
theorem stake_eq_of_not_claiming {s t : State} (hs : s.claimsNext = none) (ht : t.claimsNext = none)
    (hh : t.held = s.held) : t.stake = s.stake := by
  rw [stake_of_claimsNext_none ht, stake_of_claimsNext_none hs, hh]

/-- The two codes a probe tells apart are not alike (R8). -/
theorem code_arbLost_ne {c : Config} (hl : c.Legal) :
    LastError.code (c.code .arbLost) ≠ .code (c.code .crAddrNack) := by
  intro h
  have := Config.code_inj hl (LastError.code.inj h)
  cases this

/-- After a micro-step a device is still a member, and has no other stake than before. -/
theorem LobbyMove.keeps {c : Config} {s s' : State} (hl : c.Legal) (hm : s.LobbyMember c) (h : LobbyMove s s') :
    s'.LobbyMember c ∧ ∀ i, s'.stake = some i → s.stake = some i := by
  obtain ⟨hcfg, hm'⟩ := hm
  have hl : s.cfg.Legal := hcfg ▸ hl
  cases h with
  | stay => exact ⟨⟨hcfg, hm'⟩, fun _ => id⟩
  | complete hp =>
    simp only [hp] at hm'
    refine ⟨⟨hcfg, trivial⟩, fun i hi => ?_⟩
    rw [stake_of_claimsNext_none rfl] at hi
    replace hi : s.held = some i := hi
    cases hm'.2.symm.trans hi
  | outcome i hp =>
    simp only [hp] at hm'
    refine ⟨⟨hcfg, hm'.1, hm'.2.1⟩, fun j hj => ?_⟩
    have hn : (s.goto (.handshake i (.h3 s.ctx.lastError))).claimsNext = s.claimsNext := by
      simp only [State.claimsNext, hp]
      rfl
    rw [State.stake, hn] at hj
    exact hj
  | owned i hp =>
    simp only [hp] at hm'
    refine ⟨⟨hcfg, hcfg ▸ hm'.1.le, hm'.2⟩, fun j hj => ?_⟩
    rw [stake_of_claimsNext_none rfl] at hj
    replace hj : s.held = some j := hj
    cases hm'.2.symm.trans hj
  | free i hp =>
    simp only [hp] at hm'
    refine ⟨⟨hcfg, hm'⟩, fun j hj => ?_⟩
    rw [stake_of_claimsNext_some rfl] at hj
    rwa [stake_of_claimsNext_some (i := i) (by simp [State.claimsNext, hp])]
  | again i e hp h1 h2 =>
    simp only [hp] at hm'
    refine ⟨⟨hcfg, hm'.1, hm'.2⟩, fun j hj => ?_⟩
    rw [stake_of_claimsNext_none rfl] at hj
    replace hj : s.held = some j := hj
    cases hm'.2.symm.trans hj
  | claim i hp =>
    simp only [hp] at hm'
    have hheld := held_claim hl (hcfg ▸ hm'.1) (.handshake i .h4Call)
    refine ⟨⟨hcfg, hheld⟩, fun j hj => ?_⟩
    rw [stake_of_claimsNext_none rfl, hheld] at hj
    rwa [stake_of_claimsNext_some (i := i) (by simp [State.claimsNext, hp])]
  | general i hp | onReceive i hp | onRequest i hp =>
    simp only [hp] at hm'
    exact ⟨⟨hcfg, hm'⟩, fun j hj =>
      (stake_eq_of_not_claiming (by simp [State.claimsNext, hp]) (by rfl) (by rfl)).symm.trans hj⟩
  | returned i hp =>
    exact ⟨⟨hcfg, trivial⟩, fun j hj =>
      (stake_eq_of_not_claiming (by simp [State.claimsNext, hp]) (by rfl) (by rfl)).symm.trans hj⟩

/-! ### The lobby -/

/-- Putting a member back keeps the invariant, where no other device has the stake it now has. -/
theorem LobbyInv.set {c : Config} {js : List State} (h : LobbyInv c js) {p : Nat} {s' : State} (hm : s'.LobbyMember c)
    (hs : ∀ i, s'.stake = some i → ∀ q u, q ≠ p → js[q]? = some u → u.stake ≠ some i) : LobbyInv c (js.set p s') := by
  obtain ⟨hmember, hdistinct⟩ := h
  refine ⟨fun s hs => ?_, fun a b s u i hab ha hb hsi hui => ?_⟩
  · rcases List.mem_or_eq_of_mem_set hs with hs | rfl
    · exact hmember s hs
    · exact hm
  · by_cases hpa : p = a
    · subst hpa
      obtain rfl : s' = s := by
        rw [List.getElem?_set_self'] at ha
        cases hp : js[p]? <;> simp [hp] at ha
        exact ha
      rw [List.getElem?_set_ne (by omega)] at hb
      exact hs i hsi b u (by omega) hb hui
    · rw [List.getElem?_set_ne hpa] at ha
      by_cases hpb : p = b
      · subst hpb
        obtain rfl : s' = u := by
          rw [List.getElem?_set_self'] at hb
          cases hp : js[p]? <;> simp [hp] at hb
          exact hb
        exact hs i hui a s (by omega) ha hsi
      · rw [List.getElem?_set_ne hpb] at hb
        exact hdistinct a b s u i hab ha hb hsi hui

/-- So does putting back one that has no other stake than the device it was. -/
theorem LobbyInv.set_of_stake {c : Config} {js : List State} (h : LobbyInv c js) {p : Nat} {s s' : State}
    (hp : js[p]? = some s) (hm : s'.LobbyMember c) (hs : ∀ i, s'.stake = some i → s.stake = some i) :
    LobbyInv c (js.set p s') :=
  h.set hm fun i hi q u hq hu => h.2 p q s u i (Ne.symm hq) hp hu (hs i hi)

theorem LobbyInv.member {c : Config} {js : List State} (h : LobbyInv c js) {p : Nat} {s : State} (hp : js[p]? = some s) :
    s.LobbyMember c := h.1 s (List.mem_of_getElem? hp)

/-- The prober at the end of its probe is a member at H2. -/
theorem probeEnds_member {c : Config} {s : State} {i : Nat} (hm : s.LobbyMember c) (hc : s.candidate = some i)
    (e : LastError) : (s.probeEnds i e).LobbyMember c ∧ (s.probeEnds i e).held = none ∧ i < c.joiners := by
  obtain ⟨hcfg, hm⟩ := hm
  simp only [candidate_eq_some.mp hc] at hm
  exact ⟨⟨hcfg, hm.1, hm.2, rfl⟩, hm.2, hm.1⟩

/-- It is about to claim the candidate only if the probe has found it free (R225). -/
theorem probeEnds_stake {s : State} {i : Nat} {e : LastError} (hh : (s.probeEnds i e).held = none)
    (he : e ≠ .code (s.cfg.code .crAddrNack)) : (s.probeEnds i e).stake = none := by
  have hn : (s.probeEnds i e).claimsNext = none := if_neg he
  rw [stake_of_claimsNext_none hn, hh]

/-- A device that is not about to claim, and none of whose identities another holds, has another stake. -/
theorem stake_ne_of {s : State} {i : Nat} (hn : s.claimsNext ≠ some i) (hh : s.held ≠ some i) : s.stake ≠ some i := by
  rw [State.stake]
  cases h : s.claimsNext with
  | none => rwa [Option.none_or]
  | some j => rwa [Option.some_or, ← h]

/-- A member that holds an identity is past its claim, so a probe that leaves its control point and its own address alone
leaves it a member with the stake it had. -/
theorem member_of_frame {c : Config} {v u : State} {i : Nat} (hm : v.LobbyMember c) (hh : v.held = some i)
    (hcfg : u.cfg = v.cfg) (hphase : u.run.phase = v.run.phase) (haddr : u.control.ownAddress = v.control.ownAddress) :
    u.LobbyMember c ∧ u.stake = v.stake := by
  have hheld : u.held = v.held := held_congr haddr hcfg
  obtain ⟨hc, hm⟩ := hm
  cases hp : v.run.phase with
  | configure | write | read => simp [hp] at hm
  | hsLoop left => simp [hp, hh] at hm
  | idle =>
    exact ⟨⟨hcfg.trans hc, by simp [hphase, hp]⟩, stake_eq_of_not_claiming (by simp [State.claimsNext, hp])
      (by simp [State.claimsNext, hphase, hp]) hheld⟩
  | handshake j pt =>
    simp only [hp] at hm
    cases pt with
    | h2 | h3 | h4Own => simp [hh] at hm
    | h4Call | h5 | h6 | h7 =>
      exact ⟨⟨hcfg.trans hc, by simpa [hphase, hp, hheld] using hm⟩,
        stake_eq_of_not_claiming (by simp [State.claimsNext, hp]) (by simp [State.claimsNext, hphase, hp]) hheld⟩

/-- Every turn that is no probe of a candidate another device is about to claim keeps the invariant. -/
theorem LobbyInv.turn {c : Config} {js js' : List State} {t : Turn} (hl : c.Legal) (h : LobbyInv c js)
    (hapart : turnApart State.claimsNext js t) (ht : lobbyTurn js t = .next js') : LobbyInv c js' := by
  obtain ⟨-, rfl⟩ | ⟨s, s', hs, hc, hstep, rfl⟩ | ⟨s, i, hs, hc, hprobe⟩ := lobbyTurn_cases ht
  · exact h
  · obtain ⟨hm, hstake⟩ := (hostStep_move (h.member hs) hc hstep).keeps hl (h.member hs)
    exact h.set_of_stake hs hm hstake
  · have hcfg : s.cfg = c := (h.member hs).1
    obtain ⟨-, rfl⟩ | ⟨-, hnone, rfl⟩ | ⟨-, d, v, u, hd, hv, haddr, hu, rfl⟩ := hprobe
    · obtain ⟨hm, hheld, -⟩ := probeEnds_member (h.member hs) hc (.code (s.cfg.code .arbLost))
      have hstake := probeEnds_stake hheld (code_arbLost_ne (hcfg ▸ hl))
      exact h.set hm fun j hj => by rw [hstake] at hj; cases hj
    · obtain ⟨hm, -, hi⟩ := probeEnds_member (h.member hs) hc (.code (s.cfg.code .crAddrNack))
      refine h.set hm fun j hj q w hq hw => ?_
      obtain rfl : i = j := by
        have hn : (s.probeEnds i (.code (s.cfg.code .crAddrNack))).claimsNext = some i := if_pos rfl
        rw [stake_of_claimsNext_some hn] at hj
        exact Option.some.inj hj
      have hwc : w.cfg = c := (h.member hw).1
      refine stake_ne_of (hapart s i hs hc q w hq hw) fun hheld => ?_
      refine ownerOf_eq_none hnone q w hq hw ?_
      rw [hcfg, ← hwc]
      exact (held_eq_iff (hwc ▸ hl) (hwc ▸ hi)).mp hheld
    · obtain ⟨hucfg, huphase, huaddr⟩ := answerProbe_frame hu
      have hvc : v.cfg = c := (h.member hv).1
      have hsm := h.member hs
      have hdm : State.LobbyMember c { s with dummy := u.adapter.dataLatch } := hsm
      obtain ⟨hm, hheld, hi⟩ := probeEnds_member hdm hc .noError
      have hvheld : v.held = some i := (held_eq_iff (hvc ▸ hl) (hvc ▸ hi)).mpr (by rw [haddr, hcfg, hvc])
      obtain ⟨hum, hustake⟩ := member_of_frame (h.member hv) hvheld hucfg huphase huaddr
      have hstake := probeEnds_stake hheld nofun
      have h := h.set_of_stake hv hum fun j => hustake ▸ id
      exact h.set hm fun j hj => by rw [hstake] at hj; cases hj

/-- Devices that have just entered `handshake()` have no stake. -/
theorem LobbyInv.of_fresh {c : Config} {js : List State} (h : ∀ s ∈ js, s.Fresh c) : LobbyInv c js := by
  refine ⟨fun s hs => ?_, fun p q s u i _ hp _ hi => ?_⟩
  · obtain ⟨hcfg, -, hphase, -, -, hheld⟩ := h s hs
    exact ⟨hcfg, by simp [hphase, hheld]⟩
  · obtain ⟨-, -, hphase, -, -, hheld⟩ := h s (List.mem_of_getElem? hp)
    rw [stake_of_claimsNext_none (by simp [State.claimsNext, hphase]), hheld] at hi
    cases hi

/-- Settles O60: the invariant holds at entry and every such turn keeps it. -/
theorem lobbyTurnKeepsIdentitiesDistinct : Obligations.LobbyTurnKeepsIdentitiesDistinct :=
  fun _ _ hl => ⟨LobbyInv.of_fresh, fun _ _ h hapart ht => h.turn hl hapart ht⟩

end Sys2Proof.Machine
end

section
/-! Proofs for spec/41_transfer_state_machine.md section 7 and spec/40_adapter_primitives.md section 4: a transfer under the
environment contract (R36, R134). The places of the wire are taken one by one; at each the exact results of the statuses that
may come next say where the transfer then stands. -/

namespace Sys2Proof.Machine

/-! ### The wire after a Handler run -/

/-- The status and the reply a run leaves with the adapter say where the device stands on the wire (R134). -/
theorem wire_handled {t : State} (hl : t.cfg.Legal) (x : Status) (r : Reply) (commands : List Action) :
    (t.handled (t.cfg.code x) r commands).wire = wireAfter (some x) r (t.adapter.dataLatch.getLsbD 0) := by
  simp only [State.wire, State.handled, Config.symbol_code hl]

/-- The events that address this device as a target do so by name. -/
theorem addressesTarget_of_targetEvents {s : State} {lost : Bool} {x : Status} (h : x ∈ s.targetEvents lost) :
    x.addressesTarget = true := by
  unfold State.targetEvents at h
  split at h
  · cases h
  · cases lost <;> simp at h <;> rcases h with rfl | rfl | ⟨-, rfl⟩ <;> rfl

/-- A register stays readable if it stays written. -/
theorem readable_of_readable {s u : State} {f : Field} (h : s.readable f = true) (hcfg : u.cfg = s.cfg := by rfl)
    (hw : s.wasWritten f = true → u.wasWritten f = true := by exact id) : u.readable f = true := by
  unfold State.readable at h ⊢
  rw [hcfg]
  cases hr : s.cfg.resetReads with
  | value => rfl
  | fault => exact hw (by simpa [hr] using h)

/-- A transfer after an event: in bounds, and over, or awaiting its stop, or at another place `P` of the contract. -/
def State.GoesOn (t : State) (P : State → Prop) : Prop :=
  t.ctx.cursor ≤ t.ctx.length ∧ (t.ctx.busy = false ∨ t.run.stopWait = true ∨ P t)

/-- A status without a rule of its own ends a transfer or waits for the stop, and moves no index (R162). -/
theorem busError_goesOn {s : State} (hs : s.EventReady) (hc : s.ctx.cursor ≤ s.ctx.length) (P : State → Prop)
    {i : Instr} {raw : Byte} (h : (i, raw) ∈ errorStatuses s.cfg) : ∃ t, exec i s = .next t ∧ t.GoesOn P := by
  refine ⟨_, exec_errorStatus (.inl h) hs, ?_⟩
  cases hconf : (s.stopAwaited raw).nextStopAnswer with
  | true =>
    rw [pollStop_eq, hconf, if_pos rfl, leaveHandler_eq rfl]
    refine ⟨?_, .inl rfl⟩
    simpa [State.stopAwaited] using hc
  | false =>
    rw [pollStop_eq, hconf, if_neg (by decide)]
    refine ⟨?_, .inr (.inl ?_)⟩
    · simpa [State.stopAwaited] using hc
    · simp [State.leaveHandler, State.stopAwaited]

/-! ### A controller transfer -/

/-- What holds at every place of a controller transfer. -/
structure State.ControllerReady (s : State) : Prop where
  legal : s.cfg.Legal
  event : s.EventReady
  busy : s.ctx.busy = true
  cursor : s.readable .cursor = true
  length : s.readable .length = true
  rxTarget : s.readable .rxTarget = true
  address : s.readable .addressAndDirection = true

/-- What holds of a controller transfer at the place `w` of the wire. -/
def State.ControllerAt (s : State) : Wire → Prop
  | .idle => s.adapter.armed = true ∧ s.ctx.cursor = 0 ∧ s.HoldsFor (s.ctx.addressAndDirection.getLsbD 0)
  | .addressing read => s.ctx.cursor = 0 ∧ s.HoldsFor read
  | .ctData => s.ctx.cursor ≤ s.ctx.length ∧ s.TxHolds
  | .crMore => s.ctx.cursor < s.ctx.length ∧ s.RxHolds
  | .crLast => s.ctx.cursor = s.ctx.length ∧ s.RxHolds
  | .trData | .trGcallData | .ttMore | .ttLast => False

theorem controllerInv_iff (s : State) : s.ControllerInv ↔ s.ControllerReady ∧ s.ControllerAt s.wire := by
  unfold State.ControllerInv
  constructor
  · rintro ⟨h1, h2, h3, h4, h5, h6, h7, h⟩
    refine ⟨⟨h1, h2, h3, h4, h5, h6, h7⟩, ?_⟩
    cases hw : s.wire <;> rw [hw] at h <;> exact h
  · rintro ⟨⟨h1, h2, h3, h4, h5, h6, h7⟩, h⟩
    refine ⟨h1, h2, h3, h4, h5, h6, h7, ?_⟩
    cases hw : s.wire <;> rw [hw] at h <;> exact h

/-- At every place of the transfer the cursor is within the length. -/
theorem State.ControllerAt.cursor_le {s : State} {w : Wire} (h : s.ControllerAt w) : s.ctx.cursor ≤ s.ctx.length := by
  cases w with
  | idle => simp [h.2.1]
  | addressing => simp [h.1]
  | ctData => exact h.1
  | crMore => exact h.1.le
  | crLast => exact h.1.le
  | trData | trGcallData | ttMore | ttLast => exact h.elim

/-- A run that keeps the common part and arrives at a place where its part holds keeps the transfer in the contract. -/
theorem State.ControllerReady.handled {s u : State} (h : s.ControllerReady) {x : Status} {r : Reply} {commands : List Action}
    (hat : u.ControllerAt (wireAfter (some x) r (u.adapter.dataLatch.getLsbD 0)))
    (hwritten : u.written = s.written ∨ u.written = { s.written with cursor := true }) (hcfg : u.cfg = s.cfg := by rfl)
    (hinit : u.control.initialised = s.control.initialised := by rfl)
    (hwait : u.run.stopWait = s.run.stopWait := by rfl) (hbusy : u.ctx.busy = s.ctx.busy := by rfl) :
    (u.handled (s.cfg.code x) r commands).GoesOn State.ControllerInv := by
  obtain ⟨hlegal, ⟨hi, -, hw⟩, hb, hcursor, hlength, hrx, haddress⟩ := h
  have hread {f : Field} (hf : f = .cursor ∨ f = .length ∨ f = .rxTarget ∨ f = .addressAndDirection)
      (h : s.readable f = true) : (u.handled (s.cfg.code x) r commands).readable f = true := by
    refine readable_of_readable h hcfg fun hs => ?_
    rcases hf with rfl | rfl | rfl | rfl <;> rcases hwritten with hu | hu <;>
      simp [State.handled, State.wasWritten, hu] at hs ⊢ <;> exact hs
  refine ⟨hat.cursor_le, .inr (.inr ((controllerInv_iff _).mpr ⟨⟨hcfg ▸ hlegal, ⟨hinit.trans hi, rfl, hwait.trans hw⟩,
    hbusy.trans hb, hread (by simp) hcursor, hread (by simp) hlength, hread (by simp) hrx, hread (by simp) haddress⟩, ?_⟩))⟩
  rw [← hcfg, wire_handled (hcfg ▸ hlegal)]
  cases hw : wireAfter (some x) r (u.adapter.dataLatch.getLsbD 0) <;> rw [hw] at hat <;> exact hat

/-- The start puts the address byte on the wire (R142). -/
theorem start_goesOn {s : State} (h : s.ControllerReady) (hat : s.ControllerAt .idle) :
    ∃ t, exec .start s = .next t ∧ t.GoesOn State.ControllerInv :=
  ⟨_, (startSendsTheLatchedAddressByte .start .start s (by simp) h.event).1 h.address, h.handled hat.2 (.inl rfl)⟩

/-- A controller-transmit status sends the next byte, or stops where none is left (R163). -/
theorem ctSend_goesOn {s : State} {i : Instr} {x : Status}
    (hix : (i, x) ∈ [(Instr.ctAddrAck, Status.ctAddrAck), (.ctDataAck, .ctDataAck)]) (h : s.ControllerReady)
    (hat : s.ControllerAt .ctData) : ∃ t, exec i s = .next t ∧ t.GoesOn State.ControllerInv := by
  obtain ⟨hle, htx⟩ := hat
  obtain ⟨hstop, hsend, -⟩ := controllerTransmitSendsOrStops i x s hix h.event h.cursor h.length
  rcases hle.eq_or_lt with heq | hlt
  · exact ⟨_, hstop heq, hle, .inl rfl⟩
  · obtain ⟨b, hb⟩ := Option.isSome_iff_exists.mp (htx.2 _ hlt)
    have hwire (read : Bool) : wireAfter (some x) .ack read = .ctData := by
      simp only [List.mem_cons, Prod.mk.injEq, List.not_mem_nil, or_false] at hix
      obtain ⟨-, rfl⟩ | ⟨-, rfl⟩ := hix <;> rfl
    refine ⟨_, hsend b hlt (hlt.trans_le htx.1) hb, h.handled ?_ (.inr rfl)⟩
    rw [hwire]
    exact ⟨hlt, htx⟩

/-- The reply by exhaustion of a controller-receive status says whether more bytes follow (R147, R148). -/
theorem controllerAt_replyWhile {u : State} {x : Status} (hx : x = .crAddrAck ∨ x = .crDataAck) (read : Bool)
    (hle : u.ctx.cursor ≤ u.ctx.length) (hrx : u.RxHolds) :
    u.ControllerAt (wireAfter (some x) (replyWhile (u.ctx.cursor < u.ctx.length)) read) := by
  by_cases hlt : u.ctx.cursor < u.ctx.length
  · rw [decide_eq_true hlt]
    rcases hx with rfl | rfl <;> exact ⟨hlt, hrx⟩
  · rw [decide_eq_false hlt]
    rcases hx with rfl | rfl <;> exact ⟨by omega, hrx⟩

theorem crAddrAck_goesOn {s : State} (h : s.ControllerReady) (hat : s.ControllerAt (.addressing true)) :
    ∃ t, exec .crAddrAck s = .next t ∧ t.GoesOn State.ControllerInv :=
  ⟨_, controllerReceiveAddressAckOnlyReplies s h.event h.cursor h.length,
    h.handled (controllerAt_replyWhile (.inl rfl) _ hat.cursor_le hat.2) (.inl rfl)⟩

theorem crDataAck_goesOn {s : State} (v : Byte) (h : s.ControllerReady) (hat : s.ControllerAt .crMore) :
    ∃ t, exec (.crDataAck v) s = .next t ∧ t.GoesOn State.ControllerInv := by
  obtain ⟨hlt, hrx⟩ := hat
  have hcap : s.ctx.cursor < s.ctx.rxTarget.cap := by rw [hrx]; omega
  obtain ⟨hcaller, hdummy, -⟩ := controllerReceiveStoresTheByte s v h.event h.cursor h.length h.rxTarget
  cases hb : s.ctx.rxTarget.base with
  | caller base =>
    exact ⟨_, hcaller base hlt hcap hb, h.handled (controllerAt_replyWhile (.inr rfl) _ hlt hrx) (.inr rfl)⟩
  | dummy => exact ⟨_, hdummy hlt hcap hb, h.handled (controllerAt_replyWhile (.inr rfl) _ hlt hrx) (.inr rfl)⟩

theorem crDataNack_goesOn {s : State} (v : Byte) (h : s.ControllerReady) (hat : s.ControllerAt .crLast) :
    ∃ t, exec (.crDataNack v) s = .next t ∧ t.GoesOn State.ControllerInv := by
  obtain ⟨heq, hrx⟩ := hat
  have hcap : s.ctx.cursor < s.ctx.rxTarget.cap := by rw [hrx]; omega
  obtain ⟨hcaller, hdummy, -⟩ := controllerReceiveStoresTheFinalByteAndStops s v h.event h.cursor h.rxTarget
  cases hb : s.ctx.rxTarget.base with
  | caller base => exact ⟨_, hcaller base hcap hb, heq.le, .inl rfl⟩
  | dummy => exact ⟨_, hdummy hcap hb, heq.le, .inl rfl⟩

/-- At every place of a controller transfer, every status that may come next and does not address the device as a target. -/
theorem controllerTransfer_goesOn {s : State} {x : Status} (latch : Byte) (h : s.ControllerInv) (hx : x ∈ s.legalNext)
    (htarget : x.addressesTarget = false) : ∃ t, exec (x.instr latch) s = .next t ∧ t.GoesOn State.ControllerInv := by
  obtain ⟨hready, hat⟩ := (controllerInv_iff s).mp h
  have hno {lost : Bool} : x ∉ s.targetEvents lost := fun hx => by simp [addressesTarget_of_targetEvents hx] at htarget
  have herror {i : Instr} {raw : Byte} (hi : (i, raw) ∈ errorStatuses s.cfg) :=
    busError_goesOn hready.event hat.cursor_le State.ControllerInv hi
  have hlost : ∃ t, exec .arbLost s = .next t ∧ t.GoesOn State.ControllerInv :=
    ⟨_, arbitrationLossIsRecordedAndEndsTheTransfer s hready.event, hat.cursor_le, .inl rfl⟩
  rw [State.legalNext, List.mem_cons] at hx
  rcases hx with rfl | hx
  · exact herror (raw := s.cfg.code .busError) (by simp [errorStatuses, Status.instr])
  cases hw : s.wire with
  | idle =>
    rw [hw] at hat
    simp only [hw, hat.1, List.mem_append, hno, or_false, if_true, List.mem_singleton] at hx
    subst hx
    exact start_goesOn hready hat
  | addressing read =>
    rw [hw] at hat
    cases read with
    | false =>
      simp only [hw, List.mem_append, hno, or_false, List.mem_cons, List.not_mem_nil] at hx
      rcases hx with rfl | rfl | rfl
      · exact ctSend_goesOn (x := .ctAddrAck) (by simp [Status.instr]) hready ⟨hat.cursor_le, hat.2⟩
      · exact herror (raw := s.cfg.code .ctAddrNack) (by simp [errorStatuses, Status.instr])
      · exact hlost
    | true =>
      simp only [hw, List.mem_append, hno, or_false, List.mem_cons, List.not_mem_nil] at hx
      rcases hx with rfl | rfl | rfl
      · exact crAddrAck_goesOn hready hat
      · exact herror (raw := s.cfg.code .crAddrNack) (by simp [errorStatuses, Status.instr])
      · exact hlost
  | ctData =>
    rw [hw] at hat
    simp only [hw, or_false, List.mem_cons, List.not_mem_nil] at hx
    rcases hx with rfl | rfl | rfl
    · exact ctSend_goesOn (x := .ctDataAck) (by simp [Status.instr]) hready hat
    · exact herror (raw := s.cfg.code .ctDataNack) (by simp [errorStatuses, Status.instr])
    · exact hlost
  | crMore =>
    rw [hw] at hat
    simp only [hw, List.mem_singleton] at hx
    subst hx
    exact crDataAck_goesOn latch hready hat
  | crLast =>
    rw [hw] at hat
    simp only [hw, or_false, List.mem_cons, List.not_mem_nil] at hx
    rcases hx with rfl | rfl
    · exact crDataNack_goesOn latch hready hat
    · exact hlost
  | trData | trGcallData | ttMore | ttLast =>
    rw [hw] at hat
    exact hat.elim

/-! ### A target-transmit transfer -/

/-- What holds at both places of a target-transmit transfer. -/
structure State.TransmitReady (s : State) : Prop where
  legal : s.cfg.Legal
  event : s.EventReady
  busy : s.ctx.busy = true
  cursor : s.readable .cursor = true
  length : s.readable .length = true
  holds : s.TxHolds

/-- What holds of a target-transmit transfer at the place `w` of the wire. -/
def State.TransmitAt (s : State) : Wire → Prop
  | .ttMore => s.ctx.cursor < s.ctx.length
  | .ttLast => s.ctx.cursor = s.ctx.length
  | .idle | .addressing _ | .ctData | .crMore | .crLast | .trData | .trGcallData => False

theorem targetTransmitInv_iff (s : State) : s.TargetTransmitInv ↔ s.TransmitReady ∧ s.TransmitAt s.wire := by
  unfold State.TargetTransmitInv
  constructor
  · rintro ⟨h1, h2, h3, h4, h5, h6, h⟩
    refine ⟨⟨h1, h2, h3, h4, h5, h6⟩, ?_⟩
    cases hw : s.wire <;> rw [hw] at h <;> exact h
  · rintro ⟨⟨h1, h2, h3, h4, h5, h6⟩, h⟩
    refine ⟨h1, h2, h3, h4, h5, h6, ?_⟩
    cases hw : s.wire <;> rw [hw] at h <;> exact h

/-- The reply by exhaustion of a target-transmit status says whether more bytes follow (R157, R159). -/
theorem transmitAt_replyWhile {u : State} {x : Status} (hx : x = .ttAddrAck ∨ x = .ttArbLostAddrAck ∨ x = .ttDataAck)
    (read : Bool) (hle : u.ctx.cursor ≤ u.ctx.length) :
    u.TransmitAt (wireAfter (some x) (replyWhile (u.ctx.cursor < u.ctx.length)) read) := by
  by_cases hlt : u.ctx.cursor < u.ctx.length
  · rw [decide_eq_true hlt]
    rcases hx with rfl | rfl | rfl <;> exact hlt
  · rw [decide_eq_false hlt]
    rcases hx with rfl | rfl | rfl <;> exact hle.antisymm (Nat.not_lt.mp hlt)

/-- A run that has sent a byte and replies by exhaustion stands in a target-transmit transfer. -/
theorem transmitInv_handled {u : State} {x : Status} {commands : List Action}
    (hx : x = .ttAddrAck ∨ x = .ttArbLostAddrAck ∨ x = .ttDataAck) (hle : u.ctx.cursor ≤ u.ctx.length)
    (hlegal : u.cfg.Legal) (hinit : u.control.initialised = true) (hwait : u.run.stopWait = false)
    (hbusy : u.ctx.busy = true) (hcursor : u.readable .cursor = true) (hlength : u.readable .length = true)
    (hholds : u.TxHolds) :
    (u.handled (u.cfg.code x) (replyWhile (u.ctx.cursor < u.ctx.length)) commands).TargetTransmitInv := by
  refine (targetTransmitInv_iff _).mpr ⟨⟨hlegal, ⟨hinit, rfl, hwait⟩, hbusy, hcursor, hlength, hholds⟩, ?_⟩
  rw [wire_handled hlegal]
  have h := transmitAt_replyWhile hx (u.adapter.dataLatch.getLsbD 0) hle
  cases hw : wireAfter (some x) (replyWhile (u.ctx.cursor < u.ctx.length)) (u.adapter.dataLatch.getLsbD 0) <;>
    rw [hw] at h <;> exact h

theorem ttDataAck_goesOn {s : State} (h : s.TransmitReady) (hlt : s.ctx.cursor < s.ctx.length) :
    ∃ t, exec .ttDataAck s = .next t ∧ t.GoesOn State.TargetTransmitInv := by
  obtain ⟨b, hb⟩ := Option.isSome_iff_exists.mp (h.holds.2 _ hlt)
  obtain ⟨hsend, -⟩ := targetTransmitSendsTheNextByte s h.event h.cursor h.length
  exact ⟨_, hsend b hlt (hlt.trans_le h.holds.1) hb, hlt, .inr (.inr (transmitInv_handled (.inr (.inr rfl)) hlt h.legal
    h.event.1 h.event.2.2 h.busy (readable_of_written rfl) (readable_of_readable h.length) h.holds))⟩

/-- At both places of a target-transmit transfer, every status that may come next. -/
theorem targetTransmit_goesOn {s : State} {x : Status} (latch : Byte) (h : s.TargetTransmitInv) (hx : x ∈ s.legalNext) :
    ∃ t, exec (x.instr latch) s = .next t ∧ t.GoesOn State.TargetTransmitInv := by
  obtain ⟨hready, hat⟩ := (targetTransmitInv_iff s).mp h
  have hle : s.ctx.cursor ≤ s.ctx.length := by
    cases hw : s.wire <;> rw [hw] at hat
    case ttMore => exact hat.le
    case ttLast => exact hat.le
    all_goals exact hat.elim
  have hends {i : Instr} {x : Status} (hi : (i, x) ∈ [(Instr.ttDataNack, Status.ttDataNack), (.ttLastData, .ttLastData)]) :
      ∃ t, exec i s = .next t ∧ t.GoesOn State.TargetTransmitInv :=
    ⟨_, targetTransmitEndClearsBusy i x s hi hready.event, hle, .inl rfl⟩
  rw [State.legalNext, List.mem_cons] at hx
  rcases hx with rfl | hx
  · exact busError_goesOn (raw := s.cfg.code .busError) hready.event hle _ (by simp [errorStatuses, Status.instr])
  cases hw : s.wire with
  | ttMore =>
    rw [hw] at hat
    simp only [hw, or_false, List.mem_cons, List.not_mem_nil] at hx
    rcases hx with rfl | rfl
    · exact ttDataAck_goesOn hready hat
    · exact hends (x := .ttDataNack) (by simp [Status.instr])
  | ttLast =>
    simp only [hw, or_false, List.mem_cons, List.not_mem_nil] at hx
    rcases hx with rfl | rfl
    · exact hends (x := .ttDataNack) (by simp [Status.instr])
    · exact hends (x := .ttLastData) (by simp [Status.instr])
  | idle | addressing | ctData | crMore | crLast | trData | trGcallData =>
    rw [hw] at hat
    exact hat.elim

/-! ### What begins a target-transmit transfer -/

/-- After a `transmit`, its bytes are in the buffer (R187). -/
theorem txHolds_transmitted {s : State} {data : List Byte} {n : Nat} (hcap : n ≤ s.cfg.cap) (hdata : n ≤ data.length) :
    (s.transmitted data n).TxHolds := by
  refine ⟨hcap, fun j hj => ?_⟩
  have hread : (s.transmitted data n).ctx.txBuffer.read j = data[j]? := read_writeAll_take_of_lt _ hdata hj
  rw [hread, List.getElem?_eq_getElem (lt_of_lt_of_le hj hdata)]
  rfl

/-- Once a callback has called `transmit`, the bytes of the last such call are in the buffer. -/
def State.HoldsIfCalled (s : State) : Prop := s.run.transmitCalled = true → s.TxHolds

theorem holdsIfCalled_keptByCalls : KeptByCalls State.HoldsIfCalled := by
  intro s t h he
  cases he with
  | transmit data n h1 hcap hdata => exact fun _ => txHolds_transmitted hcap hdata
  | answer | userMemory | userVariable => exact h

/-- A run that emits one reply and returns is that reply handled (R141, R261). -/
theorem reply_leaveHandler {u : State} {raw : Byte} (r : Reply) (hw : u.run.stopWait = false)
    (hl : u.adapter.lastEvent = some raw) :
    ((u.emit r.command).setReply r).leaveHandler = u.handled raw r [r.command] := by
  rw [leaveHandler_eq (by exact hw)]
  simp [State.handled, State.emit, State.setReply, ← hl]

/-- An addressed status that answers begins a target-transmit transfer (R157). -/
theorem ttAddressed_begins {s t : State} {i : Instr} {x : Status} (hl : s.cfg.Legal) (hs : s.EventReady)
    (hix : (i, x) ∈ [(Instr.ttAddrAck, Status.ttAddrAck), (.ttArbLostAddrAck, .ttArbLostAddrAck)])
    (h : exec i s = .next t) : t.TargetTransmitInv := by
  obtain ⟨hi, hraw, hrule⟩ := isTtAddressed_of_mem (s := s) hix
  obtain ⟨-, w, hw, rfl⟩ := exec_status_eq_next hi h
  rw [hrule, hraw, ttAddressed_eq_next] at hw
  obtain ⟨_, hcall, hsend⟩ := hw
  obtain ⟨c, u, -, hrun, hcalled, rfl⟩ := callOnRequest_eq_next.mp hcall
  have hframe := runCallback_frame (by rfl) hrun
  obtain ⟨hcfg, -, hadapter, -, -, -, hinit, -, -, -, hwait, -, -, hbusy, -⟩ := id hframe
  obtain ⟨hwc, hwl⟩ := hframe.written rfl hcalled
  have hnone : (s.requestEntered (s.cfg.code x)).HoldsIfCalled := fun h => by cases h
  have hholds : u.TxHolds := runCallback_keeps holdsIfCalled_keptByCalls (fun _ h _ => h) hnone (by rfl) hrun hcalled
  obtain ⟨-, -, hlt, -, b, -, rfl⟩ := ttSendNext_eq_next.mp hsend
  have hx : x = .ttAddrAck ∨ x = .ttArbLostAddrAck ∨ x = .ttDataAck := by
    simp only [List.mem_cons, Prod.mk.injEq, List.not_mem_nil, or_false] at hix
    obtain ⟨-, rfl⟩ | ⟨-, rfl⟩ := hix <;> simp
  have hcfg : u.cfg = s.cfg := hcfg
  rw [replyByExhaustion_eq, reply_leaveHandler _ (by exact hwait.trans hs.2.2) (raw := s.cfg.code x)
    (by exact congrArg Adapter.lastEvent hadapter), ← hcfg]
  exact transmitInv_handled hx hlt (by exact hcfg ▸ hl) (hinit.trans hs.1) (hwait.trans hs.2.2) hbusy
    (readable_of_written rfl) (readable_of_written hwl) hholds

/-- Settles O50: place by place of the wire, and the two statuses that begin a target-transmit transfer. -/
theorem contractKeepsTransfersInBounds : Obligations.ContractKeepsTransfersInBounds := by
  refine ⟨fun s x latch => controllerTransfer_goesOn latch, fun s x latch => targetTransmit_goesOn latch,
    fun s t i hl hs hi h => ?_⟩
  simp only [List.mem_cons, List.not_mem_nil, or_false] at hi
  rcases hi with rfl | rfl
  · exact ttAddressed_begins (x := .ttAddrAck) hl hs (by simp) h
  · exact ttAddressed_begins (x := .ttArbLostAddrAck) hl hs (by simp) h

end Sys2Proof.Machine
end

section
/-! Proofs for spec/40_adapter_primitives.md sections 2 and 4 and spec/60_exceptions.md sections 2 and 3: whose turn a step is and
what it runs, what waits, and what an address byte on the bus makes the adapter report. -/

namespace Sys2Proof.Machine

/-! ### Whose turn it is -/

/-- A message is decoded and its instruction run (R140). -/
theorem runMessage_of_decode {s : State} {f : Format} {bytes rest : List Byte} {i : Instr}
    (h : decode s.cfg f bytes = .ok (i, rest)) : runMessage f bytes s = exec i s := by
  rw [runMessage, h]

/-- With no Handler run in progress and nothing waiting, what is due on the bus arrives (R130). -/
theorem step_of_due {s : State} {a : Arrival} {later : List Arrival} (hh : s.run.inHandler = false)
    (hw : s.run.stopWait = false) (hp : s.adapter.pendingEvent = none) (ha : s.env.arrivals = a :: later)
    (h0 : a.delay = 0) : step s = arrive a later s := by
  simp only [step, hw, hh, hp, ha, h0, Bool.false_eq_true, if_false, if_true]

/-- A waiting event is delivered as soon as events are enabled (R262). -/
theorem step_of_pending {s : State} {bytes : List Byte} (hh : s.run.inHandler = false) (hw : s.run.stopWait = false)
    (hi : s.control.initialised = true) (hp : s.adapter.pendingEvent = some bytes) :
    step s = deliverPending bytes s := by
  simp only [step, hw, hh, hp, hi, Bool.false_eq_true, if_false, if_true]

/-- Otherwise it is Host's turn (R198). -/
theorem step_of_hostTurn {s : State} (h : s.HostTurn) : step s = hostTurn s := by
  obtain ⟨hw, hh, hp⟩ := h
  rcases hp with ⟨hp, hi⟩ | ⟨hp, hdue⟩
  · obtain ⟨bytes, hp⟩ := Option.isSome_iff_exists.mp hp
    simp only [step, hw, hh, hp, hi, Bool.false_eq_true, if_false]
  · cases ha : s.env.arrivals with
    | nil => simp only [step, hw, hh, hp, ha, Bool.false_eq_true, if_false]
    | cons a rest => simp only [step, hw, hh, hp, ha, hdue a rest ha, Bool.false_eq_true, if_false]

/-- Settles O6: each kind of message, once the step has been led to where it arrives. -/
theorem stepRunsTheDecodedInstruction : Obligations.StepRunsTheDecodedInstruction := by
  intro s i bytes rest hh hw
  refine ⟨fun later hi hp ha hd => ?_, fun hi hp hd => ?_, fun later hp ha hd => ?_, fun calls hturn hphase hcalls hd => ?_⟩
  · rw [step_of_due hh hw hp ha rfl]
    exact (if_pos hi).trans (runMessage_of_decode hd)
  · rw [step_of_pending hh hw hi hp]
    exact runMessage_of_decode hd
  · rw [step_of_due hh hw hp ha rfl]
    exact runMessage_of_decode hd
  · rw [step_of_hostTurn hturn]
    have hidle : s.run.phase.isIdle = true := (isIdle_iff _).mpr hphase
    simp only [hostTurn, State.setArrivals, hidle, hcalls, if_true]
    exact runMessage_of_decode hd

/-- An answer of the adapter uses up no call, no bus traffic and no sample of the lines. -/
theorem useStopAnswer_traffic (s : State) :
    s.useStopAnswer.env.calls = s.env.calls ∧ s.useStopAnswer.env.arrivals = s.env.arrivals ∧
      s.useStopAnswer.env.lines = s.env.lines := by
  unfold State.useStopAnswer
  split <;> exact ⟨rfl, rfl, rfl⟩

/-- Settles O7: an early event waits; the poll of the stop-complete wait touches none of the fields named, and without that
wait the step does nothing. -/
theorem eventsAreMaskedBeforeInitAndDuringARun : Obligations.EventsAreMaskedBeforeInitAndDuringARun := by
  intro s
  refine ⟨fun d later hi hh hw hp ha => ?_, fun h => ?_⟩
  · rw [step_of_due hh hw hp ha rfl]
    exact if_neg (by simpa using hi)
  · cases hw : s.run.stopWait with
    | true =>
      refine ⟨_, step_of_stopWait hw, ?_⟩
      simp only [State.leaveHandler_adapter, State.leaveHandler_env]
      have hphase : s.pollStop.leaveHandler.run.phase = s.pollStop.run.phase := by
        unfold State.leaveHandler
        split_ifs <;> rfl
      obtain ⟨hcalls, harrivals, -⟩ := useStopAnswer_traffic s
      rw [hphase, pollStop_eq]
      split_ifs <;> simp [hcalls, harrivals]
    | false =>
      have hh : s.run.inHandler = true := h.resolve_left (by simp [hw])
      exact ⟨s, by simp [step, hw, hh], rfl, rfl, rfl, rfl, rfl⟩

/-! ### An address byte on the bus -/

/-- Without a general call an address byte with the write direction is for the device whose address it carries. -/
theorem addressedAs_write {s : State} {a : Address} (h : ¬ (a = 0 ∧ s.control.generalCallEnable = true)) :
    s.addressedAs a false = if s.control.ownAddress = some a then some .receive else none := by
  have h' : (a = 0 && s.control.generalCallEnable) = false := by
    simpa only [Bool.and_eq_false_iff, decide_eq_false_iff_not, Bool.not_eq_true, not_and_or] using h
  unfold State.addressedAs
  cases s.control.ownAddress with
  | none => simp
  | some own => simp only [h', Bool.false_eq_true, if_false, Option.some.injEq]

/-- A general call is for every device that has an address and answers general calls. -/
theorem addressedAs_general {s : State} {a own : Address} (ho : s.control.ownAddress = some own) (hown : own ≠ 0)
    (h : a = 0 ∧ s.control.generalCallEnable = true) : s.addressedAs a false = some .general := by
  obtain ⟨rfl, hg⟩ := h
  have hown : ¬ own = 0#7 := hown
  simp [State.addressedAs, ho, hg, hown]

theorem addressedAs_read (s : State) (a : Address) :
    s.addressedAs a true = if s.control.ownAddress = some a then some .transmit else none := by
  unfold State.addressedAs
  cases s.control.ownAddress with
  | none => simp
  | some own => simp

theorem addressedAs_none {s : State} {a : Address} {read : Bool} (h : s.control.ownAddress = none) :
    s.addressedAs a read = none := by
  simp [State.addressedAs, h]

/-- What the adapter makes of an address byte that finds the device out of a transfer. -/
def State.addressReport (s : State) : Option Role → State
  | some role => s.report (role.status false)
  | none => s

/-- What it makes of another device's address byte while this device's own is on the wire. -/
def State.lossReport (s : State) : Option Role → State
  | some role => s.report (role.status true)
  | none => s.report .arbLost

theorem addressSeen_idle {s : State} (hp : s.adapter.pendingEvent = none) (hh : s.run.inHandler = false)
    (hw : s.wire = .idle) (a : Address) (read : Bool) :
    addressSeen a read s = .next (s.addressReport (s.addressedAs a read)) := by
  simp only [addressSeen, hp, hh, hw, Option.isSome_none, Bool.or_self, Bool.false_eq_true, if_false]
  cases s.addressedAs a read <;> rfl

theorem addressSeen_own {s : State} {r : Bool} (hp : s.adapter.pendingEvent = none) (hh : s.run.inHandler = false)
    (hw : s.wire = .addressing r) {a : Address} {read : Bool} (h : addrByte a read = s.adapter.dataLatch) :
    addressSeen a read s = .next s := by
  simp only [addressSeen, hp, hh, hw, h, Option.isSome_none, Bool.or_self, Bool.false_eq_true, if_false, if_true]

theorem addressSeen_lost {s : State} {r : Bool} (hp : s.adapter.pendingEvent = none) (hh : s.run.inHandler = false)
    (hw : s.wire = .addressing r) {a : Address} {read : Bool} (h : addrByte a read ≠ s.adapter.dataLatch) :
    addressSeen a read s = .next (s.lossReport (s.addressedAs a read)) := by
  simp only [addressSeen, hp, hh, hw, h, Option.isSome_none, Bool.or_self, Bool.false_eq_true, if_false]
  cases s.addressedAs a read <;> rfl

/-- Settles O26: the report follows the role. -/
theorem addressByteReportsTheAddressedDevice : Obligations.AddressByteReportsTheAddressedDevice := by
  intro a s hp hh hw
  have hseen (read : Bool) := addressSeen_idle hp hh hw a read
  refine ⟨fun ho => ⟨(hseen true).trans ?_, fun hg => (hseen false).trans ?_⟩,
    fun own ho hown hg => (hseen false).trans ?_, fun ho => ⟨(hseen true).trans ?_, fun hg => (hseen false).trans ?_⟩⟩
  · rw [addressedAs_read, if_pos ho]
    rfl
  · rw [addressedAs_write hg, if_pos ho]
    rfl
  · rw [addressedAs_general ho hown hg]
    rfl
  · rw [addressedAs_read, if_neg ho]
    rfl
  · rcases hg with hg | hnone
    · rw [addressedAs_write hg, if_neg ho]
      rfl
    · rw [addressedAs_none hnone]
      rfl

/-- Settles O27: a byte that is not the device's own is a loss, and its report follows the role. -/
theorem addressByteOfAWinnerReportsTheLoss : Obligations.AddressByteOfAWinnerReportsTheLoss := by
  intro a r s hp hh hw
  refine ⟨addressSeen_own hp hh hw, addressSeen_own hp hh hw, fun h => (addressSeen_lost hp hh hw h).trans ?_, fun h => ?_⟩
  · rw [addressedAs_read]
    split_ifs <;> rfl
  have hseen := addressSeen_lost hp hh hw h
  refine ⟨fun ho hg => hseen.trans ?_, fun own ho hown hg => hseen.trans ?_, fun ho hg => hseen.trans ?_⟩
  · rw [addressedAs_write hg, if_pos ho]
    rfl
  · rw [addressedAs_general ho hown hg]
    rfl
  · rcases hg with hg | hnone
    · rw [addressedAs_write hg, if_neg ho]
      rfl
    · rw [addressedAs_none hnone]
      rfl

end Sys2Proof.Machine
end

section
/-! Proofs for spec/42_transfer_api.md sections 1 to 5 and 7 and spec/40_adapter_primitives.md section 1: when an operation is
refused, and what the operations do that answer at once (R129, R180 to R193). Each entry is said once, past the checks that
its context passes. -/

namespace Sys2Proof.Machine

/-! ### The entry of an operation -/

theorem hostCall_notInitialised {s : State} (h : s.control.initialised = false) (k : Out) :
    hostCall s k = .refused .notInitialised := by
  simp [hostCall, h]

/-- An operation that ordinary code or a callback may call, called by either (R199). -/
theorem hostCall_of_anyCallReady {s : State} (h : s.AnyCallReady) (k : Out) : hostCall s k = k :=
  hostCall_eq h.1 h.2 k

theorem blockingCall_refused {s : State} (h : s.run.inHandler = true) (k : Out) :
    blockingCall s k = .refused .blockingCallInHandler := by
  simp [blockingCall, h]

theorem blockingCall_eq {s : State} (h : s.run.inHandler = false) (k : Out) : blockingCall s k = k := by
  simp [blockingCall, h]

theorem addressOk_eq_true {a : Byte} (h : a.toNat ≤ 0x7F) : addressOk a = true := decide_eq_true h

theorem addressOk_eq_false {a : Byte} (h : 0x80 ≤ a.toNat) : addressOk a = false := decide_eq_false (by omega)

/-- `write` called by ordinary code (R181). -/
theorem beginWrite_of_callReady {s : State} (h : s.CallReady) (a : Byte) (data : List Byte) (n : Nat) (b : Bool) :
    beginWrite a data n b s =
      if n = 0 then .next (s.answer .nothing)
      else if !addressOk a then .refused .addressOutOfRange
      else if s.cfg.cap < n then .refused .lengthExceedsCapacity
      else if data.length < n then .refused .bufferTooShort
      else .next (s.goto (.write ⟨a, data, n, b⟩ .w1)) := by
  rw [beginWrite, hostCall_eq h.1 (.inr h.2.2), blockingCall_eq h.2.1]

/-- `read` called by ordinary code (R184). -/
theorem beginRead_of_callReady {s : State} (h : s.CallReady) (a : Byte) (m n : Nat) :
    beginRead a m n s =
      if n = 0 then .next (s.answer .nothing)
      else if !addressOk a then .refused .addressOutOfRange
      else if s.cfg.maxIndex < n then .refused .lengthOutOfRange
      else .next (s.goto (.read ⟨a, .caller m, n⟩ .rd1 .user)) := by
  rw [beginRead, hostCall_eq h.1 (.inr h.2.2), blockingCall_eq h.2.1]

/-- Ordinary code is answered in the result of Host's operation. -/
theorem answer_of_callReady {s : State} (h : s.CallReady) (r : Result) :
    s.answer r = { s with run := { s.run with result := r } } := by
  simp [State.answer, h.2.1]

/-! ### Refusals -/

/-- Settles O28: the first check of every operation but `init`, and the second of those that block. -/
theorem operationsAreRefusedInTheWrongContext : Obligations.OperationsAreRefusedInTheWrongContext := by
  refine fun s => ⟨fun i hinit hf hi => ?_, fun a data n m b hinit hh => ⟨fun i hi => ?_, ?_⟩⟩
  · cases i with
    | init => exact absurd rfl hi
    | configureAddress | write | read | transmit | setOnRequest | setOnReceive | lastError | ownedBuffer
    | addressForIdentity | handshake | writeObject | readObject | transmitObject => exact hostCall_notInitialised hinit _
    | _ => cases hf
  · have hrefused (k : Out) : hostCall s (blockingCall s k) = .refused .blockingCallInHandler := by
      rw [hostCall_eq hinit (.inl hh), blockingCall_refused hh]
    simp only [List.mem_cons, List.not_mem_nil, or_false] at hi
    rcases hi with rfl | rfl | rfl | rfl | rfl <;> exact hrefused _
  · exact (hostCall_eq hinit (.inl hh) _).trans (if_pos hh)

/-- `transmit` outside an `onRequest` run (R187, R256). -/
theorem transmitRule_outside {s : State} (h : s.AnyCallReady) (hout : s.run.inHandler = false ∨ s.run.requestRun = false)
    (data : List Byte) (n : Nat) : transmitRule data n s = .refused .transmitOutsideRequest := by
  rw [transmitRule, hostCall_of_anyCallReady h, if_pos]
  rcases hout with hout | hout <;> simp [hout]

/-- `transmit` inside one, as far as the checks of its length (R187). -/
theorem transmitRule_zero {s : State} (h : s.RequestReady) (data : List Byte) :
    transmitRule data 0 s = .refused .zeroLengthTransmit := by
  obtain ⟨hinit, hin, hreq, -⟩ := h
  rw [transmitRule, hostCall_eq hinit (.inl hin), if_neg (by simp [hin, hreq]), if_pos rfl]

theorem transmitRule_long {s : State} (h : s.RequestReady) {data : List Byte} {n : Nat} (hn : s.cfg.cap < n) :
    transmitRule data n s = .refused .lengthExceedsCapacity := by
  obtain ⟨hinit, hin, hreq, -⟩ := h
  rw [transmitRule, hostCall_eq hinit (.inl hin), if_neg (by simp [hin, hreq]), if_neg (by omega), if_pos hn]

theorem beginWrite_badAddress {s : State} (h : s.CallReady) {a : Byte} (ha : 0x80 ≤ a.toNat) {n : Nat} (hn : n ≠ 0)
    (data : List Byte) (b : Bool) : beginWrite a data n b s = .refused .addressOutOfRange := by
  rw [beginWrite_of_callReady h, if_neg hn, addressOk_eq_false ha]
  rfl

theorem beginWrite_long {s : State} (h : s.CallReady) {a : Byte} (ha : a.toNat ≤ 0x7F) {n : Nat} (hn : s.cfg.cap < n)
    (data : List Byte) (b : Bool) : beginWrite a data n b s = .refused .lengthExceedsCapacity := by
  rw [beginWrite_of_callReady h, if_neg (by omega), addressOk_eq_true ha, if_neg (by decide), if_pos hn]

theorem beginRead_badAddress {s : State} (h : s.CallReady) {a : Byte} (ha : 0x80 ≤ a.toNat) {n : Nat} (hn : n ≠ 0)
    (m : Nat) : beginRead a m n s = .refused .addressOutOfRange := by
  rw [beginRead_of_callReady h, if_neg hn, addressOk_eq_false ha]
  rfl

theorem beginRead_long {s : State} (h : s.CallReady) {a : Byte} (ha : a.toNat ≤ 0x7F) {n : Nat} (hn : s.cfg.maxIndex < n)
    (m : Nat) : beginRead a m n s = .refused .lengthOutOfRange := by
  rw [beginRead_of_callReady h, if_neg (by omega), addressOk_eq_true ha, if_neg (by decide), if_pos hn]

/-- Settles O29: one refusal of one entry each; an object form is the entry with the object's size. -/
theorem argumentsOutOfRangeAreRefused : Obligations.ArgumentsOutOfRangeAreRefused := by
  intro s a data n m b
  refine ⟨fun h ha hn => ⟨beginWrite_badAddress h ha hn data b, beginRead_badAddress h ha hn m, beginRead_badAddress h ha hn m⟩,
    fun h ha hd => beginWrite_badAddress h ha (by simpa using hd) data b, fun h ha => ?_,
    fun h ha hn => beginWrite_long h ha hn data b, fun h ha hn => beginWrite_long h ha hn data b,
    fun h ha hn => ⟨beginRead_long h ha hn m, beginRead_long h ha hn m⟩,
    fun h hout => ⟨transmitRule_outside h hout data n, transmitRule_outside h hout data _⟩,
    fun h => ⟨transmitRule_zero h data, transmitRule_zero h []⟩, fun h hn => transmitRule_long h hn,
    fun h hn => transmitRule_long h hn, fun h hn => ?_⟩
  · refine (hostCall_eq h.1 (.inr h.2.2) _).trans ?_
    rw [if_neg (by simp [h.2.1]), addressOk_eq_false ha]
    rfl
  · exact (hostCall_of_anyCallReady h _).trans (if_neg (by omega))

/-! ### Operations that answer at once -/

/-- Settles O30. -/
theorem initOnlySetsInitialised : Obligations.InitOnlySetsInitialised := by
  intro s h
  refine if_pos ?_
  rcases h with h | h
  · simp [h]
  · simp [(isIdle_iff _).mpr h]

/-- Settles O31: the first field is set by the call, the second by the one micro-step that is left. -/
theorem configureAddressSetsBothFields : Obligations.ConfigureAddressSetsBothFields := by
  intro s a g h hq ha
  have hbus : busAddress a = BitVec.ofNat 7 a.toNat := (BitVec.ofNat_toNat 7 a).symm
  have hexec : exec (.configureAddress a g) s = .next ((s.setOwnAddress (busAddress a)).goto (.configure g)) := by
    refine (hostCall_eq h.1 (.inr h.2.2) _).trans ?_
    rw [if_neg (by simp [h.2.1]), if_pos (addressOk_eq_true ha)]
  refine ⟨_, hexec, by rw [← hbus]; rfl, runs_one ?_⟩
  rw [step_of_quiet (by exact hq) (by simp), ← hbus]
  rfl

/-- Settles O32: no check of these entries fails where an operation can be called. -/
theorem oneStepOperationsAnswer : Obligations.OneStepOperationsAnswer := by
  intro s n h
  have hcall (k : Out) : hostCall s k = k := hostCall_of_anyCallReady h k
  refine ⟨hcall _, hcall _, hcall _, fun hn => (hcall _).trans (if_pos hn), fun hw => (hcall _).trans ?_,
    fun hw => ⟨s.readLastError, (hcall _).trans ?_⟩⟩
  · obtain ⟨huse, hread⟩ := readLastError_of_written hw
    rw [huse, hread]
  · simp [State.useLastError, hw]

/-- Settles O34: length 0 is the first check. -/
theorem zeroLengthTransferReturnsAtOnce : Obligations.ZeroLengthTransferReturnsAtOnce := by
  intro s i a data m b h hi
  rw [← answer_of_callReady h]
  simp only [List.mem_cons, List.not_mem_nil, or_false] at hi
  rcases hi with rfl | rfl | rfl | rfl
  · exact (beginWrite_of_callReady h a data 0 b).trans (if_pos rfl)
  · exact (beginRead_of_callReady h a m 0).trans (if_pos rfl)
  · exact (beginWrite_of_callReady h a [] 0 b).trans (if_pos rfl)
  · exact (beginRead_of_callReady h a m 0).trans (if_pos rfl)

end Sys2Proof.Machine
end

section
/-! Proofs for the micro-steps of Host taken one at a time (spec/42_transfer_api.md sections 2, 3 and 7, spec/43_handshake.md
section 2): where Host waits, and what each place of the handshake leads to. -/

namespace Sys2Proof.Machine

/-! ### A step of the operation in progress -/

theorem step_of_write {s : State} {w : WriteCall} {pt : WriteAt} (hq : s.Quiet) (hp : s.run.phase = .write w pt) :
    step s = writeStep w pt s := by
  rw [step_of_quiet hq (by simp [hp]), hostStep, hp]

theorem step_of_read {s : State} {r : ReadCall} {pt : ReadAt} {caller : Caller} (hq : s.Quiet)
    (hp : s.run.phase = .read r pt caller) : step s = readStep r pt caller s := by
  rw [step_of_quiet hq (by simp [hp]), hostStep, hp]

theorem step_of_hsLoop {s : State} {left : Nat} (hq : s.Quiet) (hp : s.run.phase = .hsLoop left) :
    step s = probeStep left s := by
  rw [step_of_quiet hq (by simp [hp]), hostStep, hp]

theorem step_of_handshake {s : State} {i : Nat} {pt : HandshakeAt} (hq : s.Quiet)
    (hp : s.run.phase = .handshake i pt) : step s = handshakeStep i pt s := by
  rw [step_of_quiet hq (by simp [hp]), hostStep, hp]

/-- The micro-step that a state just led to takes. -/
theorem step_goto {s : State} {p : Phase} (hq : s.Quiet) (hp : p ≠ .idle := by simp) :
    step (s.goto p) = hostStep (s.goto p) :=
  step_of_quiet (by exact hq) hp

/-- Settles O37: each of the waits is one test of `busy`. -/
theorem spinWaitsEndExactlyWhenBusyClears : Obligations.SpinWaitsEndExactlyWhenBusyClears := by
  intro s w r caller hq
  refine ⟨fun hp => step_of_write hq hp, fun hp => step_of_read hq hp, fun hp => (step_of_write hq hp).trans ?_,
    fun hp => step_of_read hq hp, fun i hp => step_of_read hq hp⟩
  simp only [writeStep, Bool.and_eq_true]
  rfl

/-! ### The handshake -/

/-- The address of an identity is its number past `OFFSET` (R222). -/
theorem identityAddress_eq (c : Config) (i : Nat) : identityAddress c i = BitVec.ofNat 7 (c.offset + i) := by
  apply BitVec.eq_of_toNat_eq
  simp [identityAddress, busAddress, low8]

/-- Settles O40: entry, the loop's head with a candidate, and without one. -/
theorem handshakeScansDownwards : Obligations.HandshakeScansDownwards := by
  intro s hl hq
  refine ⟨fun h => ?_, fun i hp hi => (step_of_hsLoop hq hp).trans (if_pos ?_), fun hp => step_of_hsLoop hq hp⟩
  · exact (hostCall_eq h.1 (.inr h.2.2) _).trans (blockingCall_eq h.2.1 _)
  · obtain ⟨-, ⟨-, -, -, hmax⟩, -⟩ := hl
    omega

/-- Settles O42: the tests of H3 in their order; the code of arbitration lost is not that of address-not-acknowledged. -/
theorem otherProbeOutcomesNeverClaim : Obligations.OtherProbeOutcomesNeverClaim := by
  intro s i e hl hq hp
  have hstep : step s = probeOutcome i e s := step_of_handshake hq hp
  refine ⟨?_, ?_, ?_⟩
  · rintro rfl
    exact hstep
  · rintro rfl
    have hne : s.cfg.code .arbLost ≠ s.cfg.code .crAddrNack := fun h => code_arbLost_ne hl (congrArg LastError.code h)
    rw [hstep, probeOutcome, if_neg hne, if_pos rfl]
    rfl
  · rintro c rfl hlost hnack
    rw [hstep, probeOutcome, if_neg hnack, if_neg hlost]
    exact ⟨fun h => by rw [h]; rfl, fun h => by rw [h]⟩

/-- The test of H7, as the parameter reads it (R229). -/
theorem reached_iff {test : ReachTest} {counter i : Nat} :
    reached test counter i = true ↔ test = .ge ∧ i ≤ counter ∨ test = .eq ∧ counter = i := by
  cases test <;> simp [reached]

/-- Settles O43: H7 is one read of the counter and one test. -/
theorem handshakeWaitEndsWhenTheCounterIsReached : Obligations.HandshakeWaitEndsWhenTheCounterIsReached := by
  intro s i hq hr hp
  have hstep : step s = .next (if reached s.cfg.reachTest s.control.hsCounter i then s.finish (.identity i) else s) :=
    (step_of_handshake hq hp).trans (reading_eq hr _)
  refine ⟨fun h => ?_, fun h => ?_⟩
  · rw [hstep, if_pos (reached_iff.mpr h)]
    rfl
  · rw [hstep, if_neg (mt reached_iff.mp ?_)]
    rintro (⟨h1, h2⟩ | ⟨h1, h2⟩) <;> simp [h1] at h <;> omega

/-- Settles O41: six micro-steps, from the read of the error to the wait. -/
theorem freeProbeClaimsTheIdentity : Obligations.FreeProbeClaimsTheIdentity := by
  intro s i hl hq hi hp hw he
  obtain ⟨huse, hread⟩ := readLastError_of_written hw
  let claimed : State := (s.setOwnAddress (identityAddress s.cfg i)).setGeneralCall true  -- after H4
  have h2 : step s = .next (s.goto (.handshake i (.h3 (.code (s.cfg.code .crAddrNack))))) := by
    rw [step_of_handshake hq hp, handshakeStep, huse, hread, he]
  have h3 : step (s.goto (.handshake i (.h3 (.code (s.cfg.code .crAddrNack))))) = .next (s.goto (.handshake i .h4Own)) := by
    rw [step_goto hq]
    exact if_pos rfl
  have h4Own : step (s.goto (.handshake i .h4Own)) =
      .next ((s.setOwnAddress (identityAddress s.cfg i)).goto (.handshake i .h4Call)) := step_goto hq
  have h4Call : step ((s.setOwnAddress (identityAddress s.cfg i)).goto (.handshake i .h4Call)) =
      .next (claimed.goto (.handshake i .h5)) := step_goto (s := s.setOwnAddress _) hq
  have h5 : step (claimed.goto (.handshake i .h5)) = .next ((claimed.setOnReceive .hsOnReceive).goto (.handshake i .h6)) :=
    step_goto (s := claimed) hq
  have h6 : step ((claimed.setOnReceive .hsOnReceive).goto (.handshake i .h6)) =
      .next (((claimed.setOnReceive .hsOnReceive).setOnRequest .hsOnRequest).goto (.handshake i .h7)) :=
    step_goto (s := claimed.setOnReceive _) hq
  rw [← identityAddress_eq]
  exact runs_succ h2 (runs_succ h3 (runs_succ h4Own (runs_succ h4Call (runs_succ h5 (runs_one h6)))))

end Sys2Proof.Machine
end

section
/-! Proofs for spec/42_transfer_api.md sections 2, 3 and 6: the micro-steps of `write` and `read` up to the request for
arbitration (R182, R185), and the idle confirmation between them (R194 to R196), said once for both operations. -/

namespace Sys2Proof.Machine

/-! ### Samples of the lines -/

/-- An idle bus. -/
def idleLines : Lines := ⟨true, true⟩

/-- `s` after the samples `ls`, with `later` still to come. -/
def State.sampled (s : State) (ls later : List Lines) : State :=
  { s with
    env := { s.env with lines := later }
    adapter := { s.adapter with actions := s.adapter.actions ++ ls.map .lines } }

theorem sampled_nil {s : State} {later : List Lines} (h : s.env.lines = later) : s.sampled [] later = s := by
  subst h
  simp [State.sampled]

theorem sampled_sampled (s : State) (ls ms later later' : List Lines) :
    (s.sampled ls later').sampled ms later = s.sampled (ls ++ ms) later := by
  simp [State.sampled]

theorem nextLines_cons {s : State} {l : Lines} {rest : List Lines} (h : s.env.lines = l :: rest) : s.nextLines = l := by
  simp [State.nextLines, h]

theorem observeLines_cons {s : State} {l : Lines} {rest : List Lines} (h : s.env.lines = l :: rest) :
    s.observeLines = s.sampled [l] rest := by
  simp [State.observeLines, h, nextLines_cons h, State.sampled, State.emit]

/-- An idle sample takes the counter one down (R194). -/
theorem idleRound_idle {s : State} {rest : List Lines} (h : s.env.lines = idleLines :: rest) (c : Nat) :
    idleRound s (c + 1) = .again c := by
  simp [idleRound, nextLines_cons h, idleLines]

theorem not_idle_iff {l : Lines} : (l.clock && l.data) = false ↔ l ≠ idleLines := by
  obtain ⟨clock, data⟩ := l
  cases clock <;> cases data <;> simp [idleLines]

/-- One that is not idle starts the count again under `Respin` (R194). -/
theorem idleRound_respin {s : State} {l : Lines} {rest : List Lines} (h : s.env.lines = l :: rest) (hl : l ≠ idleLines)
    (hpolicy : s.cfg.idlePolicy = .respin) (c : Nat) : idleRound s (c + 1) = .again s.cfg.idleThreshold := by
  simp [idleRound, nextLines_cons h, not_idle_iff.mpr hl, hpolicy]

/-- It ends the operation under `Abort` (R195). -/
theorem idleRound_abort {s : State} {l : Lines} {rest : List Lines} (h : s.env.lines = l :: rest) (hl : l ≠ idleLines)
    (hpolicy : s.cfg.idlePolicy = .abort) (c : Nat) : idleRound s (c + 1) = .aborted := by
  simp [idleRound, nextLines_cons h, not_idle_iff.mpr hl, hpolicy]

/-! ### The idle confirmation of `write` and of `read` -/

theorem goto_self {s : State} {p : Phase} (h : s.run.phase = p) : s.goto p = s := by
  subst h
  rfl

/-- The places of an operation's idle confirmation by its counter, of its request for arbitration, and of its wait. -/
inductive ConfirmsIdle : (Nat → Phase) → Phase → Phase → Prop where
  | write (w : WriteCall) : ConfirmsIdle (fun c => .write w (.w7 c)) (.write w .w8) (.write w .w9)
  | read (r : ReadCall) (caller : Caller) :
    ConfirmsIdle (fun c => .read r (.rd7 c) caller) (.read r .rd8 caller) (.read r .rd9 caller)

section
variable {confirming : Nat → Phase} {arming waiting : Phase} (h : ConfirmsIdle confirming arming waiting)
include h

/-- A round that goes on takes its sample and keeps the operation in the confirmation. -/
theorem ConfirmsIdle.step_again {s : State} {l : Lines} {rest : List Lines} {c c' : Nat} (hq : s.Quiet)
    (hlines : s.env.lines = l :: rest) (hround : ∀ p, idleRound (s.goto p) (c + 1) = .again c') :
    step (s.goto (confirming (c + 1))) = .next ((s.sampled [l] rest).goto (confirming c')) := by
  have hsample (p : Phase) : (s.goto p).observeLines = (s.sampled [l] rest).goto p := observeLines_cons hlines
  cases h with
  | write w =>
    rw [step_goto hq]
    simp only [hostStep, State.goto_run_phase, writeStep, hround, idleSample, hsample]
    rfl
  | read r caller =>
    rw [step_goto hq]
    simp only [hostStep, State.goto_run_phase, readStep, hround, idleSample, hsample]
    rfl

/-- `k` idle samples take the counter down by `k` (R194). -/
theorem ConfirmsIdle.runs_idle {s : State} {c k : Nat} {later : List Lines} (hq : s.Quiet)
    (hlines : s.env.lines = List.replicate k idleLines ++ later) :
    runs k (s.goto (confirming (c + k))) ((s.sampled (List.replicate k idleLines) later).goto (confirming c)) := by
  induction k generalizing s with
  | zero =>
    rw [List.replicate_zero, sampled_nil (later := later) hlines]
    exact runs_zero _
  | succ k ih =>
    have hstep := h.step_again (c := c + k) hq hlines fun p => idleRound_idle hlines (c + k)
    refine runs_succ hstep ?_
    have hrest := ih (s := s.sampled [idleLines] (List.replicate k idleLines ++ later)) hq rfl
    rwa [sampled_sampled] at hrest

/-- One that is not idle starts it again under `Respin` (R194). -/
theorem ConfirmsIdle.step_respin {s : State} {c : Nat} {bad : Lines} {later : List Lines} (hq : s.Quiet)
    (hpolicy : s.cfg.idlePolicy = .respin) (hbad : bad ≠ idleLines) (hlines : s.env.lines = bad :: later) :
    step (s.goto (confirming (c + 1))) = .next ((s.sampled [bad] later).goto (confirming s.cfg.idleThreshold)) :=
  h.step_again hq hlines fun _ => idleRound_respin hlines hbad hpolicy c

/-- With the counter at 0 the operation asks for arbitration and waits (R196). -/
theorem ConfirmsIdle.runs_arm {s : State} (hq : s.Quiet) :
    runs 2 (s.goto (confirming 0)) (s.armController.goto waiting) := by
  cases h with
  | write w =>
    have h7 : step (s.goto (.write w (.w7 0))) = .next (s.goto (.write w .w8)) := step_goto hq
    have h8 : step (s.goto (.write w .w8)) = .next (s.armController.goto (.write w .w9)) := step_goto hq
    exact runs_succ h7 (runs_one h8)
  | read r caller =>
    have h7 : step (s.goto (.read r (.rd7 0) caller)) = .next (s.goto (.read r .rd8 caller)) := step_goto hq
    have h8 : step (s.goto (.read r .rd8 caller)) = .next (s.armController.goto (.read r .rd9 caller)) := step_goto hq
    exact runs_succ h7 (runs_one h8)

/-- On an idle bus the confirmation takes its `T` samples and arms (R194, R196). -/
theorem ConfirmsIdle.runs_idle_arm {s : State} {k : Nat} {later : List Lines} (hq : s.Quiet)
    (hlines : s.env.lines = List.replicate k idleLines ++ later) :
    runs (k + 2) (s.goto (confirming k)) ((s.sampled (List.replicate k idleLines) later).armController.goto waiting) := by
  have hidle := h.runs_idle (c := 0) hq hlines
  rw [Nat.zero_add] at hidle
  exact runs_add hidle (h.runs_arm (by exact hq))

end

/-! ### `write` and `read` on an idle bus -/

/-- The address byte of an operation is twice its address plus the direction (R95). -/
theorem addrByte_busAddress {a : Byte} (ha : a.toNat ≤ 0x7F) (dir : Bool) :
    addrByte (busAddress a) dir = BitVec.ofNat 8 (a.toNat * 2 + dir.toNat) := by
  apply BitVec.eq_of_toNat_eq
  rw [addressByteIsTwiceTheAddressPlusDirection, BitVec.toNat_ofNat]
  have hbus : (busAddress a).toNat = a.toNat := by
    simp [busAddress]
    omega
  have hdir := dir.toNat_le
  omega

/-- The copy loop W2 puts the bytes from index `j` on into `txBuffer`, one a step (R182). -/
theorem runs_copy {w : WriteCall} {s : State} {j k : Nat} (hq : s.Quiet) (hcap : w.length ≤ s.cfg.cap)
    (hdata : w.length ≤ w.data.length) (hk : j + k = w.length) :
    runs k (s.goto (.write w (.w2 j)))
      ((s.setTxBuffer (s.ctx.txBuffer.writeAll j ((w.data.take w.length).drop j))).goto (.write w (.w2 w.length))) := by
  induction k generalizing s j with
  | zero =>
    obtain rfl : j = w.length := hk
    rw [List.drop_eq_nil_of_le (by rw [List.length_take]; omega)]
    exact runs_zero _
  | succ k ih =>
    have hj : j < w.data.length := by omega
    have hdrop : (w.data.take w.length).drop j = w.data[j] :: (w.data.take w.length).drop (j + 1) := by
      rw [List.drop_eq_getElem_cons (by rw [List.length_take]; omega), List.getElem_take]
    have hstep : step (s.goto (.write w (.w2 j))) =
        .next ((s.setTxBuffer (s.ctx.txBuffer.write j w.data[j])).goto (.write w (.w2 (j + 1)))) := by
      rw [step_goto hq]
      simp only [hostStep, State.goto_run_phase, writeStep, List.getElem?_eq_getElem hj, if_pos (show j < w.length by omega)]
      exact storeTx_eq (by exact (show j < s.cfg.cap by omega)) _ _
    rw [hdrop]
    exact runs_succ hstep (ih (s := s.setTxBuffer _) hq hcap (by omega))

/-- What `write` has set up when it begins its idle confirmation (W2 to W6). -/
def State.writeSetUp (s : State) (w : WriteCall) : State :=
  (((((s.setTxBuffer (s.ctx.txBuffer.writeAll 0 (w.data.take w.length))).setLength w.length).setCursor 0).setAddress
    (addrByte (busAddress w.address) false)).clearError).setArmed

theorem runs_writeSetUp {w : WriteCall} {s : State} (hq : s.Quiet) (hp : s.run.phase = .write w .w1)
    (hbusy : s.ctx.busy = false) (hcap : w.length ≤ s.cfg.cap) (hdata : w.length ≤ w.data.length) :
    runs (1 + w.length + 6) s ((s.writeSetUp w).goto (.write w (.w7 s.cfg.idleThreshold))) := by
  have h1 : step s = .next (s.goto (.write w (.w2 0))) := by
    rw [step_of_write hq hp, writeStep, if_neg (by simp [hbusy])]
  have hcopy := runs_copy (j := 0) hq hcap hdata (Nat.zero_add _)
  refine runs_add (runs_add (runs_one h1) hcopy) ?_
  rw [List.drop_zero, State.writeSetUp]
  generalize hu : s.setTxBuffer (s.ctx.txBuffer.writeAll 0 (w.data.take w.length)) = u
  have hqu : u.Quiet := by rw [← hu]; exact hq
  have hT : u.cfg.idleThreshold = s.cfg.idleThreshold := by rw [← hu, State.setTxBuffer_cfg]
  have h2 : step (u.goto (.write w (.w2 w.length))) = .next (u.goto (.write w .w3Length)) := by
    rw [step_goto hqu]
    exact if_neg (Nat.lt_irrefl _)
  have h3 : step (u.goto (.write w .w3Length)) = .next ((u.setLength w.length).goto (.write w .w3Cursor)) := step_goto hqu
  have h3' : step ((u.setLength w.length).goto (.write w .w3Cursor)) =
      .next (((u.setLength w.length).setCursor 0).goto (.write w .w4)) := step_goto (s := u.setLength _) hqu
  generalize hv : (u.setLength w.length).setCursor 0 = v at *
  have hqv : v.Quiet := by rw [← hv]; exact hqu
  have h4 : step (v.goto (.write w .w4)) =
      .next ((v.setAddress (addrByte (busAddress w.address) false)).goto (.write w .w5)) := step_goto hqv
  have h5 : step ((v.setAddress (addrByte (busAddress w.address) false)).goto (.write w .w5)) =
      .next ((v.setAddress (addrByte (busAddress w.address) false)).clearError.goto (.write w .w6)) :=
    step_goto (s := v.setAddress _) hqv
  have h6 : step ((v.setAddress (addrByte (busAddress w.address) false)).clearError.goto (.write w .w6)) =
      .next ((v.setAddress (addrByte (busAddress w.address) false)).clearError.setArmed.goto (.write w (.w7 v.cfg.idleThreshold))) :=
    step_goto (s := (v.setAddress _).clearError) hqv
  rw [← hT]
  have hTv : v.cfg.idleThreshold = u.cfg.idleThreshold := by rw [← hv]; rfl
  rw [← hTv]
  exact runs_succ h2 (runs_succ h3 (runs_succ h3' (runs_succ h4 (runs_succ h5 (runs_one h6)))))

/-- Settles O35: the set-up, the confirmation and the request follow each other. -/
theorem writeArmsTheTransfer : Obligations.WriteArmsTheTransfer := by
  intro s a data n blocking ha h1 hcap hdata
  refine ⟨fun i h hi => ?_, fun later hq hp hbusy hlines => ?_⟩
  · have henter (d : List Byte) (hd : n ≤ d.length) :
        beginWrite a d n blocking s = .next (s.goto (.write ⟨a, d, n, blocking⟩ .w1)) := by
      rw [beginWrite_of_callReady h, if_neg (by omega), addressOk_eq_true ha, if_neg (by decide), if_neg (by omega),
        if_neg (by omega)]
    rcases hi with rfl | ⟨rfl, rfl⟩
    · exact henter data hdata
    · exact henter data hdata
  · have hsetup := runs_writeSetUp hq hp hbusy hcap hdata
    have harm := (ConfirmsIdle.write ⟨a, data, n, blocking⟩).runs_idle_arm
      (s := s.writeSetUp ⟨a, data, n, blocking⟩) hq hlines
    have hruns := runs_add hsetup harm
    rw [show 1 + n + 6 + (s.cfg.idleThreshold + 2) = n + s.cfg.idleThreshold + 9 by omega] at hruns
    refine ⟨_, hruns, ?_, fun j => read_writeAll_take_of_lt _ hdata, fun j => read_writeAll_take_of_le _⟩
    have hbyte : addrByte (busAddress a) false = BitVec.ofNat 8 (a.toNat * 2) := addrByte_busAddress ha false
    simp only [State.writeSetUp, hbyte, idleLines]
    simp [State.sampled, State.armController, State.emit, State.setTxBuffer, State.setLength, State.setCursor,
      State.setAddress, State.clearError, State.setLastError, State.setArmed, State.setBusy, State.goto]

/-- What `read` has set up when it begins its idle confirmation (RD2 to RD6). -/
def State.readSetUp (s : State) (r : ReadCall) : State :=
  (((((s.setRxTarget ⟨r.destination, r.length⟩).setLength (r.length - 1)).setCursor 0).setAddress
    (addrByte (busAddress r.address) true)).clearError).setArmed

theorem runs_readSetUp {r : ReadCall} {caller : Caller} {s : State} (hq : s.Quiet) (hp : s.run.phase = .read r .rd1 caller)
    (hbusy : s.ctx.busy = false) : runs 7 s ((s.readSetUp r).goto (.read r (.rd7 s.cfg.idleThreshold) caller)) := by
  have h1 : step s = .next (s.goto (.read r .rd2 caller)) := by
    rw [step_of_read hq hp, readStep, if_neg (by simp [hbusy])]
  have h2 : step (s.goto (.read r .rd2 caller)) =
      .next ((s.setRxTarget ⟨r.destination, r.length⟩).goto (.read r .rd3Length caller)) := step_goto hq
  have h3 : step ((s.setRxTarget ⟨r.destination, r.length⟩).goto (.read r .rd3Length caller)) =
      .next (((s.setRxTarget ⟨r.destination, r.length⟩).setLength (r.length - 1)).goto (.read r .rd3Cursor caller)) :=
    step_goto (s := s.setRxTarget _) hq
  have h3' : step (((s.setRxTarget ⟨r.destination, r.length⟩).setLength (r.length - 1)).goto (.read r .rd3Cursor caller)) =
      .next ((((s.setRxTarget ⟨r.destination, r.length⟩).setLength (r.length - 1)).setCursor 0).goto (.read r .rd4 caller)) :=
    step_goto (s := (s.setRxTarget _).setLength _) hq
  rw [State.readSetUp]
  have hT : (((s.setRxTarget ⟨r.destination, r.length⟩).setLength (r.length - 1)).setCursor 0).cfg = s.cfg := rfl
  have hqv : (((s.setRxTarget ⟨r.destination, r.length⟩).setLength (r.length - 1)).setCursor 0).Quiet := hq
  generalize ((s.setRxTarget ⟨r.destination, r.length⟩).setLength (r.length - 1)).setCursor 0 = v at *
  have h4 : step (v.goto (.read r .rd4 caller)) =
      .next ((v.setAddress (addrByte (busAddress r.address) true)).goto (.read r .rd5 caller)) := step_goto hqv
  have h5 : step ((v.setAddress (addrByte (busAddress r.address) true)).goto (.read r .rd5 caller)) =
      .next ((v.setAddress (addrByte (busAddress r.address) true)).clearError.goto (.read r .rd6 caller)) :=
    step_goto (s := v.setAddress _) hqv
  have h6 : step ((v.setAddress (addrByte (busAddress r.address) true)).clearError.goto (.read r .rd6 caller)) =
      .next ((v.setAddress (addrByte (busAddress r.address) true)).clearError.setArmed.goto
        (.read r (.rd7 v.cfg.idleThreshold) caller)) := step_goto (s := (v.setAddress _).clearError) hqv
  rw [← hT]
  exact runs_succ h1 (runs_succ h2 (runs_succ h3 (runs_succ h3' (runs_succ h4 (runs_succ h5 (runs_one h6))))))

/-- Settles O36: the set-up, the confirmation and the request follow each other. -/
theorem readArmsTheTransfer : Obligations.ReadArmsTheTransfer := by
  intro s a ha
  refine ⟨fun i destination n h h1 hmax hi => ?_, fun region n caller later hq hp hbusy hlines => ?_⟩
  · have henter : beginRead a destination n s = .next (s.goto (.read ⟨a, .caller destination, n⟩ .rd1 .user)) := by
      rw [beginRead_of_callReady h, if_neg (by omega), addressOk_eq_true ha, if_neg (by decide), if_neg (by omega)]
    simp only [List.mem_cons, List.not_mem_nil, or_false] at hi
    rcases hi with rfl | rfl
    · exact henter
    · exact henter
  · have hsetup := runs_readSetUp hq hp hbusy
    have harm := (ConfirmsIdle.read ⟨a, region, n⟩ caller).runs_idle_arm (s := s.readSetUp ⟨a, region, n⟩) hq hlines
    have hruns := runs_add hsetup harm
    rw [show 7 + (s.cfg.idleThreshold + 2) = s.cfg.idleThreshold + 9 by omega] at hruns
    have hbyte : addrByte (busAddress a) true = BitVec.ofNat 8 (a.toNat * 2 + 1) := addrByte_busAddress ha true
    convert hruns using 1
    simp only [State.readSetUp, hbyte, idleLines]
    simp [State.sampled, State.armController, State.emit, State.setRxTarget, State.setLength, State.setCursor,
      State.setAddress, State.clearError, State.setLastError, State.setArmed, State.setBusy, State.goto]

/-! ### A sample that is not idle -/

/-- Settles O38: `k` idle samples, the one that is not, and then a confirmation from the start. -/
theorem respinNeedsTheFullCountAgain : Obligations.RespinNeedsTheFullCountAgain := by
  intro s k c bad later hq hpolicy hk hbad hlines confirming waiting hcw hp
  obtain ⟨arming, h⟩ : ∃ arming, ConfirmsIdle confirming arming waiting := by
    obtain ⟨w, rfl, rfl⟩ | ⟨r, caller, rfl, rfl⟩ := hcw
    · exact ⟨_, .write w⟩
    · exact ⟨_, .read r caller⟩
  obtain ⟨d, rfl⟩ : ∃ d, c = d + 1 + k := ⟨c - k - 1, by omega⟩
  have hself := goto_self hp
  -- the first `k` samples, then the one that is not idle
  have hrespun : runs (k + 1) s ((s.sampled (List.replicate k idleLines ++ [bad])
      (List.replicate s.cfg.idleThreshold idleLines ++ later)).goto (confirming s.cfg.idleThreshold)) := by
    have hfirst := h.runs_idle (c := d + 1) hq hlines
    have hsecond := h.step_respin (c := d)
      (s := s.sampled (List.replicate k idleLines) (bad :: (List.replicate s.cfg.idleThreshold idleLines ++ later))) hq hpolicy hbad rfl
    rw [sampled_sampled] at hsecond
    rw [hself] at hfirst
    exact runs_add hfirst (runs_one hsecond)
  refine ⟨fun m hm => ?_, ?_⟩
  · rcases Nat.lt_or_ge k m with hkm | hmk
    · obtain ⟨m, rfl⟩ : ∃ m', m = k + 1 + m' := ⟨m - (k + 1), by omega⟩
      obtain ⟨e, he⟩ : ∃ e, s.cfg.idleThreshold = e + m := ⟨s.cfg.idleThreshold - m, by omega⟩
      rw [he] at hrespun
      have hrest := h.runs_idle (c := e) (k := m) (later := List.replicate e idleLines ++ later)
        (s := s.sampled (List.replicate k idleLines ++ [bad]) (List.replicate (e + m) idleLines ++ later)) hq
        (by rw [Nat.add_comm e m, List.replicate_add, List.append_assoc]; rfl)
      exact ⟨_, e, runs_add hrespun hrest, rfl, rfl, fun h => by omega⟩
    · obtain ⟨e, rfl⟩ : ∃ e, k = m + e := ⟨k - m, by omega⟩
      have hfirst := h.runs_idle (c := d + 1 + e) (k := m) hq (by rw [hlines, List.replicate_add, List.append_assoc]; rfl)
      rw [Nat.add_assoc (d + 1), Nat.add_comm e m, hself] at hfirst
      exact ⟨_, d + 1 + e, hfirst, rfl, rfl, fun h => by omega⟩
  · have harm := h.runs_idle_arm (s := s.sampled (List.replicate k idleLines ++ [bad])
      (List.replicate s.cfg.idleThreshold idleLines ++ later)) hq rfl
    have hall := runs_add hrespun harm
    rw [← Nat.add_assoc] at hall
    refine ⟨_, hall, ?_⟩
    simp [State.sampled, State.armController, State.emit, idleLines]

/-- Settles O39: the sample, the record of the loss, and the end of the operation. -/
theorem abortReturnsWithArbitrationLost : Obligations.AbortReturnsWithArbitrationLost := by
  intro s c bad later hq hpolicy hbad hlines
  have hround : idleRound s (c + 1) = .aborted := idleRound_abort hlines hbad hpolicy c
  have hsample : s.observeLines = s.sampled [bad] later := observeLines_cons hlines
  have hread (r : ReadCall) (caller : Caller) (hp : s.run.phase = .read r (.rd7 (c + 1)) caller) :
      runs 3 s ((((s.sampled [bad] later).recordError (s.cfg.code .arbLost)).endTransfer).finishRead caller) := by
    have h7 : step s = .next ((s.sampled [bad] later).goto (.read r .rd7AbortError caller)) := by
      rw [step_of_read hq hp, readStep, hround, idleSample, hsample]
    have hError : step ((s.sampled [bad] later).goto (.read r .rd7AbortError caller)) =
        .next (((s.sampled [bad] later).recordError (s.cfg.code .arbLost)).goto (.read r .rd7AbortBusy caller)) :=
      step_goto (s := s.sampled [bad] later) hq
    have hBusy : step (((s.sampled [bad] later).recordError (s.cfg.code .arbLost)).goto (.read r .rd7AbortBusy caller)) =
        .next ((((s.sampled [bad] later).recordError (s.cfg.code .arbLost)).endTransfer).finishRead caller) := by
      rw [step_goto (s := (s.sampled [bad] later).recordError _) hq]
      cases caller <;> rfl
    exact runs_succ h7 (runs_succ hError (runs_one hBusy))
  refine ⟨fun w hp => ?_, fun r hp => hread r .user hp, fun r i hp => hread r (.handshake i) hp⟩
  have h7 : step s = .next ((s.sampled [bad] later).goto (.write w .w7AbortError)) := by
    rw [step_of_write hq hp, writeStep, hround, idleSample, hsample]
  have hError : step ((s.sampled [bad] later).goto (.write w .w7AbortError)) =
      .next (((s.sampled [bad] later).recordError (s.cfg.code .arbLost)).goto (.write w .w7AbortBusy)) :=
    step_goto (s := s.sampled [bad] later) hq
  have hBusy : step (((s.sampled [bad] later).recordError (s.cfg.code .arbLost)).goto (.write w .w7AbortBusy)) =
      .next ((((s.sampled [bad] later).recordError (s.cfg.code .arbLost)).endTransfer).finish .nothing) :=
    step_goto (s := (s.sampled [bad] later).recordError _) hq
  exact runs_succ h7 (runs_succ hError (runs_one hBusy))

end Sys2Proof.Machine
end

section
/-! Proofs about every Handler run (spec/41_transfer_state_machine.md section 1, spec/10_state.md sections 5 and 6,
spec/60_exceptions.md section 3): its one reply, what it leaves alone, and what it does to `busy`. Each rule is taken apart
once by the law that says what it can do; the statements are cases over the rule a status selects. -/

namespace Sys2Proof.Machine

/-! ### What every rule does -/

/-- From `s` to `t` one reply has been emitted, last, and at most one latch write before it (R96, R141). -/
def State.RepliesOnce (s t : State) : Prop :=
  ∃ commands reply, t.adapter.actions = s.adapter.actions ++ commands ++ [reply] ∧ reply.isReply = true ∧
    (∀ a ∈ commands, a.isReply = false) ∧ (commands.filter (fun a => a matches .writeLatch _)).length ≤ 1

/-- What every Handler run leaves alone: Host, the configuration, the parameters, the address and region of a transfer, the
traffic to come; the counter moves only up (R260, R29, R37). -/
def HandlerFrame (s t : State) : Prop :=
  t.run.phase = s.run.phase ∧ t.run.result = s.run.result ∧ t.cfg = s.cfg ∧ t.userCode = s.userCode ∧
  t.control.ownAddress = s.control.ownAddress ∧ t.control.generalCallEnable = s.control.generalCallEnable ∧
  t.control.initialised = s.control.initialised ∧ s.control.hsCounter ≤ t.control.hsCounter ∧
  t.ctx.addressAndDirection = s.ctx.addressAndDirection ∧ t.ctx.rxTarget = s.ctx.rxTarget ∧
  t.env.arrivals = s.env.arrivals ∧ t.env.calls = s.env.calls ∧ t.env.lines = s.env.lines

/-- A rule that replies once and keeps the frame. -/
def RuleReplies (rule : State → Out) : Prop :=
  ∀ s t, s.run.inHandler = true → rule s = .next t → s.RepliesOnce t ∧ HandlerFrame s t

/-- One that leaves the recorded error as well. -/
def RuleKeepsError (rule : State → Out) : Prop :=
  ∀ s t, s.run.inHandler = true → rule s = .next t →
    s.RepliesOnce t ∧ HandlerFrame s t ∧ t.ctx.lastError = s.ctx.lastError

theorem RuleKeepsError.replies {rule : State → Out} (h : RuleKeepsError rule) : RuleReplies rule := by
  intro s t hh ht
  obtain ⟨hreply, hframe, -⟩ := h s t hh ht
  exact ⟨hreply, hframe⟩

theorem Reply.command_isReply (r : Reply) : r.command.isReply = true := by
  cases r <;> rfl

/-- A reply alone. -/
theorem repliesOnce_nil {s t : State} {reply : Action} (h : t.adapter.actions = s.adapter.actions ++ [reply])
    (hr : reply.isReply = true) : s.RepliesOnce t :=
  ⟨[], reply, by simp [h], hr, nofun, by simp⟩

/-- A reply after one other command. -/
theorem repliesOnce_one {s t : State} {a reply : Action} (h : t.adapter.actions = s.adapter.actions ++ [a, reply])
    (ha : a.isReply = false) (hr : reply.isReply = true) : s.RepliesOnce t :=
  ⟨[a], reply, by simp [h], hr, by simpa using ha, by cases a <;> simp⟩

/-- Calling a callback is part of the run. -/
theorem repliesOnce_of_call {s u t : State} {a : Action} (hu : u.adapter.actions = s.adapter.actions ++ [a])
    (ha : a = .callOnReceive ∨ a = .callOnRequest) (h : u.RepliesOnce t) : s.RepliesOnce t := by
  obtain ⟨commands, reply, ht, hr, hc, hn⟩ := h
  refine ⟨a :: commands, reply, by simp [ht, hu], hr, ?_, ?_⟩
  · rcases ha with rfl | rfl <;> simpa [Action.isReply] using hc
  · rcases ha with rfl | rfl <;> simpa using hn

@[simp] theorem replyByExhaustion_actions (s : State) : s.replyByExhaustion.adapter.actions =
    s.adapter.actions ++ [(replyWhile (s.ctx.cursor < s.ctx.length)).command] := by
  rw [replyByExhaustion_eq]
  rfl

/-- A reply by exhaustion, alone or after one other command (R163). -/
theorem repliesOnce_byExhaustion {s u : State} (h : u.adapter.actions = s.adapter.actions) :
    s.RepliesOnce u.replyByExhaustion :=
  repliesOnce_nil ((replyByExhaustion_actions u).trans (by rw [h])) (Reply.command_isReply _)

theorem repliesOnce_one_byExhaustion {s u : State} {a : Action} (h : u.adapter.actions = s.adapter.actions ++ [a])
    (ha : a.isReply = false) : s.RepliesOnce u.replyByExhaustion :=
  repliesOnce_one (reply := (replyWhile (u.ctx.cursor < u.ctx.length)).command)
    ((replyByExhaustion_actions u).trans (by simp [h])) ha (Reply.command_isReply _)

theorem HandlerFrame.trans {s t u : State} (h : HandlerFrame s t) (h' : HandlerFrame t u) : HandlerFrame s u := by
  obtain ⟨h1, h2, h3, h4, h5, h6, h7, h8, h9, h10, h11, h12, h13⟩ := h
  obtain ⟨k1, k2, k3, k4, k5, k6, k7, k8, k9, k10, k11, k12, k13⟩ := h'
  exact ⟨k1.trans h1, k2.trans h2, k3.trans h3, k4.trans h4, k5.trans h5, k6.trans h6, k7.trans h7, h8.trans k8,
    k9.trans h9, k10.trans h10, k11.trans h11, k12.trans h12, k13.trans h13⟩

/-- A callback keeps the frame (R165). -/
theorem CallbackFrame.handler {s t : State} (h : CallbackFrame s t) : HandlerFrame s t := by
  obtain ⟨h1, h2, -, -, h3, h4, h5, h6, h7, -, -, -, h8, -, h9, h10, -, h11, h12, h13, -⟩ := h
  exact ⟨h7, h8, h1, h2, h3, h4, h5, h6, h9, h10, h11, h12, h13⟩

theorem CallbackFrame.actions {s t : State} (h : CallbackFrame s t) : t.adapter.actions = s.adapter.actions := by
  obtain ⟨-, -, hadapter, -⟩ := h
  rw [hadapter]

theorem CallbackFrame.busy {s t : State} (h : CallbackFrame s t) : t.ctx.busy = s.ctx.busy := by
  obtain ⟨-, -, -, -, -, -, -, -, -, -, -, -, -, hbusy, -⟩ := h
  exact hbusy

theorem CallbackFrame.lastError {s t : State} (h : CallbackFrame s t) : t.ctx.lastError = s.ctx.lastError := by
  obtain ⟨-, -, -, -, -, -, -, -, -, -, -, -, -, -, -, -, herror, -⟩ := h
  exact herror

/-! ### Rule by rule -/

theorem startRule_keepsError : RuleKeepsError startRule := by
  intro s t _ h
  obtain ⟨-, rfl⟩ := startRule_eq_next.mp h
  exact ⟨repliesOnce_one (a := .writeLatch s.ctx.addressAndDirection) (reply := .ack) (by simp) rfl rfl,
    by simp [HandlerFrame], by simp⟩

theorem ctSendNext_keepsError : RuleKeepsError ctSendNext := by
  intro s t _ h
  obtain ⟨-, -, ⟨-, rfl⟩ | ⟨-, -, b, -, rfl⟩⟩ := ctSendNext_eq_next.mp h
  · exact ⟨repliesOnce_nil rfl rfl, by simp [HandlerFrame], by simp⟩
  · exact ⟨repliesOnce_one (a := .writeLatch b) (reply := .ack) (by simp) rfl rfl, by simp [HandlerFrame], by simp⟩

theorem arbLostRule_replies (raw : Byte) : RuleReplies (arbLostRule raw) := by
  intro s t _ h
  obtain rfl := Host.Outcome.next.inj h
  exact ⟨repliesOnce_nil rfl rfl, by simp [HandlerFrame]⟩

theorem crAddrAckRule_keepsError : RuleKeepsError crAddrAckRule := by
  intro s t _ h
  obtain ⟨-, -, rfl⟩ := crAddrAckRule_eq_next.mp h
  exact ⟨repliesOnce_byExhaustion rfl, by simp [HandlerFrame], by simp⟩

theorem crDataAckRule_keepsError : RuleKeepsError crDataAckRule := by
  intro s t _ h
  obtain ⟨-, -, -, -, -, rfl⟩ := crDataAckRule_eq_next.mp h
  exact ⟨repliesOnce_byExhaustion (by simp), by simp [HandlerFrame], by simp⟩

theorem crDataNackRule_keepsError : RuleKeepsError crDataNackRule := by
  intro s t _ h
  obtain ⟨-, -, -, rfl⟩ := crDataNackRule_eq_next.mp h
  exact ⟨repliesOnce_nil (reply := .stop) (by simp) rfl, by simp [HandlerFrame], by simp⟩

/-- The received byte is in the latch before the rule runs; that is no command. -/
theorem RuleKeepsError.receiveByte {rule : State → Out} (h : RuleKeepsError rule) (v : Byte) :
    RuleKeepsError fun s => rule (s.receiveByte v) :=
  fun s t hh ht => h (s.receiveByte v) t hh ht

theorem trAddressed_keepsError : RuleKeepsError trAddressed := by
  intro s t _ h
  obtain rfl := Host.Outcome.next.inj h
  exact ⟨repliesOnce_nil rfl rfl, by simp [HandlerFrame], by simp⟩

theorem trDataRule_keepsError : RuleKeepsError trDataRule := by
  intro s t _ h
  obtain ⟨-, -, rfl⟩ := trDataRule_eq_next.mp h
  exact ⟨repliesOnce_nil rfl rfl, by simp [HandlerFrame], by simp⟩

theorem trStopRule_keepsError : RuleKeepsError trStopRule := by
  intro s t hh h
  obtain ⟨u, hu, rfl⟩ := trStopRule_eq_next.mp h
  obtain ⟨callback, -, hu⟩ := callOnReceive_eq_next.mp hu
  have hframe := runCallback_frame (by exact hh) hu
  have hend : HandlerFrame u u.endTransfer.requestAck := by simp [HandlerFrame]
  refine ⟨repliesOnce_of_call (hframe.actions.trans rfl) (.inl rfl) (repliesOnce_nil rfl rfl),
    hframe.handler.trans hend, hframe.lastError⟩

theorem ttSendNext_keepsError : RuleKeepsError ttSendNext := by
  intro s t _ h
  obtain ⟨-, -, -, -, b, -, rfl⟩ := ttSendNext_eq_next.mp h
  exact ⟨repliesOnce_one_byExhaustion (a := .writeLatch b) (by simp) rfl, by simp [HandlerFrame], by simp⟩

/-- What the call of `onRequest` leaves of a run that has set `busy`. -/
theorem callOnRequest_frame {s u : State} (hh : s.run.inHandler = true) (h : callOnRequest s.setArmed = .next u) :
    HandlerFrame s u ∧ u.ctx.lastError = s.ctx.lastError ∧ u.run.inHandler = true ∧ u.ctx.busy = true ∧
      u.adapter.actions = s.adapter.actions ++ [.callOnRequest] := by
  obtain ⟨callback, v, -, hv, -, rfl⟩ := callOnRequest_eq_next.mp h
  have hframe := runCallback_frame (by exact hh) hv
  exact ⟨hframe.handler, hframe.lastError, hframe.inHandler hh, hframe.busy, hframe.actions⟩

theorem ttAddressed_keepsError : RuleKeepsError ttAddressed := by
  intro s t hh h
  obtain ⟨u, hu, ht⟩ := ttAddressed_eq_next.mp h
  obtain ⟨hframe, herror, hin, -, hactions⟩ := callOnRequest_frame hh hu
  obtain ⟨hreply, hrest, herror'⟩ := ttSendNext_keepsError u t hin ht
  exact ⟨repliesOnce_of_call hactions (.inr rfl) hreply, hframe.trans hrest, herror'.trans herror⟩

theorem ttEndRule_keepsError : RuleKeepsError ttEndRule := by
  intro s t _ h
  obtain rfl := Host.Outcome.next.inj h
  exact ⟨repliesOnce_nil rfl rfl, by simp [HandlerFrame], by simp⟩

theorem pollStop_frame (s : State) : HandlerFrame s s.pollStop := by
  obtain ⟨hcalls, harrivals, hlines⟩ := useStopAnswer_traffic s
  rw [pollStop_eq]
  split_ifs <;> simp [HandlerFrame, hcalls, harrivals, hlines]

/-- The state in which the rule of an unrecognised status polls, from inside its run. -/
theorem errorRule_eq {raw : Byte} {s : State} (hh : s.run.inHandler = true) :
    errorRule raw s = .next ({ s.stopAwaited raw with
      adapter := { (s.stopAwaited raw).adapter with lastEvent := s.adapter.lastEvent } } : State).pollStop := by
  simp [errorRule, State.stopAwaited, State.recordError, State.setLastError, State.emit, State.requestStop, State.disarm, hh]

theorem errorRule_replies (raw : Byte) : RuleReplies (errorRule raw) := by
  intro s t hh h
  rw [errorRule_eq hh] at h
  obtain rfl := Host.Outcome.next.inj h
  refine ⟨repliesOnce_nil (reply := .stopWait) ?_ rfl, HandlerFrame.trans ?_ (pollStop_frame _)⟩
  · exact (pollStop_leaves _).2.2.trans rfl
  · simp [HandlerFrame, State.stopAwaited]

/-- A status that has a rule of its own, other than arbitration lost, leaves the recorded error (R42). -/
theorem ruleOf_keepsError (c : Config) {i : Instr} (hi : i.format = .status) (hlost : i ≠ .arbLost)
    (herror : ∀ raw, (i, raw) ∉ errorStatuses c) (hother : ∀ b, i ≠ .otherStatus b) : RuleKeepsError (ruleOf c i) := by
  cases i with
  | start | repStart => exact startRule_keepsError
  | ctAddrAck | ctDataAck => exact ctSendNext_keepsError
  | crAddrAck => exact crAddrAckRule_keepsError
  | crDataAck v => exact crDataAckRule_keepsError.receiveByte v
  | crDataNack v => exact crDataNackRule_keepsError.receiveByte v
  | trAddrAck | trArbLostAddrAck | trGcallAck | trArbLostGcallAck => exact trAddressed_keepsError
  | trDataAck v | trGcallDataAck v => exact trDataRule_keepsError.receiveByte v
  | trStop => exact trStopRule_keepsError
  | ttAddrAck | ttArbLostAddrAck => exact ttAddressed_keepsError
  | ttDataAck => exact ttSendNext_keepsError
  | ttDataNack | ttLastData => exact ttEndRule_keepsError
  | arbLost => exact absurd rfl hlost
  | otherStatus b => exact absurd rfl (hother b)
  | busError | ctAddrNack | ctDataNack | crAddrNack | trDataNack | trGcallDataNack | noInfo =>
    exact absurd (by simp [errorStatuses]; rfl) (herror _)
  | _ => cases hi

/-- Every rule a status selects replies once and keeps the frame (R140). -/
theorem ruleOf_replies (c : Config) {i : Instr} (hi : i.format = .status) : RuleReplies (ruleOf c i) := by
  by_cases hlost : i = .arbLost
  · subst hlost
    exact arbLostRule_replies _
  by_cases herror : ∃ raw, (i, raw) ∈ errorStatuses c ∨ i = .otherStatus raw
  · obtain ⟨raw, h⟩ := herror
    rw [(ruleOf_errorStatus h).2.2]
    exact errorRule_replies raw
  · simp only [not_exists, not_or] at herror
    exact (ruleOf_keepsError c hi hlost (fun raw => (herror raw).1) (fun raw => (herror raw).2)).replies

/-! ### Every Handler run -/

/-- Settles O44: entry and return emit nothing. -/
theorem everyHandlerRunEndsWithItsOneReply : Obligations.EveryHandlerRunEndsWithItsOneReply := by
  intro i s t hi h
  obtain ⟨-, u, hu, rfl⟩ := exec_status_eq_next hi h
  obtain ⟨hreply, -⟩ := ruleOf_replies _ hi _ u rfl hu
  rw [State.leaveHandler_adapter]
  exact hreply

/-- Settles O45: entry and return change nothing of the frame. -/
theorem handlerRunLeavesHostAndConfigurationAlone : Obligations.HandlerRunLeavesHostAndConfigurationAlone := by
  intro i s t hi h
  obtain ⟨-, u, hu, rfl⟩ := exec_status_eq_next hi h
  obtain ⟨-, hframe⟩ := ruleOf_replies _ hi _ u rfl hu
  have hleave : HandlerFrame u u.leaveHandler := by
    unfold State.leaveHandler
    split_ifs <;> simp [HandlerFrame]
  obtain ⟨h1, h2, h3, h4, h5, h6, h7, h8, h9, h10, h11, h12, h13⟩ := hframe.trans hleave
  refine ⟨h1, h2, h3, h4, h5, h6, h7, h8, h9, h10, h11, h12, h13, fun hlost herror hother => ?_⟩
  obtain ⟨-, -, hkeep⟩ := ruleOf_keepsError _ hi hlost herror hother _ u rfl hu
  rw [State.leaveHandler_ctx, hkeep, State.enterHandler_ctx]

/-! ### `busy` -/

/-- A run of an addressed status sets `busy` (R157). -/
theorem ttAddressed_busy {s t : State} (hh : s.run.inHandler = true) (h : ttAddressed s = .next t) : t.ctx.busy = true := by
  obtain ⟨u, hu, ht⟩ := ttAddressed_eq_next.mp h
  obtain ⟨-, -, -, hbusy, -⟩ := callOnRequest_frame hh hu
  obtain ⟨-, -, -, -, b, -, rfl⟩ := ttSendNext_eq_next.mp ht
  simpa using hbusy

theorem ctSendNext_busy {s t : State} (h : ctSendNext s = .next t) :
    t.ctx.busy = if s.ctx.cursor = s.ctx.length then false else s.ctx.busy := by
  obtain ⟨-, -, ⟨heq, rfl⟩ | ⟨hlt, -, b, -, rfl⟩⟩ := ctSendNext_eq_next.mp h
  · simp [heq]
  · simp [hlt.ne]

theorem errorRule_busy {raw : Byte} {s t : State} (hh : s.run.inHandler = true) (h : errorRule raw s = .next t) :
    t.ctx.busy = if t.run.stopWait = true then s.ctx.busy else false := by
  rw [errorRule_eq hh] at h
  obtain rfl := Host.Outcome.next.inj h
  rw [pollStop_eq]
  split_ifs <;> simp_all [State.stopAwaited]

/-- Settles O46: each family of the table is one rule. -/
theorem busyIsWrittenByTheTableOnly : Obligations.BusyIsWrittenByTheTableOnly := by
  intro i s t hi h
  obtain ⟨-, u, hu, rfl⟩ := exec_status_eq_next hi h
  have hwait : u.leaveHandler.run.stopWait = u.run.stopWait := by
    unfold State.leaveHandler
    split_ifs <;> rfl
  simp only [State.leaveHandler_ctx, hwait]
  simp only [List.mem_cons, List.not_mem_nil, or_false]
  refine ⟨?_, ?_, ?_, ?_, ?_, ?_, ?_⟩
  · rintro (rfl | rfl | rfl | rfl | rfl | rfl)
    case inr.inr.inr.inr.inl => exact ttAddressed_busy rfl hu
    case inr.inr.inr.inr.inr => exact ttAddressed_busy rfl hu
    all_goals
      obtain rfl := Host.Outcome.next.inj hu
      rfl
  · rintro (rfl | rfl | rfl | rfl)
    case inr.inl =>
      obtain ⟨v, -, rfl⟩ := trStopRule_eq_next.mp hu
      rfl
    all_goals
      obtain rfl := Host.Outcome.next.inj hu
      rfl
  · rintro v rfl
    obtain ⟨-, -, -, rfl⟩ := crDataNackRule_eq_next.mp hu
    rfl
  · rintro (rfl | rfl) <;> exact ctSendNext_busy (s := s.enterHandler _) hu
  · rintro (rfl | rfl | rfl | rfl)
    · obtain ⟨-, rfl⟩ := startRule_eq_next.mp hu
      rfl
    · obtain ⟨-, rfl⟩ := startRule_eq_next.mp hu
      rfl
    · obtain ⟨-, -, rfl⟩ := crAddrAckRule_eq_next.mp hu
      simp
    · obtain ⟨-, -, -, -, b, -, rfl⟩ := ttSendNext_eq_next.mp hu
      simp
  · rintro v (rfl | rfl | rfl)
    · obtain ⟨-, -, -, -, -, rfl⟩ := crDataAckRule_eq_next.mp hu
      simp
    · obtain ⟨-, -, rfl⟩ := trDataRule_eq_next.mp hu
      rfl
    · obtain ⟨-, -, rfl⟩ := trDataRule_eq_next.mp hu
      rfl
  · intro raw hraw
    rw [(ruleOf_errorStatus hraw).2.2] at hu
    exact errorRule_busy (s := s.enterHandler _) rfl hu

end Sys2Proof.Machine
end

section
/-! Proofs about whole transfers of one device (spec/41_transfer_state_machine.md sections 4 to 7, spec/95_test_vectors.md
section 1): an induction over the bytes still to come, with the exact result of one status as its step. -/

namespace Sys2Proof.Machine

/-- A run that returns leaves Host's and the Handler's control as they were before its entry (R260, R261). -/
theorem inHandler_cleared {r : Execution} (h : r.inHandler = false) : { r with inHandler := false } = r := by
  rw [← h]

/-! ### A controller that writes -/

/-- The commands that send bytes as a controller (R163). -/
def ctSent (data : List Byte) : List Action := data.flatMap fun b => [.writeLatch b, .ack]

/-- From the acknowledge before the bytes `rest` on: each is sent, and then the transfer stops. -/
theorem handles_ctSend {rest : List Byte} {u : State} {i : Instr} {x : Status}
    (hix : (i, x) ∈ [(Instr.ctAddrAck, Status.ctAddrAck), (.ctDataAck, .ctDataAck)]) (hs : u.EventReady)
    (hc : u.readable .cursor = true) (hl : u.readable .length = true) (hlen : u.ctx.length = u.ctx.cursor + rest.length)
    (hcap : u.ctx.length ≤ u.cfg.cap) (htx : ∀ j b, rest[j]? = some b → u.ctx.txBuffer.read (u.ctx.cursor + j) = some b) :
    ∃ t, handles (i :: List.replicate rest.length .ctDataAck) u t ∧
      t.ctx = { u.ctx with cursor := u.ctx.length, busy := false } ∧ t.memory = u.memory ∧ t.control = u.control ∧
      t.run = u.run ∧ t.adapter.actions = u.adapter.actions ++ ctSent rest ++ [.stop] := by
  induction rest generalizing u i x with
  | nil =>
    obtain ⟨hstop, -⟩ := controllerTransmitSendsOrStops i x u hix hs hc hl
    have heq : u.ctx.cursor = u.ctx.length := by simpa using hlen.symm
    refine ⟨_, ⟨_, hstop heq, rfl⟩, by simp [State.handled, heq], rfl, rfl, inHandler_cleared hs.2.1, ?_⟩
    simp [State.handled, ctSent]
  | cons b rest ih =>
    rw [List.length_cons] at hlen
    obtain ⟨-, hsend, -⟩ := controllerTransmitSendsOrStops i x u hix hs hc hl
    have hexec := hsend b (by omega) (by omega) (by simpa using htx 0 b rfl)
    generalize hv : State.handled _ _ _ _ = v at hexec
    obtain ⟨t, ht, hctx, hmem, hcontrol, hrun, hactions⟩ := ih (u := v) (i := .ctDataAck) (x := .ctDataAck) (by simp)
      (by subst hv; exact ⟨hs.1, rfl, hs.2.2⟩) (by subst hv; exact readable_of_written rfl)
      (by subst hv; exact readable_of_readable hl)
      (by subst hv; simpa [State.handled, Nat.add_assoc, Nat.add_comm 1] using hlen) (by subst hv; exact hcap)
      (by
        subst hv
        intro j c hj
        simpa [State.handled, Nat.add_assoc, Nat.add_comm 1] using htx (j + 1) c (by simpa using hj))
    subst hv
    refine ⟨t, ⟨_, hexec, ht⟩, hctx, hmem, hcontrol, hrun.trans (inHandler_cleared hs.2.1), ?_⟩
    simp [hactions, State.handled, ctSent]

/-- Settles O51: the start, and then the bytes from the first on. -/
theorem acknowledgedWriteSendsEveryByteInOrder : Obligations.AcknowledgedWriteSendsEveryByteInOrder := by
  intro s data hs hdata hlen hcur hcap hc hl ha htx
  have hstart := (startSendsTheLatchedAddressByte .start .start s (by simp) hs).1 ha
  generalize hv : State.handled _ _ _ _ = v at hstart
  obtain ⟨t, ht, hctx, hmem, hcontrol, hrun, hactions⟩ := handles_ctSend (u := v) (rest := data) (i := .ctAddrAck)
    (x := .ctAddrAck) (by simp) (by subst hv; exact ⟨hs.1, rfl, hs.2.2⟩) (by subst hv; exact readable_of_readable hc)
    (by subst hv; exact readable_of_readable hl) (by subst hv; simpa [State.handled, hcur] using hlen)
    (by subst hv; exact hlen ▸ hcap)
    (by subst hv; intro j b hj; simpa [State.handled, hcur] using htx j b hj)
  subst hv
  refine ⟨t, ⟨_, hstart, ht⟩, ?_, hmem, hcontrol, hrun.trans (inHandler_cleared hs.2.1), ?_⟩
  · rw [hctx]
    simp [State.handled, hlen]
  · simp [hactions, State.handled, ctSent]

/-! ### A controller that reads -/

/-- `CR_DATA_ACK` stores its byte in the caller's region and replies by exhaustion (R148). -/
theorem exec_crDataAck_caller {u : State} {base : Nat} (v : Byte) (hs : u.EventReady) (hc : u.readable .cursor = true)
    (hl : u.readable .length = true) (hr : u.readable .rxTarget = true)
    (hrx : u.ctx.rxTarget = ⟨.caller base, u.ctx.length + 1⟩) (hlt : u.ctx.cursor < u.ctx.length) :
    exec (.crDataAck v) u = .next (({ u with
      memory := u.memory.write (base + u.ctx.cursor) v
      ctx := { u.ctx with cursor := u.ctx.cursor + 1 }
      written := { u.written with cursor := true }
      adapter := { u.adapter with dataLatch := v } }).handled (u.cfg.code .crDataAck)
        (replyWhile (u.ctx.cursor + 1 < u.ctx.length)) [(replyWhile (u.ctx.cursor + 1 < u.ctx.length)).command]) := by
  obtain ⟨hcaller, -⟩ := controllerReceiveStoresTheByte u v hs hc hl hr
  refine hcaller base hlt ?_ (by rw [hrx])
  rw [hrx]
  exact hlt.trans (Nat.lt_succ_self _)

/-- `CR_DATA_NACK` stores the final byte there and stops (R149). -/
theorem exec_crDataNack_caller {u : State} {base : Nat} (v : Byte) (hs : u.EventReady) (hc : u.readable .cursor = true)
    (hr : u.readable .rxTarget = true) (hrx : u.ctx.rxTarget = ⟨.caller base, u.ctx.length + 1⟩)
    (hle : u.ctx.cursor ≤ u.ctx.length) :
    exec (.crDataNack v) u = .next (({ u with
      memory := u.memory.write (base + u.ctx.cursor) v
      ctx := { u.ctx with busy := false }
      adapter := { u.adapter with dataLatch := v, stopPending := true } }).handled
        (u.cfg.code .crDataNack) .stop [.stop]) := by
  obtain ⟨hcaller, -⟩ := controllerReceiveStoresTheFinalByteAndStops u v hs hc hr
  refine hcaller base ?_ (by rw [hrx])
  rw [hrx]
  exact Nat.lt_succ_of_le hle

/-- From before the bytes `rest` on, with `last` after them: each is stored at its place, and the replies, with the one
before these bytes in front, are an acknowledge for each of `rest`, one non-acknowledge, and the stop. -/
theorem handles_crReceive {rest : List Byte} {u : State} {base : Nat} (last : Byte) (hs : u.EventReady)
    (hc : u.readable .cursor = true) (hl : u.readable .length = true) (hr : u.readable .rxTarget = true)
    (hrx : u.ctx.rxTarget = ⟨.caller base, u.ctx.length + 1⟩) (hlen : u.ctx.length = u.ctx.cursor + rest.length) :
    ∃ t added, handles (rest.map .crDataAck ++ [.crDataNack last]) u t ∧
      t.ctx = { u.ctx with cursor := u.ctx.length, busy := false } ∧
      (∀ j b, (rest ++ [last])[j]? = some b → t.memory.read (base + u.ctx.cursor + j) = some b) ∧
      (∀ a, (a < base + u.ctx.cursor ∨ base + u.ctx.length + 1 ≤ a) → t.memory.read a = u.memory.read a) ∧
      t.adapter.actions = u.adapter.actions ++ added ∧
      (replyWhile (0 < rest.length)).command :: added = List.replicate rest.length .ack ++ [.nack, .stop] := by
  induction rest generalizing u with
  | nil =>
    have heq : u.ctx.cursor = u.ctx.length := by simpa using hlen.symm
    refine ⟨_, [.stop], ⟨_, exec_crDataNack_caller last hs hc hr hrx heq.le, rfl⟩, ?_, fun j b hj => ?_, fun a ha => ?_,
      rfl, rfl⟩
    · simp [State.handled, heq]
    · cases j with
      | zero =>
        obtain rfl : last = b := by simpa using hj
        exact Memory.read_write_same _ _ _
      | succ j => simp at hj
    · exact Memory.read_write_other _ _ (by omega)
  | cons b rest ih =>
    rw [List.length_cons] at hlen
    have hexec := exec_crDataAck_caller b hs hc hl hr hrx (by omega)
    generalize hv : State.handled _ _ _ _ = v at hexec
    have hcur : v.ctx.cursor = u.ctx.cursor + 1 := by subst hv; rfl
    have hlength : v.ctx.length = u.ctx.length := by subst hv; rfl
    have hmem : v.memory = u.memory.write (base + u.ctx.cursor) b := by subst hv; rfl
    obtain ⟨t, added, ht, hctx, hstored, helse, hactions, hadded⟩ := ih (u := v) (by subst hv; exact ⟨hs.1, rfl, hs.2.2⟩)
      (by subst hv; exact readable_of_written rfl) (by subst hv; exact readable_of_readable hl)
      (by subst hv; exact readable_of_readable hr) (by subst hv; exact hrx) (by omega)
    rw [hcur] at hstored
    rw [hcur, hlength] at helse
    have hmore : decide (u.ctx.cursor + 1 < u.ctx.length) = decide (0 < rest.length) := by
      rw [decide_eq_decide]
      omega
    refine ⟨t, (replyWhile (0 < rest.length)).command :: added, ⟨_, hexec, ht⟩, ?_, fun j c hj => ?_, fun a ha => ?_, ?_, ?_⟩
    · subst hv
      exact hctx
    · cases j with
      | zero =>
        obtain rfl : b = c := by simpa using hj
        rw [helse _ (.inl (by omega)), hmem]
        exact Memory.read_write_same _ _ _
      | succ j =>
        have h := hstored j c (by simpa using hj)
        rwa [show base + (u.ctx.cursor + 1) + j = base + u.ctx.cursor + (j + 1) by omega] at h
    · rw [helse a (by omega), hmem]
      exact Memory.read_write_other _ _ (by omega)
    · subst hv
      rw [hactions, ← hmore]
      simp [State.handled]
    · rw [hadded]
      simp [replyWhile, Reply.command, List.replicate_succ]

/-- Settles O52: the start, the reply to the address acknowledge, and then the bytes. -/
theorem readStoresEveryByteInOrder : Obligations.ReadStoresEveryByteInOrder := by
  intro s init last base hs hrx hlen hcur hc hl hr ha
  have hstart := (startSendsTheLatchedAddressByte .start .start s (by simp) hs).1 ha
  generalize hv : State.handled _ _ _ _ = v at hstart
  have hack := controllerReceiveAddressAckOnlyReplies v (by subst hv; exact ⟨hs.1, rfl, hs.2.2⟩)
    (by subst hv; exact readable_of_readable hc) (by subst hv; exact readable_of_readable hl)
  generalize hw : State.handled v _ _ _ = w at hack
  obtain ⟨t, added, ht, hctx, hstored, helse, hactions, hadded⟩ := handles_crReceive (u := w) (rest := init) (base := base)
    last (by subst hw hv; exact ⟨hs.1, rfl, hs.2.2⟩) (by subst hw hv; exact readable_of_readable hc)
    (by subst hw hv; exact readable_of_readable hl) (by subst hw hv; exact readable_of_readable hr)
    (by subst hw hv; simpa [State.handled, hlen] using hrx) (by subst hw hv; simpa [State.handled, hcur] using hlen)
  subst hw hv
  refine ⟨t, ⟨_, hstart, _, hack, ht⟩, ?_, fun j b hj => ?_, fun a ha => ?_, ?_⟩
  · rw [hctx]
    simp [State.handled, hlen]
  · simpa [State.handled, hcur] using hstored j b hj
  · exact helse a (by simpa [State.handled, hcur, hlen] using ha)
  · rw [hactions]
    simp only [State.handled, hcur, hlen, List.append_assoc, List.cons_append, List.nil_append, hadded]

end Sys2Proof.Machine
end

section
/-! Proofs about whole transfers of a target (spec/41_transfer_state_machine.md sections 6 and 7, spec/95_test_vectors.md
section 1), by induction over the bytes still to come. -/

namespace Sys2Proof.Machine

/-! ### A target that receives -/

/-- From before the bytes `rest` on: each goes to the buffer at the cursor, and is acknowledged. -/
theorem handles_trReceive {rest : List Byte} {u : State} (hs : u.EventReady) (hc : u.readable .cursor = true)
    (hcap : u.ctx.cursor + rest.length ≤ u.cfg.cap) :
    ∃ t, handles (rest.map .trDataAck) u t ∧
      t.ctx = { u.ctx with
        txBuffer := u.ctx.txBuffer.writeAll u.ctx.cursor rest, cursor := u.ctx.cursor + rest.length } ∧
      t.memory = u.memory ∧ t.adapter.actions = u.adapter.actions ++ List.replicate rest.length .ack := by
  induction rest generalizing u with
  | nil => exact ⟨u, rfl, rfl, rfl, by simp⟩
  | cons b rest ih =>
    rw [List.length_cons] at hcap
    have hexec := (targetReceiveStoresTheByte (.trDataAck b) .trDataAck u b (by simp) hs hc).1 (by omega)
    generalize hv : State.handled _ _ _ _ = v at hexec
    have hcur : v.ctx.cursor = u.ctx.cursor + 1 := by subst hv; rfl
    have hcfg : v.cfg = u.cfg := by subst hv; rfl
    obtain ⟨t, ht, hctx, hmem, hactions⟩ := ih (u := v) (by subst hv; exact ⟨hs.1, rfl, hs.2.2⟩)
      (by subst hv; exact readable_of_written rfl) (by rw [hcur, hcfg]; omega)
    rw [hcur] at hctx
    subst hv
    refine ⟨t, ⟨_, hexec, ht⟩, ?_, hmem, ?_⟩
    · rw [hctx, List.length_cons, Nat.add_assoc, Nat.add_comm 1]
      rfl
    · rw [hactions]
      simp [State.handled, List.replicate_succ]

/-- Settles O53: the addressed status, and then the bytes from index 0 on. -/
theorem targetReceiveStoresEveryByteInOrder : Obligations.TargetReceiveStoresEveryByteInOrder := by
  intro s data hs hcap
  have haddressed := addressedForReceiveArmsTheTarget .trAddrAck .trAddrAck s (by simp) hs
  generalize hv : State.handled _ _ _ _ = v at haddressed
  have hcur : v.ctx.cursor = 0 := by subst hv; rfl
  have hcfg : v.cfg = s.cfg := by subst hv; rfl
  obtain ⟨t, ht, hctx, hmem, hactions⟩ := handles_trReceive (u := v) (rest := data)
    (by subst hv; exact ⟨hs.1, rfl, hs.2.2⟩) (by subst hv; exact readable_of_written rfl) (by rw [hcur, hcfg]; omega)
  rw [hcur, Nat.zero_add] at hctx
  have hread (j : Nat) : t.ctx.txBuffer.read j = if j < data.length then data[j]? else s.ctx.txBuffer.read j := by
    rw [hctx, Memory.read_writeAll]
    subst hv
    simp [State.handled]
  subst hv
  refine ⟨t, ⟨_, haddressed, ht⟩, by rw [hctx]; rfl, by rw [hctx], by rw [hctx]; rfl, by rw [hctx]; rfl, hmem,
    fun j b hj => ?_, fun j hj => ?_, ?_⟩
  · rw [hread, if_pos (List.getElem?_eq_some_iff.mp hj).1, hj]
  · rw [hread, if_neg (by omega)]
  · rw [hactions]
    simp [State.handled, List.replicate_succ]

/-! ### A target that transmits -/

/-- The commands that send bytes as a target: each is acknowledged if more follow (R163). -/
def ttSent : List Byte → List Action
  | [] => []
  | b :: rest => [.writeLatch b, (replyWhile (0 < rest.length)).command] ++ ttSent rest

theorem ttSent_append_last (init : List Byte) (last : Byte) :
    ttSent (init ++ [last]) = init.flatMap (fun b => [.writeLatch b, .ack]) ++ [.writeLatch last, .nack] := by
  induction init with
  | nil => rfl
  | cons b init ih => simp [ttSent, ih, replyWhile, Reply.command]

/-- From before the bytes `rest` on, to the end of the transfer. -/
theorem handles_ttSend {rest : List Byte} {u : State} {final : Instr} {x : Status}
    (hfinal : (final, x) ∈ [(Instr.ttDataNack, Status.ttDataNack), (.ttLastData, .ttLastData)]) (hs : u.EventReady)
    (hc : u.readable .cursor = true) (hl : u.readable .length = true) (hlen : u.ctx.length = u.ctx.cursor + rest.length)
    (hcap : u.ctx.length ≤ u.cfg.cap) (htx : ∀ j b, rest[j]? = some b → u.ctx.txBuffer.read (u.ctx.cursor + j) = some b) :
    ∃ t, handles (List.replicate rest.length .ttDataAck ++ [final]) u t ∧
      t.ctx = { u.ctx with cursor := u.ctx.length, busy := false } ∧ t.memory = u.memory ∧ t.control = u.control ∧
      t.adapter.actions = u.adapter.actions ++ ttSent rest ++ [.ack] := by
  induction rest generalizing u with
  | nil =>
    have heq : u.ctx.cursor = u.ctx.length := by simpa using hlen.symm
    refine ⟨_, ⟨_, targetTransmitEndClearsBusy final x u hfinal hs, rfl⟩, by simp [State.handled, heq], rfl, rfl, ?_⟩
    simp [State.handled, ttSent]
  | cons b rest ih =>
    rw [List.length_cons] at hlen
    have hexec := (targetTransmitSendsTheNextByte u hs hc hl).1 b (by omega) (by omega) (by simpa using htx 0 b rfl)
    generalize hv : State.handled _ _ _ _ = v at hexec
    have hcur : v.ctx.cursor = u.ctx.cursor + 1 := by subst hv; rfl
    have hlength : v.ctx.length = u.ctx.length := by subst hv; rfl
    have hbuffer : v.ctx.txBuffer = u.ctx.txBuffer := by subst hv; rfl
    have hcfg : v.cfg = u.cfg := by subst hv; rfl
    obtain ⟨t, ht, hctx, hmem, hcontrol, hactions⟩ := ih (u := v) (by subst hv; exact ⟨hs.1, rfl, hs.2.2⟩)
      (by subst hv; exact readable_of_written rfl) (by subst hv; exact readable_of_readable hl) (by omega)
      (by rw [hlength, hcfg]; exact hcap)
      (fun j c hj => by
        rw [hbuffer, hcur, Nat.add_assoc, Nat.add_comm 1]
        exact htx (j + 1) c (by simpa using hj))
    have hmore : decide (u.ctx.cursor + 1 < u.ctx.length) = decide (0 < rest.length) := by
      rw [decide_eq_decide]
      omega
    subst hv
    refine ⟨t, ⟨_, hexec, ht⟩, hctx, hmem, hcontrol, ?_⟩
    rw [hactions, ttSent, ← hmore]
    simp [State.handled]

/-- Settles O54: the addressed status sends the first byte, and then come the others. -/
theorem targetTransmitSendsEveryByteInOrder : Obligations.TargetTransmitSendsEveryByteInOrder := by
  intro s n init last final hs hreq hbody hcap hfinal
  obtain ⟨x, hx⟩ : ∃ x, (final, x) ∈ [(Instr.ttDataNack, Status.ttDataNack), (.ttLastData, .ttLastData)] := by
    simp only [List.mem_cons, List.not_mem_nil, or_false] at hfinal
    obtain rfl | rfl := hfinal
    · exact ⟨.ttDataNack, by simp⟩
    · exact ⟨.ttLastData, by simp⟩
  obtain ⟨b, rest, hdata⟩ : ∃ b rest, init ++ [last] = b :: rest := List.exists_cons_of_ne_nil (by simp)
  have hlen : rest.length = init.length := by
    have h := congrArg List.length hdata
    simpa using h.symm
  rw [hdata, ← hlen] at hbody
  have hfirst := exec_ttAddressed_transmit (i := .ttAddrAck) (x := .ttAddrAck) (isTtAddressed_of_mem (by simp)) hs hreq
    hbody (by omega) (by omega) (by simp)
  generalize hv : State.handled _ _ _ _ = v at hfirst
  have hcur : v.ctx.cursor = 1 := by subst hv; rfl
  have hlength : v.ctx.length = rest.length + 1 := by subst hv; rfl
  have hcfg : v.cfg = s.cfg := by subst hv; rfl
  have hbuffer : v.ctx.txBuffer = s.ctx.txBuffer.writeAll 0 ((b :: rest).take (rest.length + 1)) := by subst hv; rfl
  obtain ⟨t, ht, hctx, hmem, hcontrol, hactions⟩ := handles_ttSend (u := v) (rest := rest) hx
    (by subst hv; exact ⟨hs.1, rfl, hs.2.2⟩) (by subst hv; exact readable_of_written rfl)
    (by subst hv; exact readable_of_written rfl) (by omega) (by rw [hlength, hcfg]; omega)
    (fun j c hj => by
      have hj' : j < rest.length := (List.getElem?_eq_some_iff.mp hj).1
      rw [hbuffer, hcur, read_writeAll_take_of_lt _ (by simp) (by omega), Nat.add_comm, List.getElem?_cons_succ, hj])
  rw [hlength, hlen] at hctx
  rw [hlen] at ht
  have hmore : decide (1 < rest.length + 1) = decide (0 < rest.length) := by
    rw [decide_eq_decide]
    omega
  subst hv
  refine ⟨t, ⟨_, hfirst, ht⟩, by rw [hctx], by rw [hctx], ?_, by rw [hctx]; rfl, hmem, hcontrol, ?_⟩
  · rw [hctx]
    simp [State.handled, State.firstByteSent, hlen]
  · have hsent := ttSent_append_last init last
    rw [hdata, ttSent] at hsent
    rw [hactions]
    simp only [State.handled, State.firstByteSent, hmore, List.append_assoc]
    simpa using congrArg (· ++ [Action.ack]) hsent

end Sys2Proof.Machine
end

section
/-! Proof for spec/40_adapter_primitives.md section 4 (R137) and spec/95_test_vectors.md section 3 (PR2), the write: where each of
the two devices stands between two joint steps, what one event leaves of that, and the induction over the bytes. -/

namespace Sys2Proof.Machine

/-! ### Joint steps -/

theorem atTarget_eq {p : Pair} {i : Instr} {t : State} (h : exec i p.target = .next t) (k : Pair → PairOut) :
    p.atTarget i k = k { p with target := t } := by
  rw [Pair.atTarget, h]

theorem atController_eq {p : Pair} {i : Instr} {t : State} (h : exec i p.controller = .next t) (k : Pair → PairOut) :
    p.atController i k = k { p with controller := t } := by
  rw [Pair.atController, h]

theorem pair_run_succ {p q : Pair} {k : Nat} (h : p.step = .next q) : Pair.run (k + 1) p = Pair.run k q := by
  rw [Pair.run, h]

theorem seeStop_of_no_stop {p : Pair} {r : Reply} (h : p.controller.adapter.lastReply = some r) (hr : r ≠ .stop) :
    p.seeStop = .next p := by
  cases r <;> simp_all [Pair.seeStop]

theorem seeStop_of_stop {p : Pair} (h : p.controller.adapter.lastReply = some .stop) (hw : p.target.wire = .trData) :
    p.seeStop = p.atTarget .trStop .next := by
  simp [Pair.seeStop, h, hw]

/-! ### The controller that writes -/

/-- A controller transfer in which the bytes `rest` are to be sent. -/
structure State.ToSend (s : State) (rest : List Byte) : Prop where
  legal : s.cfg.Legal
  event : s.EventReady
  cursor : s.readable .cursor = true
  length : s.readable .length = true
  bound : s.ctx.length = s.ctx.cursor + rest.length
  cap : s.ctx.length ≤ s.cfg.cap
  holds : ∀ j b, rest[j]? = some b → s.ctx.txBuffer.read (s.ctx.cursor + j) = some b

/-- The two acknowledges of a controller-transmit transfer. -/
def IsCtAck (i : Instr) (x : Status) : Prop := (i, x) ∈ [(Instr.ctAddrAck, Status.ctAddrAck), (.ctDataAck, .ctDataAck)]

/-- An acknowledge with a byte to be sent sends it (R163). -/
theorem State.ToSend.sends {s : State} {b : Byte} {rest : List Byte} {i : Instr} {x : Status} (h : s.ToSend (b :: rest))
    (hix : IsCtAck i x) :
    ∃ v, exec i s = .next v ∧ v.ToSend rest ∧ v.wire = .ctData ∧ v.adapter.dataLatch = b ∧
      v.adapter.lastReply = some .ack ∧ v.ctx = { s.ctx with cursor := s.ctx.cursor + 1 } := by
  obtain ⟨-, hsend, -⟩ := controllerTransmitSendsOrStops i x s hix h.event h.cursor h.length
  have hbound := h.bound
  rw [List.length_cons] at hbound
  have hcap := h.cap
  refine ⟨_, hsend b (by omega) (by omega) (by simpa using h.holds 0 b rfl),
    ⟨h.legal, ⟨h.event.1, rfl, h.event.2.2⟩, readable_of_written rfl, readable_of_readable h.length, ?_, h.cap,
      fun j c hj => ?_⟩, ?_, rfl, rfl, rfl⟩
  · exact hbound.trans (by simp [State.handled]; omega)
  · have hread := h.holds (j + 1) c (by simpa using hj)
    rwa [show s.ctx.cursor + (j + 1) = s.ctx.cursor + 1 + j by omega] at hread
  · rw [wire_handled (by exact h.legal)]
    simp only [IsCtAck, List.mem_cons, Prod.mk.injEq, List.not_mem_nil, or_false] at hix
    obtain ⟨-, rfl⟩ | ⟨-, rfl⟩ := hix <;> rfl

/-- One with none left stops (R163). -/
theorem State.ToSend.stops {s : State} {i : Instr} {x : Status} (h : s.ToSend []) (hix : IsCtAck i x) :
    ∃ v, exec i s = .next v ∧ v.adapter.lastReply = some .stop ∧
      v.ctx = { s.ctx with cursor := s.ctx.length, busy := false } := by
  obtain ⟨hstop, -⟩ := controllerTransmitSendsOrStops i x s hix h.event h.cursor h.length
  have heq : s.ctx.cursor = s.ctx.length := h.bound.symm
  exact ⟨_, hstop heq, rfl, by simp [State.handled, heq]⟩

/-! ### The target that receives -/

/-- A target-receive transfer that has received `got`. -/
structure State.HasReceived (s : State) (got : List Byte) : Prop where
  legal : s.cfg.Legal
  event : s.EventReady
  readable : s.readable .cursor = true
  wire : s.wire = .trData
  cursor : s.ctx.cursor = got.length
  holds : ∀ j b, got[j]? = some b → s.ctx.txBuffer.read j = some b

/-- What a receiving target keeps from one event to the next: its parameters, its callback, its recorded error. -/
def KeepsReceiver (s t : State) : Prop :=
  t.cfg = s.cfg ∧ t.userCode = s.userCode ∧ t.ctx.onReceive = s.ctx.onReceive ∧ t.ctx.lastError = s.ctx.lastError

/-- The addressed status begins it (R150). -/
theorem hasReceived_nil {s : State} (hl : s.cfg.Legal) (hs : s.EventReady) :
    ∃ t, exec .trAddrAck s = .next t ∧ t.HasReceived [] ∧ KeepsReceiver s t := by
  refine ⟨_, addressedForReceiveArmsTheTarget .trAddrAck .trAddrAck s (by simp) hs,
    ⟨hl, ⟨hs.1, rfl, hs.2.2⟩, readable_of_written rfl, ?_, rfl, nofun⟩, rfl, rfl, rfl, rfl⟩
  rw [wire_handled (by exact hl)]
  rfl

/-- Each byte goes on with it (R154). -/
theorem State.HasReceived.receives {s : State} {got : List Byte} (h : s.HasReceived got) (b : Byte)
    (hcap : got.length < s.cfg.cap) :
    ∃ t, exec (.trDataAck b) s = .next t ∧ t.HasReceived (got ++ [b]) ∧ KeepsReceiver s t := by
  obtain ⟨hstore, -⟩ := targetReceiveStoresTheByte (.trDataAck b) .trDataAck s b (by simp) h.event h.readable
  refine ⟨_, hstore (h.cursor ▸ hcap), ⟨h.legal, ⟨h.event.1, rfl, h.event.2.2⟩, readable_of_written rfl, ?_, ?_,
    fun j c hj => ?_⟩, rfl, rfl, rfl, rfl⟩
  · rw [wire_handled (by exact h.legal)]
    rfl
  · rw [List.length_append, ← h.cursor]
    rfl
  · show (s.ctx.txBuffer.write s.ctx.cursor b).read j = some c
    rw [h.cursor, Memory.read_write]
    split_ifs with hjl
    · subst hjl
      simpa using hj
    · have hlt : j < (got ++ [b]).length := (List.getElem?_eq_some_iff.mp hj).1
      rw [List.length_append, List.length_singleton] at hlt
      rw [List.getElem?_append_left (by omega)] at hj
      exact h.holds j c hj

/-- The stop ends it; a callback that copies the bytes has them in its memory (R156, R192). -/
theorem State.HasReceived.copies {s : State} {data : List Byte} {n destination : Nat} (h : s.HasReceived data)
    (hcap : data.length ≤ s.cfg.cap) (hrec : s.ctx.onReceive = some (.user n))
    (hbody : s.bodyOf n = .call (.copyOwned destination data.length) .done) :
    ∃ t, exec .trStop s = .next t ∧ t.ctx = { s.ctx with busy := false } ∧
      ∀ j b, data[j]? = some b → t.memory.read (destination + j) = some b := by
  have hholds : ∀ j b, data[j]? = some b → s.receiveEntered.ctx.txBuffer.read (0 + j) = some b := fun j b hj => by
    rw [Nat.zero_add]
    exact h.holds j b hj
  have hrun : runBody (s.bodyOf n) s.receiveEntered =
      .next { s.receiveEntered with memory := s.memory.writeAll destination data, vars := s.vars } := by
    rw [hbody, runBody, runCall, copyOwned_eq destination _ (by rw [Nat.zero_add]; exact hcap) hholds]
    rfl
  obtain ⟨t, ht, hctx, -, hmem, -⟩ := exec_trStop_of_user_state h.event hrec hrun
  refine ⟨t, ht, hctx, fun j b hj => ?_⟩
  have hlt := (List.getElem?_eq_some_iff.mp hj).1
  rw [hmem, Memory.read_writeAll, if_pos (by omega), Nat.add_sub_cancel_left, hj]

/-! ### The transfer -/

/-- With a byte on its way to a receiving target, the target takes it first (R137). -/
theorem pair_step_write {got rest : List Byte} {b : Byte} {p : Pair} (hwire : p.controller.wire = .ctData)
    (hlatch : p.controller.adapter.dataLatch = b) (ht : p.target.HasReceived got)
    (hcap : (got ++ b :: rest).length ≤ p.target.cfg.cap) :
    ∃ t, p.step = (⟨p.controller, t⟩ : Pair).atController .ctDataAck Pair.seeStop ∧
      t.HasReceived (got ++ [b]) ∧ KeepsReceiver p.target t := by
  rw [List.length_append, List.length_cons] at hcap
  obtain ⟨t, htarget, hreceived, hkeeps⟩ := ht.receives b (by omega)
  refine ⟨t, ?_, hreceived, hkeeps⟩
  simp only [Pair.step, hwire, ht.wire, Wire.receiveEvent, hlatch]
  exact atTarget_eq htarget _

/-- From a byte `b` in the controller's latch on, with `rest` still to be sent. -/
theorem pair_run_write {rest got : List Byte} {b : Byte} {p : Pair} {n destination : Nat} (hc : p.controller.ToSend rest)
    (hwire : p.controller.wire = .ctData) (hlatch : p.controller.adapter.dataLatch = b) (ht : p.target.HasReceived got)
    (hcap : (got ++ b :: rest).length ≤ p.target.cfg.cap) (hrec : p.target.ctx.onReceive = some (.user n))
    (hbody : p.target.bodyOf n = .call (.copyOwned destination (got ++ b :: rest).length) .done) :
    ∃ q, Pair.run (rest.length + 1) p = .next q ∧
      q.controller.ctx = { p.controller.ctx with cursor := p.controller.ctx.length, busy := false } ∧
      q.target.ctx.busy = false ∧ q.target.ctx.cursor = (got ++ b :: rest).length ∧
      q.target.ctx.lastError = p.target.ctx.lastError ∧
      (∀ j c, (got ++ b :: rest)[j]? = some c →
        q.target.ctx.txBuffer.read j = some c ∧ q.target.memory.read (destination + j) = some c) := by
  induction rest generalizing p got b with
  | nil =>
    obtain ⟨t, hstep, hreceived, hcfg, hcode, honReceive, herror⟩ := pair_step_write hwire hlatch ht hcap
    have hbody' : t.bodyOf n = p.target.bodyOf n := by rw [State.bodyOf, hcode]; rfl
    obtain ⟨c, hctrl, hreply, hctx⟩ := hc.stops (i := .ctDataAck) (x := .ctDataAck) (by simp [IsCtAck])
    obtain ⟨u, hstop, huctx, hcopied⟩ := hreceived.copies (hcfg ▸ hcap) (honReceive.trans hrec) (hbody'.trans hbody)
    have hstep : p.step = .next ⟨c, u⟩ := by
      rw [hstep, atController_eq (p := ⟨p.controller, t⟩) hctrl, seeStop_of_stop hreply hreceived.wire]
      exact atTarget_eq (p := ⟨c, t⟩) hstop _
    refine ⟨_, pair_run_succ hstep, hctx, ?_, ?_, ?_, fun j d hj => ⟨?_, hcopied j d hj⟩⟩ <;> simp only [huctx]
    · exact hreceived.cursor
    · exact herror
    · exact hreceived.holds j d hj
  | cons b' rest ih =>
    obtain ⟨t, hstep, hreceived, hcfg, hcode, honReceive, herror⟩ := pair_step_write hwire hlatch ht hcap
    have hbody' : t.bodyOf n = p.target.bodyOf n := by rw [State.bodyOf, hcode]; rfl
    obtain ⟨c, hctrl, hsend, hwirec, hlatchc, hreply, hctx⟩ :=
      hc.sends (i := .ctDataAck) (x := .ctDataAck) (by simp [IsCtAck])
    have hstep : p.step = .next ⟨c, t⟩ := by
      rw [hstep, atController_eq (p := ⟨p.controller, t⟩) hctrl]
      exact seeStop_of_no_stop hreply (by simp)
    rw [List.append_cons got b (b' :: rest)] at hcap hbody ⊢
    obtain ⟨q, hq, hqctx, hbusy, hcursor, hqerror, hstored⟩ := ih (p := ⟨c, t⟩) hsend hwirec hlatchc hreceived
      (hcfg ▸ hcap) (honReceive.trans hrec) (hbody'.trans hbody)
    refine ⟨q, (pair_run_succ hstep).trans hq, ?_, hbusy, hcursor, hqerror.trans herror, hstored⟩
    rw [hqctx, hctx]

/-! ### From the start on -/

/-- The start of a device that has asked for the bus (R142): its address byte is on the wire. -/
theorem start_addresses {s : State} {a : Address} {read : Bool} (hl : s.cfg.Legal) (hs : s.EventReady)
    (hr : s.readable .addressAndDirection = true) (ha : s.ctx.addressAndDirection = addrByte a read) :
    ∃ v, exec .start s = .next v ∧ v.wire = .addressing read ∧ v.adapter.dataLatch = addrByte a read ∧ v.EventReady ∧
      v.ctx = s.ctx ∧ v.cfg = s.cfg ∧ v.written = s.written ∧ v.memory = s.memory := by
  have hstart := (startSendsTheLatchedAddressByte .start .start s (by simp) hs).1 hr
  rw [ha] at hstart
  refine ⟨_, hstart, ?_, rfl, ⟨hs.1, rfl, hs.2.2⟩, rfl, rfl, rfl, rfl⟩
  rw [wire_handled (by exact hl)]
  show Wire.addressing ((addrByte a read).getLsbD 0) = _
  rw [addrByte_dir]

/-- The joint step of the start (R137). -/
theorem pair_step_start {p : Pair} {v : State} (hwire : p.controller.wire = .idle) (harmed : p.controller.adapter.armed = true)
    (h : exec .start p.controller = .next v) : p.step = .next ⟨v, p.target⟩ := by
  simp only [Pair.step, hwire, harmed, if_true]
  exact atController_eq h _

/-- The joint step of an address byte that is the target's own: the target's event, then the controller's (R137). -/
theorem pair_step_address {p : Pair} {a : Address} {read : Bool} {role : Role} {t c : State} {r : Reply}
    (hwire : p.controller.wire = .addressing read) (hlatch : p.controller.adapter.dataLatch = addrByte a read)
    (hrole : p.target.addressedAs a read = some role) (ht : exec ((role.status false).instr 0) p.target = .next t)
    (hc : exec (if read then .crAddrAck else .ctAddrAck) p.controller = .next c)
    (hreply : c.adapter.lastReply = some r) (hr : r ≠ .stop) : p.step = .next ⟨c, t⟩ := by
  have hrole' : p.target.addressedAs (p.controller.adapter.dataLatch.extractLsb' 1 7) read = some role := by
    rw [hlatch, addrByte_address]
    exact hrole
  simp only [Pair.step, hwire, hrole']
  rw [atTarget_eq ht, atController_eq (p := ⟨p.controller, t⟩) hc]
  exact seeStop_of_no_stop hreply hr

/-- Settles O55: the start, the address, and then the bytes from the first on. -/
theorem writeArrivesAtTheOtherDevice : Obligations.WriteArrivesAtTheOtherDevice := by
  rintro p a data n destination ha hdata
    ⟨hcl, hcs, hcw, harmed, haddress, hcur, hlen, hcap, hheld, hrc, hrl, hra⟩ ⟨htl, hts, htw, hown, htcap, hrec, hbody⟩
  obtain ⟨b, rest, rfl⟩ := List.exists_cons_of_ne_nil hdata
  obtain ⟨v, hstart, hvwire, hvlatch, hvs, hvctx, hvcfg, hvwritten, -⟩ := start_addresses hcl hcs hra haddress
  have hread {f : Field} (h : p.controller.readable f = true) (hf : p.controller.wasWritten f = true → v.wasWritten f = true) :
      v.readable f = true := readable_of_readable h hvcfg hf
  have hsend : v.ToSend (b :: rest) := ⟨hvcfg ▸ hcl, hvs, hread hrc (by simp [State.wasWritten, hvwritten]),
    hread hrl (by simp [State.wasWritten, hvwritten]), by rw [hvctx, hcur, Nat.zero_add]; exact hlen,
    by rw [hvctx, hvcfg, hlen]; exact hcap, fun j c hj => by rw [hvctx, hcur, Nat.zero_add]; exact hheld j c hj⟩
  obtain ⟨c, hctrl, hsend', hcwire, hclatch, hreply, hcctx⟩ :=
    hsend.sends (i := .ctAddrAck) (x := .ctAddrAck) (by simp [IsCtAck])
  obtain ⟨t, htarget, hreceived, htcfg, hcode, honReceive, herror⟩ := hasReceived_nil htl hts
  have hrole : p.target.addressedAs a false = some .receive := by
    rw [addressedAs_write (fun h => ha h.1), if_pos hown]
  have hstep := pair_step_address (p := ⟨v, p.target⟩) hvwire hvlatch hrole htarget hctrl hreply (by simp)
  have hbody' : t.bodyOf n = p.target.bodyOf n := by rw [State.bodyOf, hcode]; rfl
  obtain ⟨q, hq, hqctx, hbusy, hcursor, hqerror, hstored⟩ := pair_run_write (p := ⟨c, t⟩) (got := []) hsend' hcwire hclatch
    hreceived (by rw [htcfg]; exact htcap) (honReceive.trans hrec) (hbody'.trans hbody)
  refine ⟨q, (pair_run_succ (pair_step_start hcw harmed hstart)).trans ((pair_run_succ hstep).trans hq), ?_, hbusy, hcursor,
    hqerror.trans herror, hstored⟩
  rw [hqctx, hcctx, hvctx, hlen]

end Sys2Proof.Machine
end

section
/-! Proof for spec/40_adapter_primitives.md section 4 (R137) and spec/95_test_vectors.md section 3 (PR2), the read: where each of
the two devices stands between two joint steps, what one event leaves of that, and the induction over the bytes. -/

namespace Sys2Proof.Machine

/-! ### The target that transmits -/

/-- A target-transmit transfer with the byte `b` in the latch and the bytes `rest` to be sent after it. -/
structure State.Offers (s : State) (b : Byte) (rest : List Byte) : Prop where
  legal : s.cfg.Legal
  event : s.EventReady
  cursor : s.readable .cursor = true
  length : s.readable .length = true
  bound : s.ctx.length = s.ctx.cursor + rest.length
  cap : s.ctx.length ≤ s.cfg.cap
  holds : ∀ j c, rest[j]? = some c → s.ctx.txBuffer.read (s.ctx.cursor + j) = some c
  latch : s.adapter.dataLatch = b
  wire : s.wire = if rest = [] then .ttLast else .ttMore

/-- The wire after a byte was sent: more bytes follow, or none does (R157, R159). -/
theorem wireAfter_ttSent {x : Status} (hx : x = .ttAddrAck ∨ x = .ttDataAck) {cursor length : Nat} {rest : List Byte}
    (hbound : length = cursor + rest.length) (read : Bool) :
    wireAfter (some x) (replyWhile (cursor < length)) read = if rest = [] then .ttLast else .ttMore := by
  cases rest with
  | nil =>
    rw [decide_eq_false (by simp at hbound; omega), if_pos rfl]
    rcases hx with rfl | rfl <;> rfl
  | cons c rest =>
    rw [decide_eq_true (by simp at hbound; omega), if_neg (by simp)]
    rcases hx with rfl | rfl <;> rfl

/-- The addressed status begins it with the first byte (R157, R187). -/
theorem offers_first {s : State} {n length : Nat} {b : Byte} {rest : List Byte} (hl : s.cfg.Legal) (hs : s.EventReady)
    (hreq : s.ctx.onRequest = some (.user n)) (hbody : s.bodyOf n = .call (.transmit (b :: rest) length) .done)
    (hlength : length = (b :: rest).length) (hcap : length ≤ s.cfg.cap) :
    ∃ t, exec .ttAddrAck s = .next t ∧ t.Offers b rest ∧ t.ctx.lastError = s.ctx.lastError := by
  have hfirst := exec_ttAddressed_transmit (i := .ttAddrAck) (x := .ttAddrAck) (isTtAddressed_of_mem (by simp)) hs hreq
    hbody (by rw [hlength]; simp) hcap hlength.le
  have hbound : length = 1 + rest.length := by rw [hlength, List.length_cons, Nat.add_comm]
  refine ⟨_, hfirst, ⟨hl, ⟨hs.1, rfl, hs.2.2⟩, readable_of_written rfl, readable_of_written rfl, hbound, hcap,
    fun j c hj => ?_, rfl, ?_⟩, rfl⟩
  · have hj' : j < rest.length := (List.getElem?_eq_some_iff.mp hj).1
    have hread := read_writeAll_take_of_lt s.ctx.txBuffer (data := b :: rest) (n := length) (j := 1 + j) hlength.le (by omega)
    refine hread.trans ?_
    rw [Nat.add_comm, List.getElem?_cons_succ, hj]
  · exact (wire_handled (t := s.firstByteSent b rest length) hl .ttAddrAck _ _).trans (wireAfter_ttSent (.inl rfl) hbound _)

/-- An acknowledged byte is followed by the next one (R159). -/
theorem State.Offers.sends {s : State} {b c : Byte} {rest : List Byte} (h : s.Offers b (c :: rest)) :
    ∃ t, exec .ttDataAck s = .next t ∧ t.Offers c rest ∧ t.ctx.lastError = s.ctx.lastError := by
  have hbound := h.bound
  rw [List.length_cons] at hbound
  have hcap := h.cap
  obtain ⟨hsend, -⟩ := targetTransmitSendsTheNextByte s h.event h.cursor h.length
  refine ⟨_, hsend c (by omega) (by omega) (by simpa using h.holds 0 c rfl),
    ⟨h.legal, ⟨h.event.1, rfl, h.event.2.2⟩, readable_of_written rfl, readable_of_readable h.length, ?_, h.cap,
      fun j d hj => ?_, rfl, ?_⟩, rfl⟩
  · exact hbound.trans (by simp [State.handled]; omega)
  · have hread := h.holds (j + 1) d (by simpa using hj)
    rwa [show s.ctx.cursor + (j + 1) = s.ctx.cursor + 1 + j by omega] at hread
  · rw [wire_handled (by exact h.legal)]
    exact wireAfter_ttSent (.inr rfl) (by omega) _

/-- A byte that is not acknowledged is the last (R160). -/
theorem State.Offers.ends {s : State} {b : Byte} {rest : List Byte} (h : s.Offers b rest) :
    ∃ t, exec .ttDataNack s = .next t ∧ t.ctx = { s.ctx with busy := false } :=
  ⟨_, targetTransmitEndClearsBusy .ttDataNack .ttDataNack s (by simp) h.event, rfl⟩

theorem State.Offers.transmitEvent_false {s : State} {b : Byte} {rest : List Byte} (h : s.Offers b rest) :
    s.wire.transmitEvent false = some .ttDataNack := by
  rw [h.wire]
  split_ifs <;> rfl

theorem State.Offers.transmitEvent_true {s : State} {b c : Byte} {rest : List Byte} (h : s.Offers b (c :: rest)) :
    s.wire.transmitEvent true = some .ttDataAck := by
  rw [h.wire, if_neg (by simp)]
  rfl

/-- The byte such a target drives is the one in its latch (R137). -/
theorem State.Offers.drivenByte {p : Pair} {b : Byte} {rest : List Byte} (h : p.target.Offers b rest) :
    p.drivenByte = b := by
  have hsome : (p.target.wire.transmitEvent true).isSome = true := by
    rw [h.wire]
    split_ifs <;> rfl
  rw [Pair.drivenByte, if_pos hsome, h.latch]

/-! ### The controller that reads -/

/-- A controller transfer that reads into the caller's region at `base`, with `more` bytes to come after the next. -/
structure State.Reads (s : State) (base more : Nat) : Prop where
  legal : s.cfg.Legal
  event : s.EventReady
  cursor : s.readable .cursor = true
  length : s.readable .length = true
  rxTarget : s.readable .rxTarget = true
  region : s.ctx.rxTarget = ⟨.caller base, s.ctx.length + 1⟩
  bound : s.ctx.length = s.ctx.cursor + more
  wire : s.wire = if more = 0 then .crLast else .crMore

/-- The wire after the reply by exhaustion (R147, R148). -/
theorem wireAfter_crReply {x : Status} (hx : x = .crAddrAck ∨ x = .crDataAck) {cursor length more : Nat}
    (hbound : length = cursor + more) (read : Bool) :
    wireAfter (some x) (replyWhile (cursor < length)) read = if more = 0 then .crLast else .crMore := by
  by_cases hmore : more = 0
  · rw [decide_eq_false (by omega), if_pos hmore]
    rcases hx with rfl | rfl <;> rfl
  · rw [decide_eq_true (by omega), if_neg hmore]
    rcases hx with rfl | rfl <;> rfl

theorem replyWhile_ne_stop (more : Bool) : replyWhile more ≠ .stop := by
  cases more <;> simp [replyWhile]

/-- A byte with more to come is stored and acknowledged by exhaustion (R148). -/
theorem State.Reads.stores {s : State} {base more : Nat} (h : s.Reads base (more + 1)) (b : Byte) :
    ∃ t, exec (.crDataAck b) s = .next t ∧ t.Reads base more ∧ t.ctx = { s.ctx with cursor := s.ctx.cursor + 1 } ∧
      t.memory = s.memory.write (base + s.ctx.cursor) b := by
  have hbound := h.bound
  have hexec := exec_crDataAck_caller b h.event h.cursor h.length h.rxTarget h.region (by omega)
  refine ⟨_, hexec, ⟨h.legal, ⟨h.event.1, rfl, h.event.2.2⟩, readable_of_written rfl, readable_of_readable h.length,
    readable_of_readable h.rxTarget, h.region, ?_, ?_⟩, rfl, rfl⟩
  · exact hbound.trans (by simp [State.handled]; omega)
  · rw [wire_handled (by exact h.legal)]
    exact wireAfter_crReply (.inr rfl) (by omega) _

/-- The last byte is stored and ends the transfer (R149). -/
theorem State.Reads.ends {s : State} {base : Nat} (h : s.Reads base 0) (b : Byte) :
    ∃ t, exec (.crDataNack b) s = .next t ∧ t.ctx = { s.ctx with cursor := s.ctx.length, busy := false } ∧
      t.memory = s.memory.write (base + s.ctx.cursor) b := by
  have heq : s.ctx.cursor = s.ctx.length := h.bound.symm
  exact ⟨_, exec_crDataNack_caller b h.event h.cursor h.rxTarget h.region heq.le, by simp [State.handled, heq], rfl⟩

/-! ### The transfer -/

/-- From a byte `b` in the target's latch on, with the bytes `want` to be read after it, of those the target has. -/
theorem pair_run_read {want extra : List Byte} {b : Byte} {p : Pair} {base : Nat} (hc : p.controller.Reads base want.length)
    (ht : p.target.Offers b (want ++ extra)) :
    ∃ q, Pair.run (want.length + 1) p = .next q ∧
      q.controller.ctx = { p.controller.ctx with cursor := p.controller.ctx.length, busy := false } ∧
      q.target.ctx.busy = false ∧ q.target.ctx.lastError = p.target.ctx.lastError ∧
      (∀ j, j < want.length + 1 → q.controller.memory.read (base + p.controller.ctx.cursor + j) = (b :: want)[j]?) ∧
      (∀ x, (x < base + p.controller.ctx.cursor ∨ base + p.controller.ctx.length + 1 ≤ x) →
        q.controller.memory.read x = p.controller.memory.read x) := by
  induction want generalizing p b with
  | nil =>
    obtain ⟨c, hctrl, hctx, hmem⟩ := hc.ends b
    obtain ⟨t, htarget, htctx⟩ := ht.ends
    have hstep : p.step = .next ⟨c, t⟩ := by
      simp only [Pair.step, hc.wire, List.length_nil, if_true, Pair.readByte, ht.drivenByte, Bool.false_eq_true, if_false,
        ht.transmitEvent_false]
      rw [atController_eq hctrl]
      exact atTarget_eq (p := ⟨c, p.target⟩) htarget _
    have hbound := hc.bound
    rw [List.length_nil] at hbound
    refine ⟨_, pair_run_succ hstep, hctx, by rw [htctx], by rw [htctx], fun j hj => ?_, fun x hx => ?_⟩
    · obtain rfl : j = 0 := by simpa using hj
      exact (congrArg (Memory.read · _) hmem).trans (Memory.read_write_same _ _ _)
    · exact (congrArg (Memory.read · _) hmem).trans (Memory.read_write_other _ _ (by omega))
  | cons d want ih =>
    obtain ⟨c, hctrl, hreads, hctx, hmem⟩ := hc.stores b
    obtain ⟨t, htarget, hoffers, herror⟩ := ht.sends
    have hstep : p.step = .next ⟨c, t⟩ := by
      simp only [Pair.step, hc.wire, List.length_cons, Nat.succ_ne_zero, if_false, Pair.readByte, ht.drivenByte, if_true,
        ht.transmitEvent_true]
      rw [atController_eq hctrl]
      exact atTarget_eq (p := ⟨c, p.target⟩) htarget _
    have hbound := hc.bound
    rw [List.length_cons] at hbound
    have hcur : c.ctx.cursor = p.controller.ctx.cursor + 1 := by rw [hctx]
    have hlength : c.ctx.length = p.controller.ctx.length := by rw [hctx]
    obtain ⟨q, hq, hqctx, hbusy, hqerror, hstored, helse⟩ := ih (p := ⟨c, t⟩) hreads hoffers
    simp only [hcur, hlength] at hstored helse
    refine ⟨q, (pair_run_succ hstep).trans hq, ?_, hbusy, hqerror.trans herror, fun j hj => ?_, fun x hx => ?_⟩
    · rw [hqctx, hctx]
    · cases j with
      | zero =>
        rw [helse _ (.inl (by omega)), hmem]
        exact Memory.read_write_same _ _ _
      | succ j =>
        have h := hstored j (by simpa using hj)
        rw [show base + (p.controller.ctx.cursor + 1) + j = base + p.controller.ctx.cursor + (j + 1) by omega] at h
        rw [h, List.getElem?_cons_succ]
    · rw [helse x (by omega), hmem]
      exact Memory.read_write_other _ _ (by omega)

/-- Settles O56: the start, the address with the target's first byte, and then the bytes. -/
theorem readBringsTheOtherDevicesBytes : Obligations.ReadBringsTheOtherDevicesBytes := by
  rintro p a data count n base h1 hcount
    ⟨hcl, hcs, hcw, harmed, haddress, hcur, hlen, hregion, hrc, hrl, hrr, hra⟩ ⟨htl, hts, htw, hown, htcap, hreq, hbody⟩
  obtain ⟨b, rest, rfl⟩ := List.exists_cons_of_ne_nil (l := data) (by rintro rfl; simp at hcount; omega)
  rw [List.length_cons] at hcount
  obtain ⟨v, hstart, hvwire, hvlatch, hvs, hvctx, hvcfg, hvwritten, hvmem⟩ := start_addresses hcl hcs hra haddress
  have hread {f : Field} (h : p.controller.readable f = true) (hf : p.controller.wasWritten f = true → v.wasWritten f = true) :
      v.readable f = true := readable_of_readable h hvcfg hf
  have hvc : v.readable .cursor = true := hread hrc (by simp [State.wasWritten, hvwritten])
  have hvl : v.readable .length = true := hread hrl (by simp [State.wasWritten, hvwritten])
  have hvr : v.readable .rxTarget = true := hread hrr (by simp [State.wasWritten, hvwritten])
  have hack := controllerReceiveAddressAckOnlyReplies v hvs hvc hvl
  have hlength : v.ctx.length = v.ctx.cursor + (count - 1) := by rw [hvctx, hcur, hlen, Nat.zero_add]
  generalize hc : State.handled v _ _ _ = c at hack
  have hreads : c.Reads base (count - 1) := by
    subst hc
    refine ⟨hvcfg ▸ hcl, ⟨hvs.1, rfl, hvs.2.2⟩, readable_of_readable hvc, readable_of_readable hvl,
      readable_of_readable hvr, ?_, hlength, ?_⟩
    · show v.ctx.rxTarget = ⟨.caller base, v.ctx.length + 1⟩
      rw [hvctx, hregion, hlen, Nat.sub_add_cancel h1]
    · rw [wire_handled (by exact hvcfg ▸ hcl)]
      exact wireAfter_crReply (.inl rfl) hlength _
  obtain ⟨t, htarget, hoffers, herror⟩ := offers_first htl hts hreq hbody rfl htcap
  have hrole : p.target.addressedAs a true = some .transmit := by rw [addressedAs_read, if_pos hown]
  have hstep : Pair.step ⟨v, p.target⟩ = .next ⟨c, t⟩ :=
    pair_step_address (p := ⟨v, p.target⟩) hvwire hvlatch hrole htarget hack (by subst hc; rfl) (replyWhile_ne_stop _)
  have hcctx : c.ctx = p.controller.ctx := by subst hc; exact hvctx
  have hcmem : c.memory = p.controller.memory := by subst hc; exact hvmem
  obtain ⟨q, hq, hqctx, hbusy, hqerror, hstored, helse⟩ := pair_run_read (p := ⟨c, t⟩) (base := base)
    (want := rest.take (count - 1)) (extra := rest.drop (count - 1)) (b := b)
    (by rw [List.length_take, Nat.min_eq_left (by omega)]; exact hreads) (by rw [List.take_append_drop]; exact hoffers)
  rw [List.length_take, Nat.min_eq_left (show count - 1 ≤ rest.length by omega)] at hq hstored
  rw [Nat.sub_add_cancel h1] at hq hstored
  simp only [hcctx, hcmem, hcur, hlen, Nat.add_zero] at hstored helse
  refine ⟨q, (pair_run_succ (pair_step_start hcw harmed hstart)).trans ((pair_run_succ hstep).trans hq),
    by rw [hqctx, hcctx, hlen], hbusy, hqerror.trans herror, fun j hj => ?_, fun x hx => helse x (by omega)⟩
  rw [hstored j hj]
  cases j with
  | zero => rfl
  | succ j => rw [List.getElem?_cons_succ, List.getElem?_cons_succ, List.getElem?_take, if_pos (by omega)]

end Sys2Proof.Machine
end

section
/-! Proofs for spec/43_handshake.md sections 3 and 4: what one probe is as a step of the lobby and as events at the prober
(R232), and the device that comes when all identities are claimed (R235). -/

namespace Sys2Proof.Machine

/-! ### The owner of an address -/

/-- The first device that has the address answers. -/
theorem ownerOf_eq {js : List State} {p d : Nat} {a : Address} {t : State} (hd : d ≠ p) (ht : js[d]? = some t)
    (ha : t.control.ownAddress = some a)
    (hfirst : ∀ q u, q < d → q ≠ p → js[q]? = some u → u.control.ownAddress ≠ some a) : ownerOf js p a = some d := by
  have hlt : d < js.length := (List.getElem?_eq_some_iff.mp ht).1
  refine List.find?_range_eq_some.mpr ⟨by simp [hd, ht, ha], List.mem_range.mpr hlt, fun q hq => ?_⟩
  obtain ⟨u, hu⟩ : ∃ u, js[q]? = some u := ⟨_, List.getElem?_eq_getElem (hq.trans hlt)⟩
  by_cases hqp : q = p
  · simp [hqp]
  · simpa [hqp, hu] using hfirst q u hq hqp hu

/-- With no device that has it no one does. -/
theorem ownerOf_none {js : List State} {p : Nat} {a : Address}
    (h : ∀ d t, d ≠ p → js[d]? = some t → t.control.ownAddress ≠ some a) : ownerOf js p a = none := by
  cases ho : ownerOf js p a with
  | none => rfl
  | some d =>
    obtain ⟨hd, t, ht, ha⟩ := ownerOf_eq_some ho
    exact absurd ha (h d t hd ht)

/-- No two identities have one address (R222). -/
theorem identityAddress_inj {c : Config} (hl : c.Legal) {i j : Nat} (hi : i < c.joiners) (hj : j < c.joiners)
    (h : identityAddress c i = identityAddress c j) : i = j := by
  obtain ⟨-, ⟨-, -, -, hmax⟩, -⟩ := hl
  rw [identityAddress_eq, identityAddress_eq] at h
  have hnat := congrArg BitVec.toNat h
  rw [BitVec.toNat_ofNat, BitVec.toNat_ofNat] at hnat
  omega

/-! ### A probe as one step -/

/-- A turn of a device at the head of its loop is its probe. -/
theorem lobbyTurn_probe {js : List State} {p i : Nat} {s : State} (hp : js[p]? = some s)
    (hphase : s.run.phase = .hsLoop (i + 1)) (contended : Bool) :
    lobbyTurn js ⟨p, contended⟩ = probe js p s i contended := by
  simp only [lobbyTurn, hp, candidate_eq_some.mpr hphase]

/-- A turn of any other device is a micro-step of its Host. -/
theorem lobbyTurn_host {js : List State} {p : Nat} {s s' : State} (hp : js[p]? = some s) (hc : s.candidate = none)
    (h : hostStep s = .next s') (contended : Bool) : lobbyTurn js ⟨p, contended⟩ = .next (js.set p s') := by
  simp only [lobbyTurn, hp, hc, h, putBack]

theorem probe_contended (js : List State) (p : Nat) (s : State) (i : Nat) :
    probe js p s i true = .next (js.set p (s.probeEnds i (.code (s.cfg.code .arbLost)))) := rfl

theorem probe_free {js : List State} {p i : Nat} {s : State} (h : ownerOf js p (identityAddress s.cfg i) = none) :
    probe js p s i false = .next (js.set p (s.probeEnds i (.code (s.cfg.code .crAddrNack)))) := by
  simp only [probe, h, Bool.false_eq_true, if_false]

theorem probe_owned {js : List State} {p i d : Nat} {s t u : State} (h : ownerOf js p (identityAddress s.cfg i) = some d)
    (ht : js[d]? = some t) (hu : answerProbe t = .next u) :
    probe js p s i false =
      .next ((js.set d u).set p (({ s with dummy := u.adapter.dataLatch } : State).probeEnds i .noError)) := by
  simp only [probe, h, ht, hu, putBack, Bool.false_eq_true, if_false]

/-- What the owner of the address keeps through a probe, the count apart. -/
def KeepsOwner (t u : State) : Prop :=
  u.EventReady ∧ u.cfg = t.cfg ∧ u.run.phase = t.run.phase ∧ u.run.result = t.run.result ∧
  u.ctx.onRequest = t.ctx.onRequest ∧ u.ctx.busy = false ∧ u.ctx.lastError = t.ctx.lastError ∧ u.memory = t.memory

/-- The end of the transfer that a probe is at its owner (R160). -/
theorem answerProbe_of_first {t v : State} (h : exec .ttAddrAck t = .next v) (hv : v.EventReady) :
    answerProbe t = .next (({ v with ctx := { v.ctx with busy := false } } : State).handled
      (v.cfg.code .ttDataNack) .ack [.ack]) := by
  rw [answerProbe, h, andThen_next]
  exact targetTransmitEndClearsBusy .ttDataNack .ttDataNack v (by simp) hv

/-- A device that counts its probes counts one and answers with the count (R227, R231). -/
theorem answerProbe_counts {t : State} (h : t.CountsProbes) :
    ∃ u, answerProbe t = .next u ∧ u.control = { t.control with hsCounter := t.control.hsCounter + 1 } ∧
      u.adapter.dataLatch = BitVec.ofNat 8 (t.control.hsCounter + 1) ∧ u.written.hsCounter = true ∧ KeepsOwner t u := by
  obtain ⟨hs, hreq, hr, hlt, hcap⟩ := h
  obtain ⟨hfirst, -⟩ := probeIsCountedAndAnswered .ttAddrAck .ttAddrAck t (by simp) hs hreq hr hcap
  exact ⟨_, answerProbe_of_first (hfirst hlt) ⟨hs.1, rfl, hs.2.2⟩, rfl, rfl, rfl, ⟨hs.1, rfl, hs.2.2⟩, rfl, rfl, rfl, rfl,
    rfl, rfl, rfl⟩

/-- A device whose own callback transmits answers with the first byte of that (R157). -/
theorem answerProbe_user {t : State} {n length : Nat} {b : Byte} {data : List Byte} (hs : t.EventReady)
    (hreq : t.ctx.onRequest = some (.user n)) (hbody : t.bodyOf n = .call (.transmit (b :: data) length) .done)
    (h1 : 1 ≤ length) (hcap : length ≤ t.cfg.cap) (hdata : length ≤ (b :: data).length) :
    ∃ u, answerProbe t = .next u ∧ u.control = t.control ∧ u.adapter.dataLatch = b ∧ KeepsOwner t u := by
  have hfirst := exec_ttAddressed_transmit (i := .ttAddrAck) (x := .ttAddrAck) (isTtAddressed_of_mem (by simp)) hs hreq
    hbody h1 hcap hdata
  exact ⟨_, answerProbe_of_first hfirst ⟨hs.1, rfl, hs.2.2⟩, rfl, rfl, ⟨hs.1, rfl, hs.2.2⟩, rfl, rfl, rfl, rfl, rfl, rfl, rfl⟩

/-! ### A probe as events at the prober -/

/-- A prober that is about to start its one-byte read into `dummy`. -/
structure State.Probing (s : State) : Prop where
  event : s.EventReady
  region : s.ctx.rxTarget = ⟨.dummy, 1⟩
  length0 : s.ctx.length = 0
  cursor0 : s.ctx.cursor = 0
  cursor : s.readable .cursor = true
  length : s.readable .length = true
  rxTarget : s.readable .rxTarget = true

/-- The start leaves the prober so, with its address byte sent (R142). -/
theorem State.Probing.starts {s : State} (h : s.Probing) (ha : s.readable .addressAndDirection = true) :
    ∃ v, exec .start s = .next v ∧ v.Probing ∧ v.cfg = s.cfg ∧ v.ctx = s.ctx ∧ v.memory = s.memory ∧ v.dummy = s.dummy ∧
      v.env = s.env ∧ v.adapter.actions = s.adapter.actions ++ [.writeLatch s.ctx.addressAndDirection, .ack] :=
  ⟨_, (startSendsTheLatchedAddressByte .start .start s (by simp) h.event).1 ha,
    ⟨⟨h.event.1, rfl, h.event.2.2⟩, h.region, h.length0, h.cursor0, readable_of_readable h.cursor,
      readable_of_readable h.length, readable_of_readable h.rxTarget⟩, rfl, rfl, rfl, rfl, rfl, rfl⟩

/-- The address is acknowledged: one byte, on the non-acknowledge path (R147, R149). -/
theorem State.Probing.owned {s : State} (h : s.Probing) (v : Byte) :
    ∃ t, handles [.crAddrAck, .crDataNack v] s t ∧ t.ctx = { s.ctx with busy := false } ∧ t.dummy = v ∧
      t.memory = s.memory ∧ t.adapter.actions = s.adapter.actions ++ [.nack, .stop] := by
  have hack := controllerReceiveAddressAckOnlyReplies s h.event h.cursor h.length
  rw [decide_eq_false (by rw [h.cursor0, h.length0]; omega)] at hack
  generalize hu : State.handled _ _ _ _ = u at hack
  obtain ⟨-, hdummy, -⟩ := controllerReceiveStoresTheFinalByteAndStops u v (by subst hu; exact ⟨h.event.1, rfl, h.event.2.2⟩)
    (by subst hu; exact readable_of_readable h.cursor) (by subst hu; exact readable_of_readable h.rxTarget)
  have hregion : u.ctx.rxTarget = ⟨.dummy, 1⟩ := by subst hu; exact h.region
  have hcursor : u.ctx.cursor = 0 := by subst hu; exact h.cursor0
  have hnack := hdummy (by rw [hcursor, hregion]; exact Nat.one_pos) (by rw [hregion])
  subst hu
  refine ⟨_, ⟨_, hack, _, hnack, rfl⟩, rfl, rfl, rfl, ?_⟩
  simp [State.handled, replyWhile, Reply.command]

/-- It is not acknowledged (R162). -/
theorem State.Probing.free {s : State} (h : s.Probing) {later : List Bool} (hstops : s.env.stops = true :: later) :
    ∃ t, exec .crAddrNack s = .next t ∧
      t.ctx = { s.ctx with busy := false, lastError := .code (s.cfg.code .crAddrNack) } ∧ t.dummy = s.dummy ∧
      t.memory = s.memory ∧ t.adapter.actions = s.adapter.actions ++ [.stopWait] := by
  obtain ⟨-, hexec⟩ := unrecognisedStatusForcesAStop .crAddrNack (s.cfg.code .crAddrNack) s (.inl (by simp [errorStatuses]))
    h.event
  exact ⟨_, hexec later hstops, rfl, rfl, rfl, rfl⟩

/-- Settles O59: the three branches of a probe, and the three statuses that end one. -/
theorem probeHasThreeOutcomes : Obligations.ProbeHasThreeOutcomes := by
  refine ⟨fun js p i s hp hphase => ⟨fun d t hd ht ha hfirst => ?_, fun hnone => ?_, ?_⟩,
    fun s v later hs hregion hlen hcur herror hc hl hr ha hstops => ?_⟩
  · have howner := ownerOf_eq hd ht ha hfirst
    refine ⟨fun hcounts => ?_, fun n length b data hs hreq hbody h1 hcap hdata => ?_⟩
    · obtain ⟨u, hu, hcontrol, hlatch, -, -, -, -, -, -, hbusy, herror, hmem⟩ := answerProbe_counts hcounts
      refine ⟨u, ?_, hcontrol, hbusy, herror, hmem⟩
      rw [lobbyTurn_probe hp hphase, probe_owned howner ht hu, hlatch]
      rfl
    · obtain ⟨u, hu, hcontrol, hlatch, -, -, -, -, -, hbusy, herror, hmem⟩ :=
        answerProbe_user hs hreq hbody h1 hcap hdata
      refine ⟨u, ?_, hcontrol, hbusy, herror, hmem⟩
      rw [lobbyTurn_probe hp hphase, probe_owned howner ht hu, hlatch]
      rfl
  · rw [lobbyTurn_probe hp hphase, probe_free (ownerOf_none hnone)]
    rfl
  · rw [lobbyTurn_probe hp hphase, probe_contended]
    rfl
  · have hprobing : s.Probing := ⟨hs, hregion, hlen, hcur, hc, hl, hr⟩
    obtain ⟨u, hstart, hu, hcfg, hctx, hmem, hdummy, henv, hactions⟩ := hprobing.starts ha
    refine ⟨?_, ?_, ?_⟩
    · obtain ⟨t, ht, htctx, htdummy, htmem, htactions⟩ := hu.owned v
      exact ⟨t, ⟨u, hstart, ht⟩, by rw [htctx, hctx], htdummy, htmem.trans hmem, by rw [htactions, hactions]; simp⟩
    · obtain ⟨t, ht, htctx, htdummy, htmem, htactions⟩ := hu.free (by rw [henv]; exact hstops)
      exact ⟨t, ⟨u, hstart, t, ht, rfl⟩, by rw [htctx, hctx, hcfg], htdummy.trans hdummy, htmem.trans hmem,
        by rw [htactions, hactions]; simp⟩
    · refine ⟨_, ⟨u, hstart, _, arbitrationLossIsRecordedAndEndsTheTransfer u hu.event, rfl⟩, ?_, hdummy, hmem, ?_⟩
      · simp [State.handled, hctx, hcfg]
      · simp [State.handled, hactions]

/-! ### A late device -/

theorem lobbyRun_cons {js js' : List State} {t : Turn} {rest : List Turn} (h : lobbyTurn js t = .next js') :
    lobbyRun (t :: rest) js = lobbyRun rest js' := by
  rw [lobbyRun, h]

/-- After a probe that has found an owner the device passes on to the next candidate in two turns (R224). -/
theorem lobbyRun_passes {js : List State} {p i : Nat} {s : State} {rest : List Turn} (hp : js[p]? = some (s.probeEnds i .noError)) :
    lobbyRun (⟨p, false⟩ :: ⟨p, false⟩ :: rest) js = lobbyRun rest (js.set p ((s.setLastError .noError).goto (.hsLoop i))) := by
  have hlt : p < js.length := (List.getElem?_eq_some_iff.mp hp).1
  have h2 : hostStep (s.probeEnds i .noError) = .next ((s.setLastError .noError).goto (.handshake i (.h3 .noError))) := by
    simp only [hostStep, State.probeEnds, State.goto_run_phase, handshakeStep]
    obtain ⟨huse, hread⟩ := readLastError_of_written (s := s.probeEnds i .noError) rfl
    rw [State.probeEnds] at huse hread
    rw [huse, hread]
    rfl
  have h3 : hostStep ((s.setLastError .noError).goto (.handshake i (.h3 .noError))) =
      .next ((s.setLastError .noError).goto (.hsLoop i)) := rfl
  rw [lobbyRun_cons (lobbyTurn_host hp rfl h2 false),
    lobbyRun_cons (lobbyTurn_host (List.getElem?_set_self hlt) rfl h3 false), List.set_set]

/-- The lobby as a device that comes late finds it: each of the `left` candidates it still has to try is the own address of
exactly one other device, `owner i`, which counts its probes. -/
structure Taken (js : List State) (p left : Nat) (c : Config) (owner : Nat → Nat) : Prop where
  owned : ∀ i, i < left → owner i ≠ p ∧
    ∃ t, js[owner i]? = some t ∧ t.control.ownAddress = some (identityAddress c i) ∧ t.CountsProbes
  once : ∀ d t i, d ≠ p → js[d]? = some t → i < left → t.control.ownAddress = some (identityAddress c i) → d = owner i

/-- One candidate: its owner is counted up, and the device stands at the next (R224, R227). -/
theorem Taken.pass {js : List State} {p i : Nat} {s : State} {owner : Nat → Nat} (h : Taken js p (i + 1) s.cfg owner)
    (hp : js[p]? = some s) (hphase : s.run.phase = .hsLoop (i + 1)) {t : State} (ht : js[owner i]? = some t) :
    ∃ (u s' : State), (∀ rest, lobbyRun (⟨p, false⟩ :: ⟨p, false⟩ :: ⟨p, false⟩ :: rest) js =
        lobbyRun rest ((js.set (owner i) u).set p s')) ∧
      s'.cfg = s.cfg ∧ s'.control = s.control ∧ s'.run.phase = .hsLoop i ∧
      u.control = { t.control with hsCounter := t.control.hsCounter + 1 } ∧ u.ctx.busy = false := by
  obtain ⟨hd, t', ht', haddr, hcounts⟩ := h.owned i (Nat.lt_succ_self i)
  obtain rfl : t' = t := Option.some.inj (ht'.symm.trans ht)
  obtain ⟨u, hu, hcontrol, -, -, -, -, -, -, -, hbusy, -⟩ := answerProbe_counts hcounts
  have howner : ownerOf js p (identityAddress s.cfg i) = some (owner i) :=
    ownerOf_eq hd ht haddr fun q v hq hqp hv ha => hq.ne (h.once q v i hqp hv (Nat.lt_succ_self i) ha)
  have hlt : p < (js.set (owner i) u).length := by
    rw [List.length_set]
    exact (List.getElem?_eq_some_iff.mp hp).1
  refine ⟨u, (({ s with dummy := u.adapter.dataLatch } : State).setLastError .noError).goto (.hsLoop i), fun rest => ?_,
    rfl, rfl, rfl, hcontrol, hbusy⟩
  rw [lobbyRun_cons ((lobbyTurn_probe hp hphase false).trans (probe_owned howner ht hu)),
    lobbyRun_passes (List.getElem?_set_self hlt), List.set_set]

/-- The owners are different devices. -/
theorem Taken.owner_ne {js : List State} {p left i j : Nat} {c : Config} {owner : Nat → Nat} (h : Taken js p left c owner)
    (hl : c.Legal) (hle : left ≤ c.joiners) (hi : i < left) (hji : j < i) : owner j ≠ owner i := by
  intro e
  obtain ⟨-, t, ht, hti, -⟩ := h.owned i hi
  obtain ⟨-, v, hv, hvj, -⟩ := h.owned j (hji.trans hi)
  rw [e, ht] at hv
  obtain rfl := Option.some.inj hv
  exact hji.ne (identityAddress_inj hl (by omega) (by omega) (Option.some.inj (hvj.symm.trans hti)))

/-- What is left is taken as it was: the device that was counted up keeps its address, the others are untouched. -/
theorem Taken.rest {js : List State} {p i : Nat} {s s' t u : State} {owner : Nat → Nat}
    (h : Taken js p (i + 1) s.cfg owner) (hl : s.cfg.Legal) (hi : i < s.cfg.joiners) (ht : js[owner i]? = some t)
    (haddr : u.control.ownAddress = t.control.ownAddress) (hcfg : s'.cfg = s.cfg) :
    Taken ((js.set (owner i) u).set p s') p i s'.cfg owner := by
  obtain ⟨hd, t', ht', hti, -⟩ := h.owned i (Nat.lt_succ_self i)
  obtain rfl : t' = t := Option.some.inj (ht'.symm.trans ht)
  have hlt : owner i < js.length := (List.getElem?_eq_some_iff.mp ht).1
  have hself : ((js.set (owner i) u).set p s')[owner i]? = some u := by
    rw [List.getElem?_set_ne (Ne.symm hd), List.getElem?_set_self hlt]
  have hother {q : Nat} (hqp : q ≠ p) (hq : q ≠ owner i) : ((js.set (owner i) u).set p s')[q]? = js[q]? := by
    rw [List.getElem?_set_ne (Ne.symm hqp), List.getElem?_set_ne (Ne.symm hq)]
  have hdistinct {j : Nat} (hj : j < i) : identityAddress s.cfg i ≠ identityAddress s.cfg j := fun e =>
    hj.ne' (identityAddress_inj hl hi (hj.trans hi) e)
  rw [hcfg]
  refine ⟨fun j hj => ?_, fun d v j hdp hv hj hvj => ?_⟩
  · obtain ⟨hjp, v, hv, hvj, hcounts⟩ := h.owned j (hj.trans (Nat.lt_succ_self i))
    have hne := h.owner_ne hl hi (Nat.lt_succ_self i) hj
    exact ⟨hjp, v, by rw [hother hjp hne]; exact hv, hvj, hcounts⟩
  · by_cases hdi : d = owner i
    · subst hdi
      obtain rfl := Option.some.inj (hself.symm.trans hv)
      rw [haddr] at hvj
      exact absurd (Option.some.inj (hti.symm.trans hvj)) (hdistinct hj)
    · rw [hother hdp hdi] at hv
      exact h.once d v j hdp hv (hj.trans (Nat.lt_succ_self i)) hvj

/-- Candidate after candidate, down to the end of the scan (R230). -/
theorem Taken.run {js : List State} {p left : Nat} {s : State} {owner : Nat → Nat} (h : Taken js p left s.cfg owner)
    (hp : js[p]? = some s) (hl : s.cfg.Legal) (hphase : s.run.phase = .hsLoop left) (hle : left ≤ s.cfg.joiners) :
    ∃ js' s', lobbyRun (List.replicate (3 * left + 1) ⟨p, false⟩) js = .next js' ∧ js'[p]? = some s' ∧
      s'.run.phase = .idle ∧ s'.run.result = .alreadyComplete ∧ s'.control = s.control ∧
      (∀ i t, i < left → js[owner i]? = some t → ∃ t', js'[owner i]? = some t' ∧
        t'.control = { t.control with hsCounter := t.control.hsCounter + 1 } ∧ t'.ctx.busy = false) ∧
      (∀ d, d ≠ p → (∀ i, i < left → d ≠ owner i) → js'[d]? = js[d]?) := by
  have hlt : p < js.length := (List.getElem?_eq_some_iff.mp hp).1
  induction left generalizing js s with
  | zero =>
    have hstep : hostStep s = .next (s.finish .alreadyComplete) := by rw [hostStep, hphase]; rfl
    have hturn := lobbyTurn_host hp (by rw [State.candidate, hphase]) hstep false
    refine ⟨_, s.finish .alreadyComplete, lobbyRun_cons hturn, List.getElem?_set_self hlt, rfl, rfl, rfl,
      fun i t hi => absurd hi (Nat.not_lt_zero i), fun d hd _ => List.getElem?_set_ne (Ne.symm hd)⟩
  | succ i ih =>
    obtain ⟨hd, t, ht, -⟩ := h.owned i (Nat.lt_succ_self i)
    obtain ⟨u, s', hruns, hcfg, hcontrol, hphase', hcount, hbusy⟩ := h.pass hp hphase ht
    have hrest : Taken ((js.set (owner i) u).set p s') p i s'.cfg owner :=
      h.rest hl hle ht (by rw [hcount]) hcfg
    have hltd : owner i < js.length := (List.getElem?_eq_some_iff.mp ht).1
    obtain ⟨js', s'', hrun, hp', hidle, hresult, hcontrol', howners, helse⟩ := ih hrest
      (List.getElem?_set_self (by rw [List.length_set]; exact hlt)) (hcfg ▸ hl) hphase' (by rw [hcfg]; omega)
      (by rw [List.length_set, List.length_set]; exact hlt)
    have hne {j : Nat} (hj : j < i) : owner j ≠ owner i := h.owner_ne hl hle (Nat.lt_succ_self i) hj
    have hother {q : Nat} (hqp : q ≠ p) (hq : q ≠ owner i) : ((js.set (owner i) u).set p s')[q]? = js[q]? := by
      rw [List.getElem?_set_ne (Ne.symm hqp), List.getElem?_set_ne (Ne.symm hq)]
    refine ⟨js', s'', ?_, hp', hidle, hresult, hcontrol'.trans hcontrol, fun j v hj hv => ?_, fun d hdp hdo => ?_⟩
    · rw [show 3 * (i + 1) + 1 = 3 * i + 1 + 1 + 1 + 1 by omega, List.replicate_succ, List.replicate_succ,
        List.replicate_succ, hruns]
      exact hrun
    · rcases Nat.lt_succ_iff_lt_or_eq.mp hj with hj | rfl
      · obtain ⟨hjp, -⟩ := hrest.owned j hj
        exact howners j v hj (by rw [hother hjp (hne hj)]; exact hv)
      · obtain rfl := Option.some.inj (ht.symm.trans hv)
        refine ⟨u, ?_, hcount, hbusy⟩
        rw [helse _ hd fun k hk => (hne hk).symm, List.getElem?_set_ne (Ne.symm hd), List.getElem?_set_self hltd]
    · rw [helse d hdp fun k hk => hdo k (hk.trans (Nat.lt_succ_self i)), hother hdp (hdo i (Nat.lt_succ_self i))]

/-- Settles O58. -/
theorem lateDeviceIsToldTheLobbyIsComplete : Obligations.LateDeviceIsToldTheLobbyIsComplete :=
  fun _ _ _ _ _ hp hl hphase hle howned honce => Taken.run ⟨howned, honce⟩ hp hl hphase hle

end Sys2Proof.Machine
end

section
/-! The invariant behind P4 (spec/43_handshake.md sections 3 and 4, R234): where a device of the lobby can stand, which
candidates it has passed because another device holds them, and that the counter of the device that holds an identity is the
number of devices that have passed it. -/

namespace Sys2Proof.Machine

/-! ### One device -/

/-- The three answers of a probe (R232). -/
def ProbeCode (c : Config) (e : LastError) : Prop :=
  e = .noError ∨ e = .code (c.code .crAddrNack) ∨ e = .code (c.code .arbLost)

/-- What holds of a device of the lobby at control point `p`, beyond being a member: before its claim it has not been
counted, after H6 it counts its probes, and what it has returned is what it holds. -/
def State.PlaceInv (s : State) : Phase → Prop
  | .hsLoop _ | .handshake _ .h4Own => s.control.hsCounter = 0
  | .handshake _ .h2 => s.control.hsCounter = 0 ∧ ProbeCode s.cfg s.ctx.lastError
  | .handshake _ (.h3 e) => s.control.hsCounter = 0 ∧ ProbeCode s.cfg e
  | .handshake _ .h7 => s.ctx.onRequest = some .hsOnRequest
  | .idle => s.ctx.onRequest = some .hsOnRequest ∧ ∃ i, s.run.result = .identity i ∧ s.held = some i
  | .handshake _ .h4Call | .handshake _ .h5 | .handshake _ .h6 | .configure _ | .write _ _ | .read _ _ _ => True

/-- A device that takes part in the handshake. -/
structure State.Joins (c : Config) (s : State) : Prop where
  member : s.LobbyMember c
  event : s.EventReady
  counter : s.written.hsCounter = true
  place : s.PlaceInv s.run.phase

/-- Whether a device at control point `p` has passed candidate `k`: a probe has told it that another device holds it. -/
def State.passesAt (s : State) (k : Nat) : Phase → Bool
  | .hsLoop left => left ≤ k
  | .handshake j .h2 => j < k || (j = k && s.ctx.lastError = .noError)
  | .handshake j (.h3 e) => j < k || (j = k && e = .noError)
  | .handshake j .h4Own | .handshake j .h4Call | .handshake j .h5 | .handshake j .h6 | .handshake j .h7 => j < k
  | .idle => s.held.any (· < k)
  | .configure _ | .write _ _ | .read _ _ _ => false

/-- Whether a device has passed candidate `k`. -/
def State.passes (k : Nat) (s : State) : Bool := s.passesAt k s.run.phase

theorem held_lt {s : State} {i : Nat} (h : s.held = some i) : i < s.cfg.joiners := by
  unfold State.held at h
  split at h
  · cases h
  · split_ifs at h with hr
    obtain rfl := Option.some.inj h
    omega

/-- A member that holds an identity is past its claim: the identity is that of its control point, or it has returned. -/
theorem member_holding {c : Config} {s : State} {i : Nat} (hm : s.LobbyMember c) (hh : s.held = some i) :
    s.run.phase = .idle ∨
      s.run.phase = .handshake i .h4Call ∨ s.run.phase = .handshake i .h5 ∨ s.run.phase = .handshake i .h6 ∨
      s.run.phase = .handshake i .h7 := by
  obtain ⟨-, hm⟩ := hm
  cases hp : s.run.phase with
  | idle => exact .inl rfl
  | configure | write | read => simp [hp] at hm
  | hsLoop => simp [hp, hh] at hm
  | handshake j pt =>
    simp only [hp] at hm
    cases pt with
    | h2 | h3 | h4Own => simp [hh] at hm
    | h4Call | h5 | h6 | h7 =>
      obtain rfl : i = j := Option.some.inj (hh.symm.trans hm)
      simp

/-- So it is not about to claim, and its stake is what it holds. -/
theorem stake_of_held {c : Config} {s : State} {i : Nat} (hm : s.LobbyMember c) (hh : s.held = some i) :
    s.stake = some i := by
  have hn : s.claimsNext = none := by
    rcases member_holding hm hh with hp | hp | hp | hp | hp <;> simp [State.claimsNext, hp]
  rw [stake_of_claimsNext_none hn, hh]

/-- A device that holds `j` has passed the candidates above it. -/
theorem passes_of_held {c : Config} {s : State} {j : Nat} (hm : s.LobbyMember c) (hh : s.held = some j) (k : Nat) :
    s.passes k = decide (j < k) := by
  unfold State.passes
  rcases member_holding hm hh with hp | hp | hp | hp | hp <;> simp [hp, State.passesAt, hh]

/-- What a move of Host does, seen from the other devices: nothing, unless it is the claim. -/
theorem LobbyMove.joins {c : Config} {s s' : State} (hl : c.Legal) (h : s.Joins c) (hm : LobbyMove s s')
    (h0 : s.run.phase ≠ .hsLoop 0) :
    s'.Joins c ∧ (∀ k, s'.passes k = s.passes k) ∧ s'.control.hsCounter = s.control.hsCounter ∧
      (s'.held = s.held ∨ ∃ i, s.run.phase = .handshake i .h4Own ∧ s'.held = some i) := by
  have hcfg : s.cfg = c := h.member.1
  have hplace := h.place
  have hkeeps := (hm.keeps hl h.member).1
  cases hm with
  | stay hp => exact ⟨h, fun _ => rfl, rfl, .inl rfl⟩
  | complete hp => exact absurd hp h0
  | outcome i hp =>
    rw [hp] at hplace
    refine ⟨⟨hkeeps, h.event, h.counter, hplace⟩, fun k => ?_, rfl, .inl rfl⟩
    simp [State.passes, hp, State.passesAt]
  | owned i hp =>
    rw [hp] at hplace
    refine ⟨⟨hkeeps, h.event, h.counter, hplace.1⟩, fun k => ?_, rfl, .inl rfl⟩
    simp [State.passes, hp, State.passesAt]
    rw [← Bool.decide_or, decide_eq_decide]
    omega
  | free i hp =>
    rw [hp] at hplace
    refine ⟨⟨hkeeps, h.event, h.counter, hplace.1⟩, fun k => ?_, rfl, .inl rfl⟩
    simp [State.passes, hp, State.passesAt]
  | again i e hp h1 h2 =>
    rw [hp] at hplace
    refine ⟨⟨hkeeps, h.event, h.counter, hplace.1⟩, fun k => ?_, rfl, .inl rfl⟩
    simp [State.passes, hp, State.passesAt, h1]
  | claim i hp =>
    refine ⟨⟨hkeeps, h.event, h.counter, trivial⟩, fun k => ?_, rfl, .inr ⟨i, hp, ?_⟩⟩
    · simp [State.passes, hp, State.passesAt]
    · exact hkeeps.2
  | general i hp =>
    refine ⟨⟨hkeeps, h.event, h.counter, trivial⟩, fun k => ?_, rfl, .inl rfl⟩
    simp [State.passes, hp, State.passesAt]
  | onReceive i hp =>
    refine ⟨⟨hkeeps, h.event, h.counter, trivial⟩, fun k => ?_, rfl, .inl rfl⟩
    simp [State.passes, hp, State.passesAt]
  | onRequest i hp =>
    refine ⟨⟨hkeeps, h.event, h.counter, rfl⟩, fun k => ?_, rfl, .inl rfl⟩
    simp [State.passes, hp, State.passesAt]
  | returned i hp =>
    rw [hp] at hplace
    have hheld : s.held = some i := by
      have hm := h.member.2
      simpa only [hp] using hm
    refine ⟨⟨hkeeps, h.event, h.counter, hplace, i, rfl, hheld⟩, fun k => ?_, rfl, .inl rfl⟩
    rw [passes_of_held h.member hheld, passes_of_held hkeeps hheld]

/-- H3 goes on from every answer of a probe (R224 to R226). -/
theorem probeOutcome_goes_on {i : Nat} {e : LastError} {s : State} (h : ProbeCode s.cfg e) :
    ∃ t, probeOutcome i e s = .next t := by
  rcases h with rfl | rfl | rfl
  · exact ⟨_, rfl⟩
  · exact ⟨_, if_pos rfl⟩
  · by_cases hc : s.cfg.code .arbLost = s.cfg.code .crAddrNack
    · exact ⟨_, if_pos hc⟩
    · exact ⟨_, (if_neg hc).trans (if_pos rfl)⟩

/-- A device that makes no probe goes on. -/
theorem State.Joins.goes_on {c : Config} {s : State} (h : s.Joins c) (hc : s.candidate = none) :
    ∃ t, hostStep s = .next t := by
  have hm := h.member.2
  have hplace := h.place
  cases hp : s.run.phase with
  | configure | write | read => simp [hp] at hm
  | idle => exact ⟨s, by rw [hostStep, hp]⟩
  | hsLoop left =>
    cases left with
    | zero => exact ⟨_, by rw [hostStep, hp]; rfl⟩
    | succ i => simp [State.candidate, hp] at hc
  | handshake i pt =>
    rw [hostStep, hp]
    cases pt with
    | h3 e =>
      rw [hp] at hplace
      exact probeOutcome_goes_on hplace.2
    | h7 => exact ⟨_, reading_eq (readable_of_written (f := .hsCounter) h.counter) _⟩
    | h2 | h4Own | h4Call | h5 | h6 => exact ⟨_, rfl⟩

/-- The prober at the end of its probe of candidate `i`: it has passed that if it was owned, and otherwise nothing more than
before. -/
theorem State.Joins.probeEnds {c : Config} {s : State} {i : Nat} {e : LastError} (h : s.Joins c)
    (hphase : s.run.phase = .hsLoop (i + 1)) (he : ProbeCode s.cfg e) :
    (s.probeEnds i e).Joins c ∧ (s.probeEnds i e).control.hsCounter = s.control.hsCounter ∧
      (s.probeEnds i e).held = s.held ∧
      ∀ k, (s.probeEnds i e).passes k = (s.passes k || (i = k && e = .noError)) := by
  obtain ⟨hm, -⟩ := probeEnds_member h.member (candidate_eq_some.mpr hphase) e
  have hplace := h.place
  rw [hphase] at hplace
  refine ⟨⟨hm, h.event, h.counter, hplace, he⟩, rfl, rfl, fun k => ?_⟩
  rw [State.passes, State.passes, hphase]
  rfl

/-- What a device has passed depends on where it stands, its error and what it holds. -/
theorem passes_congr {s t : State} (hphase : t.run.phase = s.run.phase) (he : t.ctx.lastError = s.ctx.lastError)
    (hh : t.held = s.held) (k : Nat) : t.passes k = s.passes k := by
  unfold State.passes
  rw [hphase]
  cases s.run.phase with
  | handshake j pt => cases pt <;> simp [State.passesAt, he]
  | _ => simp [State.passesAt, hh]

/-- A device of the lobby that holds the probed identity and is not settling counts the probe (R227, R309 d). -/
theorem State.Joins.countsProbes {c : Config} {t : State} {i : Nat} (hl : c.Legal) (h : t.Joins c) (hh : t.held = some i)
    (hsettled : t.settling ≠ some i) (hlt : t.control.hsCounter < c.maxIndex) : t.CountsProbes := by
  have hcfg : t.cfg = c := h.member.1
  have hplace := h.place
  refine ⟨h.event, ?_, readable_of_written h.counter, by rw [hcfg]; exact hlt, by rw [hcfg]; exact hl.1.1⟩
  rcases member_holding h.member hh with hp | hp | hp | hp | hp
  · rw [hp] at hplace
    exact hplace.1
  · exact absurd (by rw [State.settling, hp]) hsettled
  · exact absurd (by rw [State.settling, hp]) hsettled
  · exact absurd (by rw [State.settling, hp]) hsettled
  · rw [hp] at hplace
    exact hplace

/-- The owner of a probed identity after its answer. -/
theorem State.Joins.answered {c : Config} {t u : State} {i : Nat} (h : t.Joins c) (hh : t.held = some i)
    (hcontrol : u.control = { t.control with hsCounter := t.control.hsCounter + 1 }) (hw : u.written.hsCounter = true)
    (hk : KeepsOwner t u) : u.Joins c ∧ u.held = t.held ∧ ∀ k, u.passes k = t.passes k := by
  obtain ⟨hs, hcfg, hphase, hresult, hreq, -, herror, -⟩ := hk
  have haddr : u.control.ownAddress = t.control.ownAddress := by rw [hcontrol]
  obtain ⟨hm, -⟩ := member_of_frame h.member hh hcfg hphase haddr
  have hheld : u.held = t.held := held_congr haddr hcfg
  refine ⟨⟨hm, hs, hw, ?_⟩, hheld, passes_congr hphase herror hheld⟩
  have hplace := h.place
  rw [hphase]
  rcases member_holding h.member hh with hp | hp | hp | hp | hp <;> rw [hp] at hplace ⊢
  · obtain ⟨hcall, j, hj⟩ := hplace
    exact ⟨hreq.trans hcall, j, by rw [hresult, hheld]; exact hj⟩
  · trivial
  · trivial
  · trivial
  · exact hreq.trans hplace

end Sys2Proof.Machine
end

section
/-! Proof of P4 (spec/43_handshake.md sections 3 and 4, R233, R234): every turn under the two premises goes on and keeps the
invariant of the lobby; what the invariant says once every device holds an identity; and the schedule that breaks the
premise. -/

namespace Sys2Proof.Machine

/-! ### Lists of devices -/

/-- After a device was put back, each place holds what it held or that device. -/
theorem getElem?_set_cases {js : List State} {p q : Nat} {s' u : State} (h : (js.set p s')[q]? = some u) :
    q = p ∧ u = s' ∨ q ≠ p ∧ js[q]? = some u := by
  by_cases hq : q = p
  · subst hq
    rw [List.getElem?_set_self'] at h
    cases hp : js[q]? with
    | none => simp [hp] at h
    | some s => exact .inl ⟨rfl, by simpa [hp] using h.symm⟩
  · exact .inr ⟨hq, by rwa [List.getElem?_set_ne (Ne.symm hq)] at h⟩

/-- A place that holds something holds something after a device was put back. -/
theorem exists_getElem?_set {js : List State} {p d : Nat} {s s' t : State} (hp : js[p]? = some s) (hd : js[d]? = some t)
    {P : State → Prop} (ht : P t) (hs : P s → P s') : ∃ (d : Nat) (u : State), (js.set p s')[d]? = some u ∧ P u := by
  by_cases hdp : d = p
  · subst hdp
    obtain rfl : t = s := Option.some.inj (hd.symm.trans hp)
    exact ⟨d, s', List.getElem?_set_self (List.getElem?_eq_some_iff.mp hd).1, hs ht⟩
  · exact ⟨d, t, by rw [List.getElem?_set_ne (Ne.symm hdp)]; exact hd, ht⟩

/-- How a count changes when one device is put back. -/
theorem countP_set_add {js : List State} {p : Nat} {s : State} (f : State → Bool) (s' : State) (hp : js[p]? = some s) :
    (js.set p s').countP f + (if f s = true then 1 else 0) = js.countP f + (if f s' = true then 1 else 0) := by
  obtain ⟨hlt, hs⟩ := List.getElem?_eq_some_iff.mp hp
  have hone : (if f s = true then 1 else 0) ≤ js.countP f := by
    split_ifs with h
    · exact List.countP_pos_iff.mpr ⟨s, List.mem_of_getElem? hp, h⟩
    · exact Nat.zero_le _
  rw [List.countP_set hlt, hs]
  omega

theorem countP_set_eq {js : List State} {p : Nat} {s s' : State} {f : State → Bool} (hp : js[p]? = some s)
    (hf : f s' = f s) : (js.set p s').countP f = js.countP f := by
  have h := countP_set_add f s' hp
  rw [hf] at h
  omega

/-- A prober that has found candidate `i` owned has passed it, and no other. -/
theorem countP_passed {js : List State} {p i : Nat} {s s' : State} (hp : js[p]? = some s)
    (hphase : s.run.phase = .hsLoop (i + 1)) (hpass : ∀ k, s'.passes k = (s.passes k || decide (i = k))) (k : Nat) :
    (js.set p s').countP (State.passes k) = js.countP (State.passes k) + if i = k then 1 else 0 := by
  have hadd := countP_set_add (State.passes k) s' hp
  rw [hpass] at hadd
  by_cases hik : i = k
  · subst hik
    have hnot : s.passes i = false := by simp [State.passes, hphase, State.passesAt]
    simpa [hnot] using hadd
  · simpa [hik] using hadd

/-! ### The invariant of the lobby -/

/-- The invariant behind P4: the devices take part, no two have a stake in one identity, the holder of an identity has been
counted by exactly the devices that have passed it, and what a device has passed is held. -/
structure LobbyCount (c : Config) (js : List State) : Prop where
  inv : LobbyInv c js
  length : js.length = c.joiners
  joins : ∀ (q : Nat) (s : State), js[q]? = some s → s.Joins c
  counted : ∀ (q : Nat) (s : State) (i : Nat), js[q]? = some s → s.held = some i → s.control.hsCounter = js.countP (State.passes i)
  held : ∀ (q : Nat) (u : State) (i : Nat), js[q]? = some u → i < c.joiners → u.passes i = true →
    ∃ (d : Nat) (t : State), js[d]? = some t ∧ t.held = some i

section
variable {c : Config} {js : List State} (h : LobbyCount c js)
include h

/-- Only one device holds an identity, and no other is about to claim it. -/
theorem LobbyCount.holder_unique {p q i : Nat} {s u : State} (hp : js[p]? = some s) (hq : js[q]? = some u)
    (hs : s.held = some i) (hu : u.stake = some i) : p = q := by
  by_contra hpq
  exact h.inv.2 p q s u i hpq hp hq (stake_of_held (h.joins p s hp).member hs) hu

/-- No device of the lobby ever comes to the end of its scan: with every identity held by another, there would be one more
device than there is (R234). -/
theorem LobbyCount.not_complete {p : Nat} {s : State} (hp : js[p]? = some s) : s.run.phase ≠ .hsLoop 0 := by
  intro hphase
  have hnone : s.held = none := by
    have hm := (h.joins p s hp).member.2
    rw [hphase] at hm
    exact hm.2
  have hall (i : Nat) (hi : i < c.joiners) : some i ∈ js.map State.held := by
    obtain ⟨d, t, ht, hh⟩ := h.held p s i hp hi (by simp [State.passes, hphase, State.passesAt])
    exact List.mem_map.mpr ⟨t, List.mem_of_getElem? ht, hh⟩
  have hnodup : (none :: (List.range c.joiners).map some).Nodup :=
    List.nodup_cons.mpr ⟨by simp, List.Nodup.map (Option.some_injective _) List.nodup_range⟩
  have hsub : none :: (List.range c.joiners).map some ⊆ js.map State.held := by
    intro x hx
    rcases List.mem_cons.mp hx with rfl | hx
    · exact List.mem_map.mpr ⟨s, List.mem_of_getElem? hp, hnone⟩
    · obtain ⟨i, hi, rfl⟩ := List.mem_map.mp hx
      exact hall i (List.mem_range.mp hi)
  have hle := (List.subperm_of_subset hnodup hsub).length_le
  rw [List.length_map, List.length_cons, List.length_map, List.length_range, h.length] at hle
  omega

/-- A device put back that holds and has passed what it had keeps the invariant. -/
theorem LobbyCount.set_same {p : Nat} {s s' : State} (hp : js[p]? = some s) (hinv : LobbyInv c (js.set p s'))
    (hj : s'.Joins c) (hpass : ∀ k, s'.passes k = s.passes k) (hcounter : s'.control.hsCounter = s.control.hsCounter)
    (hheld : s'.held = s.held) : LobbyCount c (js.set p s') := by
  refine ⟨hinv, by rw [List.length_set]; exact h.length, fun q u hq => ?_, fun q u i hq hi => ?_, fun q u i hq hi hu => ?_⟩
  · obtain ⟨rfl, rfl⟩ | ⟨-, hq⟩ := getElem?_set_cases hq
    · exact hj
    · exact h.joins q u hq
  · rw [countP_set_eq hp (hpass i)]
    obtain ⟨rfl, rfl⟩ | ⟨-, hq⟩ := getElem?_set_cases hq
    · rw [hcounter]
      exact h.counted q s i hp (hheld ▸ hi)
    · exact h.counted q u i hq hi
  · obtain ⟨d, t, hd, ht⟩ : ∃ (d : Nat) (t : State), js[d]? = some t ∧ t.held = some i := by
      obtain ⟨rfl, rfl⟩ | ⟨-, hq⟩ := getElem?_set_cases hq
      · exact h.held q s i hp hi ((hpass i) ▸ hu)
      · exact h.held q u i hq hi hu
    exact exists_getElem?_set hp hd (P := fun t => t.held = some i) ht (hheld.trans ·)

/-- So does one that has claimed its identity: no device has passed that yet. -/
theorem LobbyCount.set_claim {p i : Nat} {s s' : State} (hp : js[p]? = some s) (hinv : LobbyInv c (js.set p s'))
    (hj : s'.Joins c) (hpass : ∀ k, s'.passes k = s.passes k) (hcounter : s'.control.hsCounter = s.control.hsCounter)
    (hphase : s.run.phase = .handshake i .h4Own) (hheld : s'.held = some i) : LobbyCount c (js.set p s') := by
  have hs := h.joins p s hp
  have hm := hs.member.2
  have hplace := hs.place
  rw [hphase] at hm hplace
  have hstake : s.stake = some i := stake_of_claimsNext_some (by rw [State.claimsNext, hphase])
  have hnobody : js.countP (State.passes i) = 0 := by
    refine List.countP_eq_zero.mpr fun u hu hpassed => ?_
    obtain ⟨q, hq⟩ := List.mem_iff_getElem?.mp hu
    obtain ⟨d, t, hd, ht⟩ := h.held q u i hq hm.1 hpassed
    obtain rfl := h.holder_unique hd hp ht hstake
    obtain rfl : t = s := Option.some.inj (hd.symm.trans hp)
    rw [hm.2] at ht
    cases ht
  refine ⟨hinv, by rw [List.length_set]; exact h.length, fun q u hq => ?_, fun q u k hq hk => ?_, fun q u k hq hk hu => ?_⟩
  · obtain ⟨rfl, rfl⟩ | ⟨-, hq⟩ := getElem?_set_cases hq
    · exact hj
    · exact h.joins q u hq
  · rw [countP_set_eq hp (hpass k)]
    obtain ⟨rfl, rfl⟩ | ⟨-, hq⟩ := getElem?_set_cases hq
    · obtain rfl : i = k := Option.some.inj (hheld.symm.trans hk)
      rw [hnobody, hcounter]
      exact hplace
    · exact h.counted q u k hq hk
  · obtain ⟨d, t, hd, ht⟩ : ∃ (d : Nat) (t : State), js[d]? = some t ∧ t.held = some k := by
      obtain ⟨rfl, rfl⟩ | ⟨-, hq⟩ := getElem?_set_cases hq
      · exact h.held q s k hp hk ((hpass k) ▸ hu)
      · exact h.held q u k hq hk hu
    refine exists_getElem?_set hp hd (P := fun t => t.held = some k) ht fun hs => ?_
    rw [hm.2] at hs
    cases hs

/-- A probe that has found its candidate owned: the holder has been counted once more, and one device more has passed. -/
theorem LobbyCount.set_owned {p d i : Nat} {s s' t u : State} (hp : js[p]? = some s)
    (hphase : s.run.phase = .hsLoop (i + 1)) (hdp : d ≠ p) (hd : js[d]? = some t) (ht : t.held = some i)
    (hinv : LobbyInv c ((js.set d u).set p s')) (hu : u.Joins c) (huheld : u.held = t.held)
    (hupass : ∀ k, u.passes k = t.passes k) (hcounter : u.control.hsCounter = t.control.hsCounter + 1) (hj : s'.Joins c)
    (hheld : s'.held = s.held) (hpass : ∀ k, s'.passes k = (s.passes k || decide (i = k))) :
    LobbyCount c ((js.set d u).set p s') := by
  have hp' : (js.set d u)[p]? = some s := by rw [List.getElem?_set_ne hdp]; exact hp
  have hnone : s.held = none := by
    have hm := (h.joins p s hp).member.2
    rw [hphase] at hm
    exact hm.2
  have hcount (k : Nat) : ((js.set d u).set p s').countP (State.passes k) =
      js.countP (State.passes k) + if i = k then 1 else 0 := by
    have hfirst := countP_set_eq (f := State.passes k) hd (hupass k)
    have hsecond := countP_set_add (State.passes k) s' hp'
    have hone := countP_passed hp hphase hpass k
    have hadd := countP_set_add (State.passes k) s' hp
    omega
  refine ⟨hinv, by rw [List.length_set, List.length_set]; exact h.length, fun q w hq => ?_, fun q w k hq hk => ?_,
    fun q w k hq hk hw => ?_⟩
  · obtain ⟨rfl, rfl⟩ | ⟨-, hq⟩ := getElem?_set_cases hq
    · exact hj
    · obtain ⟨rfl, rfl⟩ | ⟨-, hq⟩ := getElem?_set_cases hq
      · exact hu
      · exact h.joins q w hq
  · rw [hcount]
    obtain ⟨rfl, rfl⟩ | ⟨-, hq⟩ := getElem?_set_cases hq
    · rw [hheld, hnone] at hk
      cases hk
    · obtain ⟨rfl, rfl⟩ | ⟨hqd, hq⟩ := getElem?_set_cases hq
      · obtain rfl : i = k := Option.some.inj (ht.symm.trans (huheld ▸ hk))
        rw [hcounter, h.counted q t i hd ht, if_pos rfl]
      · have hik : i ≠ k := fun e =>
          hqd (h.holder_unique hq hd (e ▸ hk) (stake_of_held (h.joins d t hd).member ht))
        rw [if_neg hik, Nat.add_zero]
        exact h.counted q w k hq hk
  · obtain ⟨d', t', hd', ht'⟩ : ∃ (d : Nat) (t : State), js[d]? = some t ∧ t.held = some k := by
      obtain ⟨rfl, rfl⟩ | ⟨-, hq⟩ := getElem?_set_cases hq
      · rw [hpass, Bool.or_eq_true, decide_eq_true_eq] at hw
        rcases hw with hw | rfl
        · exact h.held q s k hp hk hw
        · exact ⟨d, t, hd, ht⟩
      · obtain ⟨rfl, rfl⟩ | ⟨-, hq⟩ := getElem?_set_cases hq
        · exact h.held q t k hd hk (hupass k ▸ hw)
        · exact h.held q w k hq hk hw
    obtain ⟨d', t', hd', ht'⟩ := exists_getElem?_set hd hd' (P := fun t => t.held = some k) ht' (huheld.trans ·)
    exact exists_getElem?_set hp' hd' (P := fun t => t.held = some k) ht' (hheld.trans ·)

/-- The holder of a probed identity has room for the count: its probers are other devices of the lobby (R227, R234). -/
theorem LobbyCount.counter_lt {p d i : Nat} {s t : State} (hmax : c.joiners ≤ c.maxIndex + 1)
    (hp : js[p]? = some s) (hphase : s.run.phase = .hsLoop (i + 1)) (hdp : d ≠ p) (hd : js[d]? = some t)
    (ht : t.held = some i) : t.control.hsCounter < c.maxIndex := by
  obtain ⟨-, -, -, hpass⟩ := (h.joins p s hp).probeEnds (e := .noError) hphase (.inl rfl)
  have hcount := countP_passed hp hphase (s' := s.probeEnds i .noError) (fun k => by rw [hpass]; simp) i
  have hmem : t ∈ js.set p (s.probeEnds i .noError) :=
    List.mem_of_getElem? (by rw [List.getElem?_set_ne (Ne.symm hdp)]; exact hd)
  have hlt := (List.countP_lt_length_iff (p := State.passes i)).mpr ⟨t, hmem, by rw [passes_of_held (h.joins d t hd).member ht i]; simp⟩
  rw [hcount, if_pos rfl, List.length_set, h.length] at hlt
  rw [h.counted d t i hd ht]
  omega

/-- A probe of an owned candidate goes on and keeps the invariant (R227, R232 a). -/
theorem LobbyCount.turn_owned {t : Turn} {s : State} {i d : Nat} (hl : c.Legal) (hmax : c.joiners ≤ c.maxIndex + 1)
    (hclaims : turnApart State.claimsNext js t) (hsettling : turnApart State.settling js t)
    (hp : js[t.device]? = some s) (hphase : s.run.phase = .hsLoop (i + 1))
    (howner : ownerOf js t.device (identityAddress s.cfg i) = some d)
    (hturn : lobbyTurn js t = probe js t.device s i false) : ∃ js', lobbyTurn js t = .next js' ∧ LobbyCount c js' := by
  have hs := h.joins _ s hp
  have hc := candidate_eq_some.mpr hphase
  have hcfg : s.cfg = c := hs.member.1
  obtain ⟨-, -, hi⟩ := probeEnds_member hs.member hc .noError
  obtain ⟨hdp, v, hv, haddr⟩ := ownerOf_eq_some howner
  have hvj := h.joins d v hv
  have hvcfg : v.cfg = c := hvj.member.1
  have hheld : v.held = some i := (held_eq_iff (hvcfg ▸ hl) (hvcfg ▸ hi)).mpr (by rw [haddr, hcfg, hvcfg])
  have hcounts := hvj.countsProbes hl hheld (hsettling s i hp hc d v hdp hv)
    (h.counter_lt hmax hp hphase hdp hv hheld)
  obtain ⟨u, hu, hcontrol, -, hw, hkeeps⟩ := answerProbe_counts hcounts
  obtain ⟨huj, huheld, hupass⟩ := hvj.answered hheld hcontrol hw hkeeps
  have hnext := hturn.trans (probe_owned howner hv hu)
  have hdm : ({ s with dummy := u.adapter.dataLatch } : State).Joins c := ⟨hs.member, hs.event, hs.counter, hs.place⟩
  obtain ⟨hj, -, hsheld, hpass⟩ := hdm.probeEnds (e := .noError) hphase (.inl rfl)
  exact ⟨_, hnext, h.set_owned hp hphase hdp hv hheld (h.inv.turn hl hclaims hnext) huj huheld hupass
    (by rw [hcontrol]) hj hsheld fun k => by rw [hpass]; simp only [decide_true, Bool.and_true]; rfl⟩

/-- Every turn under the two premises goes on and keeps the invariant. -/
theorem LobbyCount.turn {t : Turn} (hl : c.Legal) (hmax : c.joiners ≤ c.maxIndex + 1)
    (hclaims : turnApart State.claimsNext js t) (hsettling : turnApart State.settling js t) :
    ∃ js', lobbyTurn js t = .next js' ∧ LobbyCount c js' := by
  cases hp : js[t.device]? with
  | none => exact ⟨js, by simp only [lobbyTurn, hp], h⟩
  | some s =>
    have hs := h.joins _ s hp
    cases hc : s.candidate with
    | none =>
      obtain ⟨s', hs'⟩ := hs.goes_on hc
      have hturn := lobbyTurn_host hp hc hs' t.contended
      have hinv := h.inv.turn hl hclaims hturn
      obtain ⟨hj, hpass, hcounter, hheld⟩ := (hostStep_move hs.member hc hs').joins hl hs (h.not_complete hp)
      rcases hheld with hheld | ⟨i, hphase, hheld⟩
      · exact ⟨_, hturn, h.set_same hp hinv hj hpass hcounter hheld⟩
      · exact ⟨_, hturn, h.set_claim hp hinv hj hpass hcounter hphase hheld⟩
    | some i =>
      have hphase := candidate_eq_some.mp hc
      have hcfg : s.cfg = c := hs.member.1
      have hsame {e : LastError} (he : ProbeCode s.cfg e) (hne : e ≠ .noError)
          (hturn : lobbyTurn js t = .next (js.set t.device (s.probeEnds i e))) :
          ∃ js', lobbyTurn js t = .next js' ∧ LobbyCount c js' := by
        obtain ⟨hj, hcounter, hheld, hpass⟩ := hs.probeEnds hphase he
        exact ⟨_, hturn, h.set_same hp (h.inv.turn hl hclaims hturn) hj (fun k => by rw [hpass]; simp [hne]) hcounter hheld⟩
      have hturn : lobbyTurn js t = probe js t.device s i t.contended := lobbyTurn_probe hp hphase t.contended
      cases hcontended : t.contended with
      | true => exact hsame (.inr (.inr rfl)) nofun (hturn.trans (by rw [hcontended, probe_contended]))
      | false =>
        rw [hcontended] at hturn
        cases howner : ownerOf js t.device (identityAddress s.cfg i) with
        | none => exact hsame (.inr (.inl rfl)) nofun (hturn.trans (probe_free howner))
        | some d => exact h.turn_owned hl hmax hclaims hsettling hp hphase howner hturn

end

end Sys2Proof.Machine
end

section
/-! Proof of P4 (spec/43_handshake.md sections 3 and 4, R233, R234), continued: the run of the lobby, what its invariant says
once every device holds an identity, and the schedule that breaks the premise. -/

namespace Sys2Proof.Machine

/-! ### The run -/

/-- Devices that have just entered `handshake()` meet the invariant: none has passed a candidate or holds one. -/
theorem LobbyCount.of_fresh {c : Config} {js : List State} (hlength : js.length = c.joiners)
    (h : ∀ s ∈ js, s.Fresh c) : LobbyCount c js := by
  refine ⟨LobbyInv.of_fresh h, hlength, fun q s hq => ?_, fun q s i hq hi => ?_, fun q s i hq hi hpass => ?_⟩
  · obtain ⟨-, hevent, hphase, hcounter, hwritten, -⟩ := h s (List.mem_of_getElem? hq)
    exact ⟨(LobbyInv.of_fresh h).member hq, hevent, hwritten, by rw [hphase]; exact hcounter⟩
  · obtain ⟨-, -, -, -, -, hheld⟩ := h s (List.mem_of_getElem? hq)
    cases hheld.symm.trans hi
  · obtain ⟨-, -, hphase, -⟩ := h s (List.mem_of_getElem? hq)
    rw [State.passes, hphase] at hpass
    exact absurd (of_decide_eq_true hpass) (Nat.not_le.mpr hi)

/-- The run of a schedule under the two premises goes on to its end and keeps the invariant. -/
theorem LobbyCount.run {c : Config} {js : List State} {turns : List Turn} (h : LobbyCount c js) (hl : c.Legal)
    (hmax : c.joiners ≤ c.maxIndex + 1) (hclaims : runApart State.claimsNext turns js)
    (hsettling : runApart State.settling turns js) : ∃ js', lobbyRun turns js = .next js' ∧ LobbyCount c js' := by
  induction turns generalizing js with
  | nil => exact ⟨js, rfl, h⟩
  | cons t rest ih =>
    obtain ⟨hclaim, hclaims⟩ := hclaims
    obtain ⟨hsettle, hsettling⟩ := hsettling
    obtain ⟨js', hturn, h'⟩ := h.turn hl hmax hclaim hsettle
    rw [lobbyRun_cons hturn]
    exact ih h' (hclaims js' hturn) (hsettling js' hturn)

/-! ### What the invariant says -/

/-- Of the numbers below `k`, those below `i` are `i` many. -/
theorem countP_lt_range {i k : Nat} (h : i ≤ k) : (List.range k).countP (decide <| · < i) = i := by
  induction k, h using Nat.le_induction with
  | base =>
    rw [List.countP_eq_length.mpr fun j hj => decide_eq_true (List.mem_range.mp hj), List.length_range]
  | succ k hk ih =>
    rw [List.range_succ, List.countP_append, ih]
    simp [hk]

section
variable {c : Config} {js : List State} (h : LobbyCount c js)
include h

theorem LobbyCount.distinct {p q i : Nat} {s u : State} (hpq : p ≠ q) (hp : js[p]? = some s) (hq : js[q]? = some u)
    (hs : s.held = some i) : u.held ≠ some i := fun hu =>
  hpq (h.holder_unique hp hq hs (stake_of_held (h.joins q u hq).member hu))

theorem LobbyCount.joins_of_mem {s : State} (hs : s ∈ js) : s.Joins c := by
  obtain ⟨p, hp⟩ := List.mem_iff_getElem?.mp hs
  exact h.joins p s hp

/-- Once every device holds an identity, the identities are `0 .. K-1`, each held once (R234). -/
theorem LobbyCount.held_perm (hall : ∀ s ∈ js, s.held.isSome = true) :
    (js.map State.held).Perm ((List.range c.joiners).map some) := by
  have hnodup : (js.map State.held).Nodup := by
    rw [List.nodup_iff_getElem?_ne_getElem?]
    intro p q hpq hq he
    rw [List.length_map] at hq
    have hp : js[p]? = some js[p] := List.getElem?_eq_getElem (hpq.trans hq)
    have hq : js[q]? = some js[q] := List.getElem?_eq_getElem hq
    rw [List.getElem?_map, List.getElem?_map, hp, hq, Option.map_some, Option.map_some, Option.some.injEq] at he
    obtain ⟨i, hi⟩ := Option.isSome_iff_exists.mp (hall _ (List.mem_of_getElem? hp))
    exact h.distinct hpq.ne hp hq hi (he ▸ hi)
  have hsub : js.map State.held ⊆ (List.range c.joiners).map some := by
    intro x hx
    obtain ⟨s, hs, rfl⟩ := List.mem_map.mp hx
    obtain ⟨i, hi⟩ := Option.isSome_iff_exists.mp (hall s hs)
    have hcfg : s.cfg = c := (h.joins_of_mem hs).member.1
    exact List.mem_map.mpr ⟨i, List.mem_range.mpr (hcfg ▸ held_lt hi), hi.symm⟩
  refine (List.subperm_of_subset hnodup hsub).perm_of_length_le ?_
  rw [List.length_map, List.length_map, List.length_range, h.length]

/-- Then the holder of `i` has been counted by the holders of the identities below, `i` times (R227, R229). -/
theorem LobbyCount.counter_eq (hall : ∀ s ∈ js, s.held.isSome = true) {s : State} {i : Nat} (hs : s ∈ js)
    (hi : s.held = some i) : s.control.hsCounter = i := by
  obtain ⟨p, hp⟩ := List.mem_iff_getElem?.mp hs
  have hcfg : s.cfg = c := (h.joins p s hp).member.1
  have hpasses (u : State) (hu : u ∈ js) : State.passes i u = true ↔ (Option.any (· < i) ∘ State.held) u = true := by
    obtain ⟨j, hj⟩ := Option.isSome_iff_exists.mp (hall u hu)
    rw [passes_of_held (h.joins_of_mem hu).member hj, Function.comp_apply, hj, Option.any_some]
  calc s.control.hsCounter = js.countP (State.passes i) := h.counted p s i hp hi
    _ = (js.map State.held).countP (Option.any (· < i)) := by rw [List.countP_congr hpasses, List.countP_map]
    _ = ((List.range c.joiners).map some).countP (Option.any (· < i)) := (h.held_perm hall).countP_eq _
    _ = i := by
      rw [List.countP_map]
      exact countP_lt_range (hcfg ▸ held_lt hi).le

end

/-! ### Without the premise -/

/-- The prober that has found candidate `i` free, three micro-steps later: it has the candidate's address (R225, H4). -/
def State.claimed (s : State) (i : Nat) : State :=
  ((s.setLastError (.code (s.cfg.code .crAddrNack))).setOwnAddress (identityAddress s.cfg i)).goto (.handshake i .h4Call)

/-- After a probe that has found no owner the device claims the candidate in three turns (R225). -/
theorem lobbyRun_claims {js : List State} {p i : Nat} {s : State} {rest : List Turn}
    (hp : js[p]? = some (s.probeEnds i (.code (s.cfg.code .crAddrNack)))) :
    lobbyRun (⟨p, false⟩ :: ⟨p, false⟩ :: ⟨p, false⟩ :: rest) js = lobbyRun rest (js.set p (s.claimed i)) := by
  have hlt : p < js.length := (List.getElem?_eq_some_iff.mp hp).1
  set v := s.setLastError (.code (s.cfg.code .crAddrNack)) with hv
  have h2 : hostStep (s.probeEnds i (.code (s.cfg.code .crAddrNack))) =
      .next (v.goto (.handshake i (.h3 (.code (s.cfg.code .crAddrNack))))) := by
    simp only [hostStep, State.probeEnds, State.goto_run_phase, handshakeStep]
    obtain ⟨huse, hread⟩ := readLastError_of_written (s := s.probeEnds i (.code (s.cfg.code .crAddrNack))) rfl
    rw [State.probeEnds] at huse hread
    rw [huse, hread]
    rfl
  have h3 : hostStep (v.goto (.handshake i (.h3 (.code (s.cfg.code .crAddrNack))))) =
      .next (v.goto (.handshake i .h4Own)) := if_pos rfl
  have h4 : hostStep (v.goto (.handshake i .h4Own)) = .next (s.claimed i) := rfl
  rw [lobbyRun_cons (lobbyTurn_host hp rfl h2 false),
    lobbyRun_cons (lobbyTurn_host (List.getElem?_set_self hlt) rfl h3 false), List.set_set,
    lobbyRun_cons (lobbyTurn_host (List.getElem?_set_self hlt) rfl h4 false), List.set_set]

/-- Two devices whose probes both come before either claims hold one identity (R233, R309): both probe candidate `K - 1`
first, each finds it free, and each claims it. -/
theorem overlapping_probes_claim_alike {c : Config} {js : List State} {s u : State} (hl : c.Legal) (hs : js[0]? = some s)
    (hu : js[1]? = some u) (hfresh : ∀ s ∈ js, s.Fresh c) :
    ∃ turns js', lobbyRun turns js = .next js' ∧
      ∃ s u i, js'[0]? = some s ∧ js'[1]? = some u ∧ s.held = some i ∧ u.held = some i := by
  obtain ⟨i, hi⟩ : ∃ i, c.joiners = i + 1 := ⟨c.joiners - 1, by have := hl.2.1.1; omega⟩
  have hnobody (q : Nat) (w : State) (hw : js[q]? = some w) : w.control.ownAddress ≠ some (identityAddress c i) := by
    obtain ⟨hcfg, -, -, -, -, hheld⟩ := hfresh w (List.mem_of_getElem? hw)
    intro ha
    rw [(held_eq_iff (hcfg ▸ hl) (by rw [hcfg]; omega)).mpr (hcfg ▸ ha)] at hheld
    cases hheld
  obtain ⟨hscfg, -, hsphase, -⟩ := hfresh s (List.mem_of_getElem? hs)
  obtain ⟨hucfg, -, huphase, -⟩ := hfresh u (List.mem_of_getElem? hu)
  rw [hi] at hsphase huphase
  have hlt0 : 0 < js.length := (List.getElem?_eq_some_iff.mp hs).1
  have hlt1 : 1 < js.length := (List.getElem?_eq_some_iff.mp hu).1
  set s' := s.probeEnds i (.code (s.cfg.code .crAddrNack)) with hs'
  set u' := u.probeEnds i (.code (u.cfg.code .crAddrNack)) with hu'
  have hfirst : lobbyTurn js ⟨0, false⟩ = .next (js.set 0 s') :=
    (lobbyTurn_probe hs hsphase false).trans
      (probe_free (ownerOf_none fun q w _ hw => by rw [hscfg]; exact hnobody q w hw))
  have hsecond : lobbyTurn (js.set 0 s') ⟨1, false⟩ = .next ((js.set 0 s').set 1 u') := by
    refine (lobbyTurn_probe (by rw [List.getElem?_set_ne (by decide)]; exact hu) huphase false).trans
      (probe_free (ownerOf_none fun q w _ hw => ?_))
    rw [hucfg]
    obtain ⟨-, rfl⟩ | ⟨-, hw⟩ := getElem?_set_cases hw
    · exact hnobody 0 s hs
    · exact hnobody q w hw
  have hs0 : ((js.set 0 s').set 1 u')[0]? = some s' := by
    rw [List.getElem?_set_ne (by decide), List.getElem?_set_self hlt0]
  have hu1 : (((js.set 0 s').set 1 u').set 0 (s.claimed i))[1]? = some u' := by
    rw [List.getElem?_set_ne (by decide), List.getElem?_set_self (by rw [List.length_set]; exact hlt1)]
  refine ⟨[⟨0, false⟩, ⟨1, false⟩, ⟨0, false⟩, ⟨0, false⟩, ⟨0, false⟩, ⟨1, false⟩, ⟨1, false⟩, ⟨1, false⟩],
    (((js.set 0 s').set 1 u').set 0 (s.claimed i)).set 1 (u.claimed i), ?_, s.claimed i, u.claimed i, i, ?_, ?_,
    held_claim (s := s.setLastError _) (hscfg ▸ hl) (show i < s.cfg.joiners by rw [hscfg]; omega) _,
    held_claim (s := u.setLastError _) (hucfg ▸ hl) (show i < u.cfg.joiners by rw [hucfg]; omega) _⟩
  · rw [lobbyRun_cons hfirst, lobbyRun_cons hsecond, lobbyRun_claims hs0, lobbyRun_claims hu1]
    rfl
  · rw [List.getElem?_set_ne (by decide), List.getElem?_set_self (by simp only [List.length_set]; exact hlt0)]
  · exact List.getElem?_set_self (by simp only [List.length_set]; exact hlt1)

/-- Settles O57: under the premises by the invariant of the lobby, without them by two overlapping probes. -/
theorem handshakeAssignsEveryIdentityOnce : Obligations.HandshakeAssignsEveryIdentityOnce := by
  refine ⟨fun c js turns hl hlength hmax hfresh hclaims hsettling => ?_, fun c js hl hlength hfresh => ?_⟩
  · obtain ⟨js', hrun, h⟩ := (LobbyCount.of_fresh hlength hfresh).run hl hmax hclaims hsettling
    refine ⟨js', hrun, h.length.trans hlength.symm, fun p q i s u hpq hp hq hs => h.distinct hpq hp hq hs,
      fun s hs => ⟨fun i hi => ?_, fun hidle => ?_⟩, fun hall => ⟨fun i hi => ?_, fun s hs i hphase => ?_⟩⟩
    · have hcfg : s.cfg = c := (h.joins_of_mem hs).member.1
      exact hcfg ▸ held_lt hi
    · have hplace := (h.joins_of_mem hs).place
      rw [hidle] at hplace
      exact hplace.2
    · have hmem : some i ∈ js'.map State.held :=
        (h.held_perm hall).mem_iff.mpr (List.mem_map.mpr ⟨i, List.mem_range.mpr hi, rfl⟩)
      exact List.mem_map.mp hmem
    · have hheld := (h.joins_of_mem hs).member.2
      rw [hphase] at hheld
      have hcounter := h.counter_eq hall hs hheld
      rw [reached_iff, hcounter]
      cases c.reachTest with
      | ge => exact .inl ⟨rfl, le_rfl⟩
      | eq => exact .inr ⟨rfl, rfl⟩
  · exact overlapping_probes_claim_alike hl (List.getElem?_eq_getElem (show 0 < js.length by omega))
      (List.getElem?_eq_getElem hlength) hfresh

end Sys2Proof.Machine
end
